-- ==== Sys2Proof/Word.lean ====
section
/-! DEFINITION. The plain types every other file names: bytes, register words, binary32 bit patterns, sparse
arrays, and the names of the bundles and planes (spec/10_state.md R70, R82; spec/00_scope.md R22, R29). -/

namespace Sys2Proof

/-- One byte of an address space (R150). -/
abbrev Byte := BitVec 8

/-- One 32-bit host register (R60). -/
abbrev Word := BitVec 32

/-- The bit pattern of one IEEE 754 binary32 value (R29). -/
abbrev F32 := BitVec 32

/-- A sparse array: its written elements as (index, value) pairs with strictly rising indices.
An index that is not listed holds no value: the `⊥` of R52. -/
abbrev Cells (α : Type) := List (Nat × α)

/-- The nine bundles, in the order that numbers them 0 to 8 (R70). -/
inductive BundleId where
  | blockTypes | subBlockTypes | colors | pattern | xOff | yOff | intraDc | interDc | run
deriving DecidableEq, Repr

/-- The planes 0 = Y, 1 = U, 2 = V, 3 = A (R82). -/
inductive PlaneId where
  | y | u | v | a
deriving DecidableEq, Repr

/-- The trees a plane reads: a bundle's own, or one of the sixteen COLORS high-nibble trees (R73). -/
inductive TreeRef where
  | bundle (b : BundleId)
  | colHigh (i : BitVec 4)
deriving DecidableEq, Repr

/-- The two transform kinds of an audio track (R95). -/
inductive TransformKind where
  | rdft | dct
deriving DecidableEq, Repr

/-- The store law for results outside 0..255 (P20, R403). -/
inductive PixelStore where
  | wrap | clamp
deriving DecidableEq, Repr

/-- Where a SCALED INTRA sub-block's quantiser index comes from (P19, R491). -/
inductive QSource where
  | stream
  | external (q : BitVec 4)
deriving DecidableEq, Repr

end Sys2Proof
end

