-- ==== Sys2Proof/Config.lean ====
section
/-! DEFINITION. The configuration of spec/00_scope.md R10. `Params` is the configuration argument of the model: every
parameter of R10 whose value is data. The opaque constants are the OPEN values, which no source gives: nothing can be proved
about them, so every theorem holds for all of them (guide: free values). Machine/Params.lean gives the parameters the values
of R10 and the checks of R11. -/

namespace Sys2Proof

/-- The content of a plane's buffers after OPEN (P33, D27): no value, or one byte throughout. -/
inductive PlaneReset where
  | poison
  | fill (v : Byte)
deriving DecidableEq, Repr

/-- P9 and P10 for one bundle (R351, R352). The length field has `floor_log2(X + lenAdd) + 1` bits, where X is
`floor(lenMul * w / lenDiv)` and w is the block-grid width if `lenOfGrid`, else W8; the capacity is `capMul * BW0 * BH0`. -/
structure BundleParams where
  lenOfGrid : Bool
  lenMul : Nat
  lenDiv : Nat
  lenAdd : Nat
  capMul : Nat
deriving DecidableEq, Repr

/-- The parameters of R10 that are data. A parameter that depends on the version is a list indexed by the version byte. -/
structure Params where
  /-- P1: `NUM_SHAPES` -/
  numShapes : Nat
  /-- P2, P3: `(VLC_LEN[s][l], VLC_CODE[s][l])`, by shape, then by leaf -/
  vlc : List (List (Nat × Nat))
  /-- P5: `RUN_PATTERN[k][i]`, by k, then by i -/
  runPatterns : List (List Nat)
  /-- P6: `QUANT_INTRA[q][i]`, by q, then by scan index -/
  quantIntra : List (List Nat)
  /-- P6: `QUANT_INTER[q][i]`, by q, then by scan index -/
  quantInter : List (List Nat)
  /-- P7: `SCAN[i]` -/
  scan : List Nat
  /-- P8: `COEF_LIST_CAPACITY` -/
  coefListCapacity : Nat
  /-- P9, P10: by bundle number -/
  bundles : List BundleParams
  /-- P11: `ACCEPTED_SIGNATURES` -/
  acceptedSignatures : List Word
  /-- P11: `UNSUPPORTED_SIGNATURES` -/
  unsupportedSignatures : List Word
  /-- P12: `COLOR_FOLD(ver)`, by version -/
  colorFold : List Bool
  /-- P13: `SWAP_CHROMA(ver)`, by version -/
  swapChroma : List Bool
  /-- P14: `PLANE_PREFIX_SKIP(ver)`, by version -/
  planePrefixSkip : List Nat
  /-- P15: `EARLY_PLANE_EXIT` -/
  earlyPlaneExit : Bool
  /-- P16: `LIST_COUNT_BIAS` -/
  listCountBias : Nat
  /-- P17: `RUN_SIGNED` -/
  runSigned : Bool
  /-- P18: `PATTERN_ESCAPE` -/
  patternEscape : Bool
  /-- P19: `SCALED_INTRA_Q_SOURCE` -/
  scaledIntraQSource : QSource
  /-- P20: `PIXEL_STORE` -/
  pixelStore : PixelStore
  /-- P21: `IDCT_MUL_SHIFT` -/
  idctMulShift : Nat
  /-- P22: `IDCT_ROW_BIAS` -/
  idctRowBias : Nat
  /-- P23: `IDCT_ROW_SHIFT` -/
  idctRowShift : Nat
  /-- P26: `DCT_C0_FACTOR` -/
  dctC0Factor : F32
  /-- P27: `DCT_POST_SCALE(frame_len)`, by frame length -/
  dctPostScale : List (Nat × Nat)
  /-- P28: `AUDIO_DCT_PREFIX_BITS` -/
  audioDctPrefixBits : Nat
  /-- P30: `MAX_DIM` -/
  maxDim : Nat
  /-- P31: `MAX_AUDIO_TRACKS` -/
  maxAudioTracks : Nat
  /-- P32: `MAX_FRAME_COUNT` -/
  maxFrameCount : Nat
  /-- P33: `PLANE_RESET_POLICY` -/
  planeReset : PlaneReset
  /-- P34: `CRITICAL_FREQS` -/
  criticalFreqs : List Nat
  /-- P35: `AUDIO_RLE_LEN`, in units of 8 coefficients -/
  audioRleLen : List Nat
  /-- P36: `BLOCK_RLE_LEN` -/
  blockRleLen : List Nat
  /-- P37: `AUDIO_Q_CONST`, in units of 10^-20 -/
  audioQConst : Nat
deriving DecidableEq, Repr

/-- The tables of R10 that no source gives (OPEN). -/
structure OpenTables where
  /-- P2: the codes of the shapes 1 to 15, in order (D6) -/
  vlcShapes : List (List (Nat × Nat))
  /-- P5: the sixteen scan patterns (D31) -/
  runPatterns : List (List Nat)
  /-- P6: the sixteen intra matrices (D34) -/
  quantIntra : List (List Nat)
  /-- P6: the sixteen inter matrices (D34) -/
  quantInter : List (List Nat)
  /-- P7: `SCAN` (D34) -/
  scan : List Nat
deriving DecidableEq, Repr

namespace Config

/-! ## The OPEN numbers and functions. The OPEN tables stand in Machine/Params.lean, beside the checks they pass -/

/-- P23: `IDCT_ROW_SHIFT` (OPEN, D36). Assumption 3. -/
opaque idctRowShift : Nat

/-- P24: `AUDIO_ROOT(kind, frame_len)` in binary32 (OPEN, D53). Assumption 3. -/
opaque audioRoot : (kind : TransformKind) → (n : Nat) → F32

/-- P25: element `i` of `INV_RDFT(n, c)` (OPEN, D53, R585). Assumption 3. -/
opaque invRdft : (n : Nat) → (c : List F32) → (i : Nat) → F32

/-- P25: element `i` of `DCT_III(n, c)` (OPEN, D53, R586). Assumption 3. -/
opaque dctIII : (n : Nat) → (c : List F32) → (i : Nat) → F32

/-- P29: `AUDIO_FRAME_BUF_BYTES` of track `t`, given what a track record fixes: its rate, its channels and its transform.
No other flag bit counts (R202, R271). OPEN, D59. Assumption 3. -/
opaque audioFrameBufBytes : (t : Nat) → (rate : BitVec 16) → (ch : Nat) → (kind : TransformKind) → Nat

/-- P29: `IDEAL_BUFFER_BYTES` of track `t`, of the same (OPEN, D59). Assumption 3. -/
opaque idealBufferBytes : (t : Nat) → (rate : BitVec 16) → (ch : Nat) → (kind : TransformKind) → Word

/-- The sign and payload of the quiet NaN an invalid binary32 operation gives: R29 names the format and the rounding,
not these bits. A free value (assumption 4). -/
opaque nanBits : F32

end Config
end Sys2Proof
end

