-- ==== Sys2Proof/Machine/Params.lean ====
section
/-! DEFINITION. The values spec/00_scope.md R10 gives the parameters, how each parameter is looked up, and the checks of R11
and R12 that a configuration must pass to be an instantiation of the model (assumptions 3 and 15). -/

namespace Sys2Proof
namespace Machine

/-! ## The values of R10 -/

/-- The sixteen leaf indices. -/
def leaves : List (BitVec 4) := (List.range 16).map (BitVec.ofNat 4)

/-- P3: shape 0, the 4-bit identity code (R312, D7). -/
def identityCode : List (Nat × Nat) := (List.range 16).map fun l => (4, l)

/-- A bundle whose length field is `f(mul * W8 / div)` (R351). -/
def lenOfWidth (mul div capMul : Nat) : BundleParams :=
  { lenOfGrid := false, lenMul := mul, lenDiv := div, lenAdd := 511, capMul := capMul }

/-- A bundle whose length field is `f(mul * bw)` (R351). -/
def lenOfBlocks (mul capMul : Nat) : BundleParams :=
  { lenOfGrid := true, lenMul := mul, lenDiv := 1, lenAdd := 511, capMul := capMul }

end Machine

open Machine in
/-- The value R10 gives each parameter that the source fixes or 92_eei_decisions.md decides, with the given OPEN tables, and
P23 at the opaque constant of Config. P4, the longest code length, is derived (`Params.vlcMaxLen`). -/
def OpenTables.toParams (t : OpenTables) : Params :=
  { numShapes := 16
    vlc := identityCode :: t.vlcShapes
    runPatterns := t.runPatterns
    quantIntra := t.quantIntra
    quantInter := t.quantInter
    scan := t.scan
    coefListCapacity := 128
    bundles :=
      [lenOfWidth 1 1 64, lenOfWidth 8 16 64, lenOfBlocks 64 64, lenOfBlocks 8 64, lenOfWidth 1 1 64, lenOfWidth 1 1 64,
        lenOfWidth 1 1 32, lenOfWidth 1 1 32, lenOfBlocks 48 64]
    -- "BIKf", "BIKg", "BIKh", "BIKi"; "BIKb" (R200, D45)
    acceptedSignatures := [0x664B4942, 0x674B4942, 0x684B4942, 0x694B4942]
    unsupportedSignatures := [0x624B4942]
    -- ver < 'i'; ver >= 'h'; 32 if ver >= 'i' (R367, R430)
    colorFold := List.replicate 0x69 true ++ List.replicate 0x97 false
    swapChroma := List.replicate 0x68 false ++ List.replicate 0x98 true
    planePrefixSkip := List.replicate 0x69 0 ++ List.replicate 0x97 32
    earlyPlaneExit := true
    listCountBias := 0
    runSigned := true
    patternEscape := true
    scaledIntraQSource := .stream
    pixelStore := .wrap
    idctMulShift := 11
    idctRowBias := 2048
    idctRowShift := Config.idctRowShift
    -- 0.5
    dctC0Factor := 0x3F000000
    dctPostScale := [(512, 512), (1024, 1024), (2048, 2048)]
    audioDctPrefixBits := 2
    maxDim := 32767
    maxAudioTracks := 255
    maxFrameCount := 1000000
    planeReset := .poison
    criticalFreqs :=
      [100, 200, 300, 400, 510, 630, 770, 920, 1080, 1270, 1480, 1720, 2000, 2320, 2700, 3150, 3700, 4400, 5300, 6400,
        7700, 9500, 12000, 15500, 24500]
    audioRleLen := [2, 3, 4, 5, 6, 8, 9, 10, 11, 12, 13, 14, 15, 16, 32, 64]
    blockRleLen := [4, 8, 12, 32]
    -- 0.15289164787221953823
    audioQConst := 15289164787221953823 }

namespace Machine

/-! ## The checks of R11 and R12 -/

/-- Every index of `0..63` stands in a list of 64 entries: a permutation of 0..63 (R11 (b), (c)). -/
def isPerm64 (l : List Nat) : Bool := l.length == 64 && (List.range 64).all (l.contains ·)

/-- The code `(len, code)` is a prefix of `(len', code')`, in the order the bits are read: the first bit read is
bit 0 of the code value (R310). -/
def isCodePrefix (c c' : Nat × Nat) : Bool := c.1 ≤ c'.1 && c'.2 % 2 ^ c.1 == c.2

/-- The longest of some codes. -/
def longestCode (t : List (Nat × Nat)) : Nat := (t.map Prod.fst).foldl max 0

/-- R11 (a) and R12: the sixteen pairs form a complete prefix code. -/
def isCompletePrefixCode (t : List (Nat × Nat)) : Bool :=
  t.length == 16 && t.all (fun c => 1 ≤ c.1 && c.2 < 2 ^ c.1)
    && (List.range 16).all (fun i => (List.range 16).all fun j =>
      i == j || !isCodePrefix (t.getD i (0, 0)) (t.getD j (0, 0)))
    && (t.map fun c => 2 ^ (longestCode t - c.1)).sum == 2 ^ longestCode t

/-- R11 (d): sixteen matrices of 64 entries in 0..2^31-1. -/
def isQuantiser (t : List (List Nat)) : Bool := t.length == 16 && t.all fun m => m.length == 64 && m.all (· < 2 ^ 31)

end Machine

/-- The tables pass the checks of R11 and R12, and there is one shape for each value of the 4-bit shape index (P1). -/
def Params.wellFormed (p : Params) : Bool :=
  p.numShapes == 16 && p.vlc.length == p.numShapes && p.vlc.all Machine.isCompletePrefixCode
    && p.runPatterns.length == 16 && p.runPatterns.all Machine.isPerm64
    && Machine.isPerm64 p.scan && p.scan.head? == some 0
    && Machine.isQuantiser p.quantIntra && Machine.isQuantiser p.quantInter

/-! ## Instantiation (R11) -/

/-- An instantiation of the model: a configuration that passes R11 and R12. One that fails a check is none (`instantiate`). -/
structure Instantiation where
  params : Params
  accepted : params.wellFormed = true
deriving DecidableEq, Repr

/-- OPEN tables that pass R11 and R12 beside the values R10 gives. The defaults show that there are some. -/
structure AcceptedTables where
  tables : OpenTables :=
    { vlcShapes := List.replicate 15 Machine.identityCode
      runPatterns := List.replicate 16 (List.range 64)
      quantIntra := List.replicate 16 (List.replicate 64 0)
      quantInter := List.replicate 16 (List.replicate 64 0)
      scan := List.range 64 }
  accepted : tables.toParams.wellFormed = true := by decide +kernel
deriving DecidableEq, Repr, Inhabited

/-- The OPEN tables of R10 (P2, P5, P6, P7): which ones they are, nothing tells; they pass R11 and R12. Assumption 3. -/
opaque Config.openTables : AcceptedTables

/-- R10's configuration. -/
def sourceParams : Params := Config.openTables.tables.toParams

/-- The instantiation the model starts with: R10's values, with OPEN tables that pass R11 and R12. -/
def Instantiation.source : Instantiation := { params := sourceParams, accepted := Config.openTables.accepted }

/-! ## Looking a parameter up -/

/-- The codes of shape `s`, by leaf (P2, P3). -/
def Params.codes (p : Params) (s : BitVec 4) : List (Nat × Nat) := p.vlc.getD s.toNat []

/-- `VLC_MAX_LEN` (P4). -/
def Params.vlcMaxLen (p : Params) : Nat := Machine.longestCode p.vlc.flatten

/-- `RUN_PATTERN[k]` (P5). -/
def Params.runPattern (p : Params) (k : BitVec 4) : List Nat := p.runPatterns.getD k.toNat []

/-- `QUANT_INTRA[q][i]` (P6). -/
def Params.quantIntraAt (p : Params) (q : BitVec 4) (i : Nat) : Nat := (p.quantIntra.getD q.toNat []).getD i 0

/-- `QUANT_INTER[q][i]` (P6). -/
def Params.quantInterAt (p : Params) (q : BitVec 4) (i : Nat) : Nat := (p.quantInter.getD q.toNat []).getD i 0

/-- `SCAN[i]` (P7). -/
def Params.scanAt (p : Params) (i : Nat) : Nat := p.scan.getD i 0

/-- The number of a bundle (R70). -/
def BundleId.index : BundleId → Nat
  | .blockTypes => 0 | .subBlockTypes => 1 | .colors => 2 | .pattern => 3 | .xOff => 4 | .yOff => 5 | .intraDc => 6
  | .interDc => 7 | .run => 8

/-- The entry of bundle `b` (P9, P10). -/
def Params.bundle (p : Params) (b : BundleId) : BundleParams := p.bundles.getD b.index (Machine.lenOfWidth 1 1 0)

/-- `COLOR_FOLD(ver)` (P12). -/
def Params.foldsColor (p : Params) (ver : Byte) : Bool := p.colorFold.getD ver.toNat false

/-- `SWAP_CHROMA(ver)` (P13). -/
def Params.swapsChroma (p : Params) (ver : Byte) : Bool := p.swapChroma.getD ver.toNat false

/-- `PLANE_PREFIX_SKIP(ver)` (P14). -/
def Params.prefixSkip (p : Params) (ver : Byte) : Nat := p.planePrefixSkip.getD ver.toNat 0

/-- `DCT_POST_SCALE(n)` (P27); a frame length the list does not name, which R571 has none of, is its own scale. -/
def Params.postScale (p : Params) (n : Nat) : Nat := ((p.dctPostScale.find? fun e => e.1 == n).map Prod.snd).getD n

/-- `AUDIO_RLE_LEN[i]` (P35). -/
def Params.audioRle (p : Params) (i : Nat) : Nat := p.audioRleLen.getD i 0

/-- `BLOCK_RLE_LEN[i]` (P36). -/
def Params.blockRle (p : Params) (i : Nat) : Nat := p.blockRleLen.getD i 0

end Sys2Proof
end

