-- ==== Sys2Proof/Machine/State.lean ====
section
/-! DEFINITION. The state of the core (spec/10_state.md), as plain data, and its reset value (spec/70_reset_and_hazards.md
R730). INVENTORY.md, under State, names the rule behind every field. A `⊥` element of an array is an index its `Cells`
list does not hold (R52). -/

namespace Sys2Proof.Machine

/-! ## Host register block (R60 to R62) -/

/-- The stored part of the REG block. CMD reads 0 and stores nothing; the session mirrors (FRAME_COUNT .. VERSION), and
STATUS.HAS_ALPHA and STATUS.EOS, are computed from the session (Flags.lean). -/
structure Regs where
  arg0 : Word
  arg1 : Word
  /-- STATUS.OPEN -/
  isOpen : Bool
  /-- STATUS.ERR -/
  err : Bool
  /-- STATUS.AUDIO_TRUNC -/
  audioTrunc : Bool
  /-- STATUS.FRAME_VALID -/
  frameValid : Bool
  /-- CAUSE.CODE -/
  cause : Byte
  res0 : Word
  res1 : Word
  res2 : Word
  bitpos : Word
  /-- FRAME_KEY.KEY -/
  frameKey : Bool
deriving DecidableEq, Repr

/-! ## Bit reader (R65) -/

/-- The bit reader of the packet in hand, its fields u32 (R65). `br.cache` and `br.cached` are left out (R67). -/
structure BitReader where
  base : Word
  sizeBits : Word
  pos : Word
deriving DecidableEq, Repr

/-! ## Trees and bundles (R70 to R73) -/

structure Tree where
  shape : BitVec 4
  syms : Cells (BitVec 4)
deriving DecidableEq, Repr

structure Bundle where
  len : Nat
  tree : Tree
  buf : Cells Int
  wr : Nat
  rd : Nat
  cap : Nat
  done : Bool
deriving DecidableEq, Repr

/-- The nine bundles (R70). -/
structure Bundles where
  blockTypes : Bundle
  subBlockTypes : Bundle
  colors : Bundle
  pattern : Bundle
  xOff : Bundle
  yOff : Bundle
  intraDc : Bundle
  interDc : Bundle
  run : Bundle
deriving DecidableEq, Repr

/-! ## Session (R80, R81) -/

structure Frame where
  byteOffset : Nat
  byteSize : Nat
  isKeyframe : Bool
deriving DecidableEq, Repr

structure Session where
  signature : Word
  version : Byte
  fileSize : Word
  frameCount : Word
  largestFrame : Word
  width : Word
  height : Word
  fpsNum : Word
  fpsDen : Word
  videoFlags : Word
  hasAlpha : Bool
  gray : Bool
  trackCount : Word
  frames : List Frame
  curFrame : Word
deriving DecidableEq, Repr

/-! ## Planes (R82, R83) -/

structure Plane where
  w : Nat
  h : Nat
  bw : Nat
  bh : Nat
  pitch : Nat
  rows : Nat
  cur : Cells Byte
  last : Cells Byte
deriving DecidableEq, Repr

/-- The planes of the session: none while no session is open, and A only with `has_alpha` (R82). -/
structure Planes where
  y : Option Plane
  u : Option Plane
  v : Option Plane
  a : Option Plane
deriving DecidableEq, Repr

/-! ## Scratch (R90, R91) -/

/-- The coefficient unit's scratch (R90). `budget` is ResidualDecode's local count (R500). -/
structure CoefScratch where
  coefList : Cells Nat
  modeList : Cells Nat
  listStart : Nat
  listEnd : Nat
  blk : Cells Word
  coefIdx : Cells Nat
  coefCount : Nat
  res : Cells Int
  nz : Cells Nat
  nzCount : Nat
  budget : Int
deriving DecidableEq, Repr

/-- The inverse-DCT scratch and the scaled-block buffer (R91). -/
structure DctScratch where
  tmp : Cells Word
  ublk : Cells Byte
deriving DecidableEq, Repr

/-! ## Audio tracks (R95, R96) -/

structure Track where
  rate : BitVec 16
  flags : BitVec 16
  ch : Nat
  kind : TransformKind
  n : Nat
  ov : Nat
  nb : Nat
  band : List Nat
  qtab : List F32
  coef : List (Cells F32)
  prev : Cells (BitVec 16)
  first : Bool
  out : Cells Byte
  outLen : Nat
  trunc : Bool
deriving DecidableEq, Repr

/-! ## The host's pending moves -/

/-- What the host may do between commands (R8, R154 to R156): a REG access, placing a container byte, or reading one
byte of a PLANE_OUT window. -/
inductive HostMove where
  | regWrite (offset : Nat) (value : Word)
  | regRead (offset : Nat)
  | containerWrite (addr : Nat) (value : Byte)
  | planeRead (p : PlaneId) (offset : Nat)
deriving DecidableEq, Repr

/-! ## The sequencer -/

/-- The place in the pseudocode of DECODE_NEXT_FRAME at which the core stands between two steps (R56, R637, R595, R576,
R430, R402); `idle` is the place between commands. -/
inductive Phase where
  /-- Between commands: the next step answers a host move (R166). -/
  | idle
  /-- The head of the loop over audio tracks (R637). -/
  | audioTrack
  /-- The head of a track's block loop (R595). -/
  | audioLoop
  /-- The two floats and the quantiser indices of a channel (R576). -/
  | audioHead
  /-- The head of a channel's coefficient run loop (R581). -/
  | audioCoef
  /-- The transform of a channel (R585, R586). -/
  | audioXform
  /-- PCM conversion, overlap-add and output of a block (R590 to R592). -/
  | audioEmit
  /-- The opening of the video packet (R430). -/
  | videoStart
  /-- The head of the loop over planes (R430). -/
  | planeNext
  /-- PlaneStart's tree reads and cursor resets (R353). -/
  | trees
  /-- The head of the loop over block rows (R402). -/
  | rowStart
  /-- RowRefill, one bundle at a time (R356). -/
  | refill
  /-- The head of the block-type symbol loop (R360). -/
  | btSym
  /-- The head of the loop over the blocks of a row (R402). -/
  | block
  /-- The sub-type fetch of a SCALED block (R420). -/
  | subBlock
  /-- The alignment and the exit test after a plane (R402, R430). -/
  | planeEnd
  /-- The swap and the result of DECODE_NEXT_FRAME (R432, R460, R637). -/
  | videoEnd
deriving DecidableEq, Repr

/-- One item of PlaneStart (R353). -/
inductive AgendaItem where
  | tree (r : TreeRef)
  | clearColLast
  | seed (b : BundleId)
deriving DecidableEq, Repr

/-- The place of one track's packet within the frame (R638). -/
structure Packet where
  a : Nat
  sz : Nat
deriving DecidableEq, Repr

/-- The sequencer: the phase and the locals of the pseudocode it stands in. -/
structure Ctl where
  phase : Phase
  /-- The video packet of this command was started (R637). -/
  video : Bool
  /-- R637's `i`. -/
  frame : Nat
  /-- R638's `aud`, by track. -/
  packets : List Packet
  vbase : Nat
  vlen : Nat
  /-- R637's `t`. -/
  track : Nat
  /-- R576's `c`. -/
  chan : Nat
  /-- R576's `quant`. -/
  quant : List F32
  /-- R581's `k`. -/
  bandK : Nat
  /-- R581's `q`. -/
  bandQ : F32
  /-- R581's `i`. -/
  coefPos : Nat
  /-- The planes R430 has still to decode, in order. -/
  order : List PlaneId
  /-- R430's `done`. -/
  decoded : List PlaneId
  /-- The block cursor (R56 (b), R401). -/
  plane : PlaneId
  by_ : Nat
  bx : Nat
  /-- What is left of PlaneStart (R353). -/
  agenda : List AgendaItem
  /-- The bundles RowRefill has still to serve, in order (R356). -/
  refills : List BundleId
  /-- R360's `end`. -/
  stop : Nat
  /-- R360's `last`. -/
  lastLit : Nat
deriving DecidableEq, Repr

/-! ## The whole state -/

/-- The state of the core, with the host's side of its interface: the container image, the PCM buffer, the moves the
host has still to make, and what its last read returned. `inst` is the configuration argument of R10, which R11 and R12
accept: it stands beside the state so that every state has its instantiation, and no step changes it. -/
structure State where
  inst : Instantiation
  regs : Regs
  br : BitReader
  bundles : Bundles
  /-- The sixteen COLORS high-nibble trees `colHigh[0..15]` (R73). -/
  colHigh : List Tree
  /-- `colLast` (R73). -/
  colLast : BitVec 4
  session : Session
  planes : Planes
  coef : CoefScratch
  dct : DctScratch
  tracks : List Track
  ctl : Ctl
  /-- CONTAINER: the bytes that are not 0, by rising address (R151; assumption 2). -/
  container : List Host.Cell
  /-- PCM_OUT: the bytes READ_AUDIO wrote (R157). -/
  pcmOut : Cells Byte
  /-- The host's moves still to come, the next one first (R8). -/
  hostMoves : List HostMove
  /-- What the host's last read returned: none where no read was made, or where it returned no value (R156). -/
  readData : Option Word
deriving DecidableEq, Repr

/-! ## How a step can stop -/

/-- A stop for an access to an address the spec says does not exist. -/
inductive Fault where
  /-- Raised by a host move at a REG offset above 0xFF (R155), a CONTAINER address of 2^32 or more (R151), or a
  PLANE_OUT offset outside its window or of an absent plane (R156). Safe: the model stops, and nothing is claimed of
  what a machine would do. -/
  | addressOutsideSpace
deriving DecidableEq, Repr

/-- A stop where the spec says that a model refuses. -/
inductive Refusal where
  /-- An instruction without a meaning, by mnemonic. Raised by no arm of exec in this model. Safe. -/
  | notModelled (mnemonic : String)
  /-- Raised by a bitstream element executed where the syntax of R221 and R230 has no such element. Safe. -/
  | elementOutOfPlace
  /-- Raised by a host command or REG access while a command runs (R166, R715, 93 U23). Safe. -/
  | hostMoveWhileBusy
  /-- Raised by a host write of CONTAINER while a session is open (R154, 93 U22). Safe. -/
  | containerWriteWhileOpen
  /-- Raised by a REG access at an offset that is no multiple of 4 (R155, 93 U24). Safe. -/
  | unalignedRegAccess
  /-- Raised by a read of a field other than a pixel that holds no value (R52, R720, 93 U25). Safe. -/
  | unwrittenField
  /-- Raised by a pixel index outside its buffer (R158, R720, 93 U25). Safe. -/
  | planeIndexOutOfRange
  /-- Raised by a use of a plane, track or frame the session does not have (R52, R158, R720). Safe. -/
  | absentUnit
  /-- Raised by a bit field outside 1..32 bits (R302, 93 U25). Safe. -/
  | bitFieldWidth
  /-- Raised by a code that matches no leaf of its shape, which no shape that passes R11 and R12 has. Safe. -/
  | codeWithoutLeaf
  /-- Raised by a loop that does not end within the bound R750 gives it. Safe. -/
  | loopBound
  /-- Raised by a NaN sample of a transform (R590, R720, 93 U21). Safe. -/
  | transformNaN
  /-- Raised by `instantiate` where the tables of a configuration fail a check of R11 or R12: nothing runs on them. Safe. -/
  | illFormedInstantiation
deriving DecidableEq, Repr

/-! ## Reset (R110, R730) -/

def Regs.reset : Regs :=
  { arg0 := 0, arg1 := 0, isOpen := false, err := false, audioTrunc := false, frameValid := false, cause := 0,
    res0 := 0, res1 := 0, res2 := 0, bitpos := 0, frameKey := false }

def BitReader.reset : BitReader := { base := 0, sizeBits := 0, pos := 0 }

def Tree.reset : Tree := { shape := 0, syms := [] }

def Bundle.reset : Bundle :=
  { len := 0, tree := Tree.reset, buf := [], wr := 0, rd := 0, cap := 0, done := false }

def Bundles.reset : Bundles :=
  { blockTypes := Bundle.reset, subBlockTypes := Bundle.reset, colors := Bundle.reset, pattern := Bundle.reset,
    xOff := Bundle.reset, yOff := Bundle.reset, intraDc := Bundle.reset, interDc := Bundle.reset, run := Bundle.reset }

def Session.reset : Session :=
  { signature := 0, version := 0, fileSize := 0, frameCount := 0, largestFrame := 0, width := 0, height := 0,
    fpsNum := 0, fpsDen := 0, videoFlags := 0, hasAlpha := false, gray := false, trackCount := 0, frames := [],
    curFrame := 0 }

def Planes.reset : Planes := { y := none, u := none, v := none, a := none }

/-- Every array `⊥`; the scalar cursors, which R90 leaves without a value, 0 (assumption 6). -/
def CoefScratch.reset : CoefScratch :=
  { coefList := [], modeList := [], listStart := 0, listEnd := 0, blk := [], coefIdx := [], coefCount := 0, res := [],
    nz := [], nzCount := 0, budget := 0 }

def DctScratch.reset : DctScratch := { tmp := [], ublk := [] }

/-- The idle sequencer; its locals, which no rule gives a reset value, 0 or empty (assumption 6). -/
def Ctl.reset : Ctl :=
  { phase := .idle, video := false, frame := 0, packets := [], vbase := 0, vlen := 0, track := 0, chan := 0,
    quant := [], bandK := 0, bandQ := 0, coefPos := 0, order := [], decoded := [], plane := .y, by_ := 0, bx := 0,
    agenda := [], refills := [], stop := 0, lastLit := 0 }

/-- The state right after power-on (R110, R730): idle, no session, nothing placed, no host move pending; the configuration
is R10's. -/
def State.reset : State :=
  { inst := Instantiation.source, regs := Regs.reset, br := BitReader.reset, bundles := Bundles.reset, colHigh := List.replicate 16 Tree.reset,
    colLast := 0, session := Session.reset, planes := Planes.reset, coef := CoefScratch.reset,
    dct := DctScratch.reset, tracks := [], ctl := Ctl.reset, container := [], pcmOut := [], hostMoves := [],
    readData := none }

end Sys2Proof.Machine
end

