-- ==== Sys2Proof/Machine/Cells.lean ====
section
/-! DEFINITION. Sparse arrays and the CONTAINER memory: the one place where elements are read and written
(spec/20_memory.md R151 to R153, R158; spec/10_state.md R52). -/

namespace Sys2Proof

/-- The element at index `i`, none where it is `⊥` (R52). -/
def Cells.get {α : Type} : Cells α → Nat → Option α
  | [], _ => none
  | (k, x) :: m, i => if i = k then some x else if i < k then none else Cells.get m i

/-- Writing element `i`; the indices stay strictly rising. -/
def Cells.set {α : Type} : Cells α → Nat → α → Cells α
  | [], i, v => [(i, v)]
  | (k, x) :: m, i, v =>
    if i < k then (i, v) :: (k, x) :: m
    else if i = k then (i, v) :: m
    else (k, x) :: Cells.set m i v

/-- Making element `i` `⊥` again. -/
def Cells.erase {α : Type} : Cells α → Nat → Cells α
  | [], _ => []
  | (k, x) :: m, i => if i < k then (k, x) :: m else if i = k then m else (k, x) :: Cells.erase m i

/-- Writing the values of a list at `i`, `i + 1`, … in order. -/
def Cells.setFrom {α : Type} : Cells α → Nat → List α → Cells α
  | m, _, [] => m
  | m, i, v :: vs => Cells.setFrom (Cells.set m i v) (i + 1) vs

/-- The elements `i`, …, `i + n - 1`, none where one of them is `⊥`. -/
def Cells.slice {α : Type} (m : Cells α) (i : Nat) : (n : Nat) → Option (List α)
  | 0 => some []
  | n + 1 =>
    match Cells.get m i, Cells.slice m (i + 1) n with
    | some x, some xs => some (x :: xs)
    | _, _ => none

/-- The canonical form: indices strictly rising. -/
def Cells.sorted {α : Type} : Cells α → Bool
  | [] => true
  | [_] => true
  | (k, _) :: (k', y) :: m => k < k' && Cells.sorted ((k', y) :: m)

/-- Every index of the array is below `n`. -/
def Cells.below {α : Type} (m : Cells α) (n : Nat) : Bool := m.all fun c => c.1 < n

namespace Machine

/-- A byte of CONTAINER. A byte that is not listed is 0 (assumption 2). -/
def Memory.byte (m : List Host.Cell) (a : Nat) : Byte := (Cells.get m a).getD 0

/-- Placing a byte of CONTAINER; a 0 is kept by listing nothing. -/
def Memory.setByte (m : List Host.Cell) (a : Nat) (v : Byte) : List Host.Cell :=
  if v = 0 then Cells.erase m a else Cells.set m a v

/-- Placing bytes from address `a` on. -/
def Memory.setBytes : List Host.Cell → Nat → List Byte → List Host.Cell
  | m, _, [] => m
  | m, a, v :: vs => Memory.setBytes (Memory.setByte m a v) (a + 1) vs

/-- The canonical form of CONTAINER: addresses strictly rising and below 2^32 (R151), no listed 0. -/
def Memory.wf (m : List Host.Cell) : Bool :=
  Cells.sorted m && Cells.below m (2 ^ 32) && m.all fun c => c.2 != 0

/-- `U16(a)`, little-endian (R152). -/
def Memory.u16 (m : List Host.Cell) (a : Nat) : Nat :=
  (Memory.byte m a).toNat + 2 ^ 8 * (Memory.byte m (a + 1)).toNat

/-- `U32(a)`, little-endian (R152). -/
def Memory.u32 (m : List Host.Cell) (a : Nat) : Nat :=
  (Memory.byte m a).toNat + 2 ^ 8 * (Memory.byte m (a + 1)).toNat + 2 ^ 16 * (Memory.byte m (a + 2)).toNat
    + 2 ^ 24 * (Memory.byte m (a + 3)).toNat

/-- `PacketBit(k)` of a packet at byte `base`: bit `k mod 8` of byte `base + floor(k / 8)` (R153, R301). -/
def Memory.packetBit (m : List Host.Cell) (base k : Nat) : Nat :=
  (Memory.byte m (base + k / 8)).toNat / 2 ^ (k % 8) % 2

/-- The `n` packet bits from position `pos` on, the first one the least significant (R302). -/
def Memory.packetBits (m : List Host.Cell) (base pos : Nat) : (n : Nat) → Nat
  | 0 => 0
  | n + 1 => Memory.packetBit m base pos + 2 * Memory.packetBits m base (pos + 1) n

end Machine
end Sys2Proof
end

