-- ==== Sys2Proof/Machine/Flags.lean ====
section
/-! DEFINITION. The cause codes (spec/60_exceptions.md R681), and what the host reads in each register of the REG block:
STATUS with its computed bits, and the mirrors of the session (spec/10_state.md R60, R61; spec/46_host_commands.md
R650). -/

namespace Sys2Proof.Machine

/-- The causes of R681. -/
inductive Cause where
  | noSource | badSignature | unsupported | frameCount | largestFrame | truncated | badDimensions | badIndex | badAudio
  | readerUnderrun | motionOutOfBounds | runOverflow | dcOutOfRange | badBlockType | badSubtype | bundleOverflow
  | bundleUnderrun | treeDuplicate | scaledPosition | runNonpositive | packetRange | blocktypeRunOverrun
  | pixelUnwritten
  | notOpen | endOfStream | seekRange | badTrack | alreadyOpen | badCommand
deriving DecidableEq, Repr

/-- The three kinds of error (R680). -/
inductive ErrorKind where
  | openError | decodeError | commandError
deriving DecidableEq, Repr

/-- CAUSE.CODE of a cause (R681). -/
def causeCode : Cause → Byte
  | .noSource => 1 | .badSignature => 2 | .unsupported => 3 | .frameCount => 4 | .largestFrame => 5 | .truncated => 6
  | .badDimensions => 7 | .badIndex => 8 | .badAudio => 9
  | .readerUnderrun => 16 | .motionOutOfBounds => 17 | .runOverflow => 18 | .dcOutOfRange => 19 | .badBlockType => 20
  | .badSubtype => 21 | .bundleOverflow => 22 | .bundleUnderrun => 23 | .treeDuplicate => 24 | .scaledPosition => 25
  | .runNonpositive => 26 | .packetRange => 27 | .blocktypeRunOverrun => 28 | .pixelUnwritten => 29
  | .notOpen => 32 | .endOfStream => 33 | .seekRange => 34 | .badTrack => 35 | .alreadyOpen => 36 | .badCommand => 37

/-- The kind of a cause (R681). -/
def causeKind : Cause → ErrorKind
  | .noSource | .badSignature | .unsupported | .frameCount | .largestFrame | .truncated | .badDimensions | .badIndex
  | .badAudio => .openError
  | .readerUnderrun | .motionOutOfBounds | .runOverflow | .dcOutOfRange | .badBlockType | .badSubtype | .bundleOverflow
  | .bundleUnderrun | .treeDuplicate | .scaledPosition | .runNonpositive | .packetRange | .blocktypeRunOverrun
  | .pixelUnwritten => .decodeError
  | .notOpen | .endOfStream | .seekRange | .badTrack | .alreadyOpen | .badCommand => .commandError

/-- STATUS.HAS_ALPHA: mirrors `S.has_alpha` while open (R61). -/
def hasAlphaFlag (s : State) : Bool := s.regs.isOpen && s.session.hasAlpha

/-- STATUS.EOS: open and `S.cur_frame = S.frame_count` (R61). -/
def eosFlag (s : State) : Bool := s.regs.isOpen && s.session.curFrame == s.session.frameCount

/-- A bit of a register at its place. -/
def bitAt (b : Bool) (i : Nat) : Word := if b then BitVec.ofNat 32 (2 ^ i) else 0

/-- STATUS: OPEN[0], ERR[1], AUDIO_TRUNC[2], HAS_ALPHA[3], FRAME_VALID[4], EOS[5]; the other bits read 0 (R60, R61). -/
def statusWord (s : State) : Word :=
  bitAt s.regs.isOpen 0 ||| bitAt s.regs.err 1 ||| bitAt s.regs.audioTrunc 2 ||| bitAt (hasAlphaFlag s) 3
    ||| bitAt s.regs.frameValid 4 ||| bitAt (eosFlag s) 5

/-- CAUSE: CODE[7:0] (R60). -/
def causeWord (s : State) : Word := s.regs.cause.setWidth 32

/-- VERSION: `S.version` in [7:0] (R60). -/
def versionWord (s : State) : Word := s.session.version.setWidth 32

/-- FRAME_KEY: KEY[0] (R60). -/
def frameKeyWord (s : State) : Word := bitAt s.regs.frameKey 0

end Sys2Proof.Machine
end

