-- ==== Sys2Proof/Machine/Ops.lean ====
section
/-! DEFINITION. The shared operations: state updates, the sequential form of the rules' pseudocode, raising and taking
an error, the bit reader, the bundles' cursors, and pixel access (spec/40_bitreader_vlc.md R300 to R313,
spec/41_bundles.md R390, spec/20_memory.md R158, spec/42_block_dispatch.md R403, R404, spec/60_exceptions.md R680 to
R693). -/

namespace Sys2Proof.Machine

/-! ## State updates -/

/-- The configuration of the state's instantiation (R10). -/
def State.params (s : State) : Params := s.inst.params

/-- The model instantiated with a configuration: its reset state, or the refusal of R11 and R12, and then no state to run. -/
def instantiate (p : Params) : Host.Outcome State Fault Refusal :=
  if h : p.wellFormed = true then .next { State.reset with inst := { params := p, accepted := h } }
  else .refused .illFormedInstantiation

def State.setInst (s : State) (x : Instantiation) : State := { s with inst := x }
def State.setRegs (s : State) (x : Regs) : State := { s with regs := x }
def State.setBr (s : State) (x : BitReader) : State := { s with br := x }
def State.setBundles (s : State) (x : Bundles) : State := { s with bundles := x }
def State.setColHigh (s : State) (x : List Tree) : State := { s with colHigh := x }
def State.setColLast (s : State) (x : BitVec 4) : State := { s with colLast := x }
def State.setSession (s : State) (x : Session) : State := { s with session := x }
def State.setPlanes (s : State) (x : Planes) : State := { s with planes := x }
def State.setCoef (s : State) (x : CoefScratch) : State := { s with coef := x }
def State.setDct (s : State) (x : DctScratch) : State := { s with dct := x }
def State.setTracks (s : State) (x : List Track) : State := { s with tracks := x }
def State.setCtl (s : State) (x : Ctl) : State := { s with ctl := x }
def State.setContainer (s : State) (x : List Host.Cell) : State := { s with container := x }
def State.setPcmOut (s : State) (x : Cells Byte) : State := { s with pcmOut := x }
def State.setHostMoves (s : State) (x : List HostMove) : State := { s with hostMoves := x }
def State.setReadData (s : State) (x : Option Word) : State := { s with readData := x }

/-- Bundle `b` (R70). -/
def Bundles.get (bs : Bundles) : BundleId → Bundle
  | .blockTypes => bs.blockTypes
  | .subBlockTypes => bs.subBlockTypes
  | .colors => bs.colors
  | .pattern => bs.pattern
  | .xOff => bs.xOff
  | .yOff => bs.yOff
  | .intraDc => bs.intraDc
  | .interDc => bs.interDc
  | .run => bs.run

/-- Replacing bundle `b`. -/
def Bundles.set (bs : Bundles) : BundleId → Bundle → Bundles
  | .blockTypes, x => { bs with blockTypes := x }
  | .subBlockTypes, x => { bs with subBlockTypes := x }
  | .colors, x => { bs with colors := x }
  | .pattern, x => { bs with pattern := x }
  | .xOff, x => { bs with xOff := x }
  | .yOff, x => { bs with yOff := x }
  | .intraDc, x => { bs with intraDc := x }
  | .interDc, x => { bs with interDc := x }
  | .run, x => { bs with run := x }

/-- The plane `P[p]`, none where the session has none (R82). -/
def Planes.get (ps : Planes) : PlaneId → Option Plane
  | .y => ps.y
  | .u => ps.u
  | .v => ps.v
  | .a => ps.a

/-- Replacing plane `p`. -/
def Planes.set (ps : Planes) : PlaneId → Plane → Planes
  | .y, x => { ps with y := some x }
  | .u, x => { ps with u := some x }
  | .v, x => { ps with v := some x }
  | .a, x => { ps with a := some x }

/-- A change of every plane the session has. -/
def Planes.map (ps : Planes) (f : PlaneId → Plane → Plane) : Planes :=
  { y := ps.y.map (f .y), u := ps.u.map (f .u), v := ps.v.map (f .v), a := ps.a.map (f .a) }

def State.bundle (s : State) (b : BundleId) : Bundle := s.bundles.get b
def State.setBundle (s : State) (b : BundleId) (x : Bundle) : State := s.setBundles (s.bundles.set b x)
def State.plane (s : State) (p : PlaneId) : Option Plane := s.planes.get p
def State.setPlane (s : State) (p : PlaneId) (x : Plane) : State := s.setPlanes (s.planes.set p x)
def State.setTrack (s : State) (t : Nat) (x : Track) : State := s.setTracks (s.tracks.set t x)
def State.setPhase (s : State) (x : Phase) : State := s.setCtl { s.ctl with phase := x }

/-- `br.base` as a number. -/
def State.bitBase (s : State) : Nat := s.br.base.toNat
/-- `br.size_bits` as a number. -/
def State.bitSize (s : State) : Nat := s.br.sizeBits.toNat
/-- `br.pos` as a number. -/
def State.bitPos (s : State) : Nat := s.br.pos.toNat
/-- `br.pos <- x` (R24). -/
def State.setPos (s : State) (x : Nat) : State := s.setBr { s.br with pos := BitVec.ofNat 32 x }

/-- The tree `r` (R73). -/
def State.tree (s : State) : TreeRef → Tree
  | .bundle b => (s.bundle b).tree
  | .colHigh i => s.colHigh.getD i.toNat Tree.reset

/-- Replacing the tree `r`. -/
def State.setTree (s : State) (r : TreeRef) (x : Tree) : State :=
  match r with
  | .bundle b => s.setBundle b { s.bundle b with tree := x }
  | .colHigh i => s.setColHigh (s.colHigh.set i.toNat x)

/-! ## Sequential steps -/

/-- What ends a sequence of pseudocode steps before its last one: a raised error (R680), or a stop of the model. -/
inductive Stop where
  | raised (c : Cause)
  | refused (r : Refusal)
  | faulted (f : Fault)
deriving DecidableEq, Repr

/-- A sequence of pseudocode steps over the state. An error keeps the effects of the steps before it (R686, R690). -/
abbrev M := EStateM Stop State

/-- `raise` of the rules' pseudocode (R27, R680). -/
def raise {α : Type} (c : Cause) : M α := throw (.raised c)

/-- A stop the spec gives the model (R52, R720). -/
def refuse {α : Type} (r : Refusal) : M α := throw (.refused r)

/-- Raising `c` unless a check holds (R686: before the step it guards). -/
def check (ok : Bool) (c : Cause) : M Unit := if ok then pure () else raise c

/-- Refusing unless a condition of the model's admitted moves holds. -/
def demand (ok : Bool) (r : Refusal) : M Unit := if ok then pure () else refuse r

/-- A value that may be absent, refusing where it is. -/
def getOr {α : Type} (x : Option α) (r : Refusal) : M α :=
  match x with
  | some v => pure v
  | none => refuse r

/-- `for x in l: f x`, in order (R28). -/
def forEach {α : Type} : List α → (α → M Unit) → M Unit
  | [], _ => pure ()
  | x :: xs, f => do
    f x
    forEach xs f

/-- `n` values in order, each by the same reader. -/
def readMany {α : Type} (f : M α) : (n : Nat) → M (List α)
  | 0 => pure []
  | n + 1 => do
    let x ← f
    let xs ← readMany f n
    pure (x :: xs)

/-! ## Taking an error (R690 to R692) -/

/-- The reset state of a CLOSE or a failed OPEN: reset, but for ARG0 and ARG1 (R62, R110, R635), the instantiation, and what
is the host's: CONTAINER, PCM_OUT, its moves and its last read. -/
def State.coreReset (s : State) : State :=
  { State.reset with
    inst := s.inst
    regs := { Regs.reset with arg0 := s.regs.arg0, arg1 := s.regs.arg1 }
    container := s.container
    pcmOut := s.pcmOut
    hostMoves := s.hostMoves
    readData := s.readData }

/-- The result registers of a failed command (R655). -/
def failedRegs (c : Cause) (r : Regs) : Regs :=
  { r with err := true, cause := causeCode c, res0 := 0, res1 := 0, res2 := 0 }

/-- Taking an error, for every cause (R690 to R692): the one operation by which a command ends in an error.
An OpenError resets the core; a DecodeError keeps everything but the result registers, reports the video bit position
in BITPOS, and leaves the command; a CommandError changes the result registers alone. No handler is entered, so there
is no return from an error (R693): the next host command starts from this state. -/
def takeError (c : Cause) (s : State) : State :=
  match causeKind c with
  | .openError => s.coreReset.setRegs (failedRegs c s.coreReset.regs)
  | .decodeError =>
    (s.setRegs { failedRegs c s.regs with
      bitpos := if s.ctl.video then s.br.pos else 0 }).setPhase .idle
  | .commandError => s.setRegs (failedRegs c s.regs)

/-- The outcome of a sequence of steps: its end state, the state its error leaves, or the model's stop. -/
def outcome (r : EStateM.Result Stop State Unit) : Host.Outcome State Fault Refusal :=
  match r with
  | .ok _ s => .next s
  | .error (.raised c) s => .next (takeError c s)
  | .error (.refused x) _ => .refused x
  | .error (.faulted x) _ => .fault x

/-- Running a sequence of steps from a state. -/
def run (m : M Unit) (s : State) : Host.Outcome State Fault Refusal := outcome (m s)

/-- The end of a command that succeeds, with its results (R655). -/
def succeed (r0 r1 r2 : Word) : M Unit :=
  modify fun s =>
    (s.setRegs { s.regs with err := false, cause := 0, res0 := r0, res1 := r1, res2 := r2 }).setPhase .idle

/-- A host command or REG access is answered between commands only (R166, R715). -/
def whileIdle : M Unit := do
  let s ← get
  demand (s.ctl.phase == .idle) .hostMoveWhileBusy

/-- A bitstream element runs at its own place only (R221, R230). -/
def atPhase (x : Phase) : M Unit := do
  let s ← get
  demand (s.ctl.phase == x) .elementOutOfPlace

/-! ## Bit reader (R300 to R306) -/

/-- `BitReaderOpen(base, nbytes)` (R300); the u32 fields of R65 keep the low 32 bits (assumption 9). -/
def bitReaderOpen (base nbytes : Nat) : M Unit :=
  modify fun s => s.setBr { base := BitVec.ofNat 32 base, sizeBits := BitVec.ofNat 32 (8 * nbytes), pos := 0 }

/-- `GetBits(n)` (R302). -/
def getBits (n : Nat) : M Nat := do
  demand (1 ≤ n && n ≤ 32) .bitFieldWidth
  let s ← get
  check (s.bitPos + n ≤ s.bitSize) .readerUnderrun
  set (s.setPos (s.bitPos + n))
  pure (Memory.packetBits s.container s.bitBase s.bitPos n)

/-- `GetBit()` (R303). -/
def getBit : M Nat := getBits 1

/-- `SkipBits(n)` (R304). -/
def skipBits (n : Nat) : M Unit := do
  let s ← get
  check (s.bitPos + n ≤ s.bitSize) .readerUnderrun
  set (s.setPos (s.bitPos + n))

/-- The position `AlignTo32` leaves (R306). -/
def alignedPos (br : BitReader) : Nat :=
  min (br.pos.toNat + (32 - br.pos.toNat % 32) % 32) br.sizeBits.toNat

/-- `AlignTo32()` (R306). -/
def alignTo32 : M Unit := modify fun s => s.setPos (alignedPos s.br)

/-! ## VLC decode (R310 to R312) -/

/-- The leaf whose code is the `j` bits `acc`, if one is (R310). -/
def findLeaf (codes : List (Nat × Nat)) (j acc : Nat) : Option (BitVec 4) :=
  (codes.findIdx? (· == (j, acc))).map (BitVec.ofNat 4)

/-- The loop of `DecodeSymbol` from its `j`-th bit on, with at most `fuel` bits to read (R310). A code that the packet's end
cuts off leaves its bits consumed, as this loop reads them one by one. -/
def decodeSymbolFrom (codes : List (Nat × Nat)) : (fuel j acc : Nat) → M (BitVec 4)
  | 0, _, _ => refuse .codeWithoutLeaf
  | fuel + 1, j, acc => do
    let b ← getBit
    let acc' := acc + b * 2 ^ (j - 1)
    match findLeaf codes j acc' with
    | some l => pure l
    | none => decodeSymbolFrom codes fuel (j + 1) acc'

/-- `DecodeSymbol(shape)`: the leaf index of one code of the shape. Shape 0 with its code of P3 is `GetBits(4)` (R312), and so takes
no bit of a code that the packet's end cuts off (R302); every other code is read by the loop of R310 (assumption 10). The loop ends
at the shape's own longest code: beyond it no leaf of the shape can match. -/
def decodeSymbol (shape : BitVec 4) : M (BitVec 4) := do
  let s ← get
  if shape = 0 ∧ s.params.codes 0 = identityCode then do
    let v ← getBits 4
    pure (BitVec.ofNat 4 v)
  else decodeSymbolFrom (s.params.codes shape) (longestCode (s.params.codes shape)) 1 0

/-- `Huff(T)`: the nibble the tree's permutation maps the leaf to (R311). -/
def huff (r : TreeRef) : M (BitVec 4) := do
  let s ← get
  let l ← decodeSymbol (s.tree r).shape
  getOr (Cells.get (s.tree r).syms l.toNat) .unwrittenField

/-! ## Bundle cursors (R390) -/

/-- Writing an element at the write cursor and advancing it. -/
def Bundle.push (x : Bundle) (v : Int) : Bundle := { x with buf := Cells.set x.buf x.wr v, wr := x.wr + 1 }

/-- Writing the same element `n` times from the write cursor on. -/
def Bundle.fill (x : Bundle) (v : Int) : (n : Nat) → Bundle
  | 0 => x
  | n + 1 => Bundle.fill (x.push v) v n

/-- Storing a value at bundle `b`'s write cursor. -/
def pushValue (b : BundleId) (v : Int) : M Unit := modify fun s => s.setBundle b ((s.bundle b).push v)

/-- Storing a value `n` times from bundle `b`'s write cursor on. -/
def fillValue (b : BundleId) (v : Int) (n : Nat) : M Unit :=
  modify fun s => s.setBundle b ((s.bundle b).fill v n)

/-- `GetValue(b)` (R390). -/
def getValue (b : BundleId) : M Int := do
  let s ← get
  check ((s.bundle b).rd < (s.bundle b).wr) .bundleUnderrun
  let v ← getOr (Cells.get (s.bundle b).buf (s.bundle b).rd) .unwrittenField
  set (s.setBundle b { s.bundle b with rd := (s.bundle b).rd + 1 })
  pure v

/-! ## Pixels (R158, R403, R404) -/

/-- The plane `P[p]` the sequencer works on. -/
def planeOf (p : PlaneId) : M Plane := do
  let s ← get
  getOr (s.plane p) .absentUnit

/-- Offset `a` lies in the plane's buffers (R158). -/
def Plane.inRange (x : Plane) (a : Nat) : Bool := a < x.pitch * x.rows

/-- A pixel value that must be written (R52, R404). -/
def writtenPixel (v : Option Byte) : M Byte :=
  match v with
  | some b => pure b
  | none => raise .pixelUnwritten

/-- `PixRead(p, last, a)` (R25, R158). -/
def readLast (p : PlaneId) (a : Nat) : M Byte := do
  let x ← planeOf p
  demand (x.inRange a) .planeIndexOutOfRange
  writtenPixel (Cells.get x.last a)

/-- `PixRead(p, cur, a)` (R25, R158). -/
def readCur (p : PlaneId) (a : Nat) : M Byte := do
  let x ← planeOf p
  demand (x.inRange a) .planeIndexOutOfRange
  writtenPixel (Cells.get x.cur a)

/-- `PixWrite(p, cur, a, v)` (R25, R158). -/
def writeCur (p : PlaneId) (a : Nat) (v : Byte) : M Unit := do
  let x ← planeOf p
  demand (x.inRange a) .planeIndexOutOfRange
  modify fun s => s.setPlane p { x with cur := Cells.set x.cur a v }

/-- The byte the store law of R403 keeps of an integer result. -/
def storeByte (law : PixelStore) (v : Int) : Byte :=
  if 0 ≤ v ∧ v ≤ 255 then BitVec.ofInt 8 v
  else
    match law with
    | .wrap => BitVec.ofInt 8 v
    | .clamp => BitVec.ofInt 8 (min 255 (max 0 v))

/-- `Store(p, a, v)` (R403). -/
def store (p : PlaneId) (a : Nat) (v : Int) : M Unit := do
  let s ← get
  writeCur p a (storeByte s.params.pixelStore v)

/-- The 64 positions of an 8x8 block in row-major order. -/
def blockPositions : List Nat := List.range 64

/-- The offset of block index `i = y*8 + x` from the block's start (R401). -/
def blockOffset (x : Plane) (i : Nat) : Nat := i / 8 * x.pitch + i % 8

/-- The destination offset of block (bx, by) (R401). -/
def blockDst (x : Plane) (bx by' : Nat) : Nat := 8 * by' * x.pitch + 8 * bx

/-- `Copy8(p, s, d)` (R413). -/
def copy8 (p : PlaneId) (src dst : Nat) : M Unit := do
  let x ← planeOf p
  forEach blockPositions fun i => do
    let v ← readLast p (src + blockOffset x i)
    writeCur p (dst + blockOffset x i) v

/-- Where a block's pixels go: a block of `cur`, or `ublk` (R414, R420, R421). -/
inductive PixelDest where
  | cur (p : PlaneId) (dst : Nat)
  | ublk
deriving DecidableEq, Repr

/-- `put(i, c)`: PUT_CUR or PUT_U (R414, R420). -/
def put (d : PixelDest) (i : Nat) (c : Byte) : M Unit :=
  match d with
  | .cur p dst => do
    let x ← planeOf p
    writeCur p (dst + blockOffset x i) c
  | .ublk => modify fun s => s.setDct { s.dct with ublk := Cells.set s.dct.ublk i c }

/-- The byte a u8 bundle element holds (R71). -/
def elementByte (v : Int) : Byte := BitVec.ofInt 8 v

end Sys2Proof.Machine
end

