-- ==== Sys2Proof/Machine/Operands.lean ====
section
/-! DEFINITION. The assembled operand values of spec/30_encoding.md R213: signed magnitudes (R23), color bytes with their
fold (R366, R367), pattern bytes (R370), motion and run values (R373, R376), DC values (R380) and coefficient values
(R485). The audio values stand in Machine/Audio.lean. -/

namespace Sys2Proof.Machine

/-- `ReadSigned(m)`: the sign bit follows a magnitude that is not 0; 1 is negative (R23). -/
def readSigned (m : Nat) : M Int :=
  if m = 0 then pure 0
  else do
    let s ← getBit
    pure (if s = 1 then -(m : Int) else (m : Int))

/-- `Fold(v)` (R367). -/
def fold (v : Nat) : Nat :=
  if 128 ≤ v then (256 + 0x80 - v % 128) % 256 else (v % 128 + 0x80) % 256

/-- `DecodeColor()` (R366, R743). -/
def decodeColor : M Int := do
  let s ← get
  let hi ← huff (.colHigh s.colLast)
  modify fun s => s.setColLast hi
  let lo ← huff (.bundle .colors)
  let v := hi.toNat * 16 + lo.toNat
  pure (if s.params.foldsColor s.session.version then (fold v : Int) else (v : Int))

/-- `PatternByte()`: the low nibble first (R370). -/
def patternByte : M Int := do
  let lo ← huff (.bundle .pattern)
  let hi ← huff (.bundle .pattern)
  pure ((hi.toNat * 16 + lo.toNat : Nat) : Int)

/-- The constant of a motion bundle: a raw nibble and its sign (R373). -/
def motionConst : M Int := do
  let m ← getBits 4
  readSigned m

/-- A coded value of a motion bundle (R373). -/
def motionCoded (b : BundleId) : M Int := do
  let m ← huff (.bundle b)
  readSigned m.toNat

/-- The constant of the run bundle: signed when `RUN_SIGNED` (R376). -/
def runConst : M Int := do
  let m ← getBits 4
  let s ← get
  if s.params.runSigned then readSigned m else pure (m : Int)

/-- A coded value of the run bundle (R376). -/
def runCoded : M Int := do
  let m ← huff (.bundle .run)
  let s ← get
  if s.params.runSigned then readSigned m.toNat else pure (m.toNat : Int)

/-- The first value of a DC refill: 11 bits for INTRA_DC, a signed 10-bit magnitude for INTER_DC (R380). -/
def dcFirst (b : BundleId) : M Int :=
  if b = .intraDc then do
    let v ← getBits 11
    pure (v : Int)
  else do
    let m ← getBits 10
    readSigned m

/-- The next running value of a DC group of width `w` (R380 to R382). -/
def dcNext (w : Nat) (v : Int) : M Int :=
  if w = 0 then pure v
  else do
    let m ← getBits w
    let d ← readSigned m
    check (-32768 ≤ v + d && v + d ≤ 32767) .dcOutOfRange
    pure (v + d)

/-- The value of a coefficient that becomes significant at bit-plane `bits` (R485). -/
def coefficientValue (bits : Nat) : M Int :=
  if bits = 0 then do
    let b ← getBit
    pure (1 - 2 * (b : Int))
  else do
    let e ← getBits bits
    let s ← getBit
    let t : Int := ((2 ^ bits + e : Nat) : Int)
    pure (if s = 1 then -t else t)

end Sys2Proof.Machine
end

