-- ==== Sys2Proof/Machine/Trees.lean ====
section
/-! DEFINITION. The TREE family: the three tree forms of `ReadTree` (spec/40_bitreader_vlc.md R320 to R323). The header
bits (shape, form, count or k) are the instruction's; the leaves and merge bits are its payload. -/

namespace Sys2Proof.Machine

/-- The identity list of the sixteen nibbles (R320, R322). -/
def identityNibbles : List (BitVec 4) := leaves

/-- The tree PlaneStart reads next (R353); a tree header stands nowhere else. -/
def currentTree : M TreeRef := do
  let s ← get
  atPhase .trees
  match s.ctl.agenda with
  | .tree r :: _ => pure r
  | _ => refuse .elementOutOfPlace

/-- The item of PlaneStart in hand is done. -/
def nextAgendaItem : M Unit := modify fun s => s.setCtl { s.ctl with agenda := s.ctl.agenda.tail }

/-- `T.shape <- shape`. -/
def writeShape (r : TreeRef) (shape : BitVec 4) : M Unit :=
  modify fun s => s.setTree r { s.tree r with shape := shape }

/-- `T.syms[i], T.syms[i + 1], … <- vs`. -/
def writeSyms (r : TreeRef) (i : Nat) (vs : List (BitVec 4)) : M Unit :=
  modify fun s => s.setTree r { s.tree r with syms := Cells.setFrom (s.tree r).syms i vs }

/-- The leaves of an explicit list: entries `i`, …, with the leaves already used (R321). -/
def readLeaves (r : TreeRef) : (n i : Nat) → (used : List (BitVec 4)) → M (List (BitVec 4))
  | 0, _, used => pure used
  | n + 1, i, used => do
    let w ← getBits 4
    let v := BitVec.ofNat 4 w
    check (!used.contains v) .treeDuplicate
    writeSyms r i [v]
    readLeaves r n (i + 1) (v :: used)

/-- `Merge(A, Bl)`: one bit for each element until one list is empty; 0 takes from the left (R323). Two lists of at
most 8 elements end within 16 bits. -/
def mergeRuns : (fuel : Nat) → List (BitVec 4) → List (BitVec 4) → M (List (BitVec 4))
  | 0, a, b => pure (a ++ b)
  | _ + 1, [], b => pure b
  | _ + 1, a, [] => pure a
  | fuel + 1, x :: a, y :: b => do
    let bit ← getBit
    if bit = 0 then do
      let rest ← mergeRuns fuel a (y :: b)
      pure (x :: rest)
    else do
      let rest ← mergeRuns fuel (x :: a) b
      pure (y :: rest)

/-- One pass: the `n` pairs of neighbouring blocks of `size` entries, merged (R322). -/
def mergePass (size : Nat) : (n : Nat) → List (BitVec 4) → M (List (BitVec 4))
  | 0, l => pure l
  | n + 1, l => do
    let m ← mergeRuns 16 (l.take size) ((l.drop size).take size)
    let rest ← mergePass size n (l.drop (2 * size))
    pure (m ++ rest)

/-- The passes with block sizes `2^i` for the listed `i` (R322). -/
def mergePasses : List Nat → List (BitVec 4) → M (List (BitVec 4))
  | [], l => pure l
  | i :: is, l => do
    let m ← mergePass (2 ^ i) (16 / 2 ^ (i + 1)) l
    mergePasses is m

/-- TREE_IDENTITY: shape 0 and the identity permutation (R320). -/
def execTreeIdentity (s : State) : Host.Outcome State Fault Refusal :=
  run (do
    let r ← currentTree
    writeShape r 0
    writeSyms r 0 identityNibbles
    nextAgendaItem) s

/-- TREE_LIST: `count + LIST_COUNT_BIAS` distinct leaves, then the unused nibbles in ascending order (R321). -/
def execTreeList (shape : BitVec 4) (count : BitVec 3) (s : State) : Host.Outcome State Fault Refusal :=
  run (do
    let r ← currentTree
    writeShape r shape
    let t ← get
    let n := count.toNat + t.params.listCountBias
    let used ← readLeaves r n 0 []
    writeSyms r n (identityNibbles.filter fun v => !used.contains v)
    nextAgendaItem) s

/-- TREE_MERGE: `k + 1` merge passes over the identity list (R322, R323). -/
def execTreeMerge (shape : BitVec 4) (k : BitVec 2) (s : State) : Host.Outcome State Fault Refusal :=
  run (do
    let r ← currentTree
    writeShape r shape
    let l ← mergePasses (List.range (k.toNat + 1)) identityNibbles
    writeSyms r 0 l
    nextAgendaItem) s

end Sys2Proof.Machine
end

