-- ==== Sys2Proof/Machine/Refill.lean ====
section
/-! DEFINITION. The REFILL family: the bundle readers of a block row (spec/41_bundles.md R357 to R382). The header (the
count t and, where there is one, the escape bit) is the instruction's; the values are its payload. -/

namespace Sys2Proof.Machine

/-- The bundle RowRefill serves next (R356); a refill header stands nowhere else. -/
def currentRefill : M BundleId := do
  let s ← get
  atPhase .refill
  match s.ctl.refills with
  | b :: _ => pure b
  | [] => refuse .elementOutOfPlace

/-- RowRefill goes on with the next bundle (R356). -/
def nextRefill : M Unit :=
  modify fun s => s.setCtl { s.ctl with phase := .refill, refills := s.ctl.refills.tail }

/-- The start of a refill of bundle `b` with `t` values: it stands at its place and fits the buffer (R357). -/
def beginRefill (b : BundleId) (t : Nat) : M Unit := do
  let b' ← currentRefill
  demand (b' == b) .elementOutOfPlace
  let s ← get
  check ((s.bundle b).wr + t ≤ (s.bundle b).cap) .bundleOverflow

/-- A refill whose values are one constant (R358). -/
def refillConstant (b : BundleId) (t : BitVec 32) (value : M Int) : M Unit := do
  beginRefill b t.toNat
  let v ← value
  fillValue b v t.toNat
  nextRefill

/-- Storing `n` values, each read in turn. -/
def pushMany (b : BundleId) (value : M Int) : (n : Nat) → M Unit
  | 0 => pure ()
  | n + 1 => do
    let v ← value
    pushValue b v
    pushMany b value n

/-- A refill whose `t` values are coded one by one (R358). -/
def refillEach (b : BundleId) (t : BitVec 32) (value : M Int) : M Unit := do
  beginRefill b t.toNat
  pushMany b value t.toNat
  nextRefill

/-- The start of the symbol loop of a block-type refill: `end <- wr + t`, `last <- 0` (R360, R362). -/
def refillSymbols (b : BundleId) (t : BitVec 32) : M Unit := do
  beginRefill b t.toNat
  modify fun s =>
    s.setCtl { s.ctl with phase := .btSym, stop := (s.bundle b).wr + t.toNat, lastLit := 0 }

/-- The `n` values of one DC group of width `w` (R380, R381). -/
def dcGroup (b : BundleId) (w : Nat) : (n : Nat) → Int → M Int
  | 0, v => pure v
  | n + 1, v => do
    let v' ← dcNext w v
    pushValue b v'
    dcGroup b w n v'

/-- The groups of up to 8 of a DC refill with `rem` values left (R380). -/
def dcGroups (b : BundleId) : (fuel rem : Nat) → Int → M Unit
  | 0, _, _ => pure ()
  | fuel + 1, rem, v =>
    if rem = 0 then pure ()
    else do
      let w ← getBits 4
      let v' ← dcGroup b w (min rem 8) v
      dcGroups b fuel (rem - min rem 8) v'

/-- `ReadDC(b)` after its header (R380). -/
def refillDc (b : BundleId) (t : BitVec 32) : M Unit := do
  beginRefill b t.toNat
  let v ← dcFirst b
  pushValue b v
  dcGroups b (t.toNat - 1) (t.toNat - 1) v
  nextRefill

/-- A raw block-type constant (R361). -/
def blockTypeConst : M Int := do
  let v ← getBits 4
  pure (v : Int)

/-- REFILL_DONE: a length field of 0 sets `done` for the rest of the plane (R357). -/
def execRefillDone (s : State) : Host.Outcome State Fault Refusal :=
  run (do
    let b ← currentRefill
    modify fun s => s.setBundle b { s.bundle b with done := true }
    nextRefill) s

/-- REFILL_BLOCK_TYPES_CONST: t copies of a raw nibble (R360, R361). -/
def execRefillBlockTypesConst (t : BitVec 32) (s : State) : Host.Outcome State Fault Refusal :=
  run (refillConstant .blockTypes t blockTypeConst) s

/-- REFILL_BLOCK_TYPES_CODED: opens the symbol loop (R360). -/
def execRefillBlockTypesCoded (t : BitVec 32) (s : State) : Host.Outcome State Fault Refusal :=
  run (refillSymbols .blockTypes t) s

/-- REFILL_SUB_BLOCK_TYPES_CONST: t copies of a raw nibble (R360, R361). -/
def execRefillSubBlockTypesConst (t : BitVec 32) (s : State) : Host.Outcome State Fault Refusal :=
  run (refillConstant .subBlockTypes t blockTypeConst) s

/-- REFILL_SUB_BLOCK_TYPES_CODED: opens the symbol loop (R360). -/
def execRefillSubBlockTypesCoded (t : BitVec 32) (s : State) : Host.Outcome State Fault Refusal :=
  run (refillSymbols .subBlockTypes t) s

/-- REFILL_COLORS_CONST: t copies of one decoded color (R365). -/
def execRefillColorsConst (t : BitVec 32) (s : State) : Host.Outcome State Fault Refusal :=
  run (refillConstant .colors t decodeColor) s

/-- REFILL_COLORS_CODED: t decoded colors (R365). -/
def execRefillColorsCoded (t : BitVec 32) (s : State) : Host.Outcome State Fault Refusal :=
  run (refillEach .colors t decodeColor) s

/-- REFILL_PATTERN_CONST: t copies of one pattern byte (R370). -/
def execRefillPatternConst (t : BitVec 32) (s : State) : Host.Outcome State Fault Refusal :=
  run (refillConstant .pattern t patternByte) s

/-- REFILL_PATTERN_CODED: t pattern bytes (R370). -/
def execRefillPatternCoded (t : BitVec 32) (s : State) : Host.Outcome State Fault Refusal :=
  run (refillEach .pattern t patternByte) s

/-- REFILL_X_OFF_CONST: t copies of one signed nibble (R373). -/
def execRefillXOffConst (t : BitVec 32) (s : State) : Host.Outcome State Fault Refusal :=
  run (refillConstant .xOff t motionConst) s

/-- REFILL_X_OFF_CODED: t coded signed nibbles (R373). -/
def execRefillXOffCoded (t : BitVec 32) (s : State) : Host.Outcome State Fault Refusal :=
  run (refillEach .xOff t (motionCoded .xOff)) s

/-- REFILL_Y_OFF_CONST: t copies of one signed nibble (R373). -/
def execRefillYOffConst (t : BitVec 32) (s : State) : Host.Outcome State Fault Refusal :=
  run (refillConstant .yOff t motionConst) s

/-- REFILL_Y_OFF_CODED: t coded signed nibbles (R373). -/
def execRefillYOffCoded (t : BitVec 32) (s : State) : Host.Outcome State Fault Refusal :=
  run (refillEach .yOff t (motionCoded .yOff)) s

/-- REFILL_RUN_CONST: t copies of one run value (R376). -/
def execRefillRunConst (t : BitVec 32) (s : State) : Host.Outcome State Fault Refusal :=
  run (refillConstant .run t runConst) s

/-- REFILL_RUN_CODED: t coded run values (R376). -/
def execRefillRunCoded (t : BitVec 32) (s : State) : Host.Outcome State Fault Refusal :=
  run (refillEach .run t runCoded) s

/-- REFILL_INTRA_DC: t delta-coded values from an unsigned 11-bit start (R380). -/
def execRefillIntraDc (t : BitVec 32) (s : State) : Host.Outcome State Fault Refusal :=
  run (refillDc .intraDc t) s

/-- REFILL_INTER_DC: t delta-coded values from a signed 10-bit start (R380). -/
def execRefillInterDc (t : BitVec 32) (s : State) : Host.Outcome State Fault Refusal :=
  run (refillDc .interDc t) s

end Sys2Proof.Machine
end

