-- ==== Sys2Proof/Machine/BlockSymbols.lean ====
section
/-! DEFINITION. The BTSYM family: the Huffman symbols of the block-type readers (spec/41_bundles.md R360, R362). -/

namespace Sys2Proof.Machine

/-- The bundle whose symbol loop runs, with room before its end (R360). -/
def currentSymbols : M BundleId := do
  let s ← get
  atPhase .btSym
  match s.ctl.refills with
  | b :: _ => do
    demand ((s.bundle b).wr < s.ctl.stop) .elementOutOfPlace
    pure b
  | [] => refuse .elementOutOfPlace

/-- A literal symbol: stored, and remembered as the last literal (R360). -/
def symbolLiteral (v : Nat) : M Unit := do
  let b ← currentSymbols
  modify fun s => s.setCtl { s.ctl with lastLit := v }
  pushValue b (v : Int)

/-- A run symbol: the last literal `BLOCK_RLE_LEN[i]` times, inside the refill's count (R360, R362). -/
def symbolRun (i : Nat) : M Unit := do
  let b ← currentSymbols
  let s ← get
  let n := s.params.blockRle i
  check ((s.bundle b).wr + n ≤ s.ctl.stop) .blocktypeRunOverrun
  fillValue b (s.ctl.lastLit : Int) n

/-- BTSYM_LITERAL_0 (R360). -/
def execBtsymLiteral0 (s : State) : Host.Outcome State Fault Refusal := run (symbolLiteral 0) s

/-- BTSYM_LITERAL_1 (R360). -/
def execBtsymLiteral1 (s : State) : Host.Outcome State Fault Refusal := run (symbolLiteral 1) s

/-- BTSYM_LITERAL_2 (R360). -/
def execBtsymLiteral2 (s : State) : Host.Outcome State Fault Refusal := run (symbolLiteral 2) s

/-- BTSYM_LITERAL_3 (R360). -/
def execBtsymLiteral3 (s : State) : Host.Outcome State Fault Refusal := run (symbolLiteral 3) s

/-- BTSYM_LITERAL_4 (R360). -/
def execBtsymLiteral4 (s : State) : Host.Outcome State Fault Refusal := run (symbolLiteral 4) s

/-- BTSYM_LITERAL_5 (R360). -/
def execBtsymLiteral5 (s : State) : Host.Outcome State Fault Refusal := run (symbolLiteral 5) s

/-- BTSYM_LITERAL_6 (R360). -/
def execBtsymLiteral6 (s : State) : Host.Outcome State Fault Refusal := run (symbolLiteral 6) s

/-- BTSYM_LITERAL_7 (R360). -/
def execBtsymLiteral7 (s : State) : Host.Outcome State Fault Refusal := run (symbolLiteral 7) s

/-- BTSYM_LITERAL_8 (R360). -/
def execBtsymLiteral8 (s : State) : Host.Outcome State Fault Refusal := run (symbolLiteral 8) s

/-- BTSYM_LITERAL_9 (R360). -/
def execBtsymLiteral9 (s : State) : Host.Outcome State Fault Refusal := run (symbolLiteral 9) s

/-- BTSYM_LITERAL_10 (R360). -/
def execBtsymLiteral10 (s : State) : Host.Outcome State Fault Refusal := run (symbolLiteral 10) s

/-- BTSYM_LITERAL_11 (R360). -/
def execBtsymLiteral11 (s : State) : Host.Outcome State Fault Refusal := run (symbolLiteral 11) s

/-- BTSYM_RUN4 (R360). -/
def execBtsymRun4 (s : State) : Host.Outcome State Fault Refusal := run (symbolRun 0) s

/-- BTSYM_RUN8 (R360). -/
def execBtsymRun8 (s : State) : Host.Outcome State Fault Refusal := run (symbolRun 1) s

/-- BTSYM_RUN12 (R360). -/
def execBtsymRun12 (s : State) : Host.Outcome State Fault Refusal := run (symbolRun 2) s

/-- BTSYM_RUN32 (R360). -/
def execBtsymRun32 (s : State) : Host.Outcome State Fault Refusal := run (symbolRun 3) s

end Sys2Proof.Machine
end

