-- ==== Sys2Proof/Machine/Exp.lean ====
section
/-! DEFINITION. Whether the exponential of a rational lies above another rational, decided exactly: R575 rounds a real value that
`exp` defines, once. The partial sums of the series close in from both sides, and no rational is the value itself, so some partial
sum decides. -/

namespace Sys2Proof.Machine

/-! ## The series -/

/-- `sum / den` is the sum of the first n terms of the exponential series at `a / b`, and `term / den` the term after them. -/
structure ExpSum where
  sum : Nat
  den : Nat
  term : Nat
deriving DecidableEq, Repr

/-- The first `n` terms of the series at `a / b`. -/
def expSum (a b : Nat) : (n : Nat) → ExpSum
  | 0 => { sum := 0, den := 1, term := 1 }
  | n + 1 =>
    let x := expSum a b n
    { sum := (x.sum + x.term) * (b * (n + 1)), den := x.den * (b * (n + 1)), term := x.term * a }

/-- What `n` terms tell of `p / q < exp(a / b)`: true where their sum is above, false where it is below even with twice the next
term, which bounds the rest once `2 * a / b <= n + 1`; else nothing. -/
def expCompare (a b p q n : Nat) : Option Bool :=
  let x := expSum a b n
  if p * x.den < x.sum * q then some true
  else if 2 * a ≤ b * (n + 1) ∧ (x.sum + 2 * x.term) * q < p * x.den then some false
  else none

/-! ## The exponential of a positive rational is irrational -/

/-- By the polynomial approximation that the proof of Lindemann and Weierstrass rests on: for a prime large enough, an integer that
the prime does not divide would be smaller than 1. -/
theorem exp_ratio_ne {a b q : ℕ} (p : ℕ) (ha : 0 < a) (hb : 0 < b) (hq : 0 < q) : Real.exp (a / b) ≠ p / q := by
  intro he
  have hp : 0 < p := Nat.pos_of_ne_zero fun h => (Real.exp_pos (a / b : ℝ)).ne' (by simp [he, h])
  have hb' : (b : ℂ) ≠ 0 := by exact_mod_cast hb.ne'
  have hq' : (q : ℂ) ≠ 0 := by exact_mod_cast hq.ne'
  have hec : Complex.exp ((a : ℂ) / b) = p / q := by
    have h := congrArg (fun x : ℝ => (x : ℂ)) he
    push_cast at h
    exact h
  let f : Polynomial ℤ := .C (b : ℤ) * .X - .C (a : ℤ)
  have h0 : f.eval 0 = -(a : ℤ) := by simp [f]
  have hdeg : f.natDegree ≤ 1 := by simp only [f]; compute_degree
  have hroot : ((a : ℂ) / b) ∈ f.aroots ℂ := by
    rw [Polynomial.mem_aroots]
    refine ⟨fun h => ?_, ?_⟩
    · rw [h] at h0; simp at h0; omega
    · simp [f]; field_simp; simp
  obtain ⟨c, hc⟩ := LindemannWeierstrass.exp_polynomial_approx f (by rw [h0]; simpa using ha.ne')
  have hlim : Filter.Tendsto (fun n : ℕ => (q : ℝ) * (b * |c|) * ((b * |c|) ^ n / (n.factorial : ℝ))) Filter.atTop
      (nhds 0) := by
    simpa using (FloorSemiring.tendsto_pow_div_factorial_atTop ((b : ℝ) * |c|)).const_mul ((q : ℝ) * (b * |c|))
  obtain ⟨N, hN⟩ := Filter.eventually_atTop.1 (hlim.eventually (gt_mem_nhds (show (0 : ℝ) < 1 by norm_num)))
  obtain ⟨P, hP, hprime⟩ := Nat.exists_infinite_primes (a + b + p + q + N + 2)
  obtain ⟨n, hn, gp, hgp, happ⟩ := hc P (by rw [h0]; simp; omega) hprime
  have happ := happ hroot
  have hPi : Prime (P : ℤ) := Nat.prime_iff_prime_int.1 hprime
  let G : ℤ := ∑ i ∈ Finset.range P, gp.coeff i * (a : ℤ) ^ i * (b : ℤ) ^ (P - i)
  have hG : (b : ℂ) ^ P * Polynomial.aeval ((a : ℂ) / b) gp = G := by
    rw [Polynomial.aeval_eq_sum_range' (n := P)
      (by have := hprime.two_le; have := Nat.mul_le_mul_left P hdeg; omega)]
    simp only [G, Int.cast_sum, Finset.mul_sum]
    refine Finset.sum_congr rfl fun i hi => ?_
    have e : (b : ℂ) ^ P = b ^ (P - i) * b ^ i := by rw [← pow_add, Nat.sub_add_cancel (Finset.mem_range.1 hi).le]
    push_cast
    rw [e, div_pow, zsmul_eq_mul]
    field_simp
  let Z : ℤ := n * p * b ^ P - P * (q * G)
  have hZ : (Z : ℂ)
      = q * b ^ P * (n • Complex.exp ((a : ℂ) / b) - P • Polynomial.aeval ((a : ℂ) / b) gp) := by
    have e : (q : ℂ) * b ^ P * (n • Complex.exp ((a : ℂ) / b) - P • Polynomial.aeval ((a : ℂ) / b) gp)
        = n * (q * Complex.exp ((a : ℂ) / b)) * b ^ P - P * (q * (b ^ P * Polynomial.aeval ((a : ℂ) / b) gp)) := by
      rw [zsmul_eq_mul, nsmul_eq_mul]; ring
    rw [e, hG, hec, mul_div_cancel₀ _ hq']
    simp [Z]
  have notdvd : ∀ m : ℕ, 0 < m → m < P → ¬ (P : ℤ) ∣ m := fun m h1 h2 h => by
    have := Nat.le_of_dvd h1 (Int.natCast_dvd_natCast.1 h); omega
  have hZ0 : Z ≠ 0 := fun hz => by
    have hd : (P : ℤ) ∣ n * p * b ^ P := ⟨q * G, by simp only [Z] at hz; linarith⟩
    rcases hPi.dvd_or_dvd hd with h | h
    · rcases hPi.dvd_or_dvd h with h | h
      · exact hn h
      · exact notdvd p hp (by omega) h
    · exact notdvd b hb (by omega) (hPi.dvd_of_dvd_pow h)
  have h1 : (1 : ℝ) ≤ ‖(Z : ℂ)‖ := by rw [Complex.norm_intCast]; exact_mod_cast Int.one_le_abs hZ0
  have h2 := hN (P - 1) (by omega)
  have h3 : ‖(Z : ℂ)‖ ≤ q * (b * |c|) * ((b * |c|) ^ (P - 1) / ((P - 1).factorial : ℝ)) := by
    have e1 : ‖(q : ℂ) * b ^ P‖ = q * b ^ P := by simp
    have e2 : c ^ P / ((P - 1).factorial : ℝ) ≤ |c| ^ P / ((P - 1).factorial : ℝ) :=
      div_le_div_of_nonneg_right ((le_abs_self _).trans_eq (abs_pow c P)) (by positivity)
    have e3 : P = (P - 1) + 1 := by omega
    rw [hZ, norm_mul, e1]
    calc (q : ℝ) * b ^ P * ‖_‖ ≤ q * b ^ P * (|c| ^ P / ((P - 1).factorial : ℝ)) := by gcongr; exact happ.trans e2
      _ = q * (b * |c|) * ((b * |c|) ^ (P - 1) / ((P - 1).factorial : ℝ)) := by
          rw [show (b : ℝ) ^ P = b ^ (P - 1) * b by rw [← pow_succ, ← e3],
            show |c| ^ P = |c| ^ (P - 1) * |c| by rw [← pow_succ, ← e3]]
          ring
  linarith

/-! ## The partial sums decide -/

/-- The sums and terms of `expSum`, as reals. -/
theorem expSum_value {a b : ℕ} (hb : 0 < b) (n : ℕ) :
    0 < (expSum a b n).den
      ∧ ((expSum a b n).sum : ℝ) / (expSum a b n).den = ∑ k ∈ Finset.range n, ((a : ℝ) / b) ^ k / k.factorial
      ∧ ((expSum a b n).term : ℝ) / (expSum a b n).den = ((a : ℝ) / b) ^ n / n.factorial := by
  have hb' : (b : ℝ) ≠ 0 := by exact_mod_cast hb.ne'
  induction n with
  | zero => simp [expSum]
  | succ n ih =>
    obtain ⟨h1, h2, h3⟩ := ih
    have hd : ((expSum a b n).den : ℝ) ≠ 0 := by exact_mod_cast h1.ne'
    have hn : ((n : ℝ) + 1) ≠ 0 := by positivity
    refine ⟨by simp only [expSum]; positivity, ?_, ?_⟩
    · rw [Finset.sum_range_succ, ← h2, ← h3]
      simp only [expSum]
      push_cast
      field_simp
    · have e : ((a : ℝ) / b) ^ (n + 1) / (n + 1).factorial
          = ((a : ℝ) / b) ^ n / n.factorial * (a / (b * (n + 1))) := by
        rw [pow_succ, Nat.factorial_succ]; push_cast; field_simp
      rw [e, ← h3]
      simp only [expSum]
      push_cast
      field_simp

/-- `n` terms are at most twice the next term away from the value, once `2 * a / b <= n + 1`. -/
theorem expSum_close {a b n : ℕ} (hb : 0 < b) (hn : 2 * a ≤ b * (n + 1)) :
    |Real.exp ((a : ℝ) / b) - (expSum a b n).sum / (expSum a b n).den|
      ≤ 2 * ((expSum a b n).term / (expSum a b n).den) := by
  have hb' : (0 : ℝ) < b := by exact_mod_cast hb
  obtain ⟨-, h2, h3⟩ := expSum_value (a := a) hb n
  have hx : ‖((a : ℂ) / b)‖ = (a : ℝ) / b := by simp
  have h := Complex.exp_bound' (x := (a : ℂ) / b) (n := n) (by
    rw [hx, div_div, div_le_div_iff₀ (by positivity) (by norm_num)]
    have : (2 * a : ℝ) ≤ b * (n + 1) := by exact_mod_cast hn
    push_cast
    linarith)
  rw [hx] at h
  rw [h2, h3]
  have e : Complex.exp ((a : ℂ) / b) - ∑ m ∈ Finset.range n, ((a : ℂ) / b) ^ m / m.factorial
      = ((Real.exp ((a : ℝ) / b) - ∑ k ∈ Finset.range n, ((a : ℝ) / b) ^ k / k.factorial : ℝ) : ℂ) := by
    push_cast; rfl
  rw [e, Complex.norm_real, Real.norm_eq_abs] at h
  linarith

/-- An answer of `expCompare` is right. -/
theorem expCompare_right {a b p q n : ℕ} (hb : 0 < b) (hq : 0 < q) {v : Bool} (h : expCompare a b p q n = some v) :
    v = true ↔ (p : ℝ) / q < Real.exp ((a : ℝ) / b) := by
  have hq' : (0 : ℝ) < q := by exact_mod_cast hq
  obtain ⟨hd, h2, h3⟩ := expSum_value (a := a) hb n
  have hd' : (0 : ℝ) < (expSum a b n).den := by exact_mod_cast hd
  unfold expCompare at h
  simp only at h
  split at h
  · rename_i hlt
    obtain rfl := Option.some.inj h
    have hlt' : (p : ℝ) * (expSum a b n).den < (expSum a b n).sum * q := by exact_mod_cast hlt
    refine ⟨fun _ => ?_, fun _ => rfl⟩
    calc (p : ℝ) / q < (expSum a b n).sum / (expSum a b n).den := by rwa [div_lt_div_iff₀ hq' hd']
      _ ≤ _ := by rw [h2]; exact Real.sum_le_exp_of_nonneg (by positivity) n
  · split at h
    · rename_i hlt
      obtain rfl := Option.some.inj h
      have hlt' : ((expSum a b n).sum + 2 * (expSum a b n).term : ℝ) * q < p * (expSum a b n).den := by
        exact_mod_cast hlt.2
      refine ⟨fun h => (nomatch h), fun h => absurd h (not_lt.2 ?_)⟩
      have hc := (abs_le.1 (expSum_close hb hlt.1)).2
      calc Real.exp ((a : ℝ) / b) ≤ ((expSum a b n).sum + 2 * (expSum a b n).term) / (expSum a b n).den := by
            rw [add_div, mul_div_assoc]; linarith
        _ ≤ p / q := ((div_lt_div_iff₀ hd' hq').2 hlt').le
    · exact nomatch h

/-- From some number of terms on, `expCompare` answers. -/
theorem expCompare_answers {a b p q : ℕ} (ha : 0 < a) (hb : 0 < b) (hq : 0 < q) :
    ∃ N, ∀ n, N ≤ n → (expCompare a b p q n).isSome = true := by
  have hq' : (0 : ℝ) < q := by exact_mod_cast hq
  have hlim : Filter.Tendsto (fun n : ℕ => 4 * (((a : ℝ) / b) ^ n / n.factorial)) Filter.atTop (nhds 0) := by
    simpa using (FloorSemiring.tendsto_pow_div_factorial_atTop ((a : ℝ) / b)).const_mul 4
  have hgap : 0 < |Real.exp ((a : ℝ) / b) - p / q| := abs_pos.2 (sub_ne_zero.2 (exp_ratio_ne p ha hb hq))
  obtain ⟨N, hN⟩ := Filter.eventually_atTop.1 (hlim.eventually (gt_mem_nhds hgap))
  refine ⟨max N (2 * a), fun n hn => ?_⟩
  have hn2 : 2 * a ≤ b * (n + 1) := by
    calc 2 * a ≤ 1 * (n + 1) := by omega
      _ ≤ b * (n + 1) := Nat.mul_le_mul_right _ hb
  obtain ⟨hd, h2, h3⟩ := expSum_value (a := a) hb n
  have hd' : (0 : ℝ) < (expSum a b n).den := by exact_mod_cast hd
  have hsmall := hN n (by omega)
  rw [← h3] at hsmall
  have hc := abs_le.1 (expSum_close hb hn2)
  have ht : (0 : ℝ) ≤ (expSum a b n).term / (expSum a b n).den := by positivity
  unfold expCompare
  simp only
  split
  · rfl
  · rename_i hlt
    rw [if_pos]
    · rfl
    refine ⟨hn2, ?_⟩
    have hle : ((expSum a b n).sum : ℝ) / (expSum a b n).den ≤ p / q := by
      rw [div_le_div_iff₀ hd' hq']
      exact_mod_cast not_lt.1 hlt
    have h4 : ((expSum a b n).sum + 2 * (expSum a b n).term : ℝ) / (expSum a b n).den < p / q := by
      rw [add_div, mul_div_assoc]
      rcases abs_cases (Real.exp ((a : ℝ) / b) - p / q) with ⟨e, -⟩ | ⟨e, -⟩ <;> linarith
    have := (div_lt_div_iff₀ hd' hq').1 h4
    exact_mod_cast this

/-- Some power of two of terms answers. -/
theorem expCompare_answers_pow {a b q : ℕ} (p : ℕ) (h : 0 < a ∧ 0 < b ∧ 0 < q) :
    ∃ j, (expCompare a b p q (2 ^ j)).isSome = true := by
  obtain ⟨N, hN⟩ := expCompare_answers (p := p) h.1 h.2.1 h.2.2
  exact ⟨N, hN _ Nat.lt_two_pow_self.le⟩

/-- `p / q < exp(a / b)`, exactly, for positive a, b and q. The first tries are a bounded search, so that they evaluate; the search
after them ends by `expCompare_answers_pow`. -/
def expAbove (a b p q : Nat) : Bool :=
  if h : 0 < a ∧ 0 < b ∧ 0 < q then
    match (List.range 12).findSome? fun j => expCompare a b p q (2 ^ j) with
    | some v => v
    | none => (expCompare a b p q (2 ^ Nat.find (expCompare_answers_pow p h))).getD false
  else false

theorem expAbove_iff {a b q : ℕ} (p : ℕ) (ha : 0 < a) (hb : 0 < b) (hq : 0 < q) :
    expAbove a b p q = true ↔ (p : ℝ) / q < Real.exp ((a : ℝ) / b) := by
  rw [expAbove, dif_pos ⟨ha, hb, hq⟩]
  split
  · rename_i v hv
    obtain ⟨j, -, hj⟩ := List.exists_of_findSome?_eq_some hv
    exact expCompare_right hb hq hj
  · obtain ⟨v, hv⟩ := Option.isSome_iff_exists.1 (Nat.find_spec (expCompare_answers_pow p ⟨ha, hb, hq⟩))
    rw [hv]
    exact expCompare_right hb hq hv

end Sys2Proof.Machine
end

