-- ==== Sys2Proof/Machine/Float.lean ====
section
/-! DEFINITION. IEEE 754 binary32 on bit patterns: rounding to nearest with ties to even and subnormals kept
(spec/00_scope.md R29), the products the audio unit forms, the quantiser entries of R575, and the rounding of a sample
to an integer (spec/45_audio.md R590). -/

namespace Sys2Proof.Machine

/-- The exponent field of a binary32. -/
def f32Exponent (x : F32) : Nat := x.toNat / 2 ^ 23 % 256
/-- The fraction field of a binary32. -/
def f32Fraction (x : F32) : Nat := x.toNat % 2 ^ 23
/-- The sign of a binary32. -/
def f32Negative (x : F32) : Bool := x.getLsbD 31
/-- A NaN. -/
def f32IsNaN (x : F32) : Bool := f32Exponent x == 255 && f32Fraction x != 0
/-- An infinity. -/
def f32IsInf (x : F32) : Bool := f32Exponent x == 255 && f32Fraction x == 0

/-- The integer significand of a finite binary32. -/
def f32Significand (x : F32) : Nat := if f32Exponent x = 0 then f32Fraction x else f32Fraction x + 2 ^ 23
/-- The power of two its significand counts: a finite binary32 is `± significand * 2^scale`. -/
def f32Scale (x : F32) : Int := if f32Exponent x = 0 then -149 else (f32Exponent x : Int) - 150

/-- A pattern from its sign and its magnitude bits. -/
def f32OfParts (negative : Bool) (magnitude : Nat) : F32 :=
  BitVec.ofNat 32 (magnitude + if negative then 2 ^ 31 else 0)

/-- The result of an invalid operation: a quiet NaN whose other bits are free (assumption 4). -/
def f32NaN : F32 := 0x7FC00000 ||| Config.nanBits

/-- `m / 2^d` rounded to the nearest integer, ties to even. -/
def roundShift (m d : Nat) : Nat :=
  let q := m / 2 ^ d
  let r := m % 2 ^ d
  if 2 ^ d < 2 * r ∨ (2 * r = 2 ^ d ∧ q % 2 = 1) then q + 1 else q

/-- `f32(± m * 2^e)`: the nearest binary32, ties to even, subnormals kept, infinity on overflow (R29). -/
def f32Round (negative : Bool) (m : Nat) (e : Int) : F32 :=
  if m = 0 then f32OfParts negative 0
  else
    let q : Int := max (Nat.log2 m + e - 23) (-149)
    let n := if q ≤ e then m * 2 ^ (e - q).toNat else roundShift m (q - e).toNat
    f32OfParts negative (min ((q + 149).toNat * 2 ^ 23 + n) 0x7F800000)

/-- The binary32 product of two values (R29). -/
def f32Mul (x y : F32) : F32 :=
  let negative := f32Negative x != f32Negative y
  if f32IsNaN x || f32IsNaN y then f32NaN
  else if f32IsInf x || f32IsInf y then
    if f32Significand x = 0 ∨ f32Significand y = 0 then f32NaN else f32OfParts negative 0x7F800000
  else f32Round negative (f32Significand x * f32Significand y) (f32Scale x + f32Scale y)

/-- The negation of a value. -/
def f32Neg (x : F32) : F32 := x ^^^ 0x80000000

/-- The binary32 of a natural number. -/
def f32OfNat (n : Nat) : F32 := f32Round false n 0

/-- `RoundHalfEven` of a value that is no NaN, clamped to `lo..hi`; an infinity clamps (R590). -/
def f32ToClamped (lo hi : Int) (x : F32) : Int :=
  let m := f32Significand x
  let n : Nat := if 0 ≤ f32Scale x then m * 2 ^ (f32Scale x).toNat else roundShift m (-f32Scale x).toNat
  let v : Int := if f32Negative x then -(n : Int) else n
  if f32IsInf x then (if f32Negative x then lo else hi) else max lo (min hi v)

/-! ## The quantiser table (R575) -/

/-- The real `exp(a / 10^20) * |root|` lies above the midpoint between the binary32 of magnitude bits `m` and the next one, for a
finite root that is not 0; after the largest finite one the next is 2^128 (R29). -/
def aboveMidpoint (a : Nat) (root : F32) (m : Nat) : Bool :=
  let x : F32 := BitVec.ofNat 32 m
  let d := f32Scale x - 1 - f32Scale root
  expAbove a (10 ^ 20) ((2 * f32Significand x + 1) * 2 ^ d.toNat) (f32Significand root * 2 ^ (-d).toNat)

/-- The magnitude bits that a value rounds to, from which midpoints it lies above: `n` where it lies above all before `n`, with
`bits` bits to find. -/
def nearestMagnitude (above : Nat → Bool) : (bits n : Nat) → Nat
  | 0, n => n
  | k + 1, n =>
    if n + 2 ^ k ≤ 0x7F800000 ∧ above (n + 2 ^ k - 1) = true then nearestMagnitude above k (n + 2 ^ k)
    else nearestMagnitude above k n

/-- Entry `i` of `QTable`: `f32(exp(i * AUDIO_Q_CONST) * root)`, the real value rounded once (R575), for any constant: the value is
no midpoint, because `exp` of a positive rational is irrational. A root that is no finite number stays (assumption 18). -/
def qtabEntry (step : Nat) (root : F32) (i : Nat) : F32 :=
  if f32Exponent root = 255 ∨ f32Significand root = 0 ∨ i * step = 0 then root
  else f32OfParts (f32Negative root) (nearestMagnitude (aboveMidpoint (i * step) root) 31 0)

end Sys2Proof.Machine
end

