-- ==== Sys2Proof/Machine/Audio.lean ====
section
/-! DEFINITION. The audio unit: track configuration, the AUDIO_RUN family (the coefficient runs of a channel), and the
steps of the packet loop around them (spec/45_audio.md R570 to R602). -/

namespace Sys2Proof.Machine

/-! ## Track configuration -/

/-- `FrameLength(rate)` (R571). -/
def frameLength (rate : Nat) : Nat := if rate < 22050 then 512 else if rate < 44100 then 1024 else 2048

/-- `nb` of `Bands` (R574): the least n in 1..24 whose frequency reaches the half rate, else 25, the number of
frequencies. -/
def bandCount (freqs : List Nat) (srh : Nat) : Nat := min (freqs.findIdx (fun f => srh ≤ f) + 1) freqs.length

/-- `band[0..nb]` of `Bands(rate, N)` (R574); the half rate is `floor((rate + 1) / 2)`. -/
def bands (freqs : List Nat) (rate n : Nat) : List Nat :=
  let srh := (rate + 1) / 2
  2 :: ((freqs.take (bandCount freqs srh - 1)).map fun f => f * n / srh / 2 * 2) ++ [n]

/-- `TrackSetup(t)` from the track's record (R570); `prev` is unwritten (R96). What `coef` and `out` (R95) hold after OPEN no
rule says: here every element of them is unwritten (DESIGN CHOICE, assumption 6). `outLen` is 0, so no byte of `out` is read
before it is written. -/
def trackSetup (p : Params) (rate flags : BitVec 16) : Track :=
  let ch := if flags.getLsbD 13 then 2 else 1
  let kind : TransformKind := if flags.getLsbD 12 then .dct else .rdft
  let n := frameLength rate.toNat
  { rate := rate, flags := flags, ch := ch, kind := kind, n := n, ov := n / 16,
    nb := bandCount p.criticalFreqs ((rate.toNat + 1) / 2), band := bands p.criticalFreqs rate.toNat n,
    qtab := (List.range 96).map (qtabEntry p.audioQConst (Config.audioRoot kind n)),
    coef := List.replicate ch [], prev := [], first := true, out := [], outLen := 0, trunc := false }

/-! ## The track in hand -/

/-- The track the sequencer works on. -/
def currentTrack : M Track := do
  let s ← get
  getOr s.tracks[s.ctl.track]? .absentUnit

/-- A change of the track the sequencer works on. -/
def modifyTrack (f : Track → Track) : M Unit := do
  let x ← currentTrack
  modify fun s => s.setTrack s.ctl.track (f x)

/-- A change of the sequencer's locals. -/
def modifyCtl (f : Ctl → Ctl) : M Unit := modify fun s => s.setCtl (f s.ctl)

/-- `A[t].coef[c][i] <- v`. -/
def setSample (c i : Nat) (v : F32) : M Unit :=
  modifyTrack fun x => { x with coef := x.coef.set c (Cells.set (x.coef.getD c []) i v) }

/-! ## Operands -/

/-- `ReadFloat()` (R577). -/
def readFloat : M F32 := do
  let e ← getBits 5
  let m ← getBits 23
  let s ← getBit
  pure (f32Round (s == 1) m ((e : Int) - 23))

/-- `CoefValue(w, q)` (R582). -/
def audioCoefValue (w : Nat) (q : F32) : M F32 := do
  let v ← getBits w
  if v = 0 then pure 0
  else do
    let s ← getBit
    let p := f32Mul q (f32OfNat v)
    pure (if s = 1 then f32Neg p else p)

/-- One quantiser index and its entry of `qtab` (R578). -/
def audioQuantiser (qtab : List F32) : M F32 := do
  let i ← getBits 8
  getOr qtab[min i 95]? .unwrittenField

/-! ## Coefficient runs (R581) -/

/-- The next band's quantiser: `q <- quant[k]; k <- k + 1`. -/
def nextBand : M Unit := do
  let s ← get
  let q ← getOr s.ctl.quant[s.ctl.bandK]? .unwrittenField
  modifyCtl fun x => { x with bandQ := q, bandK := x.bandK + 1 }

/-- `band[k]`. -/
def bandEdge : M Nat := do
  let s ← get
  let x ← currentTrack
  getOr x.band[s.ctl.bandK]? .unwrittenField

/-- `while band[k] < i: q <- quant[k]; k <- k + 1`; a track has `nb` bands, so `nb + 1` rounds reach the end. -/
def skipBands : (fuel : Nat) → M Unit
  | 0 => refuse .loopBound
  | fuel + 1 => do
    let e ← bandEdge
    let s ← get
    if e < s.ctl.coefPos then do
      nextBand
      skipBands fuel
    else pure ()

/-- `n` coefficients of `w` bits each from position `i` on, with the quantiser changed at band boundaries. -/
def codedRun (w : Nat) : (n : Nat) → M Unit
  | 0 => pure ()
  | n + 1 => do
    let e ← bandEdge
    let s ← get
    if e = s.ctl.coefPos then nextBand else pure ()
    let s ← get
    let v ← audioCoefValue w s.ctl.bandQ
    setSample s.ctl.chan s.ctl.coefPos v
    modifyCtl fun x => { x with coefPos := x.coefPos + 1 }
    codedRun w n

/-- A run of up to `len` positions, cut at the frame length: zeros for width 0, else coded coefficients (R581). -/
def audioRun (len : Nat) (width : BitVec 4) : M Unit := do
  atPhase .audioCoef
  let x ← currentTrack
  let s ← get
  let i := s.ctl.coefPos
  demand (decide (i < x.n)) .elementOutOfPlace
  let j := min (i + len) x.n
  if width = 0 then do
    modifyTrack fun y =>
      { y with
        coef := y.coef.set s.ctl.chan
          (Cells.setFrom (y.coef.getD s.ctl.chan []) i (List.replicate (j - i) 0)) }
    modifyCtl fun c => { c with coefPos := j }
    skipBands (x.nb + 1)
  else codedRun width.toNat (j - i)

/-- AUDIO_RUN8: a run of 8 (R581). -/
def execAudioRun8 (width : BitVec 4) (s : State) : Host.Outcome State Fault Refusal := run (audioRun 8 width) s

/-- AUDIO_RUN_RLE: a run of `8 * AUDIO_RLE_LEN[idx]` (R580, R581). -/
def execAudioRunRle (idx width : BitVec 4) (s : State) : Host.Outcome State Fault Refusal :=
  run (audioRun (8 * s.params.audioRle idx.toNat) width) s

/-! ## The packet loop (R595) and the block around the runs (R576) -/

/-- The track is done: STATUS.AUDIO_TRUNC takes its flag in, and the loop over tracks goes on (R637). -/
def endTrack : M Unit := do
  let x ← currentTrack
  modify fun s =>
    (s.setRegs { s.regs with audioTrunc := s.regs.audioTrunc || x.trunc }).setCtl
      { s.ctl with phase := .audioTrack, track := s.ctl.track + 1 }

/-- The output bytes of one block (R572). -/
def blockBytes (x : Track) : Nat := 2 * (x.n - x.ov) * x.ch

/-- The opening of `AudioPacket(t, a, sz)` (R595, R601). -/
def openAudioPacket : M Unit := do
  let s ← get
  let k ← getOr s.ctl.packets[s.ctl.track]? .absentUnit
  modifyTrack fun x => { x with outLen := 0, trunc := false }
  if k.sz < 4 then endTrack
  else do
    bitReaderOpen (k.a + 4) (k.sz - 4)
    modify fun s => s.setPhase .audioLoop

/-- The head of the block loop of `AudioPacket` (R595, R600), with the DCT prefix of the block it starts (R587). -/
def audioLoopHead : M Unit := do
  let s ← get
  let k ← getOr s.ctl.packets[s.ctl.track]? .absentUnit
  let x ← currentTrack
  if s.bitPos / 8 < k.sz - 4 then
    if Config.audioFrameBufBytes s.ctl.track x.rate x.ch x.kind < x.outLen + blockBytes x then do
      modifyTrack fun x => { x with trunc := true }
      endTrack
    else do
      if x.kind = .dct then skipBits s.params.audioDctPrefixBits else pure ()
      modifyCtl fun c => { c with phase := .audioHead, chan := 0 }
  else endTrack

/-- The two floats and the quantisers of a channel, and the start of its runs (R576, R581). -/
def audioHead : M Unit := do
  let s ← get
  let x ← currentTrack
  let root := Config.audioRoot x.kind x.n
  let f0 ← readFloat
  setSample s.ctl.chan 0 (f32Mul f0 root)
  let f1 ← readFloat
  setSample s.ctl.chan 1 (f32Mul f1 root)
  let quant ← readMany (audioQuantiser x.qtab) x.nb
  let q ← getOr quant[0]? .unwrittenField
  modifyCtl fun c => { c with phase := .audioCoef, quant := quant, bandK := 0, bandQ := q, coefPos := 2 }

/-- The transform of one channel's coefficients (R585, R586). -/
def transformed (p : Params) (kind : TransformKind) (n : Nat) (c : List F32) : List F32 :=
  match kind with
  | .rdft => (List.range n).map (Config.invRdft n c)
  | .dct =>
    let c' := c.set 0 (f32Mul (c.getD 0 0) p.dctC0Factor)
    (List.range n).map fun i => f32Mul (Config.dctIII n c' i) (f32OfNat (p.postScale n))

/-- `Transform(t, c)`, then the next channel or the block's output (R576, R588). -/
def audioTransform : M Unit := do
  let s ← get
  let x ← currentTrack
  let c ← getOr (Cells.slice (x.coef.getD s.ctl.chan []) 0 x.n) .unwrittenField
  modifyTrack fun y =>
    { y with coef := y.coef.set s.ctl.chan (Cells.setFrom [] 0 (transformed s.params x.kind x.n c)) }
  modifyCtl fun z =>
    { z with phase := if s.ctl.chan + 1 < x.ch then .audioHead else .audioEmit, chan := z.chan + 1 }

/-- One sample of `ToPCM`; a NaN is refused (R590). -/
def pcmSample (x : Track) (i : Nat) : M Int := do
  let v ← getOr (Cells.get (x.coef.getD (i % x.ch) []) (i / x.ch)) .unwrittenField
  demand (!f32IsNaN v) .transformNaN
  pure (f32ToClamped (-32768) 32767 v)

/-- `pcmSample` of the indices from `i` on, `n` of them. -/
def pcmSamples (x : Track) : (n i : Nat) → M (List Int)
  | 0, _ => pure []
  | n + 1, i => do
    let v ← pcmSample x i
    let vs ← pcmSamples x n (i + 1)
    pure (v :: vs)

/-- The blended sample `i` of the `cnt` first ones (R591). -/
def blended (cnt i : Nat) (old new : Int) : Int := (old * ((cnt : Int) - i) + new * i) >>> Nat.log2 cnt

/-- The first `cnt` samples blended with the retained tail, unless the track's first block is at hand (R591, R593). -/
def crossFade (x : Track) (cnt : Nat) (pcm : List Int) : M (List Int) :=
  if x.first then pure pcm
  else do
    let tail ← getOr (Cells.slice x.prev 0 cnt) .unwrittenField
    pure (((List.range cnt).map fun i => blended cnt i (tail.getD i 0).toInt (pcm.getD i 0)) ++ pcm.drop cnt)

/-- The two bytes of a sample, the low one first (R157). -/
def sampleBytes (v : Int) : List Byte :=
  [(BitVec.ofInt 16 v).setWidth 8, ((BitVec.ofInt 16 v) >>> 8).setWidth 8]

/-- `ToPCM`, `OverlapAndEmit` and the alignment after the block (R590 to R592, R595). -/
def audioEmit : M Unit := do
  let x ← currentTrack
  let pcm0 ← pcmSamples x (x.n * x.ch) 0
  let pcm ← crossFade x (x.ov * x.ch) pcm0
  let m := (x.n - x.ov) * x.ch
  modifyTrack fun y =>
    { y with
      prev := Cells.setFrom [] 0 ((pcm.drop m).map (BitVec.ofInt 16))
      out := Cells.setFrom y.out y.outLen ((pcm.take m).flatMap sampleBytes)
      outLen := y.outLen + 2 * m
      first := false }
  alignTo32
  modify fun s => s.setPhase .audioLoop

end Sys2Proof.Machine
end

