-- ==== Sys2Proof/Machine/Commands.lean ====
section
/-! DEFINITION. The CMD family: the six host commands and the illegal codes (spec/46_host_commands.md R630 to R656), with
the plane geometry of spec/42_block_dispatch.md R400 and the bundle capacities of spec/41_bundles.md R352. -/

namespace Sys2Proof.Machine

/-! ## OPEN (R630 to R633) -/

/-- `ceil(a / b)`. -/
def ceilDiv (a b : Nat) : Nat := (a + b - 1) / b

/-- The bytes of a new plane buffer of `n` bytes: every byte `⊥` under the policy `poison` (P33, R631). -/
def newPixels (policy : PlaneReset) (n : Nat) : Cells Byte :=
  match policy with
  | .poison => []
  | .fill v => (List.range n).map fun a => (a, v)

/-- A plane of the given visible size and block grid (R400, R631). -/
def newPlane (policy : PlaneReset) (w h bw bh : Nat) : Plane :=
  let pitch := 16 * ceilDiv (8 * bw) 16
  let rows := 16 * ceilDiv (8 * bh) 16
  { w := w, h := h, bw := bw, bh := bh, pitch := pitch, rows := rows, cur := newPixels policy (pitch * rows),
    last := newPixels policy (pitch * rows) }

/-- The luma and alpha geometry (R400). -/
def lumaPlane (policy : PlaneReset) (w h : Nat) : Plane := newPlane policy w h (ceilDiv w 8) (ceilDiv h 8)

/-- The chroma geometry (R400). -/
def chromaPlane (policy : PlaneReset) (w h : Nat) : Plane :=
  newPlane policy (ceilDiv w 2) (ceilDiv h 2) (ceilDiv w 16) (ceilDiv h 16)

/-- The planes of a session (R82, R400, R631). -/
def newPlanes (r : PlaneReset) (w h : Nat) (alpha : Bool) : Planes :=
  { y := some (lumaPlane r w h), u := some (chromaPlane r w h), v := some (chromaPlane r w h),
    a := if alpha then some (lumaPlane r w h) else none }

/-- `BUNDLE_CAPACITY(b)` (R352). -/
def bundleCapacity (p : Params) (b : BundleId) (w h : Nat) : Nat := (p.bundle b).capMul * ceilDiv w 8 * ceilDiv h 8

/-- A bundle after OPEN (R631). -/
def newBundle (p : Params) (b : BundleId) (w h : Nat) : Bundle := { Bundle.reset with cap := bundleCapacity p b w h }

/-- The bundles after OPEN (R631). -/
def newBundles (p : Params) (w h : Nat) : Bundles :=
  { blockTypes := newBundle p .blockTypes w h, subBlockTypes := newBundle p .subBlockTypes w h,
    colors := newBundle p .colors w h, pattern := newBundle p .pattern w h, xOff := newBundle p .xOff w h,
    yOff := newBundle p .yOff w h, intraDc := newBundle p .intraDc w h, interDc := newBundle p .interDc w h,
    run := newBundle p .run w h }

/-- An offset of the frame index without its keyframe bit (R203). -/
def evenPart (x : Nat) : Nat := x / 2 * 2

/-- The values rise, an equal neighbour allowed (R633). -/
def rising : List Nat → Bool
  | a :: b :: l => decide (a ≤ b) && rising (b :: l)
  | _ => true

/-- `TrackChecks(n, fsize)` (R632). -/
def trackChecks (p : Params) (m : List Host.Cell) (n fsize : Nat) : M Unit := do
  check (decide (n ≤ p.maxAudioTracks)) .badAudio
  check (decide (44 + 12 * n ≤ fsize)) .truncated
  forEach (List.range n) fun t => check (Memory.u16 m (44 + 4 * n + 4 * t) != 0) .badAudio

/-- The frame index read at `x` (R203): entry j, its end the next entry's offset or the file size. -/
def readFrames (m : List Host.Cell) (x fc fsize : Nat) : List Frame :=
  (List.range fc).map fun j =>
    let e := Memory.u32 m (x + 4 * j)
    let stop := if j + 1 < fc then evenPart (Memory.u32 m (x + 4 * (j + 1))) else fsize
    { byteOffset := evenPart e, byteSize := stop - evenPart e, isKeyframe := e % 2 == 1 }

/-- The track records read from the table after the header (R202, R570). -/
def readTracks (p : Params) (m : List Host.Cell) (n : Nat) : List Track :=
  (List.range n).map fun t =>
    trackSetup p (BitVec.ofNat 16 (Memory.u16 m (44 + 4 * n + 4 * t)))
      (BitVec.ofNat 16 (Memory.u16 m (44 + 4 * n + 4 * t + 2)))

/-- The session fields OPEN reads from the header (R630, R201). -/
def readSession (m : List Host.Cell) : Session :=
  let fsize := Memory.u32 m 4 + 8
  let fc := Memory.u32 m 8
  let n := Memory.u32 m 40
  { signature := BitVec.ofNat 32 (Memory.u32 m 0), version := Memory.byte m 3, fileSize := BitVec.ofNat 32 fsize,
    frameCount := BitVec.ofNat 32 fc, largestFrame := BitVec.ofNat 32 (Memory.u32 m 12),
    width := BitVec.ofNat 32 (Memory.u32 m 20), height := BitVec.ofNat 32 (Memory.u32 m 24),
    fpsNum := BitVec.ofNat 32 (Memory.u32 m 28), fpsDen := BitVec.ofNat 32 (Memory.u32 m 32),
    videoFlags := BitVec.ofNat 32 (Memory.u32 m 36), hasAlpha := (BitVec.ofNat 32 (Memory.u32 m 36)).getLsbD 20,
    gray := (BitVec.ofNat 32 (Memory.u32 m 36)).getLsbD 17, trackCount := BitVec.ofNat 32 n,
    frames := readFrames m (44 + 12 * n) fc fsize, curFrame := 0 }

/-- The checks of OPEN, in order (R630, R656). -/
def openChecks : M Unit := do
  let s ← get
  let m := s.container
  let len := s.regs.arg0.toNat
  check (!s.regs.isOpen) .alreadyOpen
  check (len != 0) .noSource
  check (decide (44 ≤ len)) .truncated
  let sig : Word := BitVec.ofNat 32 (Memory.u32 m 0)
  check (!s.params.unsupportedSignatures.contains sig) .unsupported
  check (s.params.acceptedSignatures.contains sig) .badSignature
  let fsize := Memory.u32 m 4 + 8
  check (decide (fsize ≤ len)) .truncated
  let fc := Memory.u32 m 8
  check (decide (fc ≤ s.params.maxFrameCount)) .frameCount
  check (decide (Memory.u32 m 12 ≤ fsize)) .largestFrame
  let w := Memory.u32 m 20
  let h := Memory.u32 m 24
  check (decide (1 ≤ w) && decide (1 ≤ h) && decide (w ≤ s.params.maxDim) && decide (h ≤ s.params.maxDim)) .badDimensions
  let n := Memory.u32 m 40
  trackChecks s.params m n fsize
  let x := 44 + 12 * n
  check (decide (x + 4 * (fc + 1) ≤ fsize)) .truncated
  check (rising (((List.range fc).map fun j => evenPart (Memory.u32 m (x + 4 * j))) ++ [fsize])) .badIndex

/-- The session OPEN sets up once every check has passed (R630, R631, R732). -/
def openedState (s : State) : State :=
  let m := s.container
  let w := Memory.u32 m 20
  let h := Memory.u32 m 24
  ((((((((s.setSession (readSession m)).setPlanes (newPlanes s.params.planeReset w h (readSession m).hasAlpha)).setBundles
    (newBundles s.params w h)).setColHigh (List.replicate 16 Tree.reset)).setColLast 0).setBr BitReader.reset).setTracks
    (readTracks s.params m (Memory.u32 m 40)))).setRegs
    { s.regs with isOpen := true, frameValid := false, bitpos := 0, frameKey := false }

/-- CMD_OPEN (R630). -/
def execCmdOpen (s : State) : Host.Outcome State Fault Refusal :=
  run (do
    whileIdle
    openChecks
    modify openedState
    let s ← get
    succeed s.session.frameCount 0 0) s

/-! ## CLOSE, SEEK and the audio commands -/

/-- The precondition of every session command: STATUS.OPEN (R656). -/
def requireOpen : M Unit := do
  whileIdle
  let s ← get
  check s.regs.isOpen .notOpen

/-- CMD_CLOSE: the reset state, then the command's result (R635). -/
def execCmdClose (s : State) : Host.Outcome State Fault Refusal :=
  run (do
    requireOpen
    modify State.coreReset
    succeed 0 0 0) s

/-- CMD_SEEK: index reassignment only (R641). -/
def execCmdSeek (s : State) : Host.Outcome State Fault Refusal :=
  run (do
    requireOpen
    let s ← get
    check (decide (s.regs.arg0 ≤ s.session.frameCount)) .seekRange
    set (s.setSession { s.session with curFrame := s.regs.arg0 })
    succeed 0 0 0) s

/-- The track ARG0 names (R645, R648). -/
def argTrack : M Track := do
  requireOpen
  let s ← get
  check (decide (s.regs.arg0 < s.session.trackCount)) .badTrack
  getOr s.tracks[s.regs.arg0.toNat]? .absentUnit

/-- CMD_READ_AUDIO (R645). -/
def execCmdReadAudio (s : State) : Host.Outcome State Fault Refusal :=
  run (do
    let x ← argTrack
    let s ← get
    let k := min x.outLen (s.regs.arg1.toNat / 2 * 2)
    let bytes ← getOr (Cells.slice x.out 0 k) .unwrittenField
    set ((s.setPcmOut (Cells.setFrom s.pcmOut 0 bytes)).setTrack s.regs.arg0.toNat { x with outLen := 0 })
    succeed (BitVec.ofNat 32 k) 0 0) s

/-- CMD_AUDIO_TRACK_INFO (R648). -/
def execCmdAudioTrackInfo (s : State) : Host.Outcome State Fault Refusal :=
  run (do
    let x ← argTrack
    succeed (x.rate.setWidth 32) (BitVec.ofNat 32 x.ch)
      (Config.idealBufferBytes s.regs.arg0.toNat x.rate x.ch x.kind)) s

/-! ## DECODE_NEXT_FRAME (R637, R638) -/

/-- `PacketLayout(i)` from byte `a` on, `n` tracks left: the packets, then the video packet's start (R638). -/
def packetLayout (m : List Host.Cell) (stop : Nat) : (n a : Nat) → M (List Packet × Nat)
  | 0, a => pure ([], a)
  | n + 1, a => do
    check (decide (a + 4 ≤ stop)) .packetRange
    let sz := Memory.u32 m a
    check (decide (a + 4 + sz ≤ stop)) .packetRange
    let (ps, v) ← packetLayout m stop n (a + 4 + sz)
    pure ({ a := a + 4, sz := sz } :: ps, v)

/-- CMD_DECODE_NEXT_FRAME up to its packet layout (R637); the sequencer then decodes the audio packets and the video
packet (Sequencer.lean), and the command's result is written when it ends. -/
def execCmdDecodeNextFrame (s : State) : Host.Outcome State Fault Refusal :=
  run (do
    requireOpen
    let s ← get
    let i := s.session.curFrame
    check (i != s.session.frameCount) .endOfStream
    let f ← getOr s.session.frames[i.toNat]? .absentUnit
    set ((((s.setSession { s.session with curFrame := i + 1 }).setRegs
      { s.regs with frameKey := f.isKeyframe, bitpos := 0, audioTrunc := false }).setTracks
      (s.tracks.map fun x => { x with outLen := 0, trunc := false })).setCtl
      { s.ctl with video := false, frame := i.toNat, track := 0 })
    let stop := f.byteOffset + f.byteSize
    let (ps, v) ← packetLayout s.container stop s.session.trackCount.toNat f.byteOffset
    modify fun s =>
      s.setCtl { s.ctl with phase := .audioTrack, packets := ps, vbase := v, vlen := stop - v }) s

/-! ## Illegal codes (R652) -/

/-- An illegal command code. -/
def badCommand : M Unit := do
  whileIdle
  raise .badCommand

/-- CMD_ILLEGAL_00 (R652). -/
def execCmdIllegal00 (s : State) : Host.Outcome State Fault Refusal := run badCommand s

/-- CMD_ILLEGAL_07 (R652). -/
def execCmdIllegal07 (s : State) : Host.Outcome State Fault Refusal := run badCommand s

/-- CMD_ILLEGAL_08_0F: the low bits of the code change nothing (R652). -/
def execCmdIllegal08 (_ : BitVec 3) (s : State) : Host.Outcome State Fault Refusal := run badCommand s

/-- CMD_ILLEGAL_10_1F (R652). -/
def execCmdIllegal10 (_ : BitVec 4) (s : State) : Host.Outcome State Fault Refusal := run badCommand s

/-- CMD_ILLEGAL_20_3F (R652). -/
def execCmdIllegal20 (_ : BitVec 5) (s : State) : Host.Outcome State Fault Refusal := run badCommand s

/-- CMD_ILLEGAL_40_7F (R652). -/
def execCmdIllegal40 (_ : BitVec 6) (s : State) : Host.Outcome State Fault Refusal := run badCommand s

/-- CMD_ILLEGAL_80_FF (R652). -/
def execCmdIllegal80 (_ : BitVec 7) (s : State) : Host.Outcome State Fault Refusal := run badCommand s

end Sys2Proof.Machine
end

