-- ==== Sys2Proof/Machine/Regs.lean ====
section
/-! DEFINITION. The register families: the host's writes of ARG0 and ARG1 and its reads of the nineteen registers
(spec/10_state.md R60 to R62; spec/20_memory.md R155; spec/46_host_commands.md R650). A read changes no state of the core;
the word it returns stands in `readData`. -/

namespace Sys2Proof.Machine

/-- A register read returns `value` to the host; no state of the core changes (R167, R650). -/
def hostRead (value : State → Word) : M Unit := do
  whileIdle
  modify fun s => s.setReadData (some (value s))

/-- WR_ARG0 (R60, R62). -/
def execWrArg0 (value : Word) (s : State) : Host.Outcome State Fault Refusal :=
  run (do
    whileIdle
    modify fun s => s.setRegs { s.regs with arg0 := value }) s

/-- WR_ARG1 (R60, R62). -/
def execWrArg1 (value : Word) (s : State) : Host.Outcome State Fault Refusal :=
  run (do
    whileIdle
    modify fun s => s.setRegs { s.regs with arg1 := value }) s

/-- RD_CMD: CMD reads 0 (R60). -/
def execRdCmd (s : State) : Host.Outcome State Fault Refusal := run (hostRead fun _ => 0) s

/-- RD_ARG0. -/
def execRdArg0 (s : State) : Host.Outcome State Fault Refusal := run (hostRead fun s => s.regs.arg0) s

/-- RD_ARG1. -/
def execRdArg1 (s : State) : Host.Outcome State Fault Refusal := run (hostRead fun s => s.regs.arg1) s

/-- RD_STATUS (R61). -/
def execRdStatus (s : State) : Host.Outcome State Fault Refusal := run (hostRead statusWord) s

/-- RD_CAUSE (R62). -/
def execRdCause (s : State) : Host.Outcome State Fault Refusal := run (hostRead causeWord) s

/-- RD_RES0. -/
def execRdRes0 (s : State) : Host.Outcome State Fault Refusal := run (hostRead fun s => s.regs.res0) s

/-- RD_RES1. -/
def execRdRes1 (s : State) : Host.Outcome State Fault Refusal := run (hostRead fun s => s.regs.res1) s

/-- RD_RES2. -/
def execRdRes2 (s : State) : Host.Outcome State Fault Refusal := run (hostRead fun s => s.regs.res2) s

/-- RD_FRAME_COUNT. -/
def execRdFrameCount (s : State) : Host.Outcome State Fault Refusal :=
  run (hostRead fun s => s.session.frameCount) s

/-- RD_CUR_FRAME. -/
def execRdCurFrame (s : State) : Host.Outcome State Fault Refusal := run (hostRead fun s => s.session.curFrame) s

/-- RD_FPS_NUM. -/
def execRdFpsNum (s : State) : Host.Outcome State Fault Refusal := run (hostRead fun s => s.session.fpsNum) s

/-- RD_FPS_DEN. -/
def execRdFpsDen (s : State) : Host.Outcome State Fault Refusal := run (hostRead fun s => s.session.fpsDen) s

/-- RD_WIDTH. -/
def execRdWidth (s : State) : Host.Outcome State Fault Refusal := run (hostRead fun s => s.session.width) s

/-- RD_HEIGHT. -/
def execRdHeight (s : State) : Host.Outcome State Fault Refusal := run (hostRead fun s => s.session.height) s

/-- RD_AUDIO_TRACKS. -/
def execRdAudioTracks (s : State) : Host.Outcome State Fault Refusal :=
  run (hostRead fun s => s.session.trackCount) s

/-- RD_VIDEO_FLAGS. -/
def execRdVideoFlags (s : State) : Host.Outcome State Fault Refusal :=
  run (hostRead fun s => s.session.videoFlags) s

/-- RD_VERSION. -/
def execRdVersion (s : State) : Host.Outcome State Fault Refusal := run (hostRead versionWord) s

/-- RD_BITPOS. -/
def execRdBitpos (s : State) : Host.Outcome State Fault Refusal := run (hostRead fun s => s.regs.bitpos) s

/-- RD_FRAME_KEY. -/
def execRdFrameKey (s : State) : Host.Outcome State Fault Refusal := run (hostRead frameKeyWord) s

end Sys2Proof.Machine
end

