-- ==== Sys2Proof/Machine/Coef.lean ====
section
/-! DEFINITION. The coefficient unit: the node list, full-coefficient mode, dequantisation and residual mode
(spec/43_coefficients.md R480 to R506). -/

namespace Sys2Proof.Machine

/-! ## The node list (R480) -/

/-- A change of the coefficient scratch. -/
def modifyCoef (f : CoefScratch → CoefScratch) : M Unit := modify fun s => s.setCoef (f s.coef)

/-- Entry `pos` of the two parallel lists becomes `(c, m)`. -/
def setEntry (pos c m : Nat) : M Unit :=
  modifyCoef fun x => { x with coefList := Cells.set x.coefList pos c, modeList := Cells.set x.modeList pos m }

/-- `PushBack(c, m)`. -/
def pushBack (c m : Nat) : M Unit :=
  modifyCoef fun x =>
    { x with
      coefList := Cells.set x.coefList x.listEnd c
      modeList := Cells.set x.modeList x.listEnd m
      listEnd := x.listEnd + 1 }

/-- `PushFront(c, m)`. -/
def pushFront (c m : Nat) : M Unit :=
  modifyCoef fun x =>
    { x with
      coefList := Cells.set x.coefList (x.listStart - 1) c
      modeList := Cells.set x.modeList (x.listStart - 1) m
      listStart := x.listStart - 1 }

/-- Both lists empty at index 64, then the three group roots that both modes share (R481, R500). -/
def startLists : M Unit := do
  modifyCoef fun x => { x with listStart := 64, listEnd := 64 }
  pushBack 4 0
  pushBack 24 0
  pushBack 44 0

/-- `Group(c, bits)` and `RGroup(c, mask)` with `n` indices left, from `c` on: a bit 1 defers the index, a bit 0 emits
it; the result tells whether the decode stopped (R489, R504). -/
def walkGroup (emit : Nat → M Unit) (spend : M Bool) : (n c : Nat) → M Bool
  | 0, _ => pure false
  | n + 1, c => do
    let b ← getBit
    if b = 1 then do
      pushFront c 3
      walkGroup emit spend n (c + 1)
    else do
      emit c
      let stopped ← spend
      if stopped then pure true else walkGroup emit spend n (c + 1)

/-- `Pass(bits)` and `RPass(mask)` from list position `pos` on (R482, R483, R503): the gate, the four modes, and
whether the decode stopped. `fuel` bounds the entries visited (R750). -/
def walk (emit : Nat → M Unit) (spend : M Bool) : (fuel pos : Nat) → M Bool
  | 0, _ => refuse .loopBound
  | fuel + 1, pos => do
    let s ← get
    if s.coef.listEnd ≤ pos then pure false
    else do
      let c ← getOr (Cells.get s.coef.coefList pos) .unwrittenField
      let m ← getOr (Cells.get s.coef.modeList pos) .unwrittenField
      if c = 0 ∧ m = 0 then walk emit spend fuel (pos + 1)
      else do
        let gate ← getBit
        if gate = 0 then walk emit spend fuel (pos + 1)
        else
          match m with
          | 0 => do
            setEntry pos (c + 4) 1
            let stopped ← walkGroup emit spend 4 c
            if stopped then pure true else walk emit spend fuel pos
          | 1 => do
            setEntry pos c 2
            pushBack (c + 4) 2
            pushBack (c + 8) 2
            pushBack (c + 12) 2
            walk emit spend fuel pos
          | 2 => do
            setEntry pos 0 0
            let stopped ← walkGroup emit spend 4 c
            if stopped then pure true else walk emit spend fuel (pos + 1)
          | _ => do
            emit c
            setEntry pos 0 0
            let stopped ← spend
            if stopped then pure true else walk emit spend fuel (pos + 1)

/-- The most entries one pass can visit: each place of the arena, three roots and three promoted roots twice (R490). -/
def walkFuel (p : Params) : Nat := 2 * p.coefListCapacity

/-- One pass over the list, from the `listStart` of its own start (R482). -/
def pass (emit : Nat → M Unit) (spend : M Bool) : M Bool := do
  let s ← get
  walk emit spend (walkFuel s.params) s.coef.listStart

/-! ## Full-coefficient mode -/

/-- `Emit(c, bits)` (R485). -/
def emitCoefficient (bits c : Nat) : M Unit := do
  let t ← coefficientValue bits
  let s ← get
  modifyCoef fun x =>
    { x with
      blk := Cells.set x.blk (s.params.scanAt c) (BitVec.ofInt 32 t)
      coefIdx := Cells.set x.coefIdx x.coefCount c
      coefCount := x.coefCount + 1 }

/-- The bit-planes `n - 1` down to 0 (R481). -/
def bitPlanes : (n : Nat) → M Unit
  | 0 => pure ()
  | bits + 1 => do
    let _ ← pass (emitCoefficient bits) (pure false)
    bitPlanes bits

/-- `blk[0..63] <- 0` (R417, R419). -/
def clearBlock : M Unit := modifyCoef fun x => { x with blk := Cells.setFrom [] 0 (List.replicate 64 0) }

/-- `blk[0] <- dc` (R496). -/
def placeDc (dc : Int) : M Unit := modifyCoef fun x => { x with blk := Cells.set x.blk 0 (BitVec.ofInt 32 dc) }

/-- `CoefDecode(blk, qsrc)` (R481, R491). -/
def coefDecode (src : QSource) : M (BitVec 4) := do
  modifyCoef fun x => { x with coefCount := 0 }
  startLists
  pushBack 1 3
  pushBack 2 3
  pushBack 3 3
  let top ← getBits 4
  bitPlanes top
  match src with
  | .stream => do
    let q ← getBits 4
    pure (BitVec.ofNat 4 q)
  | .external q => pure q

/-- `wrap32(x * Q) >> 11` (R492). -/
def dequantised (x : Word) (q : Nat) : Word := (x * BitVec.ofNat 32 q).sshiftRight 11

/-- One position dequantised. -/
def dequantiseAt (a q : Nat) : M Unit := do
  let s ← get
  let x ← getOr (Cells.get s.coef.blk a) .unwrittenField
  modifyCoef fun y => { y with blk := Cells.set y.blk a (dequantised x q) }

/-- `Dequantise(blk, Q)`: the DC, then the coefficients in the order they were emitted (R492). -/
def dequantise (matrix : Nat → Nat) : M Unit := do
  dequantiseAt 0 (matrix 0)
  let s ← get
  forEach (List.range s.coef.coefCount) fun i => do
    let c ← getOr (Cells.get s.coef.coefIdx i) .unwrittenField
    dequantiseAt (s.params.scanAt c) (matrix c)

/-! ## Residual mode -/

/-- `Spend()`: whether the budget is exhausted (R505). -/
def spendBudget : M Bool := do
  modifyCoef fun x => { x with budget := x.budget - 1 }
  let s ← get
  pure (decide (s.coef.budget < 0))

/-- `REmit(c, mask)` before its `Spend()` (R504). -/
def emitResidual (mask : Nat) (c : Nat) : M Unit := do
  let s ← get
  let a := s.params.scanAt c
  modifyCoef fun x => { x with nz := Cells.set x.nz x.nzCount a, nzCount := x.nzCount + 1 }
  let b ← getBit
  modifyCoef fun x =>
    { x with res := Cells.set x.res a (if b = 1 then -(mask : Int) else (mask : Int)) }

/-- `Refine(mask)` for the listed places of `nz`; whether the decode stopped (R502). -/
def refine (mask : Nat) : List Nat → M Bool
  | [] => pure false
  | i :: is => do
    let b ← getBit
    if b = 1 then do
      let s ← get
      let a ← getOr (Cells.get s.coef.nz i) .unwrittenField
      let v ← getOr (Cells.get s.coef.res a) .unwrittenField
      modifyCoef fun x => { x with res := Cells.set x.res a (if v < 0 then v - mask else v + mask) }
      let stopped ← spendBudget
      if stopped then pure true else refine mask is
    else refine mask is

/-- The masks `2^(n-1)` down to 1 (R500). -/
def residualPlanes : (n : Nat) → M Unit
  | 0 => pure ()
  | k + 1 => do
    let s ← get
    let stopped ← refine (2 ^ k) (List.range s.coef.nzCount)
    if stopped then pure ()
    else do
      let stopped ← pass (emitResidual (2 ^ k)) spendBudget
      if stopped then pure () else residualPlanes k

/-- `ResidualDecode(n)` (R500). -/
def residualDecode (n : Nat) : M Unit := do
  modifyCoef fun x =>
    { x with res := Cells.setFrom [] 0 (List.replicate 64 0), nzCount := 0, budget := (n : Int) }
  startLists
  pushBack 0 2
  let k ← getBits 3
  residualPlanes (k + 1)

end Sys2Proof.Machine
end

