-- ==== Sys2Proof/Machine/Idct.lean ====
section
/-! DEFINITION. The inverse-DCT butterfly unit (spec/44_idct.md R530 to R536): 32-bit wrapping arithmetic, a column pass
with its all-zero-AC fast path, and a row pass with bias and shift. -/

namespace Sys2Proof.Machine

/-- `MUL(k, x) = wrap32(k * x) >> IDCT_MUL_SHIFT` (R531). -/
def idctMul (p : Params) (k x : Word) : Word := (k * x).sshiftRight p.idctMulShift

/-- `Butterfly(s0, …, s7)`, the results `d0`, …, `d7` in order (R532). -/
def butterfly (p : Params) (s0 s1 s2 s3 s4 s5 s6 s7 : Word) : List Word :=
  let a0 := s0 + s4
  let a1 := s0 - s4
  let a2 := s2 + s6
  let a3 := idctMul p 2896 (s2 - s6)
  let a4 := s5 + s3
  let a5 := s5 - s3
  let a6 := s1 + s7
  let a7 := s1 - s7
  let b0 := a4 + a6
  let b1 := idctMul p 3784 (a5 + a7)
  let b2 := idctMul p (-5352) a5 - b0 + b1
  let b3 := idctMul p 2896 (a6 - a4) - b2
  let b4 := idctMul p 2217 a7 + b3 - b1
  [a0 + a2 + b0, a1 + a3 - a2 + b2, a1 - a3 + a2 + b3, a0 - a2 - b4, a0 - a2 + b4, a1 - a3 + a2 - b3,
    a1 + a3 - a2 - b2, a0 + a2 - b0]

/-- Column `x` of the column pass, from the row-major block (R533). -/
def idctColumn (p : Params) (blk : List Word) (x : Nat) : List Word :=
  let v := fun y => blk.getD (8 * y + x) 0
  if v 1 = 0 ∧ v 2 = 0 ∧ v 3 = 0 ∧ v 4 = 0 ∧ v 5 = 0 ∧ v 6 = 0 ∧ v 7 = 0 then List.replicate 8 (v 0)
  else butterfly p (v 0) (v 1) (v 2) (v 3) (v 4) (v 5) (v 6) (v 7)

/-- The column pass: `tmp`, row-major (R533). -/
def idctColumns (p : Params) (blk : List Word) : List Word :=
  let cols := (List.range 8).map (idctColumn p blk)
  blockPositions.map fun i => (cols.getD (i % 8) []).getD (i / 8) 0

/-- `Munge(v)` (R534). -/
def munge (p : Params) (v : Word) : Word := (v + BitVec.ofNat 32 p.idctRowBias).sshiftRight p.idctRowShift

/-- Row `y` of the row pass (R534). -/
def idctRow (p : Params) (tmp : List Word) (y : Nat) : List Word :=
  let v := fun x => tmp.getD (8 * y + x) 0
  (butterfly p (v 0) (v 1) (v 2) (v 3) (v 4) (v 5) (v 6) (v 7)).map (munge p)

/-- The row pass: the 64 output samples, row-major (R534). -/
def idctRows (p : Params) (tmp : List Word) : List Word := (List.range 8).flatMap (idctRow p tmp)

/-- The two passes over `blk`: `tmp` is written, the output samples are returned (R533, R534). -/
def idct : M (List Word) := do
  let s ← get
  let blk ← getOr (Cells.slice s.coef.blk 0 64) .unwrittenField
  set (s.setDct { s.dct with tmp := Cells.setFrom [] 0 (idctColumns s.params blk) })
  pure (idctRows s.params (idctColumns s.params blk))

/-- `IdctPut(blk, put)`: the samples by the store law, no pixel read (R535). -/
def idctPut (d : PixelDest) : M Unit := do
  let out ← idct
  let s ← get
  forEach blockPositions fun i => put d i (storeByte s.params.pixelStore (out.getD i 0).toInt)

/-- Adding `f i` to the pixel of `cur` at each position of the block at `dst`, by the store law (R416, R536). -/
def addPixels (p : PlaneId) (dst : Nat) (f : Nat → M Int) : M Unit := do
  let x ← planeOf p
  forEach blockPositions fun i => do
    let c ← readCur p (dst + blockOffset x i)
    let v ← f i
    store p (dst + blockOffset x i) ((c.toNat : Int) + v)

/-- `IdctAdd(blk, p, dst)` (R536). -/
def idctAdd (p : PlaneId) (dst : Nat) : M Unit := do
  let out ← idct
  addPixels p dst fun i => pure (out.getD i 0).toInt

end Sys2Proof.Machine
end

