-- ==== Sys2Proof/Machine/Blocks.lean ====
section
/-! DEFINITION. The BT family: the ten block algorithms and the six illegal codes (spec/42_block_dispatch.md R401 to
R419, R423 to R425). An element of this family is the block-type value of R223; the block cursor, the bundle values and
the payload bits come from the state. -/

namespace Sys2Proof.Machine

/-! ## The block in hand -/

/-- The plane and the destination offset of the block the cursor stands on (R401), in phase `ph`. -/
def currentBlock (ph : Phase) : M (PlaneId × Nat) := do
  atPhase ph
  let s ← get
  let x ← planeOf s.ctl.plane
  demand (s.ctl.bx < x.bw) .elementOutOfPlace
  pure (s.ctl.plane, blockDst x s.ctl.bx s.ctl.by_)

/-- The cursor moves `n` columns on, to the next block of the row (R402). -/
def nextBlock (n : Nat) : M Unit :=
  modify fun s => s.setCtl { s.ctl with phase := .block, bx := s.ctl.bx + n }

/-- A block of one column: its algorithm, given the plane and the destination, then the cursor (R402). -/
def block (body : PlaneId → Nat → M Unit) : M Unit := do
  let (p, dst) ← currentBlock .block
  body p dst
  nextBlock 1

/-! ## Shared parts of the algorithms -/

/-- The last legal source offset of R411. -/
def motionLimit (x : Plane) : Int := ((x.bw : Int) - 1 + (x.pitch : Int) * ((x.bh : Int) - 1)) * 8

/-- `MotionSource(p, bx, by)` for the block at `dst` (R411). -/
def motionSource (p : PlaneId) (dst : Nat) : M Nat := do
  let x ← planeOf p
  let xoff ← getValue .xOff
  let yoff ← getValue .yOff
  let src : Int := (dst : Int) + xoff + yoff * (x.pitch : Int)
  check (0 ≤ src && src ≤ motionLimit x) .motionOutOfBounds
  pure src.toNat

/-- The motion-compensated copy that MOTION, RESIDUE and INTER share (R412, R416, R419). -/
def motionCopy (p : PlaneId) (dst : Nat) : M Unit := do
  let src ← motionSource p dst
  copy8 p src dst

/-- One run of `n` positions from the `i`-th of the visiting order on, each with the color `color` gives (R415). -/
def fillRun (d : PixelDest) (order : List Nat) (color : M Byte) : (n i : Nat) → M Unit
  | 0, _ => pure ()
  | n + 1, i => do
    let c ← color
    put d (order.getD i 0) c
    fillRun d order color n (i + 1)

/-- One COLORS value. -/
def nextColor : M Byte := do
  let v ← getValue .colors
  pure (elementByte v)

/-- The loop of `RunFill(k, put)` from position `i` on, in the visiting order of pattern k (R415); a run is at least 1, so 64 rounds reach the end. -/
def runLoop (d : PixelDest) (order : List Nat) : (fuel i : Nat) → M Unit
  | 0, _ => refuse .loopBound
  | fuel + 1, i => do
    let v ← getValue .run
    let run := v + 1
    check (decide (0 < run)) .runNonpositive
    let n := run.toNat
    check (i + n ≤ 64) .runOverflow
    let shared ← getBit
    if shared = 1 then do
      let c ← nextColor
      fillRun d order (pure c) n i
    else fillRun d order nextColor n i
    if 64 ≤ i + n then pure ()
    else if i + n = 63 then fillRun d order nextColor 1 63
    else runLoop d order fuel (i + n)

/-- RUN into a destination: the scan-pattern index, then `RunFill` (R414, R415). -/
def runBlock (d : PixelDest) : M Unit := do
  let k ← getBits 4
  let s ← get
  runLoop d (s.params.runPattern (BitVec.ofNat 4 k)) 64 0

/-- INTRA into a destination (R417, R420). -/
def intraBlock (d : PixelDest) (src : QSource) : M Unit := do
  clearBlock
  let dc ← getValue .intraDc
  placeDc dc
  let q ← coefDecode src
  let s ← get
  dequantise (s.params.quantIntraAt q)
  idctPut d

/-- One row of a pattern: bit `x` of the byte selects the color of pixel `x` (R423). -/
def patternRow (d : PixelDest) (c0 c1 : Byte) (y : Nat) : M Unit := do
  let v ← getValue .pattern
  forEach (List.range 8) fun x =>
    put d (y * 8 + x) (if (elementByte v).getLsbD x then c1 else c0)

/-- `Pattern(put)` (R423). -/
def patternBlock (d : PixelDest) : M Unit := do
  let c0 ← nextColor
  let c1 ← nextColor
  forEach (List.range 8) (patternRow d c0 c1)

/-- `Raw(put)` (R424). -/
def rawBlock (d : PixelDest) : M Unit :=
  forEach blockPositions fun i => do
    let c ← nextColor
    put d i c

/-! ## The block types -/

/-- BT_SKIP: the co-located block of `last` (R410). -/
def execBtSkip (s : State) : Host.Outcome State Fault Refusal :=
  run (block fun p dst => copy8 p dst dst) s

/-- BT_SCALED: refused by an error at an odd column; on an odd row the region is already produced, so the cursor skips
it; else the sub-type follows (R402, R405, R406, R420). -/
def execBtScaled (s : State) : Host.Outcome State Fault Refusal :=
  run (do
    let _ ← currentBlock .block
    let s ← get
    check (s.ctl.bx % 2 == 0) .scaledPosition
    if s.ctl.by_ % 2 = 1 then nextBlock 2
    else modify fun s => s.setPhase .subBlock) s

/-- BT_MOTION (R412). -/
def execBtMotion (s : State) : Host.Outcome State Fault Refusal :=
  run (block motionCopy) s

/-- BT_RUN (R414). -/
def execBtRun (s : State) : Host.Outcome State Fault Refusal :=
  run (block fun p dst => runBlock (.cur p dst)) s

/-- BT_RESIDUE (R416). -/
def execBtResidue (s : State) : Host.Outcome State Fault Refusal :=
  run (block fun p dst => do
    motionCopy p dst
    let n ← getBits 7
    residualDecode n
    let s ← get
    addPixels p dst fun i => getOr (Cells.get s.coef.res i) .unwrittenField) s

/-- BT_INTRA (R417). -/
def execBtIntra (s : State) : Host.Outcome State Fault Refusal :=
  run (block fun p dst => intraBlock (.cur p dst) .stream) s

/-- BT_FILL: one color for the whole block (R418). -/
def execBtFill (s : State) : Host.Outcome State Fault Refusal :=
  run (block fun p dst => do
    let c ← nextColor
    forEach blockPositions fun i => put (.cur p dst) i c) s

/-- BT_INTER: the DC value is fetched after the motion copy (R419). -/
def execBtInter (s : State) : Host.Outcome State Fault Refusal :=
  run (block fun p dst => do
    motionCopy p dst
    clearBlock
    let dc ← getValue .interDc
    placeDc dc
    let q ← coefDecode .stream
    let s ← get
    dequantise (s.params.quantInterAt q)
    idctAdd p dst) s

/-- BT_PATTERN (R423). -/
def execBtPattern (s : State) : Host.Outcome State Fault Refusal :=
  run (block fun p dst => patternBlock (.cur p dst)) s

/-- BT_RAW (R424). -/
def execBtRaw (s : State) : Host.Outcome State Fault Refusal :=
  run (block fun p dst => rawBlock (.cur p dst)) s

/-- An illegal block type, before any pixel of the block is written (R425). -/
def illegalBlock : M Unit := do
  let _ ← currentBlock .block
  raise .badBlockType

/-- BT_ILLEGAL_10 (R425). -/
def execBtIllegal10 (s : State) : Host.Outcome State Fault Refusal := run illegalBlock s

/-- BT_ILLEGAL_11 (R425). -/
def execBtIllegal11 (s : State) : Host.Outcome State Fault Refusal := run illegalBlock s

/-- BT_ILLEGAL_12 (R425). -/
def execBtIllegal12 (s : State) : Host.Outcome State Fault Refusal := run illegalBlock s

/-- BT_ILLEGAL_13 (R425). -/
def execBtIllegal13 (s : State) : Host.Outcome State Fault Refusal := run illegalBlock s

/-- BT_ILLEGAL_14 (R425). -/
def execBtIllegal14 (s : State) : Host.Outcome State Fault Refusal := run illegalBlock s

/-- BT_ILLEGAL_15 (R425). -/
def execBtIllegal15 (s : State) : Host.Outcome State Fault Refusal := run illegalBlock s

end Sys2Proof.Machine
end

