-- ==== Sys2Proof/Machine/Scaled.lean ====
section
/-! DEFINITION. The SCALED family: the sub-types of a SCALED block (spec/42_block_dispatch.md R420 to R422). Each writes
the 16x16 region at the cursor, FILL directly and the others through `ublk` and a 2x upsampling. -/

namespace Sys2Proof.Machine

/-- The offset of pixel `i = y*16 + x` of a 16x16 region (R420). -/
def regionOffset (x : Plane) (i : Nat) : Nat := i / 16 * x.pitch + i % 16

/-- `Upsample(p, d)`: each pixel of `ublk` fills a 2x2 square of the region (R422). -/
def upsample (p : PlaneId) (dst : Nat) : M Unit := do
  let x ← planeOf p
  forEach (List.range 256) fun i => do
    let s ← get
    let c ← getOr (Cells.get s.dct.ublk (i / 32 * 8 + i % 16 / 2)) .unwrittenField
    writeCur p (dst + regionOffset x i) c

/-- A sub-type that decodes into `ublk` (R420, R421). -/
def scaledBlock (body : M Unit) : M Unit := do
  let (p, dst) ← currentBlock .subBlock
  body
  upsample p dst
  nextBlock 2

/-- SCALED_RUN (R420, R415). -/
def execScaledRun (s : State) : Host.Outcome State Fault Refusal := run (scaledBlock (runBlock .ublk)) s

/-- SCALED_INTRA (R420, R491). -/
def execScaledIntra (s : State) : Host.Outcome State Fault Refusal :=
  run (scaledBlock (intraBlock .ublk s.params.scaledIntraQSource)) s

/-- SCALED_FILL: one color, directly at 16x16 (R420). -/
def execScaledFill (s : State) : Host.Outcome State Fault Refusal :=
  run (do
    let (p, dst) ← currentBlock .subBlock
    let c ← nextColor
    let x ← planeOf p
    forEach (List.range 256) fun i => writeCur p (dst + regionOffset x i) c
    nextBlock 2) s

/-- SCALED_PATTERN (R420, R423). -/
def execScaledPattern (s : State) : Host.Outcome State Fault Refusal := run (scaledBlock (patternBlock .ublk)) s

/-- SCALED_RAW (R420, R424). -/
def execScaledRaw (s : State) : Host.Outcome State Fault Refusal := run (scaledBlock (rawBlock .ublk)) s

/-- A sub-type outside RUN, INTRA, FILL, PATTERN, RAW (R420, R224). -/
def illegalSubBlock : M Unit := do
  let _ ← currentBlock .subBlock
  raise .badSubtype

/-- SCALED_ILLEGAL_0 (R224). -/
def execScaledIllegal0 (s : State) : Host.Outcome State Fault Refusal := run illegalSubBlock s

/-- SCALED_ILLEGAL_1 (R224). -/
def execScaledIllegal1 (s : State) : Host.Outcome State Fault Refusal := run illegalSubBlock s

/-- SCALED_ILLEGAL_2 (R224). -/
def execScaledIllegal2 (s : State) : Host.Outcome State Fault Refusal := run illegalSubBlock s

/-- SCALED_ILLEGAL_4 (R224). -/
def execScaledIllegal4 (s : State) : Host.Outcome State Fault Refusal := run illegalSubBlock s

/-- SCALED_ILLEGAL_7 (R224). -/
def execScaledIllegal7 (s : State) : Host.Outcome State Fault Refusal := run illegalSubBlock s

/-- SCALED_ILLEGAL_10 (R224). -/
def execScaledIllegal10 (s : State) : Host.Outcome State Fault Refusal := run illegalSubBlock s

/-- SCALED_ILLEGAL_11 (R224). -/
def execScaledIllegal11 (s : State) : Host.Outcome State Fault Refusal := run illegalSubBlock s

/-- SCALED_ILLEGAL_12 (R224). -/
def execScaledIllegal12 (s : State) : Host.Outcome State Fault Refusal := run illegalSubBlock s

/-- SCALED_ILLEGAL_13 (R224). -/
def execScaledIllegal13 (s : State) : Host.Outcome State Fault Refusal := run illegalSubBlock s

/-- SCALED_ILLEGAL_14 (R224). -/
def execScaledIllegal14 (s : State) : Host.Outcome State Fault Refusal := run illegalSubBlock s

/-- SCALED_ILLEGAL_15 (R224). -/
def execScaledIllegal15 (s : State) : Host.Outcome State Fault Refusal := run illegalSubBlock s

end Sys2Proof.Machine
end

