-- ==== Sys2Proof/Syntax.lean ====
section
/-! DEFINITION. The instructions: one constructor per row of spec/opcode_table.json, in the table's order (R4: the
block types, sub-types, block-type symbols, tree forms, bundle refill forms, audio run headers, host commands and host
register accesses). The operands are the header fields that stand in the instruction's own bits; values an element
takes from a bundle, or payload bits it reads when it runs, are no operands. -/

namespace Sys2Proof

/-- One instruction of the core (R4; spec/opcode_table.json). -/
inductive Instr where
  /-- BT_SKIP (R410). -/
  | btSkip
  /-- BT_SCALED (R420). -/
  | btScaled
  /-- BT_MOTION (R412). -/
  | btMotion
  /-- BT_RUN (R414). -/
  | btRun
  /-- BT_RESIDUE (R416). -/
  | btResidue
  /-- BT_INTRA (R417). -/
  | btIntra
  /-- BT_FILL (R418). -/
  | btFill
  /-- BT_INTER (R419). -/
  | btInter
  /-- BT_PATTERN (R423). -/
  | btPattern
  /-- BT_RAW (R424). -/
  | btRaw
  /-- BT_ILLEGAL_10 (R425). -/
  | btIllegal10
  /-- BT_ILLEGAL_11 (R425). -/
  | btIllegal11
  /-- BT_ILLEGAL_12 (R425). -/
  | btIllegal12
  /-- BT_ILLEGAL_13 (R425). -/
  | btIllegal13
  /-- BT_ILLEGAL_14 (R425). -/
  | btIllegal14
  /-- BT_ILLEGAL_15 (R425). -/
  | btIllegal15
  /-- SCALED_RUN (R420). -/
  | scaledRun
  /-- SCALED_INTRA (R420). -/
  | scaledIntra
  /-- SCALED_FILL (R420). -/
  | scaledFill
  /-- SCALED_PATTERN (R420). -/
  | scaledPattern
  /-- SCALED_RAW (R420). -/
  | scaledRaw
  /-- SCALED_ILLEGAL_0 (R420). -/
  | scaledIllegal0
  /-- SCALED_ILLEGAL_1 (R420). -/
  | scaledIllegal1
  /-- SCALED_ILLEGAL_2 (R420). -/
  | scaledIllegal2
  /-- SCALED_ILLEGAL_4 (R420). -/
  | scaledIllegal4
  /-- SCALED_ILLEGAL_7 (R420). -/
  | scaledIllegal7
  /-- SCALED_ILLEGAL_10 (R420). -/
  | scaledIllegal10
  /-- SCALED_ILLEGAL_11 (R420). -/
  | scaledIllegal11
  /-- SCALED_ILLEGAL_12 (R420). -/
  | scaledIllegal12
  /-- SCALED_ILLEGAL_13 (R420). -/
  | scaledIllegal13
  /-- SCALED_ILLEGAL_14 (R420). -/
  | scaledIllegal14
  /-- SCALED_ILLEGAL_15 (R420). -/
  | scaledIllegal15
  /-- BTSYM_LITERAL_0 (R360). -/
  | btsymLiteral0
  /-- BTSYM_LITERAL_1 (R360). -/
  | btsymLiteral1
  /-- BTSYM_LITERAL_2 (R360). -/
  | btsymLiteral2
  /-- BTSYM_LITERAL_3 (R360). -/
  | btsymLiteral3
  /-- BTSYM_LITERAL_4 (R360). -/
  | btsymLiteral4
  /-- BTSYM_LITERAL_5 (R360). -/
  | btsymLiteral5
  /-- BTSYM_LITERAL_6 (R360). -/
  | btsymLiteral6
  /-- BTSYM_LITERAL_7 (R360). -/
  | btsymLiteral7
  /-- BTSYM_LITERAL_8 (R360). -/
  | btsymLiteral8
  /-- BTSYM_LITERAL_9 (R360). -/
  | btsymLiteral9
  /-- BTSYM_LITERAL_10 (R360). -/
  | btsymLiteral10
  /-- BTSYM_LITERAL_11 (R360). -/
  | btsymLiteral11
  /-- BTSYM_RUN4 (R360). -/
  | btsymRun4
  /-- BTSYM_RUN8 (R360). -/
  | btsymRun8
  /-- BTSYM_RUN12 (R360). -/
  | btsymRun12
  /-- BTSYM_RUN32 (R360). -/
  | btsymRun32
  /-- TREE_IDENTITY (R320). -/
  | treeIdentity
  /-- TREE_LIST (R321). -/
  | treeList (shape : BitVec 4) (count : BitVec 3)
  /-- TREE_MERGE (R322). -/
  | treeMerge (shape : BitVec 4) (k : BitVec 2)
  /-- REFILL_DONE (R357). -/
  | refillDone
  /-- REFILL_BLOCK_TYPES_CONST (R360). -/
  | refillBlockTypesConst (t : BitVec 32)
  /-- REFILL_BLOCK_TYPES_CODED (R360). -/
  | refillBlockTypesCoded (t : BitVec 32)
  /-- REFILL_SUB_BLOCK_TYPES_CONST (R360). -/
  | refillSubBlockTypesConst (t : BitVec 32)
  /-- REFILL_SUB_BLOCK_TYPES_CODED (R360). -/
  | refillSubBlockTypesCoded (t : BitVec 32)
  /-- REFILL_COLORS_CONST (R365). -/
  | refillColorsConst (t : BitVec 32)
  /-- REFILL_COLORS_CODED (R365). -/
  | refillColorsCoded (t : BitVec 32)
  /-- REFILL_PATTERN_CONST (R370). -/
  | refillPatternConst (t : BitVec 32)
  /-- REFILL_PATTERN_CODED (R370). -/
  | refillPatternCoded (t : BitVec 32)
  /-- REFILL_X_OFF_CONST (R373). -/
  | refillXOffConst (t : BitVec 32)
  /-- REFILL_X_OFF_CODED (R373). -/
  | refillXOffCoded (t : BitVec 32)
  /-- REFILL_Y_OFF_CONST (R373). -/
  | refillYOffConst (t : BitVec 32)
  /-- REFILL_Y_OFF_CODED (R373). -/
  | refillYOffCoded (t : BitVec 32)
  /-- REFILL_RUN_CONST (R376). -/
  | refillRunConst (t : BitVec 32)
  /-- REFILL_RUN_CODED (R376). -/
  | refillRunCoded (t : BitVec 32)
  /-- REFILL_INTRA_DC (R380). -/
  | refillIntraDc (t : BitVec 32)
  /-- REFILL_INTER_DC (R380). -/
  | refillInterDc (t : BitVec 32)
  /-- AUDIO_RUN8 (R581). -/
  | audioRun8 (width : BitVec 4)
  /-- AUDIO_RUN_RLE (R581). -/
  | audioRunRle (idx width : BitVec 4)
  /-- OPEN (R630). -/
  | cmdOpen
  /-- CLOSE (R635). -/
  | cmdClose
  /-- DECODE_NEXT_FRAME (R637). -/
  | cmdDecodeNextFrame
  /-- SEEK (R641). -/
  | cmdSeek
  /-- READ_AUDIO (R645). -/
  | cmdReadAudio
  /-- AUDIO_TRACK_INFO (R648). -/
  | cmdAudioTrackInfo
  /-- CMD_ILLEGAL_00 (R652). -/
  | cmdIllegal00
  /-- CMD_ILLEGAL_07 (R652). -/
  | cmdIllegal07
  /-- CMD_ILLEGAL_08 (R652). -/
  | cmdIllegal08 (lo : BitVec 3)
  /-- CMD_ILLEGAL_10 (R652). -/
  | cmdIllegal10 (lo : BitVec 4)
  /-- CMD_ILLEGAL_20 (R652). -/
  | cmdIllegal20 (lo : BitVec 5)
  /-- CMD_ILLEGAL_40 (R652). -/
  | cmdIllegal40 (lo : BitVec 6)
  /-- CMD_ILLEGAL_80 (R652). -/
  | cmdIllegal80 (lo : BitVec 7)
  /-- WR_ARG0 (R60). -/
  | wrArg0 (value : Word)
  /-- WR_ARG1 (R60). -/
  | wrArg1 (value : Word)
  /-- RD_CMD (R60). -/
  | rdCmd
  /-- RD_ARG0 (R60). -/
  | rdArg0
  /-- RD_ARG1 (R60). -/
  | rdArg1
  /-- RD_STATUS (R60). -/
  | rdStatus
  /-- RD_CAUSE (R60). -/
  | rdCause
  /-- RD_RES0 (R655). -/
  | rdRes0
  /-- RD_RES1 (R655). -/
  | rdRes1
  /-- RD_RES2 (R655). -/
  | rdRes2
  /-- RD_FRAME_COUNT (R650). -/
  | rdFrameCount
  /-- RD_CUR_FRAME (R650). -/
  | rdCurFrame
  /-- RD_FPS_NUM (R650). -/
  | rdFpsNum
  /-- RD_FPS_DEN (R650). -/
  | rdFpsDen
  /-- RD_WIDTH (R650). -/
  | rdWidth
  /-- RD_HEIGHT (R650). -/
  | rdHeight
  /-- RD_AUDIO_TRACKS (R650). -/
  | rdAudioTracks
  /-- RD_VIDEO_FLAGS (R60). -/
  | rdVideoFlags
  /-- RD_VERSION (R60). -/
  | rdVersion
  /-- RD_BITPOS (R637). -/
  | rdBitpos
  /-- RD_FRAME_KEY (R637). -/
  | rdFrameKey
deriving DecidableEq, Repr

end Sys2Proof
end

