-- ==== Sys2Proof/Machine/Dispatch.lean ====
section
/-! DEFINITION. The dispatch: one arm per instruction, one direct call of its meaning. -/

namespace Sys2Proof.Machine

def exec (i : Instr) (s : State) : Host.Outcome State Fault Refusal :=
  match i with
  | .btSkip => Sys2Proof.Machine.execBtSkip s
  | .btScaled => Sys2Proof.Machine.execBtScaled s
  | .btMotion => Sys2Proof.Machine.execBtMotion s
  | .btRun => Sys2Proof.Machine.execBtRun s
  | .btResidue => Sys2Proof.Machine.execBtResidue s
  | .btIntra => Sys2Proof.Machine.execBtIntra s
  | .btFill => Sys2Proof.Machine.execBtFill s
  | .btInter => Sys2Proof.Machine.execBtInter s
  | .btPattern => Sys2Proof.Machine.execBtPattern s
  | .btRaw => Sys2Proof.Machine.execBtRaw s
  | .btIllegal10 => Sys2Proof.Machine.execBtIllegal10 s
  | .btIllegal11 => Sys2Proof.Machine.execBtIllegal11 s
  | .btIllegal12 => Sys2Proof.Machine.execBtIllegal12 s
  | .btIllegal13 => Sys2Proof.Machine.execBtIllegal13 s
  | .btIllegal14 => Sys2Proof.Machine.execBtIllegal14 s
  | .btIllegal15 => Sys2Proof.Machine.execBtIllegal15 s
  | .scaledRun => Sys2Proof.Machine.execScaledRun s
  | .scaledIntra => Sys2Proof.Machine.execScaledIntra s
  | .scaledFill => Sys2Proof.Machine.execScaledFill s
  | .scaledPattern => Sys2Proof.Machine.execScaledPattern s
  | .scaledRaw => Sys2Proof.Machine.execScaledRaw s
  | .scaledIllegal0 => Sys2Proof.Machine.execScaledIllegal0 s
  | .scaledIllegal1 => Sys2Proof.Machine.execScaledIllegal1 s
  | .scaledIllegal2 => Sys2Proof.Machine.execScaledIllegal2 s
  | .scaledIllegal4 => Sys2Proof.Machine.execScaledIllegal4 s
  | .scaledIllegal7 => Sys2Proof.Machine.execScaledIllegal7 s
  | .scaledIllegal10 => Sys2Proof.Machine.execScaledIllegal10 s
  | .scaledIllegal11 => Sys2Proof.Machine.execScaledIllegal11 s
  | .scaledIllegal12 => Sys2Proof.Machine.execScaledIllegal12 s
  | .scaledIllegal13 => Sys2Proof.Machine.execScaledIllegal13 s
  | .scaledIllegal14 => Sys2Proof.Machine.execScaledIllegal14 s
  | .scaledIllegal15 => Sys2Proof.Machine.execScaledIllegal15 s
  | .btsymLiteral0 => Sys2Proof.Machine.execBtsymLiteral0 s
  | .btsymLiteral1 => Sys2Proof.Machine.execBtsymLiteral1 s
  | .btsymLiteral2 => Sys2Proof.Machine.execBtsymLiteral2 s
  | .btsymLiteral3 => Sys2Proof.Machine.execBtsymLiteral3 s
  | .btsymLiteral4 => Sys2Proof.Machine.execBtsymLiteral4 s
  | .btsymLiteral5 => Sys2Proof.Machine.execBtsymLiteral5 s
  | .btsymLiteral6 => Sys2Proof.Machine.execBtsymLiteral6 s
  | .btsymLiteral7 => Sys2Proof.Machine.execBtsymLiteral7 s
  | .btsymLiteral8 => Sys2Proof.Machine.execBtsymLiteral8 s
  | .btsymLiteral9 => Sys2Proof.Machine.execBtsymLiteral9 s
  | .btsymLiteral10 => Sys2Proof.Machine.execBtsymLiteral10 s
  | .btsymLiteral11 => Sys2Proof.Machine.execBtsymLiteral11 s
  | .btsymRun4 => Sys2Proof.Machine.execBtsymRun4 s
  | .btsymRun8 => Sys2Proof.Machine.execBtsymRun8 s
  | .btsymRun12 => Sys2Proof.Machine.execBtsymRun12 s
  | .btsymRun32 => Sys2Proof.Machine.execBtsymRun32 s
  | .treeIdentity => Sys2Proof.Machine.execTreeIdentity s
  | .treeList shape count => Sys2Proof.Machine.execTreeList shape count s
  | .treeMerge shape k => Sys2Proof.Machine.execTreeMerge shape k s
  | .refillDone => Sys2Proof.Machine.execRefillDone s
  | .refillBlockTypesConst t => Sys2Proof.Machine.execRefillBlockTypesConst t s
  | .refillBlockTypesCoded t => Sys2Proof.Machine.execRefillBlockTypesCoded t s
  | .refillSubBlockTypesConst t => Sys2Proof.Machine.execRefillSubBlockTypesConst t s
  | .refillSubBlockTypesCoded t => Sys2Proof.Machine.execRefillSubBlockTypesCoded t s
  | .refillColorsConst t => Sys2Proof.Machine.execRefillColorsConst t s
  | .refillColorsCoded t => Sys2Proof.Machine.execRefillColorsCoded t s
  | .refillPatternConst t => Sys2Proof.Machine.execRefillPatternConst t s
  | .refillPatternCoded t => Sys2Proof.Machine.execRefillPatternCoded t s
  | .refillXOffConst t => Sys2Proof.Machine.execRefillXOffConst t s
  | .refillXOffCoded t => Sys2Proof.Machine.execRefillXOffCoded t s
  | .refillYOffConst t => Sys2Proof.Machine.execRefillYOffConst t s
  | .refillYOffCoded t => Sys2Proof.Machine.execRefillYOffCoded t s
  | .refillRunConst t => Sys2Proof.Machine.execRefillRunConst t s
  | .refillRunCoded t => Sys2Proof.Machine.execRefillRunCoded t s
  | .refillIntraDc t => Sys2Proof.Machine.execRefillIntraDc t s
  | .refillInterDc t => Sys2Proof.Machine.execRefillInterDc t s
  | .audioRun8 width => Sys2Proof.Machine.execAudioRun8 width s
  | .audioRunRle idx width => Sys2Proof.Machine.execAudioRunRle idx width s
  | .cmdOpen => Sys2Proof.Machine.execCmdOpen s
  | .cmdClose => Sys2Proof.Machine.execCmdClose s
  | .cmdDecodeNextFrame => Sys2Proof.Machine.execCmdDecodeNextFrame s
  | .cmdSeek => Sys2Proof.Machine.execCmdSeek s
  | .cmdReadAudio => Sys2Proof.Machine.execCmdReadAudio s
  | .cmdAudioTrackInfo => Sys2Proof.Machine.execCmdAudioTrackInfo s
  | .cmdIllegal00 => Sys2Proof.Machine.execCmdIllegal00 s
  | .cmdIllegal07 => Sys2Proof.Machine.execCmdIllegal07 s
  | .cmdIllegal08 lo => Sys2Proof.Machine.execCmdIllegal08 lo s
  | .cmdIllegal10 lo => Sys2Proof.Machine.execCmdIllegal10 lo s
  | .cmdIllegal20 lo => Sys2Proof.Machine.execCmdIllegal20 lo s
  | .cmdIllegal40 lo => Sys2Proof.Machine.execCmdIllegal40 lo s
  | .cmdIllegal80 lo => Sys2Proof.Machine.execCmdIllegal80 lo s
  | .wrArg0 value => Sys2Proof.Machine.execWrArg0 value s
  | .wrArg1 value => Sys2Proof.Machine.execWrArg1 value s
  | .rdCmd => Sys2Proof.Machine.execRdCmd s
  | .rdArg0 => Sys2Proof.Machine.execRdArg0 s
  | .rdArg1 => Sys2Proof.Machine.execRdArg1 s
  | .rdStatus => Sys2Proof.Machine.execRdStatus s
  | .rdCause => Sys2Proof.Machine.execRdCause s
  | .rdRes0 => Sys2Proof.Machine.execRdRes0 s
  | .rdRes1 => Sys2Proof.Machine.execRdRes1 s
  | .rdRes2 => Sys2Proof.Machine.execRdRes2 s
  | .rdFrameCount => Sys2Proof.Machine.execRdFrameCount s
  | .rdCurFrame => Sys2Proof.Machine.execRdCurFrame s
  | .rdFpsNum => Sys2Proof.Machine.execRdFpsNum s
  | .rdFpsDen => Sys2Proof.Machine.execRdFpsDen s
  | .rdWidth => Sys2Proof.Machine.execRdWidth s
  | .rdHeight => Sys2Proof.Machine.execRdHeight s
  | .rdAudioTracks => Sys2Proof.Machine.execRdAudioTracks s
  | .rdVideoFlags => Sys2Proof.Machine.execRdVideoFlags s
  | .rdVersion => Sys2Proof.Machine.execRdVersion s
  | .rdBitpos => Sys2Proof.Machine.execRdBitpos s
  | .rdFrameKey => Sys2Proof.Machine.execRdFrameKey s

end Sys2Proof.Machine
end

