-- ==== Sys2Proof/WellFormed.lean ====
section
/-! DEFINITION. Which instruction terms an encoding can hold: the checks the bit fields alone do not make.
A tree form is named only after a non-zero shape (R220: shape 0 is followed by nothing), and a bundle refill carries a
count of at least one (R357: a count of 0 is REFILL_DONE). -/

namespace Sys2Proof

/-- The count of a refill header, for the rows that carry one (R222). -/
def Instr.refillCount : Instr → Option (BitVec 32)
  | .refillBlockTypesConst t | .refillBlockTypesCoded t | .refillSubBlockTypesConst t | .refillSubBlockTypesCoded t
  | .refillColorsConst t | .refillColorsCoded t | .refillPatternConst t | .refillPatternCoded t
  | .refillXOffConst t | .refillXOffCoded t | .refillYOffConst t | .refillYOffCoded t
  | .refillRunConst t | .refillRunCoded t | .refillIntraDc t | .refillInterDc t => some t
  | _ => none

/-- The shape of a tree form that has a form bit (R220). -/
def Instr.formShape : Instr → Option (BitVec 4)
  | .treeList shape _ | .treeMerge shape _ => some shape
  | _ => none

/-- An instruction term some header encodes. -/
def Instr.wellFormed (i : Instr) : Bool :=
  i.refillCount != some 0 && i.formShape != some 0

end Sys2Proof
end

