-- ==== Sys2Proof/Decode.lean ====
section
/-! DEFINITION. Decoding and encoding of instruction headers (spec/30_encoding.md R210 to R260;
spec/opcode_table.json). The table's rows stand in nine code spaces whose words overlap: which space a word belongs
to is the place the machine reads it at (R4, R221, R230), so `decode` takes the space. A word is the header's bits in
read order, the first bit read being bit 0 (R210). Decoding is total: a word that is no header of its space is
rejected by name. -/

namespace Sys2Proof

/-- The nine code spaces of spec/opcode_table.json. -/
inductive CodeSpace where
  /-- A value fetched from BLOCK_TYPES at dispatch (R223). -/
  | bt4
  /-- A value fetched from SUB_BLOCK_TYPES by a SCALED block (R224). -/
  | st4
  /-- A Huffman symbol of the block-type readers (R360). -/
  | btsym
  /-- A tree header (R220). -/
  | tree
  /-- A refill header of bundle `b`, whose length field has `len` bits (R222). -/
  | refill (b : BundleId) (len : Nat)
  /-- An audio coefficient run header (R230). -/
  | audioRun
  /-- The word written to REG CMD (R260). -/
  | cmd
  /-- A write of a REG argument register: the byte offset in bits [7:0], the value in bits [39:8] (R60). -/
  | regWrite
  /-- A read of a REG register: the byte offset (R60). -/
  | regRead
deriving DecidableEq, Repr

/-- Why a word is no instruction of its code space. -/
inductive Reject where
  /-- A 4-bit value above 15. -/
  | notANibble
  /-- Bits above the header's last one are set. -/
  | unusedBits
  /-- A length field outside 1..32 bits (R302). -/
  | lengthWidth
  /-- A REG offset with no row of the table (R60: it reads 0 and ignores writes). -/
  | noSuchRegister
deriving DecidableEq, Repr

/-- Bits `hi` to `lo` of a word (R21). -/
def field (w hi lo : Nat) : Nat := w / 2 ^ lo % 2 ^ (hi + 1 - lo)

/-- BT4: the block type of a dispatched value (R223). -/
def decodeBt4 (w : Nat) : Except Reject Instr :=
  match w with
  | 0 => .ok .btSkip
  | 1 => .ok .btScaled
  | 2 => .ok .btMotion
  | 3 => .ok .btRun
  | 4 => .ok .btResidue
  | 5 => .ok .btIntra
  | 6 => .ok .btFill
  | 7 => .ok .btInter
  | 8 => .ok .btPattern
  | 9 => .ok .btRaw
  | 10 => .ok .btIllegal10
  | 11 => .ok .btIllegal11
  | 12 => .ok .btIllegal12
  | 13 => .ok .btIllegal13
  | 14 => .ok .btIllegal14
  | 15 => .ok .btIllegal15
  | _ => .error .notANibble

/-- ST4: the sub-type of a SCALED block (R224). -/
def decodeSt4 (w : Nat) : Except Reject Instr :=
  match w with
  | 0 => .ok .scaledIllegal0
  | 1 => .ok .scaledIllegal1
  | 2 => .ok .scaledIllegal2
  | 3 => .ok .scaledRun
  | 4 => .ok .scaledIllegal4
  | 5 => .ok .scaledIntra
  | 6 => .ok .scaledFill
  | 7 => .ok .scaledIllegal7
  | 8 => .ok .scaledPattern
  | 9 => .ok .scaledRaw
  | 10 => .ok .scaledIllegal10
  | 11 => .ok .scaledIllegal11
  | 12 => .ok .scaledIllegal12
  | 13 => .ok .scaledIllegal13
  | 14 => .ok .scaledIllegal14
  | 15 => .ok .scaledIllegal15
  | _ => .error .notANibble

/-- BTSYM: a literal 0..11 or a run 12..15 of the last literal (R360). -/
def decodeBtsym (w : Nat) : Except Reject Instr :=
  match w with
  | 0 => .ok .btsymLiteral0
  | 1 => .ok .btsymLiteral1
  | 2 => .ok .btsymLiteral2
  | 3 => .ok .btsymLiteral3
  | 4 => .ok .btsymLiteral4
  | 5 => .ok .btsymLiteral5
  | 6 => .ok .btsymLiteral6
  | 7 => .ok .btsymLiteral7
  | 8 => .ok .btsymLiteral8
  | 9 => .ok .btsymLiteral9
  | 10 => .ok .btsymLiteral10
  | 11 => .ok .btsymLiteral11
  | 12 => .ok .btsymRun4
  | 13 => .ok .btsymRun8
  | 14 => .ok .btsymRun12
  | 15 => .ok .btsymRun32
  | _ => .error .notANibble

/-- TREE: shape in bits [3:0]; form in bit 4 when the shape is not 0; then the list's count in bits [7:5] or the
merge's k in bits [6:5] (R220). -/
def decodeTree (w : Nat) : Except Reject Instr :=
  if field w 3 0 = 0 then
    if w < 2 ^ 4 then .ok .treeIdentity else .error .unusedBits
  else if field w 4 4 = 1 then
    if w < 2 ^ 8 then .ok (.treeList (.ofNat 4 w) (.ofNat 3 (field w 7 5))) else .error .unusedBits
  else
    if w < 2 ^ 7 then .ok (.treeMerge (.ofNat 4 w) (.ofNat 2 (field w 6 5))) else .error .unusedBits

/-- Whether a bundle's refill header holds an escape bit (R358: every bundle but the two DC ones, and PATTERN only when
`PATTERN_ESCAPE` is true). -/
def hasEscape : BundleId → Bool
  | .intraDc | .interDc => false
  | .pattern => true
  | _ => true

/-- The constant form of a bundle's refill (escape bit 1); the DC bundles have one form only. -/
def refillConst (b : BundleId) (t : BitVec 32) : Instr :=
  match b with
  | .blockTypes => .refillBlockTypesConst t
  | .subBlockTypes => .refillSubBlockTypesConst t
  | .colors => .refillColorsConst t
  | .pattern => .refillPatternConst t
  | .xOff => .refillXOffConst t
  | .yOff => .refillYOffConst t
  | .run => .refillRunConst t
  | .intraDc => .refillIntraDc t
  | .interDc => .refillInterDc t

/-- The individually coded form of a bundle's refill (escape bit 0); the DC bundles have one form only. -/
def refillCoded (b : BundleId) (t : BitVec 32) : Instr :=
  match b with
  | .blockTypes => .refillBlockTypesCoded t
  | .subBlockTypes => .refillSubBlockTypesCoded t
  | .colors => .refillColorsCoded t
  | .pattern => .refillPatternCoded t
  | .xOff => .refillXOffCoded t
  | .yOff => .refillYOffCoded t
  | .run => .refillRunCoded t
  | .intraDc => .refillIntraDc t
  | .interDc => .refillInterDc t

/-- REFILL: the count t in the low `len` bits; when t is not 0 and the bundle has an escape bit, that bit follows
(R222). -/
def decodeRefill (b : BundleId) (len w : Nat) : Except Reject Instr :=
  if len = 0 ∨ 32 < len then .error .lengthWidth
  else if w % 2 ^ len = 0 then
    if w = 0 then .ok .refillDone else .error .unusedBits
  else if hasEscape b then
    if w / 2 ^ len = 0 then .ok (refillCoded b (.ofNat 32 (w % 2 ^ len)))
    else if w / 2 ^ len = 1 then .ok (refillConst b (.ofNat 32 (w % 2 ^ len)))
    else .error .unusedBits
  else if w < 2 ^ len then .ok (refillCoded b (.ofNat 32 w))
  else .error .unusedBits

/-- AUDIO_RUN: rle in bit 0; rle 0: width in bits [4:1]; rle 1: idx in bits [4:1] and width in bits [8:5] (R230). -/
def decodeAudioRun (w : Nat) : Except Reject Instr :=
  if field w 0 0 = 0 then
    if w < 2 ^ 5 then .ok (.audioRun8 (.ofNat 4 (field w 4 1))) else .error .unusedBits
  else
    if w < 2 ^ 9 then .ok (.audioRunRle (.ofNat 4 (field w 4 1)) (.ofNat 4 (field w 8 5)))
    else .error .unusedBits

/-- CMD: OP is bits [7:0]; bits [31:8] are ignored (R260, R652). -/
def decodeCmd (w : Nat) : Except Reject Instr :=
  if 2 ^ 32 ≤ w then .error .unusedBits
  else
    match field w 7 0 with
    | 0 => .ok .cmdIllegal00
    | 1 => .ok .cmdOpen
    | 2 => .ok .cmdClose
    | 3 => .ok .cmdDecodeNextFrame
    | 4 => .ok .cmdSeek
    | 5 => .ok .cmdReadAudio
    | 6 => .ok .cmdAudioTrackInfo
    | 7 => .ok .cmdIllegal07
    | op =>
      if op < 0x10 then .ok (.cmdIllegal08 (.ofNat 3 op))
      else if op < 0x20 then .ok (.cmdIllegal10 (.ofNat 4 op))
      else if op < 0x40 then .ok (.cmdIllegal20 (.ofNat 5 op))
      else if op < 0x80 then .ok (.cmdIllegal40 (.ofNat 6 op))
      else .ok (.cmdIllegal80 (.ofNat 7 op))

/-- REG_WRITE: a write of ARG0 or ARG1 (R60). -/
def decodeRegWrite (w : Nat) : Except Reject Instr :=
  if 2 ^ 40 ≤ w then .error .unusedBits
  else
    match field w 7 0 with
    | 0x04 => .ok (.wrArg0 (.ofNat 32 (field w 39 8)))
    | 0x08 => .ok (.wrArg1 (.ofNat 32 (field w 39 8)))
    | _ => .error .noSuchRegister

/-- REG_READ: a read of one of the nineteen registers (R60). -/
def decodeRegRead (w : Nat) : Except Reject Instr :=
  match w with
  | 0x00 => .ok .rdCmd
  | 0x04 => .ok .rdArg0
  | 0x08 => .ok .rdArg1
  | 0x0C => .ok .rdStatus
  | 0x10 => .ok .rdCause
  | 0x14 => .ok .rdRes0
  | 0x18 => .ok .rdRes1
  | 0x1C => .ok .rdRes2
  | 0x20 => .ok .rdFrameCount
  | 0x24 => .ok .rdCurFrame
  | 0x28 => .ok .rdFpsNum
  | 0x2C => .ok .rdFpsDen
  | 0x30 => .ok .rdWidth
  | 0x34 => .ok .rdHeight
  | 0x38 => .ok .rdAudioTracks
  | 0x3C => .ok .rdVideoFlags
  | 0x40 => .ok .rdVersion
  | 0x44 => .ok .rdBitpos
  | 0x48 => .ok .rdFrameKey
  | _ => .error .noSuchRegister

/-- The instruction a header word stands for in its code space. -/
def decode : CodeSpace → Nat → Except Reject Instr
  | .bt4, w => decodeBt4 w
  | .st4, w => decodeSt4 w
  | .btsym, w => decodeBtsym w
  | .tree, w => decodeTree w
  | .refill b len, w => decodeRefill b len w
  | .audioRun, w => decodeAudioRun w
  | .cmd, w => decodeCmd w
  | .regWrite, w => decodeRegWrite w
  | .regRead, w => decodeRegRead w

/-- The integer a byte list holds, least significant byte first (R152, R153). -/
def wordOfBytes : List Byte → Nat
  | [] => 0
  | b :: bs => b.toNat + 256 * wordOfBytes bs

/-- The first `n` bytes of a word, least significant byte first. -/
def bytesOfWord : Nat → Nat → List Byte
  | 0, _ => []
  | n + 1, w => .ofNat 8 w :: bytesOfWord n (w / 256)

/-- Decoding from bytes: the header's bits as they lie in a packet (R153) or on the host's bus. -/
def decodeBytes (sp : CodeSpace) (bs : List Byte) : Except Reject Instr := decode sp (wordOfBytes bs)

/-- The result, where there is one. -/
def decoded? : Except Reject Instr → Option Instr
  | .ok i => some i
  | .error _ => none

/-- The code space `decodeTableWord` reads a table word in. The table's words carry no code space of their own and one
word stands for rows of several: the first of BT4, REG_READ and CMD that has the word is taken, and BTSYM for a word of
two bytes (the two BTSYM rows to which the table's reader gave more than one byte). Assumption 1. -/
def tableSpace (nbits w : Nat) : CodeSpace :=
  if 8 < nbits then .btsym
  else if w < 16 then .bt4
  else if (decoded? (decode .regRead w)).isSome then .regRead
  else .cmd

/-- The instruction the decoder reads from a word of spec/opcode_table.json laid out as bytes (assumption 1). Of a word
of two bytes the code is the four lowest bits (R360): the step reads no more of it. -/
def decodeTableWord (nbits w : Nat) : Option Instr :=
  decoded? (decodeBytes (tableSpace nbits w) (bytesOfWord 5 (if 8 < nbits then w % 16 else w)))

/-! ## The encoder, from the same encoding tables -/

/-- The block-type value (R223). -/
def encodeBt4 : Instr → Option (Nat × Nat)
  | .btSkip => some (4, 0)
  | .btScaled => some (4, 1)
  | .btMotion => some (4, 2)
  | .btRun => some (4, 3)
  | .btResidue => some (4, 4)
  | .btIntra => some (4, 5)
  | .btFill => some (4, 6)
  | .btInter => some (4, 7)
  | .btPattern => some (4, 8)
  | .btRaw => some (4, 9)
  | .btIllegal10 => some (4, 10)
  | .btIllegal11 => some (4, 11)
  | .btIllegal12 => some (4, 12)
  | .btIllegal13 => some (4, 13)
  | .btIllegal14 => some (4, 14)
  | .btIllegal15 => some (4, 15)
  | _ => none

/-- The sub-type value (R224). -/
def encodeSt4 : Instr → Option (Nat × Nat)
  | .scaledIllegal0 => some (4, 0)
  | .scaledIllegal1 => some (4, 1)
  | .scaledIllegal2 => some (4, 2)
  | .scaledRun => some (4, 3)
  | .scaledIllegal4 => some (4, 4)
  | .scaledIntra => some (4, 5)
  | .scaledFill => some (4, 6)
  | .scaledIllegal7 => some (4, 7)
  | .scaledPattern => some (4, 8)
  | .scaledRaw => some (4, 9)
  | .scaledIllegal10 => some (4, 10)
  | .scaledIllegal11 => some (4, 11)
  | .scaledIllegal12 => some (4, 12)
  | .scaledIllegal13 => some (4, 13)
  | .scaledIllegal14 => some (4, 14)
  | .scaledIllegal15 => some (4, 15)
  | _ => none

/-- The symbol value (R360). -/
def encodeBtsym : Instr → Option (Nat × Nat)
  | .btsymLiteral0 => some (4, 0)
  | .btsymLiteral1 => some (4, 1)
  | .btsymLiteral2 => some (4, 2)
  | .btsymLiteral3 => some (4, 3)
  | .btsymLiteral4 => some (4, 4)
  | .btsymLiteral5 => some (4, 5)
  | .btsymLiteral6 => some (4, 6)
  | .btsymLiteral7 => some (4, 7)
  | .btsymLiteral8 => some (4, 8)
  | .btsymLiteral9 => some (4, 9)
  | .btsymLiteral10 => some (4, 10)
  | .btsymLiteral11 => some (4, 11)
  | .btsymRun4 => some (4, 12)
  | .btsymRun8 => some (4, 13)
  | .btsymRun12 => some (4, 14)
  | .btsymRun32 => some (4, 15)
  | _ => none

/-- The tree header (R220). -/
def encodeTree : Instr → Option (Nat × Nat)
  | .treeIdentity => some (4, 0)
  | .treeList shape count => some (8, shape.toNat + 2 ^ 4 + 2 ^ 5 * count.toNat)
  | .treeMerge shape k => some (7, shape.toNat + 2 ^ 5 * k.toNat)
  | _ => none

/-- The escape bit and the bundle of a refill form: `some (b, some true)` for a constant, `some (b, some false)` for
coded values, `some (b, none)` for a DC refill. -/
def refillForm : Instr → Option (BundleId × Option Bool)
  | .refillBlockTypesConst _ => some (.blockTypes, some true)
  | .refillBlockTypesCoded _ => some (.blockTypes, some false)
  | .refillSubBlockTypesConst _ => some (.subBlockTypes, some true)
  | .refillSubBlockTypesCoded _ => some (.subBlockTypes, some false)
  | .refillColorsConst _ => some (.colors, some true)
  | .refillColorsCoded _ => some (.colors, some false)
  | .refillPatternConst _ => some (.pattern, some true)
  | .refillPatternCoded _ => some (.pattern, some false)
  | .refillXOffConst _ => some (.xOff, some true)
  | .refillXOffCoded _ => some (.xOff, some false)
  | .refillYOffConst _ => some (.yOff, some true)
  | .refillYOffCoded _ => some (.yOff, some false)
  | .refillRunConst _ => some (.run, some true)
  | .refillRunCoded _ => some (.run, some false)
  | .refillIntraDc _ => some (.intraDc, none)
  | .refillInterDc _ => some (.interDc, none)
  | _ => none

/-- The refill header of bundle `b` with a `len`-bit length field (R222): none for a form of another bundle, a count
that the field cannot hold, or a form the bundle's header cannot name. -/
def encodeRefill (b : BundleId) (len : Nat) (i : Instr) : Option (Nat × Nat) :=
  if len = 0 ∨ 32 < len then none
  else if i = .refillDone then some (len, 0)
  else
    match refillForm i, i.refillCount with
    | some (b', esc), some t =>
      if b' ≠ b ∨ 2 ^ len ≤ t.toNat then none
      else
        match hasEscape b, esc with
        | true, some e => some (len + 1, t.toNat + (if e then 2 ^ len else 0))
        | false, some true => none
        | false, _ => some (len, t.toNat)
        | true, none => none
    | _, _ => none

/-- The audio run header (R230). -/
def encodeAudioRun : Instr → Option (Nat × Nat)
  | .audioRun8 width => some (5, 2 * width.toNat)
  | .audioRunRle idx width => some (9, 1 + 2 * idx.toNat + 2 ^ 5 * width.toNat)
  | _ => none

/-- The word written to CMD, its ignored bits 0 (R260). -/
def encodeCmd : Instr → Option (Nat × Nat)
  | .cmdIllegal00 => some (32, 0)
  | .cmdOpen => some (32, 1)
  | .cmdClose => some (32, 2)
  | .cmdDecodeNextFrame => some (32, 3)
  | .cmdSeek => some (32, 4)
  | .cmdReadAudio => some (32, 5)
  | .cmdAudioTrackInfo => some (32, 6)
  | .cmdIllegal07 => some (32, 7)
  | .cmdIllegal08 lo => some (32, 0x08 + lo.toNat)
  | .cmdIllegal10 lo => some (32, 0x10 + lo.toNat)
  | .cmdIllegal20 lo => some (32, 0x20 + lo.toNat)
  | .cmdIllegal40 lo => some (32, 0x40 + lo.toNat)
  | .cmdIllegal80 lo => some (32, 0x80 + lo.toNat)
  | _ => none

/-- The offset and value of an argument write (R60). -/
def encodeRegWrite : Instr → Option (Nat × Nat)
  | .wrArg0 value => some (40, 0x04 + 2 ^ 8 * value.toNat)
  | .wrArg1 value => some (40, 0x08 + 2 ^ 8 * value.toNat)
  | _ => none

/-- The offset of a register read (R60). -/
def encodeRegRead : Instr → Option (Nat × Nat)
  | .rdCmd => some (8, 0x00)
  | .rdArg0 => some (8, 0x04)
  | .rdArg1 => some (8, 0x08)
  | .rdStatus => some (8, 0x0C)
  | .rdCause => some (8, 0x10)
  | .rdRes0 => some (8, 0x14)
  | .rdRes1 => some (8, 0x18)
  | .rdRes2 => some (8, 0x1C)
  | .rdFrameCount => some (8, 0x20)
  | .rdCurFrame => some (8, 0x24)
  | .rdFpsNum => some (8, 0x28)
  | .rdFpsDen => some (8, 0x2C)
  | .rdWidth => some (8, 0x30)
  | .rdHeight => some (8, 0x34)
  | .rdAudioTracks => some (8, 0x38)
  | .rdVideoFlags => some (8, 0x3C)
  | .rdVersion => some (8, 0x40)
  | .rdBitpos => some (8, 0x44)
  | .rdFrameKey => some (8, 0x48)
  | _ => none

/-- The number of header bits and the header word of an instruction in a code space; none for an instruction of another
space or one whose operands the header cannot hold. -/
def encode : CodeSpace → Instr → Option (Nat × Nat)
  | .bt4, i => encodeBt4 i
  | .st4, i => encodeSt4 i
  | .btsym, i => encodeBtsym i
  | .tree, i => encodeTree i
  | .refill b len, i => encodeRefill b len i
  | .audioRun, i => encodeAudioRun i
  | .cmd, i => encodeCmd i
  | .regWrite, i => encodeRegWrite i
  | .regRead, i => encodeRegRead i

end Sys2Proof
end

