-- ==== Sys2Proof/Machine/Sequencer.lean ====
section
/-! DEFINITION. The sequencer: what happens between two elements. It answers the host's moves, runs the steps of the
pseudocode that stand around the elements (spec/46_host_commands.md R637, spec/45_audio.md R595, spec/42_block_dispatch.md
R430 and R402, spec/41_bundles.md R353 and R356), and fetches the header of the next element (spec/30_encoding.md R220 to
R230). -/

namespace Sys2Proof.Machine

/-- The instruction a fetched header stands for. -/
def fetched (sp : CodeSpace) (w : Nat) : M (Option Instr) :=
  match decode sp w with
  | .ok i => pure (some i)
  | .error _ => refuse .elementOutOfPlace

/-- The sequencer moves to phase `x`; no element is fetched. -/
def goto (x : Phase) : M (Option Instr) := do
  modify fun s => s.setPhase x
  pure none

/-! ## Host moves (R154 to R156, R166) -/

/-- The offset of a REG access: inside the 256 bytes, aligned (R155). -/
def regOffset (offset : Nat) : M Unit := do
  if 256 ≤ offset then throw (.faulted .addressOutsideSpace) else pure ()
  demand (offset % 4 == 0) .unalignedRegAccess

/-- One move of the host (R8). A write of CMD, ARG0 or ARG1 and a read of a mapped register is an instruction; a write
elsewhere is ignored, and an unmapped offset reads 0 (R60, R155). -/
def hostMove : HostMove → M (Option Instr)
  | .regWrite offset value => do
    regOffset offset
    if offset = 0 then fetched .cmd value.toNat
    else pure (decoded? (decode .regWrite (offset + 2 ^ 8 * value.toNat)))
  | .regRead offset => do
    regOffset offset
    match decoded? (decode .regRead offset) with
    | some i => pure (some i)
    | none => do
      modify fun s => s.setReadData (some 0)
      pure none
  | .containerWrite addr value => do
    if 2 ^ 32 ≤ addr then throw (.faulted .addressOutsideSpace) else pure ()
    let s ← get
    demand (!s.regs.isOpen) .containerWriteWhileOpen
    set (s.setContainer (Memory.setByte s.container addr value))
    pure none
  | .planeRead p offset => do
    let s ← get
    match s.plane p with
    | none => throw (.faulted .addressOutsideSpace)
    | some x => do
      if x.inRange offset then pure () else throw (.faulted .addressOutsideSpace)
      set (s.setReadData ((Cells.get x.last offset).map (BitVec.setWidth 32)))
      pure none

/-- Between commands the core answers the host's next move; with none pending its state is held (R717, R731). -/
def idleStep : M (Option Instr) := do
  let s ← get
  match s.hostMoves with
  | [] => pure none
  | m :: ms => do
    set (s.setHostMoves ms)
    hostMove m

/-! ## The frame (R637) and the planes (R430) -/

/-- The loop over audio tracks: the next track's packet, or the video packet (R637). -/
def audioTrackStep : M (Option Instr) := do
  let s ← get
  if s.ctl.track < s.session.trackCount.toNat then do
    openAudioPacket
    pure none
  else goto .videoStart

/-- The plane order of a frame (R430). -/
def planeOrder (p : Params) (x : Session) : List PlaneId :=
  (if x.hasAlpha then [.a] else []) ++ .y :: (if p.swapsChroma x.version then [.v, .u] else [.u, .v])

/-- The opening of `VideoDecode` (R430). -/
def videoStartStep : M (Option Instr) := do
  let s ← get
  bitReaderOpen s.ctl.vbase s.ctl.vlen
  modifyCtl fun c => { c with video := true, order := planeOrder s.params s.session, decoded := [] }
  goto .planeNext

/-- `BUNDLE_LEN_BITS` of a plane with length width `lw` and block-grid width `bw` (P9, R351). -/
def bundleLenBits (x : BundleParams) (lw bw : Nat) : Nat :=
  Nat.log2 (x.lenMul * (if x.lenOfGrid then bw else ceilDiv (max lw 8) 8) / x.lenDiv + x.lenAdd) + 1

/-- `LW` of plane `p` (R351). -/
def lengthWidth (p : PlaneId) (width : Nat) : Nat :=
  match p with
  | .y | .a => width
  | .u | .v => width / 2

/-- The nine bundles in bundle order (R70). -/
def bundleOrder : List BundleId :=
  [.blockTypes, .subBlockTypes, .colors, .pattern, .xOff, .yOff, .intraDc, .interDc, .run]

/-- What PlaneStart does for one bundle, in order (R353). -/
def bundleAgenda : BundleId → List AgendaItem
  | .colors =>
    (leaves.map fun i => .tree (.colHigh i)) ++ [.clearColLast, .tree (.bundle .colors), .seed .colors]
  | .intraDc => [.seed .intraDc]
  | .interDc => [.seed .interDc]
  | b => [.tree (.bundle b), .seed b]

/-- The length-field widths of all bundles for the plane at hand (R351, R353). -/
def setLengths (lw bw : Nat) : M Unit :=
  forEach bundleOrder fun b => modify fun s => s.setBundle b { s.bundle b with len := bundleLenBits (s.params.bundle b) lw bw }

/-- The next plane: its prefix skip, then the start of PlaneStart (R430, R353); after the last one, the frame's end. -/
def planeNextStep : M (Option Instr) := do
  let s ← get
  match s.ctl.order with
  | [] => goto .videoEnd
  | p :: ps => do
    if p = .a ∨ p = .y then skipBits (s.params.prefixSkip s.session.version) else pure ()
    let x ← planeOf p
    setLengths (lengthWidth p s.session.width.toNat) x.bw
    modifyCtl fun c => { c with order := ps, plane := p, agenda := bundleOrder.flatMap bundleAgenda }
    goto .trees

/-! ## PlaneStart (R353) -/

/-- A tree header: the shape, which the tree takes as it is read, then the form with its count or k (R220, R320). -/
def fetchTree (r : TreeRef) : M (Option Instr) := do
  let shape ← getBits 4
  writeShape r (BitVec.ofNat 4 shape)
  if shape = 0 then fetched .tree shape
  else do
    let form ← getBit
    if form = 1 then do
      let count ← getBits 3
      fetched .tree (shape + 2 ^ 4 + 2 ^ 5 * count)
    else do
      let k ← getBits 2
      fetched .tree (shape + 2 ^ 5 * k)

/-- The next item of PlaneStart; after the last one, the first block row (R353, R402). -/
def treesStep : M (Option Instr) := do
  let s ← get
  match s.ctl.agenda with
  | [] => do
    modifyCtl fun c => { c with by_ := 0 }
    goto .rowStart
  | .tree r :: _ => fetchTree r
  | .clearColLast :: _ => do
    modify fun s => s.setColLast 0
    nextAgendaItem
    pure none
  | .seed b :: _ => do
    modify fun s => s.setBundle b { s.bundle b with wr := 0, rd := 0, done := false }
    nextAgendaItem
    pure none

/-! ## The block rows (R402, R356, R357) -/

/-- The head of the loop over block rows (R402). -/
def rowStartStep : M (Option Instr) := do
  let s ← get
  let x ← planeOf s.ctl.plane
  if s.ctl.by_ < x.bh then do
    modifyCtl fun c => { c with refills := bundleOrder }
    goto .refill
  else goto .planeEnd

/-- A refill header: the count, the capacity check, the escape bit where the bundle has one, PATTERN with
`PATTERN_ESCAPE` only (R222, R357, R358, R370). -/
def fetchRefill (b : BundleId) : M (Option Instr) := do
  let s ← get
  let len := (s.bundle b).len
  let t ← getBits len
  if t = 0 then fetched (.refill b len) 0
  else do
    check (decide ((s.bundle b).wr + t ≤ (s.bundle b).cap)) .bundleOverflow
    if hasEscape b && (b != .pattern || s.params.patternEscape) then do
      let e ← getBit
      fetched (.refill b len) (t + 2 ^ len * e)
    else fetched (.refill b len) t

/-- RowRefill's next bundle, skipped while it is done or holds unread values (R356, R357); after the last one, the
row's blocks. -/
def refillStep : M (Option Instr) := do
  let s ← get
  match s.ctl.refills with
  | [] => do
    modifyCtl fun c => { c with bx := 0 }
    goto .block
  | b :: _ =>
    if (s.bundle b).done || decide ((s.bundle b).rd < (s.bundle b).wr) then do
      nextRefill
      pure none
    else fetchRefill b

/-- The symbol loop of a block-type refill (R360). -/
def btSymStep : M (Option Instr) := do
  let s ← get
  match s.ctl.refills with
  | [] => refuse .elementOutOfPlace
  | b :: _ =>
    if (s.bundle b).wr < s.ctl.stop then do
      let v ← huff (.bundle b)
      fetched .btsym v.toNat
    else do
      nextRefill
      pure none

/-- The head of the loop over the blocks of a row: the next block-type value (R402). -/
def blockStep : M (Option Instr) := do
  let s ← get
  let x ← planeOf s.ctl.plane
  if s.ctl.bx < x.bw then do
    let k ← getValue .blockTypes
    fetched .bt4 (elementByte k).toNat
  else do
    modifyCtl fun c => { c with by_ := c.by_ + 1 }
    goto .rowStart

/-- The sub-type of a SCALED block (R420). -/
def subBlockStep : M (Option Instr) := do
  let k ← getValue .subBlockTypes
  fetched .st4 (elementByte k).toNat

/-- The end of a plane: the alignment and the early exit (R402, R430). -/
def planeEndStep : M (Option Instr) := do
  alignTo32
  let s ← get
  modifyCtl fun c => { c with decoded := c.decoded ++ [c.plane] }
  goto (if s.params.earlyPlaneExit && s.ctl.plane != .a && decide (s.bitSize ≤ s.bitPos) then .videoEnd else .planeNext)

/-- A plane the frame did not decode has no `cur` (R432). -/
def dropUndecoded (done : List PlaneId) (p : PlaneId) (x : Plane) : Plane :=
  if done.contains p then x else { x with cur := [] }

/-- `Swap()` of one plane (R460). -/
def Plane.swap (x : Plane) : Plane := { x with cur := x.last, last := x.cur }

/-- The frame's end: the planes not decoded, the swap, and the command's result (R430, R432, R460, R637). -/
def videoEndStep : M (Option Instr) := do
  modify fun s =>
    (s.setPlanes (s.planes.map fun p x => (dropUndecoded s.ctl.decoded p x).swap)).setRegs
      { s.regs with frameValid := true, bitpos := s.br.pos }
  let s ← get
  succeed (BitVec.ofNat 32 s.ctl.frame) 0 0
  pure none

/-! ## Audio runs -/

/-- A run header (R230), while the channel has coefficients to come; then the transform (R581, R576). -/
def audioCoefStep : M (Option Instr) := do
  let s ← get
  let x ← currentTrack
  if s.ctl.coefPos < x.n then do
    let rle ← getBit
    if rle = 1 then do
      let idx ← getBits 4
      let width ← getBits 4
      fetched .audioRun (1 + 2 * idx + 2 ^ 5 * width)
    else do
      let width ← getBits 4
      fetched .audioRun (2 * width)
  else goto .audioXform

/-- A step of the pseudocode in which no element is fetched. -/
def noElement (m : M Unit) : M (Option Instr) := do
  m
  pure none

/-! ## One step of the sequencer -/

/-- What the sequencer does in the current phase: some steps of the pseudocode, and the element it fetched, if it
fetched one. -/
def sequence : M (Option Instr) := do
  let s ← get
  match s.ctl.phase with
  | .idle => idleStep
  | .audioTrack => audioTrackStep
  | .audioLoop => noElement audioLoopHead
  | .audioHead => noElement audioHead
  | .audioCoef => audioCoefStep
  | .audioXform => noElement audioTransform
  | .audioEmit => noElement audioEmit
  | .videoStart => videoStartStep
  | .planeNext => planeNextStep
  | .trees => treesStep
  | .rowStart => rowStartStep
  | .refill => refillStep
  | .btSym => btSymStep
  | .block => blockStep
  | .subBlock => subBlockStep
  | .planeEnd => planeEndStep
  | .videoEnd => videoEndStep

/-- The end of a step: the fetched element runs, or the state stands as the sequencer left it. -/
def finish (execute : Instr → State → Host.Outcome State Fault Refusal) (r : EStateM.Result Stop State (Option Instr)) :
    Host.Outcome State Fault Refusal :=
  match r with
  | .ok (some i) s => execute i s
  | .ok none s => .next s
  | .error (.raised c) s => .next (takeError c s)
  | .error (.refused x) _ => .refused x
  | .error (.faulted x) _ => .fault x

/-! ## Placing one table word where the next step fetches (assumption 1) -/

/-- The plane in hand, or an 8x8 one where there is none. -/
def somePlane (s : State) : Plane := (s.plane s.ctl.plane).getD (lumaPlane .poison 8 8)

/-- A block type placed as the next value of BLOCK_TYPES, at the cursor of the plane in hand. -/
def placeBlockType (w : Nat) (s : State) : State :=
  let b := s.bundle .blockTypes
  let x := somePlane s
  ((s.setPlane s.ctl.plane { x with bw := max x.bw 1 }).setBundle .blockTypes
    { b with buf := Cells.set b.buf b.rd (w : Int), wr := max b.wr (b.rd + 1) }).setCtl
    { s.ctl with phase := .block, bx := 0 }

/-- A block-type symbol placed as the next code of the BLOCK_TYPES refill: its bytes in CONTAINER, under the identity
tree. -/
def placeSymbol (w : Nat) (s : State) : State :=
  let b := s.bundle .blockTypes
  (((s.setContainer (Memory.setBytes s.container 0 (bytesOfWord 5 w))).setBr { base := 0, sizeBits := 40, pos := 0 }).setBundle
    .blockTypes { b with tree := { shape := 0, syms := Cells.setFrom [] 0 identityNibbles } }).setCtl
    { s.ctl with phase := .btSym, refills := [.blockTypes], stop := b.wr + 32, lastLit := 0 }

/-- A host move placed as the next one, the core idle. -/
def placeMove (m : HostMove) (s : State) : State := (s.setHostMoves (m :: s.hostMoves)).setPhase .idle

/-- A word of spec/opcode_table.json placed where the next step fetches it. -/
def placeWord (nbits w : Nat) (s : State) : State :=
  match tableSpace nbits w with
  | .bt4 => placeBlockType w s
  | .btsym => placeSymbol w s
  | .regRead => placeMove (.regRead w) s
  | _ => placeMove (.regWrite 0 (BitVec.ofNat 32 w)) s

end Sys2Proof.Machine
end

