-- ==== Sys2Proof/Machine/Step.lean ====
section
/-! DEFINITION. One step of the machine: the sequencer's next action, and the element it fetched, run (R7, R748). -/

namespace Sys2Proof.Machine

/-- One step (R7): a host move answered, one action of the sequencer, or one element of the bitstream fetched and run. -/
def step (s : State) : Host.Outcome State Fault Refusal := finish exec (sequence s)

/-- The state with the table word `w` placed where the next step fetches it (assumption 1). -/
def State.withFetchWord (s : State) (nbits w : Nat) : State := placeWord nbits w s

end Sys2Proof.Machine
end

