-- ==== Sys2Proof/Safety.lean ====
section
/-! DEFINITION. The terms in which the statements speak of states: what an element needs to find, what a block leaves in a
plane, and the invariants of the machine. -/

namespace Sys2Proof.Machine

/-! ## What an element finds -/

/-- At least `n` bits of the packet are left. -/
def BitsLeft (s : State) (n : Nat) : Prop := s.bitPos + n ≤ s.bitSize

/-- The `n` packet bits from `off` bits past the reader's position, the first one the least significant. -/
def bitsAt (s : State) (off n : Nat) : Nat := Memory.packetBits s.container s.bitBase (s.bitPos + off) n

/-- The next values of a bundle are `vs`, in order. -/
def Holds (x : Bundle) (vs : List Int) : Prop :=
  x.rd + vs.length ≤ x.wr ∧ ∀ i, i < vs.length → Cells.get x.buf (x.rd + i) = vs[i]?

/-- The bundle after `n` of its values were taken. -/
def Bundle.advance (x : Bundle) (n : Nat) : Bundle := { x with rd := x.rd + n }

/-- The bundle after the values `vs` were stored. -/
def Bundle.store (x : Bundle) (vs : List Int) : Bundle :=
  { x with buf := Cells.setFrom x.buf x.wr vs, wr := x.wr + vs.length }

/-- All sixteen symbols of the tree are written. -/
def Tree.Written (t : Tree) : Prop := ∀ l, l < 16 → (Cells.get t.syms l).isSome = true

/-- PlaneStart stands at the tree `r`, and goes on with `rest`. -/
def TreeAt (s : State) (r : TreeRef) (rest : List AgendaItem) : Prop :=
  s.ctl.phase = .trees ∧ s.ctl.agenda = .tree r :: rest

/-- RowRefill stands at bundle `b`, which has room for `t` more values, and goes on with `rest`. -/
def RefillAt (s : State) (b : BundleId) (rest : List BundleId) (t : Nat) : Prop :=
  s.ctl.phase = .refill ∧ s.ctl.refills = b :: rest ∧ (s.bundle b).wr + t ≤ (s.bundle b).cap

/-- The block cursor stands on a block of plane `x`, which is `P[p]`, in phase `ph`. -/
def BlockAt (s : State) (ph : Phase) (p : PlaneId) (x : Plane) : Prop :=
  s.ctl.phase = ph ∧ s.ctl.plane = p ∧ s.plane p = some x ∧ s.ctl.bx < x.bw

/-- The destination of the block at the cursor (R401). -/
def cursorDst (s : State) (x : Plane) : Nat := blockDst x s.ctl.bx s.ctl.by_

/-- The 8x8 block at offset `a` lies in the plane's buffers. -/
def BlockFits (x : Plane) (a : Nat) : Prop := 8 ≤ x.pitch ∧ a + 7 * x.pitch + 8 ≤ x.pitch * x.rows

/-- The 16x16 region at offset `a` lies in the plane's buffers. -/
def RegionFits (x : Plane) (a : Nat) : Prop := 16 ≤ x.pitch ∧ a + 15 * x.pitch + 16 ≤ x.pitch * x.rows

/-- The 8x8 block of `last` at offset `a` holds the pixels `f 0`, …, `f 63`. -/
def LastHolds (x : Plane) (a : Nat) (f : Nat → Byte) : Prop :=
  ∀ i, i < 64 → Cells.get x.last (a + blockOffset x i) = some (f i)

/-! ## What a block leaves -/

/-- `new` is `old` but for the places `place 0`, …, `place (n-1)`, which hold `f 0`, …, `f (n-1)`. -/
def Painted (n : Nat) (place : Nat → Nat) (f : Nat → Byte) (old new : Cells Byte) : Prop :=
  (∀ i, i < n → Cells.get new (place i) = some (f i))
    ∧ ∀ a, (∀ i, i < n → a ≠ place i) → Cells.get new a = Cells.get old a

/-- The 8x8 block at `dst` was painted with `f`, and nothing else of `cur` changed. -/
def BlockPainted (x : Plane) (dst : Nat) (f : Nat → Byte) (new : Cells Byte) : Prop :=
  Painted 64 (fun i => dst + blockOffset x i) f x.cur new

/-- The 16x16 region at `dst` was painted with `f`, and nothing else of `cur` changed. -/
def RegionPainted (x : Plane) (dst : Nat) (f : Nat → Byte) (new : Cells Byte) : Prop :=
  Painted 256 (fun i => dst + regionOffset x i) f x.cur new

/-- The pixel of an 8x8 block that pixel `i` of its 16x16 doubling shows (R422). -/
def doubled (i : Nat) : Nat := i / 32 * 8 + i % 16 / 2

/-- The state after a block: its pixels in `cur` of plane `p`, the cursor `n` columns on. -/
def afterBlock (s : State) (p : PlaneId) (x : Plane) (new : Cells Byte) (n : Nat) : State :=
  (s.setPlane p { x with cur := new }).setCtl { s.ctl with phase := .block, bx := s.ctl.bx + n }

/-- The state after `n` values of bundle `b` were taken. -/
def afterTake (s : State) (b : BundleId) (n : Nat) : State := s.setBundle b ((s.bundle b).advance n)

/-- The state after a motion vector was taken. -/
def afterVector (s : State) : State := afterTake (afterTake s .xOff 1) .yOff 1

/-- The motion source the next vector `(xo, yo)` gives for the block at `dst` (R411). -/
def motionTarget (x : Plane) (dst : Nat) (xo yo : Int) : Int := (dst : Int) + xo + yo * (x.pitch : Int)

/-- The next motion vector leads inside the bounds of R411 to a block of `last` that holds `f`. -/
def MotionHolds (s : State) (x : Plane) (dst : Nat) (f : Nat → Byte) : Prop :=
  ∃ xo yo : Int, Holds (s.bundle .xOff) [xo] ∧ Holds (s.bundle .yOff) [yo]
    ∧ 0 ≤ motionTarget x dst xo yo ∧ motionTarget x dst xo yo ≤ motionLimit x
    ∧ BlockFits x (motionTarget x dst xo yo).toNat ∧ LastHolds x (motionTarget x dst xo yo).toNat f

/-- The runs of a RUN block so far, each with its length and whether its pixels share one color (R415). -/
abbrev Runs := List (Nat × Bool)

/-- The pixels the runs cover. -/
def Runs.pixels (runs : Runs) : Nat := (runs.map Prod.fst).sum

/-- The colors the runs take: one for a shared run, one for each pixel of another (R415). -/
def Runs.colors (runs : Runs) : Nat := (runs.map fun r => if r.2 then 1 else r.1).sum

/-- For each pixel of the runs, in visiting order, which of the colors to come it takes; `u` colors are taken before. -/
def Runs.colorIndices : Runs → (u : Nat) → List Nat
  | [], _ => []
  | (n, true) :: rs, u => List.replicate n u ++ Runs.colorIndices rs (u + 1)
  | (n, false) :: rs, u => List.range' u n ++ Runs.colorIndices rs (u + n)

/-- The color of the `j`-th visited pixel, from the colors `cs` to come; a 64th pixel that no run covers takes one more
color (R415). -/
def Runs.color (runs : Runs) (cs : List Int) (j : Nat) : Byte :=
  BitVec.ofInt 8 (cs.getD ((runs.colorIndices 0 ++ [runs.colors]).getD j 0) 0)

/-- The visiting order that the next four bits select (R414). -/
def runOrder (s : State) : List Nat := s.params.runPattern (BitVec.ofNat 4 (bitsAt s 0 4))

/-- The run values to come, `more` after them, and the bits after the pattern index are those of `runs`. -/
def RunsAhead (s : State) (runs : Runs) (more : List Int) : Prop :=
  (∀ r ∈ runs, 1 ≤ r.1) ∧ Holds (s.bundle .run) (runs.map (fun r => (r.1 : Int) - 1) ++ more)
    ∧ BitsLeft s (4 + runs.length)
    ∧ ∀ j, j < runs.length → runs[j]?.map Prod.snd = some (bitsAt s (4 + j) 1 == 1)

/-- The runs fill the block: 64 pixels, or 63 and a final color, no shorter prefix of which ends the block (R415). -/
def Runs.Fill (runs : Runs) : Prop := (runs.pixels = 63 ∨ runs.pixels = 64) ∧ Runs.pixels runs.dropLast < 63

/-- The colors of runs that fill the block. -/
def Runs.allColors (runs : Runs) : Nat := runs.colors + if runs.pixels = 63 then 1 else 0

/-- The state after the run values `n`, the colors `c` and the bits of the runs were taken. -/
def afterRuns (s : State) (runs : Runs) (n c : Nat) : State :=
  (afterTake (afterTake s .run n) .colors c).setPos (s.bitPos + (4 + runs.length))

/-- The coefficient node arena has at least the places of the source's (P8), so a coefficient decode runs (R490). -/
def ArenaFits (s : State) : Prop := 128 ≤ s.params.coefListCapacity

/-- The sample at block position `i` of the inverse transform of `blk` (R533, R534). -/
def idctSample (p : Params) (blk : List Word) (i : Nat) : Int := ((idctRows p (idctColumns p blk)).getD i 0).toInt


/-! ## Coefficients

CoefDecode and ResidualDecode, from the rules R480 to R506 over plain lists: the bits are those past the reader's position, and
no scratch is used. -/

/-- An entry `(c, m)` of the node list; `(0, 0)` is dead (R480). -/
abbrev Node := Nat × Nat

/-- A decode so far: the bits taken, the budget (none in full-coefficient mode), the coefficients emitted, in order, each a scan
index with its value, and whether the budget has stopped the decode (R481, R500). -/
structure Decoded where
  off : Nat
  left : Option Nat
  out : List (Nat × Int)
  stopped : Bool
deriving DecidableEq, Repr

/-- `n` more bits taken. -/
def Decoded.skip (x : Decoded) (n : Nat) : Decoded := { x with off := x.off + n }

/-- `Spend()`: with nothing left of the budget, the event in hand is the last (R505). -/
def Decoded.spend (x : Decoded) : Decoded :=
  match x.left with
  | none => x
  | some 0 => { x with stopped := true }
  | some (n + 1) => { x with left := some n }

/-- `Emit(c)` or `REmit(c)`: `value off` is the value read at bit `off`, with its bits (R485, R504). -/
def Decoded.emit (value : Nat → Int × Nat) (c : Nat) (x : Decoded) : Decoded :=
  Decoded.spend { x with off := x.off + (value x.off).2, out := x.out ++ [(c, (value x.off).1)] }

/-- The value of a coefficient that becomes significant at bit-plane `k`: the magnitude `2^k` and k extra bits, then the sign
(R485). -/
def fullValue (s : State) (k off : Nat) : Int × Nat :=
  let t : Int := (2 ^ k + bitsAt s off k : Nat)
  (if bitsAt s (off + k) 1 = 1 then -t else t, k + 1)

/-- The value of a residual that becomes significant at mask `2^k` (R504). -/
def residualValue (s : State) (k off : Nat) : Int × Nat :=
  (if bitsAt s off 1 = 1 then -(2 ^ k : Int) else (2 ^ k : Int), 1)

/-- `Group(c)` with `n` indices left: a bit 1 puts the index in front for the next pass, a bit 0 emits it (R489, R504). -/
def groupNodes (s : State) (value : Nat → Int × Nat) : (n c : Nat) → List Node → Decoded → List Node × Decoded
  | 0, _, front, x => (front, x)
  | n + 1, c, front, x =>
    if x.stopped then (front, x)
    else if bitsAt s x.off 1 = 1 then groupNodes s value n (c + 1) ((c, 3) :: front) (x.skip 1)
    else groupNodes s value n (c + 1) front ((x.skip 1).emit value c)

/-- One pass over the entries `todo`, after the entries `done`, with `front` put in front for the next pass: that pass's list,
and what was decoded (R482, R483, R503). `visits` bounds the entries visited; no pass visits 128. -/
def passNodes (s : State) (value : Nat → Int × Nat) : (visits : Nat) → (front done todo : List Node) → Decoded →
    List Node × Decoded
  | 0, front, done, todo, x => (front ++ done ++ todo, x)
  | _, front, done, [], x => (front ++ done, x)
  | visits + 1, front, done, (c, m) :: todo, x =>
    if x.stopped then (front ++ done ++ (c, m) :: todo, x)
    else if c = 0 ∧ m = 0 then passNodes s value visits front (done ++ [(0, 0)]) todo x
    else if bitsAt s x.off 1 = 0 then passNodes s value visits front (done ++ [(c, m)]) todo (x.skip 1)
    else
      match m with
      | 0 =>
        let r := groupNodes s value 4 c front (x.skip 1)
        passNodes s value visits r.1 done ((c + 4, 1) :: todo) r.2
      | 1 => passNodes s value visits front done ((c, 2) :: (todo ++ [(c + 4, 2), (c + 8, 2), (c + 12, 2)])) (x.skip 1)
      | 2 =>
        let r := groupNodes s value 4 c front (x.skip 1)
        passNodes s value visits r.1 (done ++ [(0, 0)]) todo r.2
      | _ => passNodes s value visits front (done ++ [(0, 0)]) todo ((x.skip 1).emit value c)

/-- The bit-planes `n - 1` down to 0 (R481). -/
def fullPlanes (s : State) : (n : Nat) → List Node → Decoded → Decoded
  | 0, _, x => x
  | k + 1, l, x =>
    let r := passNodes s (fullValue s k) 128 [] [] l x
    fullPlanes s k r.1 r.2

/-- What `CoefDecode` decodes before its quantiser index (R481). -/
def fullDecoded (s : State) : Decoded :=
  fullPlanes s (bitsAt s 0 4) [(4, 0), (24, 0), (44, 0), (1, 3), (2, 3), (3, 3)]
    { off := 4, left := none, out := [], stopped := false }

/-- `Refine` at mask `2^k` of the coefficients `todo`, after those of `done`: a bit 1 moves the value away from 0 (R502). -/
def refineValues (s : State) (k : Nat) : (done todo : List (Nat × Int)) → Decoded → Decoded
  | done, [], x => { x with out := done }
  | done, (c, v) :: todo, x =>
    if x.stopped then { x with out := done ++ (c, v) :: todo }
    else if bitsAt s x.off 1 = 1 then
      refineValues s k (done ++ [(c, if v < 0 then v - 2 ^ k else v + 2 ^ k)]) todo (x.skip 1).spend
    else refineValues s k (done ++ [(c, v)]) todo (x.skip 1)

/-- The masks `2^(n-1)` down to 1 (R500). -/
def residualMasks (s : State) : (n : Nat) → List Node → Decoded → Decoded
  | 0, _, x => x
  | k + 1, l, x =>
    let r := passNodes s (residualValue s k) 128 [] [] l (refineValues s k [] x.out x)
    residualMasks s k r.1 r.2

/-- What a RESIDUE block decodes: the budget, the first mask, then `ResidualDecode` (R416, R500). -/
def residualDecoded (s : State) : Decoded :=
  residualMasks s (bitsAt s 7 3 + 1) [(4, 0), (24, 0), (44, 0), (0, 2)]
    { off := 10, left := some (bitsAt s 0 7), out := [], stopped := false }

/-- The coefficient decoded for block position `a`, with its scan index, none where nothing was (R485, R504). -/
def valueAt (p : Params) (out : List (Nat × Int)) (a : Nat) : Option (Nat × Int) := out.find? fun e => p.scanAt e.1 == a

/-- The residual at block position `a` (R500, R504). -/
def residualAt (p : Params) (out : List (Nat × Int)) (a : Nat) : Int := ((valueAt p out a).map Prod.snd).getD 0

/-- `wrap32(x * q) >> 11` (R492). -/
def scaledBy (x : Word) (q : Nat) : Word := (x * BitVec.ofNat 32 q).sshiftRight 11

/-- The dequantised block: the DC at position 0, each coefficient at `SCAN` of its index, scaled by its entry of the matrix, and 0
elsewhere (R492, R496). -/
def blockOf (p : Params) (matrix : Nat → Nat) (dc : Int) (out : List (Nat × Int)) : List Word :=
  (List.range 64).map fun a =>
    match valueAt p out a with
    | some (c, v) => scaledBy (BitVec.ofInt 32 v) (matrix c)
    | none => if a = 0 then scaledBy (BitVec.ofInt 32 dc) (matrix 0) else 0

/-! ## Commands -/

/-- The result registers of a command that succeeded (R655). -/
def okRegs (r : Regs) (r0 r1 r2 : Word) : Regs :=
  { r with err := false, cause := 0, res0 := r0, res1 := r1, res2 := r2 }

/-- The result registers of a command that failed (R655). -/
def errorRegs (r : Regs) (code : Byte) : Regs :=
  { r with err := true, cause := code, res0 := 0, res1 := 0, res2 := 0 }

/-- The state a DecodeError leaves (R690). -/
def afterDecodeError (s : State) (code : Byte) : State :=
  (s.setRegs { errorRegs s.regs code with
    bitpos := if s.ctl.video then s.br.pos else 0 }).setPhase .idle

/-- Between commands. -/
def Idle (s : State) : Prop := s.ctl.phase = .idle

/-- Between commands, with a session open. -/
def Ready (s : State) : Prop := Idle s ∧ s.regs.isOpen = true

/-- The offset of frame `j` in the index at `x` (R203). -/
def indexOffset (m : List Host.Cell) (x j : Nat) : Nat := evenPart (Memory.u32 m (x + 4 * j))

/-- The checks of OPEN on an image of `len` valid bytes, in order, each with the error it raises (R630, R632, R633). -/
def openTable (p : Params) (m : List Host.Cell) (len : Nat) : List (Prop × Cause) :=
  let fsize := Memory.u32 m 4 + 8
  let fc := Memory.u32 m 8
  let n := Memory.u32 m 40
  let x := 44 + 12 * n
  let sig : Word := BitVec.ofNat 32 (Memory.u32 m 0)
  [(len ≠ 0, .noSource), (44 ≤ len, .truncated), (sig ∉ p.unsupportedSignatures, .unsupported), (sig ∈ p.acceptedSignatures, .badSignature),
    (fsize ≤ len, .truncated), (fc ≤ p.maxFrameCount, .frameCount), (Memory.u32 m 12 ≤ fsize, .largestFrame),
    (1 ≤ Memory.u32 m 20 ∧ Memory.u32 m 20 ≤ p.maxDim ∧ 1 ≤ Memory.u32 m 24 ∧ Memory.u32 m 24 ≤ p.maxDim, .badDimensions),
    (n ≤ p.maxAudioTracks, .badAudio), (44 + 12 * n ≤ fsize, .truncated),
    (∀ t, t < n → Memory.u16 m (44 + 4 * n + 4 * t) ≠ 0, .badAudio), (x + 4 * (fc + 1) ≤ fsize, .truncated),
    ((∀ j, j + 1 < fc → indexOffset m x j ≤ indexOffset m x (j + 1))
      ∧ (0 < fc → indexOffset m x (fc - 1) ≤ fsize), .badIndex)]

/-- The packets of a frame lie one after the other from `a` on and end at `v`, all before `stop` (R204, R638). -/
def PacketsAt (m : List Host.Cell) (stop : Nat) : (a : Nat) → List Packet → (v : Nat) → Prop
  | a, [], v => v = a
  | a, k :: ks, v =>
    k.a = a + 4 ∧ k.sz = Memory.u32 m a ∧ a + 4 + k.sz ≤ stop ∧ PacketsAt m stop (a + 4 + k.sz) ks v

/-! ## Audio -/

/-- The band table and the quantisers of the channel in hand are those of a configured track (R574, R581). -/
def BandsFit (s : State) (x : Track) : Prop :=
  x.band.length = x.nb + 1 ∧ x.band[x.nb]? = some x.n ∧ s.ctl.quant.length = x.nb ∧ s.ctl.bandK ≤ x.nb

/-- The sequencer stands in the coefficient runs of track `x`, before the frame's end. -/
def RunAt (s : State) (x : Track) : Prop :=
  s.ctl.phase = .audioCoef ∧ s.tracks[s.ctl.track]? = some x ∧ s.ctl.coefPos < x.n ∧ BandsFit s x

/-- The track after `vs` were stored from position `i` of channel `c` on. -/
def Track.storeSamples (x : Track) (c i : Nat) (vs : List F32) : Track :=
  { x with coef := x.coef.set c (Cells.setFrom (x.coef.getD c []) i vs) }

/-- The output sample `i` of a block: the sample converted, and blended with the retained one where the track has a tail
(R590, R591, R593). -/
def outputSample (x : Track) (v : Nat → F32) (old : Nat → BitVec 16) (i : Nat) : Int :=
  if x.first = false ∧ i < x.ov * x.ch then
    blended (x.ov * x.ch) i (old i).toInt (f32ToClamped (-32768) 32767 (v i))
  else f32ToClamped (-32768) 32767 (v i)

/-- The real that magnitude bits `m` stand for; `0x7F800000`, of an infinity, stands for 2^128, the value after the largest finite
one (R29). -/
def f32Size (m : Nat) : ℚ := f32Significand (BitVec.ofNat 32 m) * 2 ^ f32Scale (BitVec.ofNat 32 m)

/-- The value `y`, not negative, rounds to magnitude bits `m`: it lies between the midpoints around `m`. A value on a midpoint would
lie so for two of them; R575's value never does (`exp_ratio_ne`). -/
def RoundsTo (y : ℝ) (m : Nat) : Prop :=
  m ≤ 0x7F800000 ∧ (0 < m → f32Size (m - 1) + f32Size m ≤ 2 * y) ∧ (m < 0x7F800000 → 2 * y ≤ f32Size m + f32Size (m + 1))

/-! ## Trees and refills

The payloads of trees and refills, from the rules R310 to R382 over plain lists: the bits are those past the reader's position. -/

/-- How many of the `j` bits from `off` on are 0: the elements a merge took from its left list (R323). -/
def zerosAhead (s : State) (off : Nat) : (j : Nat) → Nat
  | 0 => 0
  | j + 1 => zerosAhead s off j + if bitsAt s (off + j) 1 = 0 then 1 else 0

/-- `Merge(a, b)` with the bits from `off` on, and where it stops reading; `n` elements are enough (R323). -/
def mergeAt (s : State) : (n : Nat) → (a b : List (BitVec 4)) → (off : Nat) → List (BitVec 4) × Nat
  | n + 1, x :: a, y :: b, off =>
    if bitsAt s off 1 = 0 then
      let r := mergeAt s n a (y :: b) (off + 1)
      (x :: r.1, r.2)
    else
      let r := mergeAt s n (x :: a) b (off + 1)
      (y :: r.1, r.2)
  | _, a, b, off => (a ++ b, off)

/-- One pass over `l`: `n` pairs of neighbouring blocks of `size` elements merged, one after the other (R322). -/
def mergePassAt (s : State) (size : Nat) : (n : Nat) → (l : List (BitVec 4)) → (off : Nat) → List (BitVec 4) × Nat
  | 0, l, off => (l, off)
  | n + 1, l, off =>
    let m := mergeAt s (2 * size) (l.take size) ((l.drop size).take size) off
    let r := mergePassAt s size n (l.drop (2 * size)) m.2
    (m.1 ++ r.1, r.2)

/-- The first `n` passes over the identity list, the last with blocks of `2^(n-1)` (R322). -/
def mergePassesAt (s : State) : (n : Nat) → List (BitVec 4) × Nat
  | 0 => (leaves, 0)
  | n + 1 =>
    let r := mergePassesAt s n
    mergePassAt s (2 ^ n) (16 / 2 ^ (n + 1)) r.1 r.2

/-- The leaf of shape `sh` whose code the bits from `off` on begin with, and the code's length (R310). -/
def leafAt (s : State) (sh : BitVec 4) (off : Nat) : Nat × Nat :=
  (((s.params.codes sh).zipIdx.find? fun c => bitsAt s off c.1.1 == c.1.2).map fun c => (c.2, c.1.1)).getD (0, 0)

/-- `Huff(r)` at bit `off`: the nibble, and the bits it takes (R311). -/
def huffAt (s : State) (r : TreeRef) (off : Nat) : Nat × Nat :=
  let l := leafAt s (s.tree r).shape off
  (((Cells.get (s.tree r).syms l.1).getD 0).toNat, l.2)

/-- `ReadSigned(m)` at bit `off`: the value, and the bits it takes (R23). -/
def signedAt (s : State) (m off : Nat) : Int × Nat :=
  if m = 0 then (0, 0) else (if bitsAt s off 1 = 1 then -(m : Int) else m, 1)

/-- One Huffman-coded value: the value, the bits it takes, and the high nibble of the last color after it. -/
structure CodedValue where
  value : Int
  bits : Nat
  last : BitVec 4
deriving DecidableEq, Repr

/-- The coded value of bundle `b` at bit `off`: a color (R366, R367), a pattern byte, its low nibble first (R370), a motion value
(R373), or a run value, signed where RUN_SIGNED says so (R376). -/
def codedAt (s : State) (b : BundleId) (last : BitVec 4) (off : Nat) : CodedValue :=
  match b with
  | .colors =>
    let hi := huffAt s (.colHigh last) off
    let lo := huffAt s (.bundle .colors) (off + hi.2)
    let v : Int := hi.1 * 16 + lo.1
    { value := if s.params.foldsColor s.session.version then ((if 128 ≤ v then -(v - 128) else v) + 128) % 256 else v
      bits := hi.2 + lo.2, last := BitVec.ofNat 4 hi.1 }
  | .pattern =>
    let lo := huffAt s (.bundle .pattern) off
    let hi := huffAt s (.bundle .pattern) (off + lo.2)
    { value := hi.1 * 16 + lo.1, bits := lo.2 + hi.2, last := last }
  | _ =>
    let m := huffAt s (.bundle b) off
    let v := if b = .run ∧ s.params.runSigned = false then ((m.1 : Int), 0) else signedAt s m.1 (off + m.2)
    { value := v.1, bits := m.2 + v.2, last := last }

/-- The coded values read so far, the next bit, and the high nibble of the last color. -/
structure CodedRun where
  values : List Int
  off : Nat
  last : BitVec 4
deriving DecidableEq, Repr

/-- `n` coded values of bundle `b`, one after the other, and those before them. -/
def codedMany (s : State) (b : BundleId) : (n : Nat) → CodedRun → CodedRun
  | 0, x => x
  | n + 1, x =>
    let c := codedAt s b x.last x.off
    codedMany s b n { values := x.values ++ [c.value], off := x.off + c.bits, last := c.last }

/-- The `t` coded values of a refill of bundle `b`. -/
def codedValues (s : State) (b : BundleId) (t : Nat) : CodedRun := codedMany s b t { values := [], off := 0, last := s.colLast }

/-- A DC refill so far: the values stored, the running one, the next bit, and whether all stayed in range (R380, R382). -/
structure DcRun where
  values : List Int
  value : Int
  off : Nat
  inRange : Bool
deriving DecidableEq, Repr

/-- `n` values of a group of width `w`: the running value repeated for width 0, else moved by a signed delta, until it leaves
-32768..32767 (R380 to R382). -/
def dcGroupAt (s : State) (w : Nat) : (n : Nat) → DcRun → DcRun
  | 0, x => x
  | n + 1, x =>
    if x.inRange = false then x
    else if w = 0 then dcGroupAt s w n { x with values := x.values ++ [x.value] }
    else
      let m := bitsAt s x.off w
      let d := signedAt s m (x.off + w)
      let v := x.value + d.1
      let off := x.off + w + d.2
      if -32768 ≤ v ∧ v ≤ 32767 then
        dcGroupAt s w n { values := x.values ++ [v], value := v, off := off, inRange := true }
      else { x with off := off, inRange := false }

/-- The `groups` groups of the `rem` values left, 8 values each but for the last one, each with its width of 4 bits (R380). -/
def dcGroupsAt (s : State) : (groups rem : Nat) → DcRun → DcRun
  | 0, _, x => x
  | g + 1, rem, x =>
    if x.inRange = false then x
    else dcGroupsAt s g (rem - 8) (dcGroupAt s (bitsAt s x.off 4) (min rem 8) { x with off := x.off + 4 })

/-- The `t` values of a DC refill: an unsigned start of 11 bits for INTRA_DC, a signed one of 10 bits for INTER_DC, and the groups
(R380). -/
def dcValues (s : State) (b : BundleId) (t : Nat) : DcRun :=
  let first : Int × Nat := if b = .intraDc then ((bitsAt s 0 11 : Int), 11)
    else
      let d := signedAt s (bitsAt s 0 10) 10
      (d.1, 10 + d.2)
  dcGroupsAt s ((t - 1 + 7) / 8) (t - 1) { values := [first.1], value := first.1, off := first.2, inRange := true }

/-! ## Invariants -/

/-- R66: the reader's position never passes its packet's end. -/
def ReaderInv (s : State) : Prop := s.bitPos ≤ s.bitSize

/-- R72: `rd <= wr <= cap` for every bundle, and a running symbol loop ends inside its bundle's buffer. -/
def BundleInv (s : State) : Prop :=
  (∀ b, (s.bundle b).rd ≤ (s.bundle b).wr ∧ (s.bundle b).wr ≤ (s.bundle b).cap)
    ∧ (s.ctl.phase = .btSym → ∀ b rest, s.ctl.refills = b :: rest → s.ctl.stop ≤ (s.bundle b).cap)

/-- R61, R81, R95, R110: the frame cursor stays inside the index, the index and the tracks have the header's counts, and
without a session there is neither session, plane nor track, and no command runs. -/
def SessionInv (s : State) : Prop :=
  s.session.curFrame.toNat ≤ s.session.frameCount.toNat ∧ s.session.frames.length = s.session.frameCount.toNat
    ∧ s.tracks.length = s.session.trackCount.toNat
    ∧ (s.regs.isOpen = false →
        s.session = Session.reset ∧ s.planes = Planes.reset ∧ s.regs.frameValid = false ∧ s.ctl.phase = .idle)

/-- R82, R158: the pixels of every plane lie inside its buffers, in canonical form. -/
def PlaneInv (s : State) : Prop :=
  ∀ p x, s.plane p = some x →
    Cells.sorted x.cur = true ∧ Cells.below x.cur (x.pitch * x.rows) = true
      ∧ Cells.sorted x.last = true ∧ Cells.below x.last (x.pitch * x.rows) = true

/-- The `last` buffer of plane `p`, none where the session has no such plane. -/
def lastOf (s : State) (p : PlaneId) : Option (Cells Byte) := (s.plane p).map Plane.last

end Sys2Proof.Machine
end

