-- ==== Sys2Proof/Certificates/Slice0/Obligations.lean ====
section
/-! DEFINITION. The statements for the provers. Each docstring names the rules of spec/ a statement formalises; NOTES.md
lists which statement says of which instruction that it completes. -/

open Sys2Proof Sys2Proof.Machine

/-! ## Encoding -/

/-- Every well-formed instruction has a header in some code space, and decoding any header of it gives it back, with
every operand at every value the header admits (R210, R220 to R224, R230, R260, R60). -/
def Obligations.DecodeOfEncode : Prop :=
  (∀ (sp : CodeSpace) (i : Instr) (n w : Nat), i.wellFormed = true → encode sp i = some (n, w) →
      w < 2 ^ n ∧ decode sp w = .ok i)
    ∧ ∀ i : Instr, i.wellFormed = true → ∃ sp, (encode sp i).isSome = true

/-- A word that decodes, decodes to a well-formed instruction whose header is that word; in CMD the ignored bits 31 to 8
drop out (R260, R652). -/
def Obligations.EncodeOfDecode : Prop :=
  ∀ (sp : CodeSpace) (w : Nat) (i : Instr), decode sp w = .ok i →
    i.wellFormed = true
      ∧ (if sp = .cmd then encode sp i = some (32, w % 256) else ∃ n, encode sp i = some (n, w))

/-- Words written out from the encodings of R220, R222, R223, R224, R230, R260 and R60 decode to their instructions. -/
def Obligations.WordsOfTheSpec : Prop :=
  decode .bt4 0b0110 = .ok .btFill ∧ decode .st4 0b0101 = .ok .scaledIntra ∧ decode .btsym 0b1101 = .ok .btsymRun8
    ∧ decode .tree 0b01010011 = .ok (.treeList 3 2) ∧ decode .tree 0b1100011 = .ok (.treeMerge 3 3)
    ∧ decode (.refill .colors 10) 0b10000000001 = .ok (.refillColorsConst 1)
    ∧ decode (.refill .intraDc 10) 0b0000000011 = .ok (.refillIntraDc 3)
    ∧ decode .audioRun 0b000011111 = .ok (.audioRunRle 15 0) ∧ decode .cmd 0x12345601 = .ok .cmdOpen
    ∧ decode .regWrite 0x000000008C04 = .ok (.wrArg0 140) ∧ decode .regRead 0x44 = .ok .rdBitpos

/-! ## Bit reader and VLC -/

/-- `GetBits(n)`: the bits in read order, the first one bit 0, and the position moved; an underrun that changes nothing;
a refusal of a width outside 1..32 (R302). -/
def Obligations.GetBitsReads : Prop :=
  ∀ (n : Nat) (s : State),
    if 1 ≤ n ∧ n ≤ 32 then
      if s.bitPos + n ≤ s.bitSize then
        ∃ v, getBits n s = .ok v (s.setPos (s.bitPos + n)) ∧ v < 2 ^ n
          ∧ ∀ j, j < n → (v.testBit j = true ↔ Memory.packetBit s.container s.bitBase (s.bitPos + j) = 1)
      else getBits n s = .error (.raised .readerUnderrun) s
    else getBits n s = .error (.refused .bitFieldWidth) s

/-- `AlignTo32()` moves to the next multiple of 32 bits, or to the packet's end, and raises nothing (R306). -/
def Obligations.AlignTo32Moves : Prop :=
  ∀ s : State, alignTo32 s = .ok () (s.setPos (min (32 * ((s.bitPos + 31) / 32)) s.bitSize))

/-- With as many bits left as the shape's longest code has, `DecodeSymbol` ends at a leaf: the bits it consumed are that
leaf's code. This is what makes the end of R310's loop unreachable, for every shape that passes R11 (a) and R12. -/
def Obligations.DecodeSymbolFindsLeaf : Prop :=
  ∀ (sh : BitVec 4) (s : State), isCompletePrefixCode (s.params.codes sh) = true →
    BitsLeft s (longestCode (s.params.codes sh)) →
    ∃ (l : BitVec 4) (c : Nat × Nat), (s.params.codes sh)[l.toNat]? = some c
      ∧ decodeSymbol sh s = .ok l (s.setPos (s.bitPos + c.1)) ∧ bitsAt s 0 c.1 = c.2

/-- Shape 0 is the 4-bit identity code, and decoding it is `GetBits(4)`: a nibble; with fewer than four bits left READER_UNDERRUN, no
bit consumed (R312, R302). So a symbol of a shape-0 bundle tree that the packet's end cuts off leaves the reader's position, and with
it BITPOS, before the code. -/
def Obligations.ShapeZeroReadsNibble : Prop :=
  State.reset.params.codes 0 = (List.range 16).map (fun l => (4, l))
    ∧ ∀ s : State, s.params.codes 0 = (List.range 16).map (fun l => (4, l)) →
        (BitsLeft s 4 → decodeSymbol 0 s = .ok (BitVec.ofNat 4 (bitsAt s 0 4)) (s.setPos (s.bitPos + 4)))
          ∧ (¬ BitsLeft s 4 → decodeSymbol 0 s = .error (.raised .readerUnderrun) s)
          ∧ ∀ (b : BundleId) (rest : List BundleId), s.ctl.phase = .btSym → s.ctl.refills = b :: rest →
              (s.bundle b).wr < s.ctl.stop → (s.bundle b).tree.shape = 0 → ¬ BitsLeft s 4 →
              step s = .next (afterDecodeError s 16)

/-! ## Trees -/

/-- TREE_IDENTITY completes: shape 0, the identity, PlaneStart goes on; nothing else changes (R320). -/
def Obligations.TreeIdentityCompletes : Prop :=
  ∀ (s : State) (r : TreeRef) (rest : List AgendaItem), TreeAt s r rest →
    exec .treeIdentity s
      = .next ((s.setTree r { shape := 0, syms := Cells.setFrom (s.tree r).syms 0 leaves }).setCtl
          { s.ctl with agenda := rest })

/-- TREE_LIST with distinct leaves completes: the `count + LIST_COUNT_BIAS` listed leaves, then the unused nibbles in
ascending order, a permutation of 0..15 (R321); nothing else changes. -/
def Obligations.TreeListCompletes : Prop :=
  ∀ (shape : BitVec 4) (count : BitVec 3) (s : State) (r : TreeRef) (rest : List AgendaItem) (vs : List (BitVec 4)),
    TreeAt s r rest → BitsLeft s (4 * vs.length) → vs.length = count.toNat + s.params.listCountBias →
    (∀ i, i < vs.length → vs[i]? = some (BitVec.ofNat 4 (bitsAt s (4 * i) 4))) → vs.Nodup →
    (vs ++ leaves.filter fun v => !vs.contains v).Perm leaves
      ∧ exec (.treeList shape count) s
        = .next (((s.setTree r { shape := shape
                                 syms := Cells.setFrom (s.tree r).syms 0
                                   (vs ++ leaves.filter fun v => !vs.contains v) }).setPos
            (s.bitPos + 4 * vs.length)).setCtl { s.ctl with agenda := rest })

/-- TREE_LIST that names a leaf twice ends the frame with TREE_DUPLICATE, at that leaf (R321, R690). -/
def Obligations.TreeListDuplicate : Prop :=
  ∀ (shape : BitVec 4) (count : BitVec 3) (s : State) (r : TreeRef) (rest : List AgendaItem) (n : Nat),
    TreeAt s r rest → n < count.toNat + s.params.listCountBias → BitsLeft s (4 * (n + 1)) →
    (∀ i j, i < j → j < n → bitsAt s (4 * i) 4 ≠ bitsAt s (4 * j) 4) →
    (∃ i, i < n ∧ bitsAt s (4 * i) 4 = bitsAt s (4 * n) 4) →
    ∃ tree : Tree, exec (.treeList shape count) s
      = .next (afterDecodeError ((s.setTree r tree).setPos (s.bitPos + 4 * (n + 1))) 24)

/-- TREE_MERGE completes for every k and every merge bit: k + 1 passes over the identity list, the i-th merging neighbouring blocks
of 2^i, each block with the bits after those of the block before (`mergePassesAt`); the symbols are a permutation of 0..15 ("the
tree-merge algorithm always produces a permutation"), and at most 49 bits are read; nothing else changes (R322, R323). With k = 0
the pairs of neighbours are so merged, one bit each. A merge takes its next element from the left list where its bit is 0 and from
the right one where it is 1, until one list is empty, and then the rest of the other, unread. -/
def Obligations.TreeMergePermutes : Prop :=
  (∀ (shape : BitVec 4) (k : BitVec 2) (s : State) (r : TreeRef) (rest : List AgendaItem),
    let m := mergePassesAt s (k.toNat + 1)
    m.1.Perm leaves ∧ m.2 ≤ 49
      ∧ (k = 0 → m.2 = 8 ∧ ∀ j, j < 8 →
          m.1[2 * j]? = some (BitVec.ofNat 4 (2 * j + bitsAt s j 1))
            ∧ m.1[2 * j + 1]? = some (BitVec.ofNat 4 (2 * j + 1 - bitsAt s j 1)))
      ∧ (TreeAt s r rest → BitsLeft s m.2 →
          exec (.treeMerge shape k) s
            = .next (((s.setTree r { shape := shape, syms := Cells.setFrom (s.tree r).syms 0 m.1 }).setPos
                (s.bitPos + m.2)).setCtl { s.ctl with agenda := rest })))
    ∧ ∀ (a b : List (BitVec 4)) (s : State) (off : Nat),
        let m := mergeAt s (a.length + b.length) a b off
        (off = 0 → BitsLeft s m.2 → mergeRuns (a.length + b.length) a b s = .ok m.1 (s.setPos (s.bitPos + m.2)))
          ∧ ∃ n, m.2 = off + n ∧ n ≤ a.length + b.length
            ∧ (∀ j, j < n →
                m.1[j]? = if bitsAt s (off + j) 1 = 0 then a[zerosAhead s off j]? else b[j - zerosAhead s off j]?)
            ∧ (zerosAhead s off n = a.length ∨ n - zerosAhead s off n = b.length)
            ∧ (∀ j, j < n → zerosAhead s off j < a.length ∧ j - zerosAhead s off j < b.length)
            ∧ m.1.drop n = a.drop (zerosAhead s off n) ++ b.drop (n - zerosAhead s off n)
            ∧ m.1.length = a.length + b.length

/-! ## Refills -/

/-- REFILL_DONE completes: the bundle at hand is done, RowRefill goes on; nothing else changes (R357). -/
def Obligations.RefillDoneCompletes : Prop :=
  ∀ (s : State) (b : BundleId) (rest : List BundleId), s.ctl.phase = .refill → s.ctl.refills = b :: rest →
    exec .refillDone s
      = .next ((s.setBundle b { s.bundle b with done := true }).setCtl { s.ctl with refills := rest })

/-- The block-type refills complete: the constant form stores t copies of a raw nibble; the coded form opens the symbol
loop, with its end t elements on and 0 as the last literal (R360, R361, R362); nothing else changes. -/
def Obligations.RefillBlockTypesComplete : Prop :=
  ∀ (b : BundleId) (t : BitVec 32) (s : State) (rest : List BundleId), b = .blockTypes ∨ b = .subBlockTypes →
    RefillAt s b rest t.toNat →
    (BitsLeft s 4 →
        exec (refillConst b t) s
          = .next (((s.setBundle b ((s.bundle b).store (List.replicate t.toNat (bitsAt s 0 4 : Int)))).setPos
              (s.bitPos + 4)).setCtl { s.ctl with refills := rest }))
      ∧ exec (refillCoded b t) s
        = .next (s.setCtl { s.ctl with phase := .btSym, stop := (s.bundle b).wr + t.toNat, lastLit := 0 })

/-- The constant motion and run refills complete: t copies of a raw nibble with its sign bit, which is read only when the
nibble is not 0 and means negative when 1, and never for RUN without `RUN_SIGNED` (R373, R376, R23, P17); nothing else
changes. -/
def Obligations.RefillSignedConstComplete : Prop :=
  ∀ (b : BundleId) (t : BitVec 32) (s : State) (rest : List BundleId), b = .xOff ∨ b = .yOff ∨ b = .run →
    RefillAt s b rest t.toNat → BitsLeft s 5 →
    let m := bitsAt s 0 4
    let unsigned := b = .run ∧ s.params.runSigned = false
    let v : Int := if bitsAt s 4 1 = 1 ∧ ¬ unsigned then -(m : Int) else (m : Int)
    exec (refillConst b t) s
      = .next (((s.setBundle b ((s.bundle b).store (List.replicate t.toNat v))).setPos
          (s.bitPos + if m = 0 ∨ unsigned then 4 else 5)).setCtl { s.ctl with refills := rest })

/-- The Huffman-coded refills of COLORS, PATTERN, X_OFF, Y_OFF and RUN, and the constant forms of COLORS and PATTERN,
complete whatever the trees' shapes and whatever RUN_SIGNED, PATTERN_ESCAPE and COLOR_FOLD are. The coded form stores t values, each
read where the one before ends (`codedValues`): the symbol its tree maps the leaf to, of whatever shape; a color's high nibble
through the tree the color before selects; a pattern byte's low nibble first; a motion or run value's sign bit after a magnitude
that is not 0, none without RUN_SIGNED. The constant form stores t copies of one. All lie in the bundle's range, at most twice the
longest code is read for each, and only the bundle, the reader's position and (for COLORS) `colLast` change (R311, R358, R365, R366,
R367, R370, R373, R376, R23, R10). -/
def Obligations.RefillHuffmanComplete : Prop :=
  ∀ (b : BundleId) (t : BitVec 32) (s : State),
    b = .colors ∨ b = .pattern ∨ b = .xOff ∨ b = .yOff ∨ b = .run →
    let all := codedValues s b t.toNat
    let one := codedAt s b s.colLast 0
    all.values.length = t.toNat ∧ all.off ≤ 2 * s.params.vlcMaxLen * t.toNat
      ∧ (b ≠ .colors → all.last = s.colLast ∧ one.last = s.colLast)
      ∧ (∀ v ∈ one.value :: all.values, if b = .colors ∨ b = .pattern then 0 ≤ v ∧ v ≤ 255 else -15 ≤ v ∧ v ≤ 15)
      ∧ ∀ rest : List BundleId, RefillAt s b rest t.toNat → (s.bundle b).tree.Written →
          (b = .colors → ∀ i, (s.tree (.colHigh i)).Written) →
          (BitsLeft s all.off →
              exec (refillCoded b t) s
                = .next ((((s.setBundle b ((s.bundle b).store all.values)).setPos (s.bitPos + all.off)).setColLast
                    all.last).setCtl { s.ctl with refills := rest }))
            ∧ (b = .colors ∨ b = .pattern → BitsLeft s one.bits →
              exec (refillConst b t) s
                = .next ((((s.setBundle b ((s.bundle b).store (List.replicate t.toNat one.value))).setPos
                    (s.bitPos + one.bits)).setColLast one.last).setCtl { s.ctl with refills := rest }))

/-- The DC refills complete, with one value and with any count whose group widths are all 0: an unsigned 11-bit start for
INTRA_DC, a signed 10-bit magnitude for INTER_DC, repeated (R380); nothing else changes. -/
def Obligations.RefillDcComplete : Prop :=
  ∀ (t : BitVec 32) (s : State) (rest : List BundleId), 1 ≤ t.toNat →
    let groups := (t.toNat - 1 + 7) / 8
    (RefillAt s .intraDc rest t.toNat → BitsLeft s (11 + 4 * groups) →
        (∀ g, g < groups → bitsAt s (11 + 4 * g) 4 = 0) →
        exec (.refillIntraDc t) s
          = .next (((s.setBundle .intraDc
              ((s.bundle .intraDc).store (List.replicate t.toNat (bitsAt s 0 11 : Int)))).setPos
              (s.bitPos + 11 + 4 * groups)).setCtl { s.ctl with refills := rest }))
      ∧ let m := bitsAt s 0 10
        let start := if m = 0 then 10 else 11
        let v : Int := if bitsAt s 10 1 = 1 then -(m : Int) else (m : Int)
        RefillAt s .interDc rest t.toNat → BitsLeft s (start + 4 * groups) →
        (∀ g, g < groups → bitsAt s (start + 4 * g) 4 = 0) →
        exec (.refillInterDc t) s
          = .next (((s.setBundle .interDc ((s.bundle .interDc).store (List.replicate t.toNat v))).setPos
              (s.bitPos + start + 4 * groups)).setCtl { s.ctl with refills := rest })

/-- A DC refill completes for every count and every bit pattern (`dcValues`): the start, then in groups of 8, each with its width
of 4 bits, the running value repeated for width 0, else moved by a delta with a sign bit where its magnitude is not 0; where the
running value leaves -32768..32767 the frame ends with DC_OUT_OF_RANGE after the values before it were stored (R380, R381, R382,
R690). So the second value of an INTRA_DC refill is the first plus a signed delta of the group's width. -/
def Obligations.RefillDcDelta : Prop :=
  (∀ (b : BundleId) (t : BitVec 32) (s : State) (rest : List BundleId), b = .intraDc ∨ b = .interDc → 1 ≤ t.toNat →
    let d := dcValues s b t.toNat
    RefillAt s b rest t.toNat → BitsLeft s d.off →
    let u := (s.setBundle b ((s.bundle b).store d.values)).setPos (s.bitPos + d.off)
    (d.inRange = true → d.values.length = t.toNat)
      ∧ (∀ v ∈ d.values, -32768 ≤ v ∧ v ≤ 32767)
      ∧ exec (refillCoded b t) s
        = .next (if d.inRange then u.setCtl { s.ctl with refills := rest } else afterDecodeError u 19))
    ∧ ∀ (s : State) (rest : List BundleId), RefillAt s .intraDc rest 2 →
      let v : Int := bitsAt s 0 11
      let w := bitsAt s 11 4
      let m := bitsAt s 15 w
      let d : Int := if bitsAt s (15 + w) 1 = 1 then -(m : Int) else (m : Int)
      w ≠ 0 → m ≠ 0 → BitsLeft s (16 + w) →
      exec (.refillIntraDc 2) s
        = if -32768 ≤ v + d ∧ v + d ≤ 32767 then
            .next (((s.setBundle .intraDc ((s.bundle .intraDc).store [v, v + d])).setPos (s.bitPos + 16 + w)).setCtl
              { s.ctl with refills := rest })
          else
            .next (afterDecodeError ((s.setBundle .intraDc ((s.bundle .intraDc).store [v])).setPos (s.bitPos + 16 + w))
              19)

/-- With shape-0 trees `DecodeColor` reads two nibbles: the first goes through the tree `colLast` selects and becomes
`colLast`, the second through the bundle's own tree; the byte is folded and rebiased where COLOR_FOLD says so, at R10's
value below version 'i' (R366, R367, P12). -/
def Obligations.DecodeColorShapeZero : Prop :=
  (∀ ver : Byte, State.reset.params.foldsColor ver = decide (ver.toNat < 0x69))
    ∧ ∀ (s : State) (hi lo : BitVec 4), s.params.codes 0 = (List.range 16).map (fun l => (4, l)) →
    (s.tree (.colHigh s.colLast)).shape = 0 → (s.bundle .colors).tree.shape = 0 →
    BitsLeft s 8 → Cells.get (s.tree (.colHigh s.colLast)).syms (bitsAt s 0 4) = some hi →
    Cells.get (s.bundle .colors).tree.syms (bitsAt s 4 4) = some lo →
    let v : Int := hi.toNat * 16 + lo.toNat
    let folded : Int := ((if 128 ≤ v then -(v - 128) else v) + 128) % 256
    decodeColor s
      = .ok (if s.params.foldsColor s.session.version then folded else v) ((s.setPos (s.bitPos + 8)).setColLast hi)

/-- The refill test: a bundle that is done or still holds values reads nothing in this row; a length field of more than
the buffer's room ends the frame with BUNDLE_OVERFLOW and writes no element (R357, R72, R690). -/
def Obligations.RefillTest : Prop :=
  ∀ (s : State) (b : BundleId) (rest : List BundleId), s.ctl.phase = .refill → s.ctl.refills = b :: rest →
    ((s.bundle b).done = true ∨ (s.bundle b).rd < (s.bundle b).wr → step s = .next (s.setCtl { s.ctl with refills := rest }))
      ∧ ((s.bundle b).done = false → (s.bundle b).wr ≤ (s.bundle b).rd → 1 ≤ (s.bundle b).len →
          (s.bundle b).len ≤ 32 → BitsLeft s (s.bundle b).len → bitsAt s 0 (s.bundle b).len ≠ 0 →
          (s.bundle b).cap < (s.bundle b).wr + bitsAt s 0 (s.bundle b).len →
          step s = .next (afterDecodeError (s.setPos (s.bitPos + (s.bundle b).len)) 22))

/-! ## Block-type symbols -/

/-- The twelve literal symbols complete: the literal is stored and remembered; nothing else changes (R360). -/
def Obligations.BtsymLiteralsComplete : Prop :=
  ∀ (v : Nat) (i : Instr) (s : State) (b : BundleId) (rest : List BundleId), v < 12 → decode .btsym v = .ok i →
    s.ctl.phase = .btSym → s.ctl.refills = b :: rest → (s.bundle b).wr < s.ctl.stop →
    exec i s = .next ((s.setBundle b ((s.bundle b).store [(v : Int)])).setCtl { s.ctl with lastLit := v })

/-- The four run symbols repeat the last literal BLOCK_RLE_LEN times, at R10's value 4, 8, 12 or 32; a run past the refill's
end ends the frame with BLOCKTYPE_RUN_OVERRUN and stores nothing; nothing else changes (R360, R362, R690, P36). -/
def Obligations.BtsymRunsComplete : Prop :=
  State.reset.params.blockRleLen = [4, 8, 12, 32]
    ∧ ∀ (i : Instr) (k : Nat) (s : State) (b : BundleId) (rest : List BundleId),
    (i, k) ∈ [(Instr.btsymRun4, 0), (.btsymRun8, 1), (.btsymRun12, 2), (.btsymRun32, 3)] →
    let n := s.params.blockRle k
    s.ctl.phase = .btSym → s.ctl.refills = b :: rest → (s.bundle b).wr < s.ctl.stop →
    exec i s
      = if (s.bundle b).wr + n ≤ s.ctl.stop then
          .next (s.setBundle b ((s.bundle b).store (List.replicate n (s.ctl.lastLit : Int))))
        else .next (afterDecodeError s 28)

/-! ## Audio -/

/-- An audio run of width 0 completes: zeros up to the run's end, cut at the frame length, and the quantiser moved past
every band edge below the end; nothing else changes (R580, R581). -/
def Obligations.AudioRunZeroCompletes : Prop :=
  ∀ (i : Instr) (len : Nat) (s : State) (x : Track), RunAt s x →
    (i = .audioRun8 0 ∧ len = 8) ∨ (∃ idx : BitVec 4, i = .audioRunRle idx 0 ∧ len = 8 * s.params.audioRle idx.toNat) →
    let j := min (s.ctl.coefPos + len) x.n
    ∃ k : Nat, s.ctl.bandK ≤ k ∧ k ≤ x.nb ∧ (∀ e, s.ctl.bandK ≤ e → e < k → ∃ a, x.band[e]? = some a ∧ a < j)
      ∧ (∃ a, x.band[k]? = some a ∧ j ≤ a)
      ∧ exec i s
        = .next ((s.setTrack s.ctl.track
            (x.storeSamples s.ctl.chan s.ctl.coefPos (List.replicate (j - s.ctl.coefPos) 0))).setCtl
            { s.ctl with
              coefPos := j, bandK := k
              bandQ := if k = s.ctl.bandK then s.ctl.bandQ else s.ctl.quant.getD (k - 1) 0 })

/-- An audio run of another width completes for every bit pattern: one coefficient for each position up to the run's end, the
band quantiser moved as a position reaches its edge, the magnitude of `width` bits multiplied by the quantiser, and a sign bit
after each magnitude but 0; only the channel's coefficients, the run cursor, the band quantiser and the reader's position
change (R581, R582). -/
def Obligations.AudioRunCodedCompletes : Prop :=
  ∀ (i : Instr) (len : Nat) (width : BitVec 4) (s : State) (x : Track), RunAt s x → width ≠ 0 →
    (i = .audioRun8 width ∧ len = 8)
      ∨ (∃ idx : BitVec 4, i = .audioRunRle idx width ∧ len = 8 * s.params.audioRle idx.toNat) →
    s.ctl.chan < x.coef.length →
    let w := width.toNat
    let count := min (s.ctl.coefPos + len) x.n - s.ctl.coefPos
    let quantOf (k : Nat) : F32 := if k = s.ctl.bandK then s.ctl.bandQ else s.ctl.quant.getD (k - 1) 0
    BitsLeft s ((w + 1) * count) →
    ∃ (vs : List F32) (off k : Nat → Nat), vs.length = count ∧ off 0 = 0 ∧ k 0 = s.ctl.bandK
      ∧ off count ≤ (w + 1) * count ∧ k count ≤ x.nb
      ∧ (∀ j, j < count →
          k (j + 1) = (if x.band[k j]? = some (s.ctl.coefPos + j) then k j + 1 else k j)
            ∧ off (j + 1) = off j + w + (if bitsAt s (off j) w = 0 then 0 else 1)
            ∧ vs[j]? = some (if bitsAt s (off j) w = 0 then 0
                else if bitsAt s (off j + w) 1 = 1 then
                  f32Neg (f32Mul (quantOf (k (j + 1))) (f32OfNat (bitsAt s (off j) w)))
                else f32Mul (quantOf (k (j + 1))) (f32OfNat (bitsAt s (off j) w))))
      ∧ exec i s
        = .next (((s.setTrack s.ctl.track (x.storeSamples s.ctl.chan s.ctl.coefPos vs)).setPos
            (s.bitPos + off count)).setCtl
            { s.ctl with coefPos := s.ctl.coefPos + count, bandK := k count, bandQ := quantOf (k count) })

/-- A blended sample lies between the retained sample and the new one (R591). The step that puts a block out converts its
samples, blends the first ones unless it is the track's first block, appends all but the tail to the output as 16-bit
little-endian samples, retains the tail, clears `first`, and aligns the reader (R590 to R593, R595). At the head of the block
loop a block that would not fit the track's buffer is left undecoded, with `trunc` and STATUS.AUDIO_TRUNC set; the packet's end
ends the track; a packet of less than 4 bytes is padding; and a track's packet empties its output (R595, R600, R601, R587); after
the last track the video packet follows (R637). At the head of a channel the two floats, `m * 2^(e-23)` with their sign, times the
root become the first coefficients, and each band takes the quantiser that its 8-bit index, 95 at most, selects (R576, R577, R578,
R581); after its runs the channel is transformed, an RDFT track by INV_RDFT, a DCT track with the first coefficient scaled by P26
before and every result by P27 after (R585, R586, R588). The cut into these steps is the model's (log 11), and so is the u32
`size_bits` of a packet of 2^29 + 4 bytes or more (log 9). -/
def Obligations.CrossFadeConvex : Prop :=
  (∀ (k i : Nat) (old new : Int), i < 2 ^ k →
    min old new ≤ blended (2 ^ k) i old new ∧ blended (2 ^ k) i old new ≤ max old new)
    ∧ (∀ (s : State) (x : Track) (v : Nat → F32) (old : Nat → BitVec 16), s.ctl.phase = .audioEmit →
        s.tracks[s.ctl.track]? = some x → x.ov ≤ x.n →
        (∀ i, i < x.n * x.ch →
          Cells.get (x.coef.getD (i % x.ch) []) (i / x.ch) = some (v i) ∧ f32IsNaN (v i) = false) →
        (x.first = false → ∀ i, i < x.ov * x.ch → Cells.get x.prev i = some (old i)) →
        let m := (x.n - x.ov) * x.ch
        ∃ (out : Cells Byte) (prev : Cells (BitVec 16)),
          step s
              = .next (((s.setTrack s.ctl.track
                  { x with prev := prev, out := out, outLen := x.outLen + 2 * m, first := false }).setPos
                  (min (32 * ((s.bitPos + 31) / 32)) s.bitSize)).setPhase .audioLoop)
            ∧ (∀ a, Cells.get out a =
                if x.outLen ≤ a ∧ a < x.outLen + 2 * m then
                  some (((BitVec.ofInt 16 (outputSample x v old ((a - x.outLen) / 2)))
                    >>> (8 * ((a - x.outLen) % 2))).setWidth 8)
                else Cells.get x.out a)
            ∧ ∀ i, Cells.get prev i =
                if i < x.ov * x.ch then some (BitVec.ofInt 16 (outputSample x v old (m + i))) else none)
    ∧ (∀ (s : State) (x : Track) (k : Packet), s.ctl.phase = .audioLoop → s.tracks[s.ctl.track]? = some x →
        s.ctl.packets[s.ctl.track]? = some k →
        let ended := { s.ctl with phase := .audioTrack, track := s.ctl.track + 1 }
        (s.bitPos / 8 < k.sz - 4 → (x.kind = .dct → BitsLeft s s.params.audioDctPrefixBits) →
            step s
              = if Config.audioFrameBufBytes s.ctl.track x.rate x.ch x.kind < x.outLen + 2 * (x.n - x.ov) * x.ch then
                  .next (((s.setTrack s.ctl.track { x with trunc := true }).setRegs
                    { s.regs with audioTrunc := true }).setCtl ended)
                else
                  .next ((if x.kind = .dct then s.setPos (s.bitPos + s.params.audioDctPrefixBits) else s).setCtl
                    { s.ctl with phase := .audioHead, chan := 0 }))
          ∧ (k.sz - 4 ≤ s.bitPos / 8 →
              step s = .next ((s.setRegs { s.regs with audioTrunc := s.regs.audioTrunc || x.trunc }).setCtl ended)))
    ∧ (∀ (s : State) (x : Track) (k : Packet), s.ctl.phase = .audioTrack →
        s.ctl.track < s.session.trackCount.toNat → s.tracks[s.ctl.track]? = some x →
        s.ctl.packets[s.ctl.track]? = some k →
        let u := s.setTrack s.ctl.track { x with outLen := 0, trunc := false }
        step s
          = if k.sz < 4 then .next (u.setCtl { s.ctl with phase := .audioTrack, track := s.ctl.track + 1 })
            else
              .next ((u.setBr { base := BitVec.ofNat 32 (k.a + 4), sizeBits := BitVec.ofNat 32 (8 * (k.sz - 4)),
                                pos := 0 }).setPhase .audioLoop))
    ∧ (∀ s : State, s.ctl.phase = .audioTrack → s.session.trackCount.toNat ≤ s.ctl.track →
        step s = .next (s.setPhase .videoStart))
    ∧ ∀ (s : State) (x : Track), s.tracks[s.ctl.track]? = some x → s.ctl.chan < x.coef.length →
        (s.ctl.phase = .audioHead → x.qtab.length = 96 → 1 ≤ x.nb → BitsLeft s (58 + 8 * x.nb) →
            let float (off : Nat) : F32 :=
              f32Round (bitsAt s (off + 28) 1 == 1) (bitsAt s (off + 5) 23) ((bitsAt s off 5 : Int) - 23)
            let root := Config.audioRoot x.kind x.n
            let quant := (List.range x.nb).map fun k => x.qtab.getD (min (bitsAt s (58 + 8 * k) 8) 95) 0
            step s
              = .next (((s.setTrack s.ctl.track
                  (x.storeSamples s.ctl.chan 0 [f32Mul (float 0) root, f32Mul (float 29) root])).setPos
                  (s.bitPos + (58 + 8 * x.nb))).setCtl
                  { s.ctl with
                    phase := .audioCoef, quant := quant, bandK := 0, bandQ := quant.getD 0 0, coefPos := 2 }))
          ∧ (s.ctl.phase = .audioCoef → x.n ≤ s.ctl.coefPos → step s = .next (s.setPhase .audioXform))
          ∧ (s.ctl.phase = .audioXform → ∀ c, Cells.slice (x.coef.getD s.ctl.chan []) 0 x.n = some c →
              let halved := c.set 0 (f32Mul (c.getD 0 0) s.params.dctC0Factor)
              let out := (List.range x.n).map fun i =>
                if x.kind = .rdft then Config.invRdft x.n c i
                else f32Mul (Config.dctIII x.n halved i) (f32OfNat (s.params.postScale x.n))
              step s
                = .next ((s.setTrack s.ctl.track { x with coef := x.coef.set s.ctl.chan (Cells.setFrom [] 0 out) }).setCtl
                    { s.ctl with
                      phase := if s.ctl.chan + 1 < x.ch then .audioHead else .audioEmit, chan := s.ctl.chan + 1 }))

/-- For every rate OPEN admits and R10's frequencies, the band edges are even, rise strictly from 2 to the frame length, and
there are `nb + 1` of them with `nb` in 1..25 (R571, R574). -/
def Obligations.BandsRise : Prop :=
  ∀ rate : Nat, 1 ≤ rate → rate ≤ 65535 →
    let n := frameLength rate
    let freqs := State.reset.params.criticalFreqs
    let nb := bandCount freqs ((rate + 1) / 2)
    let band := bands freqs rate n
    1 ≤ nb ∧ nb ≤ 25 ∧ band.length = nb + 1 ∧ band.head? = some 2 ∧ band[nb]? = some n ∧ (∀ e ∈ band, e % 2 = 0)
      ∧ band.Pairwise (· < ·)

/-! ## Block types -/

/-- SKIP copies the co-located block of `last` to `cur`; it takes no bit and no bundle value, and nothing else changes.
A first pixel that holds no value ends the frame with PIXEL_UNWRITTEN (R410, R413, R404, R690). -/
def Obligations.BtSkipCopies : Prop :=
  ∀ (s : State) (p : PlaneId) (x : Plane), BlockAt s .block p x → BlockFits x (cursorDst s x) →
    (∀ f, LastHolds x (cursorDst s x) f →
        ∃ new, BlockPainted x (cursorDst s x) f new ∧ exec .btSkip s = .next (afterBlock s p x new 1))
      ∧ (Cells.get x.last (cursorDst s x) = none → exec .btSkip s = .next (afterDecodeError s 29))

/-- MOTION copies the block of `last` that the next vector leads to, and takes the vector alone; a source outside the
bounds ends the frame with MOTION_OUT_OF_BOUNDS and copies nothing (R411, R412, R413, R690). -/
def Obligations.BtMotionCopies : Prop :=
  ∀ (s : State) (p : PlaneId) (x : Plane), BlockAt s .block p x → BlockFits x (cursorDst s x) →
    (∀ f, MotionHolds s x (cursorDst s x) f →
        ∃ new, BlockPainted x (cursorDst s x) f new
          ∧ exec .btMotion s = .next (afterBlock (afterVector s) p x new 1))
      ∧ ∀ xo yo : Int, Holds (s.bundle .xOff) [xo] → Holds (s.bundle .yOff) [yo] →
          motionTarget x (cursorDst s x) xo yo < 0 ∨ motionLimit x < motionTarget x (cursorDst s x) xo yo →
          exec .btMotion s = .next (afterDecodeError (afterVector s) 17)

/-- SCALED: at an odd column SCALED_POSITION; at an even column of an odd row the cursor skips the pair; of an even row
the sub-type is fetched next; nothing else changes (R402, R405, R406, R690). -/
def Obligations.BtScaledPlaces : Prop :=
  ∀ (s : State) (p : PlaneId) (x : Plane), BlockAt s .block p x →
    exec .btScaled s
      = if s.ctl.bx % 2 = 1 then .next (afterDecodeError s 25)
        else if s.ctl.by_ % 2 = 1 then .next (s.setCtl { s.ctl with bx := s.ctl.bx + 2 })
        else .next (s.setCtl { s.ctl with phase := .subBlock })

/-- RUN completes for every plan of runs that fills the block, shared or per-pixel, with exactly the colors it takes
buffered: the pixels are painted in the visiting order of the pattern, each with the color its run gives it, and only the
block, the run and color values, the reader's position and the cursor change (R414, R415). After runs that do not yet fill the
block, a run value that gives a run below 1 ends the frame with RUN_NONPOSITIVE, and a run past the 64th pixel with
RUN_OVERFLOW, the pixels of the earlier runs painted (R415, R690). -/
def Obligations.BtRunCompletes : Prop :=
  ∀ (s : State) (p : PlaneId) (x : Plane) (runs : Runs) (cs : List Int), BlockAt s .block p x →
    BlockFits x (cursorDst s x) → BitsLeft s 4 → isPerm64 (runOrder s) = true → Holds (s.bundle .colors) cs →
    let place (j : Nat) : Nat := cursorDst s x + blockOffset x ((runOrder s).getD j 0)
    (runs.Fill → RunsAhead s runs [] → cs.length = runs.allColors →
        ∃ new, Painted 64 place (runs.color cs) x.cur new
          ∧ exec .btRun s = .next (afterBlock (afterRuns s runs runs.length cs.length) p x new 1))
      ∧ (∀ v : Int, runs.pixels < 63 → RunsAhead s runs [v] → cs.length = runs.colors →
          v + 1 ≤ 0 ∨ 64 < runs.pixels + (v + 1) →
          ∃ new, Painted runs.pixels place (runs.color cs) x.cur new
            ∧ exec .btRun s
              = .next (afterDecodeError
                  ((afterRuns s runs (runs.length + 1) cs.length).setPlane p { x with cur := new })
                  (if v + 1 ≤ 0 then 26 else 18)))

/-- RESIDUE completes for every residual bit pattern: the motion copy, then to each pixel the residual that the budget's seven bits
and ResidualDecode give it (the passes of the rules over a plain list: `residualDecoded`), within -255..255, added by the store
law; it takes exactly the bits of that decode, and beside the block only the vector, the coefficient scratch, the reader's
position and the cursor change (R416, R500, R502 to R505, R480, R482, R403, P20). -/
def Obligations.BtResidueCompletes : Prop :=
  ∀ (s : State) (p : PlaneId) (x : Plane) (f : Nat → Byte), BlockAt s .block p x → BlockFits x (cursorDst s x) →
    ArenaFits s → MotionHolds s x (cursorDst s x) f → BitsLeft s (residualDecoded s).off →
    let res := residualAt s.params (residualDecoded s).out
    ∃ (coef : CoefScratch) (new : Cells Byte),
      (∀ i, i < 64 → Cells.get coef.res i = some (res i) ∧ -255 ≤ res i ∧ res i ≤ 255)
        ∧ BlockPainted x (cursorDst s x) (fun i => storeByte s.params.pixelStore ((f i).toNat + res i)) new
        ∧ exec .btResidue s
          = .next (afterBlock (((afterVector s).setPos (s.bitPos + (residualDecoded s).off)).setCoef coef) p x new 1)

/-- INTRA completes for every coefficient bit pattern: the coefficients are those CoefDecode reads (the passes of the rules over a
plain list: `fullDecoded`), then four bits select the intra matrix, the block is the DC and the coefficients scaled by it, and
every pixel is its inverse transform by the store law, none being read; it takes exactly those bits, and beside the block only one
INTRA_DC value, the scratch, the reader's position and the cursor change (R417, R480 to R482, R485, R489, R491, R492, R496,
R533 to R535, R403). -/
def Obligations.BtIntraCompletes : Prop :=
  ∀ (s : State) (p : PlaneId) (x : Plane) (dc : Int), BlockAt s .block p x → BlockFits x (cursorDst s x) → ArenaFits s →
    Holds (s.bundle .intraDc) [dc] → BitsLeft s ((fullDecoded s).off + 4) →
    let q := BitVec.ofNat 4 (bitsAt s (fullDecoded s).off 4)
    let blk := blockOf s.params (s.params.quantIntraAt q) dc (fullDecoded s).out
    ∃ (coef : CoefScratch) (new : Cells Byte), Cells.slice coef.blk 0 64 = some blk
      ∧ BlockPainted x (cursorDst s x) (fun i => storeByte s.params.pixelStore (idctSample s.params blk i)) new
      ∧ exec .btIntra s
        = .next (afterBlock (((((afterTake s .intraDc 1).setPos (s.bitPos + ((fullDecoded s).off + 4))).setCoef coef).setDct
            { s.dct with tmp := Cells.setFrom [] 0 (idctColumns s.params blk) })) p x new 1)

/-- INTRA with no bit-plane (top = 0): every pixel is the dequantised DC through the bias and shift of the row pass and the
store law, and 8 bits are read (R417, R481, R492, R496, R537, R403). -/
def Obligations.BtIntraDcOnly : Prop :=
  ∀ (s : State) (p : PlaneId) (x : Plane) (dc : Int), BlockAt s .block p x → BlockFits x (cursorDst s x) →
    Holds (s.bundle .intraDc) [dc] → BitsLeft s 8 → bitsAt s 0 4 = 0 →
    let q := BitVec.ofNat 4 (bitsAt s 4 4)
    let v := munge s.params ((BitVec.ofInt 32 dc * BitVec.ofNat 32 (s.params.quantIntraAt q 0)).sshiftRight 11)
    ∃ (coef : CoefScratch) (dct : DctScratch) (new : Cells Byte),
      BlockPainted x (cursorDst s x) (fun _ => storeByte s.params.pixelStore v.toInt) new
        ∧ exec .btIntra s
          = .next (afterBlock ((((afterTake s .intraDc 1).setPos (s.bitPos + 8)).setCoef coef).setDct dct) p x new 1)

/-- FILL paints the block with one color and takes no bit; nothing else changes. With no color buffered it ends the frame
with BUNDLE_UNDERRUN (R418). -/
def Obligations.BtFillPaints : Prop :=
  ∀ (s : State) (p : PlaneId) (x : Plane), BlockAt s .block p x → BlockFits x (cursorDst s x) →
    (∀ c : Int, Holds (s.bundle .colors) [c] →
        ∃ new, BlockPainted x (cursorDst s x) (fun _ => BitVec.ofInt 8 c) new
          ∧ exec .btFill s = .next (afterBlock (afterTake s .colors 1) p x new 1))
      ∧ ((s.bundle .colors).wr ≤ (s.bundle .colors).rd → exec .btFill s = .next (afterDecodeError s 23))

/-- INTER completes for every coefficient bit pattern: the motion copy, then to each pixel the sample that the inverse
transform has for it of the block that the DC and the coefficients CoefDecode reads make, scaled by the inter matrix the next four
bits select, added by the store law; it takes exactly those bits, and beside the block only the vector, one INTER_DC value, the
scratch, the reader's position and the cursor change (R419, R480 to R482, R485, R489, R491, R492, R496, R533, R534, R536, R403,
P20). -/
def Obligations.BtInterCompletes : Prop :=
  ∀ (s : State) (p : PlaneId) (x : Plane) (f : Nat → Byte) (dc : Int), BlockAt s .block p x →
    BlockFits x (cursorDst s x) → ArenaFits s → MotionHolds s x (cursorDst s x) f → Holds (s.bundle .interDc) [dc] →
    BitsLeft s ((fullDecoded s).off + 4) →
    let q := BitVec.ofNat 4 (bitsAt s (fullDecoded s).off 4)
    let blk := blockOf s.params (s.params.quantInterAt q) dc (fullDecoded s).out
    ∃ (coef : CoefScratch) (new : Cells Byte), Cells.slice coef.blk 0 64 = some blk
      ∧ BlockPainted x (cursorDst s x)
          (fun i => storeByte s.params.pixelStore ((f i).toNat + idctSample s.params blk i)) new
      ∧ exec .btInter s
        = .next (afterBlock (((((afterTake (afterVector s) .interDc 1).setPos (s.bitPos + ((fullDecoded s).off + 4))).setCoef
            coef).setDct { s.dct with tmp := Cells.setFrom [] 0 (idctColumns s.params blk) })) p x new 1)

/-- PATTERN: bit x of the y-th pattern byte selects the second color for pixel (x, y), else the first; two colors and
eight pattern values are taken. RAW: 64 color values become the 64 pixels in row-major order. Neither reads a bit, and
nothing else changes. RAW with fewer than 64 colors buffered ends the frame with BUNDLE_UNDERRUN, the buffered ones taken and
painted (R423, R424). -/
def Obligations.BtPatternRawPaint : Prop :=
  ∀ (s : State) (p : PlaneId) (x : Plane), BlockAt s .block p x → BlockFits x (cursorDst s x) →
    (∀ (c0 c1 : Int) (rows : List Int), Holds (s.bundle .colors) [c0, c1] → Holds (s.bundle .pattern) rows →
        rows.length = 8 →
        ∃ new, BlockPainted x (cursorDst s x)
              (fun i => BitVec.ofInt 8 (if (BitVec.ofInt 8 (rows.getD (i / 8) 0)).getLsbD (i % 8) then c1 else c0)) new
          ∧ exec .btPattern s = .next (afterBlock (afterTake (afterTake s .colors 2) .pattern 8) p x new 1))
      ∧ (∀ cs : List Int, Holds (s.bundle .colors) cs → cs.length = 64 →
          ∃ new, BlockPainted x (cursorDst s x) (fun i => BitVec.ofInt 8 (cs.getD i 0)) new
            ∧ exec .btRaw s = .next (afterBlock (afterTake s .colors 64) p x new 1))
      ∧ ∀ cs : List Int, Holds (s.bundle .colors) cs → cs.length < 64 →
          (s.bundle .colors).wr = (s.bundle .colors).rd + cs.length →
          ∃ new, Painted cs.length (fun i => cursorDst s x + blockOffset x i) (fun i => BitVec.ofInt 8 (cs.getD i 0)) x.cur new
            ∧ exec .btRaw s
              = .next (afterDecodeError ((afterTake s .colors cs.length).setPlane p { x with cur := new }) 23)

/-- The block-type codes 10 to 15 end the frame with BAD_BLOCK_TYPE, the sub-type codes outside 3, 5, 6, 8 and 9 with
BAD_SUBTYPE, each before any pixel is written (R425, R224, R420, R690). -/
def Obligations.IllegalCodesRaise : Prop :=
  ∀ (s : State) (p : PlaneId) (x : Plane) (w : Nat) (i : Instr), w < 16 →
    (BlockAt s .block p x → 10 ≤ w → decode .bt4 w = .ok i → exec i s = .next (afterDecodeError s 20))
      ∧ (BlockAt s .subBlock p x → w ∉ [3, 5, 6, 8, 9] → decode .st4 w = .ok i →
          exec i s = .next (afterDecodeError s 21))

/-- SCALED FILL paints the 16x16 region with one color and moves the cursor two columns; nothing else changes (R420). -/
def Obligations.ScaledFillPaints : Prop :=
  ∀ (s : State) (p : PlaneId) (x : Plane) (c : Int), BlockAt s .subBlock p x → RegionFits x (cursorDst s x) →
    Holds (s.bundle .colors) [c] →
    ∃ new, RegionPainted x (cursorDst s x) (fun _ => BitVec.ofInt 8 c) new
      ∧ exec .scaledFill s = .next (afterBlock (afterTake s .colors 1) p x new 2)

/-- SCALED RUN completes as RUN does, with exactly the colors it takes buffered, each pixel of the 8x8 block doubled in both
axes, and raises RUN_NONPOSITIVE and RUN_OVERFLOW as RUN does, before any pixel of the plane is written; beside the region only
the values taken, `ublk`, the reader's position and the cursor change (R414, R415, R420, R421, R422, R690). -/
def Obligations.ScaledRunCompletes : Prop :=
  ∀ (s : State) (p : PlaneId) (x : Plane) (runs : Runs) (cs : List Int), BlockAt s .subBlock p x →
    RegionFits x (cursorDst s x) → BitsLeft s 4 → isPerm64 (runOrder s) = true → Holds (s.bundle .colors) cs →
    (runs.Fill → RunsAhead s runs [] → cs.length = runs.allColors →
        ∃ (u new : Cells Byte),
          RegionPainted x (cursorDst s x) (fun i => runs.color cs ((runOrder s).idxOf (doubled i))) new
            ∧ exec .scaledRun s
              = .next (afterBlock ((afterRuns s runs runs.length cs.length).setDct { s.dct with ublk := u }) p x new 2))
      ∧ (∀ v : Int, runs.pixels < 63 → RunsAhead s runs [v] → cs.length = runs.colors →
          v + 1 ≤ 0 ∨ 64 < runs.pixels + (v + 1) →
          ∃ u : Cells Byte, exec .scaledRun s
            = .next (afterDecodeError
                ((afterRuns s runs (runs.length + 1) cs.length).setDct { s.dct with ublk := u })
                (if v + 1 ≤ 0 then 26 else 18)))

/-- SCALED INTRA completes for every coefficient bit pattern: the coefficients are those CoefDecode reads; the quantiser index is the
next four bits where P19 is `stream`, and the parameter, with no bit read, where it is `external`; each pixel of the inverse
transform of the block scaled by that intra matrix is doubled in both axes; it takes exactly those bits, and beside the region only
one INTRA_DC value, the scratch, `ublk`, the reader's position and the cursor change (R420, R421, R422, R480 to R482, R485, R489,
R491, R492, R403). -/
def Obligations.ScaledIntraCompletes : Prop :=
  ∀ (s : State) (p : PlaneId) (x : Plane) (dc : Int) (q : BitVec 4) (n : Nat), BlockAt s .subBlock p x →
    RegionFits x (cursorDst s x) → ArenaFits s → Holds (s.bundle .intraDc) [dc] →
    (s.params.scaledIntraQSource = .stream ∧ q = BitVec.ofNat 4 (bitsAt s (fullDecoded s).off 4) ∧ n = (fullDecoded s).off + 4
      ∨ s.params.scaledIntraQSource = .external q ∧ n = (fullDecoded s).off) →
    BitsLeft s n →
    let blk := blockOf s.params (s.params.quantIntraAt q) dc (fullDecoded s).out
    ∃ (coef : CoefScratch) (u new : Cells Byte), Cells.slice coef.blk 0 64 = some blk
      ∧ RegionPainted x (cursorDst s x)
          (fun i => storeByte s.params.pixelStore (idctSample s.params blk (doubled i))) new
      ∧ exec .scaledIntra s
        = .next (afterBlock ((((afterTake s .intraDc 1).setPos (s.bitPos + n)).setCoef coef).setDct
            { tmp := Cells.setFrom [] 0 (idctColumns s.params blk), ublk := u }) p x new 2)

/-- SCALED PATTERN and SCALED RAW paint the region with the pixels their full-size types would give, doubled in both axes
(R420 to R424); beside the region only the values taken, `ublk` and the cursor change. -/
def Obligations.ScaledPatternRawPaint : Prop :=
  ∀ (s : State) (p : PlaneId) (x : Plane), BlockAt s .subBlock p x → RegionFits x (cursorDst s x) →
    (∀ (c0 c1 : Int) (rows : List Int), Holds (s.bundle .colors) [c0, c1] → Holds (s.bundle .pattern) rows →
        rows.length = 8 →
        ∃ (u new : Cells Byte),
          RegionPainted x (cursorDst s x)
              (fun i => BitVec.ofInt 8
                (if (BitVec.ofInt 8 (rows.getD (doubled i / 8) 0)).getLsbD (doubled i % 8) then c1 else c0)) new
            ∧ exec .scaledPattern s
              = .next (afterBlock ((afterTake (afterTake s .colors 2) .pattern 8).setDct { s.dct with ublk := u }) p x new 2))
      ∧ ∀ cs : List Int, Holds (s.bundle .colors) cs → cs.length = 64 →
          ∃ (u new : Cells Byte),
            RegionPainted x (cursorDst s x) (fun i => BitVec.ofInt 8 (cs.getD (doubled i) 0)) new
              ∧ exec .scaledRaw s = .next (afterBlock ((afterTake s .colors 64).setDct { s.dct with ublk := u }) p x new 2)

/-! ## Coefficients and transform -/

/-- The fast path of the column pass changes no result: every column is the butterfly of its eight entries (R538, R533,
R532). -/
def Obligations.IdctFastPathAgrees : Prop :=
  ∀ (p : Params) (blk : List Word) (x : Nat),
    idctColumn p blk x
      = butterfly p (blk.getD x 0) (blk.getD (8 + x) 0) (blk.getD (16 + x) 0) (blk.getD (24 + x) 0) (blk.getD (32 + x) 0)
          (blk.getD (40 + x) 0) (blk.getD (48 + x) 0) (blk.getD (56 + x) 0)

/-- A block whose only entry is its DC transforms to 64 equal samples `Munge(v)` (R537). -/
def Obligations.IdctDcOnly : Prop :=
  ∀ (p : Params) (v : Word), idctRows p (idctColumns p (v :: List.replicate 63 0)) = List.replicate 64 (munge p v)

/-- Dequantise: position 0 becomes the 32-bit product of its value with the matrix's entry 0, shifted right arithmetically by 11;
the position of each listed coefficient the same with that coefficient's entry; and every other position stays (R492, with the
listed coefficients distinct, as R490 has them). An all-zero block stays all zero, whatever coefficients were listed (R493). -/
def Obligations.DequantiseKeepsZero : Prop :=
  ∀ (s : State) (matrix : Nat → Nat), s.params.wellFormed = true →
    ((∀ a, a < 64 → Cells.get s.coef.blk a = some 0) →
        (∀ i, i < s.coef.coefCount → ∃ c, Cells.get s.coef.coefIdx i = some c) →
        ∃ blk, dequantise matrix s = .ok () (s.setCoef { s.coef with blk := blk })
          ∧ ∀ a, a < 64 → Cells.get blk a = some 0)
      ∧ ∀ (w : Nat → Word) (cs : List Nat), (∀ a, a < 64 → Cells.get s.coef.blk a = some (w a)) →
          s.coef.coefCount = cs.length → (∀ i, i < cs.length → Cells.get s.coef.coefIdx i = cs[i]?) → cs.Nodup →
          (∀ c ∈ cs, 1 ≤ c ∧ c < 64) →
          ∃ blk, dequantise matrix s = .ok () (s.setCoef { s.coef with blk := blk })
            ∧ Cells.get blk 0 = some ((w 0 * BitVec.ofNat 32 (matrix 0)).sshiftRight 11)
            ∧ (∀ c ∈ cs, Cells.get blk (s.params.scanAt c)
                = some ((w (s.params.scanAt c) * BitVec.ofNat 32 (matrix c)).sshiftRight 11))
            ∧ ∀ a, 1 ≤ a → a < 64 → (∀ c ∈ cs, s.params.scanAt c ≠ a) → Cells.get blk a = some (w a)

/-! ## Host commands and registers -/

/-- OPEN of an image that passes every check completes: the session holds the header's fields and the frame index, the planes have
the visible sizes, block grids, pitches and rows of R400 with no pixel written (P33 poison; under another P33 its fill byte
throughout, log 15), every bundle is empty with its capacity, each track has its channels, transform, lengths, bands and
quantisers, and the registers report success; the instantiation, CONTAINER and what is the host's stay (R630, R631, R203, R400,
R352, R570, R571, R574, R575). A quantiser is the real `exp(i * AUDIO_Q_CONST) * root` rounded once to binary32, for any constant and
any finite root. The model's choices in it: what `coef` and `out` of a track hold (log 6), the sign of an entry whose root is a
zero (log 5), and the entries where the root is no finite number (log 18). -/
def Obligations.CmdOpenCompletes : Prop :=
  (∀ (c : Nat) (root : F32) (i : Nat),
    if f32Exponent root = 255 then qtabEntry c root i = root
    else ∃ m, qtabEntry c root i = f32OfParts (f32Negative root) m
      ∧ RoundsTo (Real.exp ((i : ℝ) * (c / 10 ^ 20)) * (f32Size (root.toNat % 2 ^ 31) : ℚ)) m)
  ∧ ∀ s : State, Idle s → s.regs.isOpen = false → (∀ k ∈ openTable s.params s.container s.regs.arg0.toNat, k.1) →
    let m := s.container
    let fc := Memory.u32 m 8
    let n := Memory.u32 m 40
    let x := 44 + 12 * n
    let w := Memory.u32 m 20
    let h := Memory.u32 m 24
    ∃ t, exec .cmdOpen s = .next t
      ∧ t.regs = okRegs { s.regs with isOpen := true, frameValid := false, bitpos := 0, frameKey := false }
          (BitVec.ofNat 32 fc) 0 0
      ∧ t.session.version = Memory.byte m 3 ∧ t.session.signature.toNat = Memory.u32 m 0
      ∧ t.session.fileSize.toNat = Memory.u32 m 4 + 8 ∧ t.session.frameCount.toNat = fc
      ∧ t.session.largestFrame.toNat = Memory.u32 m 12 ∧ t.session.width.toNat = w ∧ t.session.height.toNat = h
      ∧ t.session.fpsNum.toNat = Memory.u32 m 28 ∧ t.session.fpsDen.toNat = Memory.u32 m 32
      ∧ t.session.videoFlags.toNat = Memory.u32 m 36 ∧ t.session.hasAlpha = (Memory.u32 m 36).testBit 20
      ∧ t.session.gray = (Memory.u32 m 36).testBit 17 ∧ t.session.trackCount.toNat = n ∧ t.session.curFrame = 0
      ∧ t.session.frames.length = fc
      ∧ (∀ j, j < fc → ∃ f, t.session.frames[j]? = some f ∧ f.byteOffset = indexOffset m x j
          ∧ f.byteOffset + f.byteSize = (if j + 1 < fc then indexOffset m x (j + 1) else Memory.u32 m 4 + 8)
          ∧ f.isKeyframe = (Memory.u32 m (x + 4 * j)).testBit 0)
      ∧ t.plane .y = some (lumaPlane s.params.planeReset w h) ∧ t.plane .u = some (chromaPlane s.params.planeReset w h)
      ∧ t.plane .v = some (chromaPlane s.params.planeReset w h)
      ∧ t.plane .a = (if t.session.hasAlpha then some (lumaPlane s.params.planeReset w h) else none)
      ∧ (∀ p y, t.plane p = some y →
          let k := if p = .u ∨ p = .v then 2 else 1
          y.w = (w + k - 1) / k ∧ y.h = (h + k - 1) / k ∧ y.bw = (w + 8 * k - 1) / (8 * k)
            ∧ y.bh = (h + 8 * k - 1) / (8 * k) ∧ y.pitch = 16 * ((8 * y.bw + 15) / 16)
            ∧ y.rows = 16 * ((8 * y.bh + 15) / 16) ∧ (s.params.planeReset = .poison → y.cur = [] ∧ y.last = []))
      ∧ (∀ b, t.bundle b
          = { Bundle.reset with cap := (s.params.bundle b).capMul * ((w + 7) / 8) * ((h + 7) / 8) })
      ∧ t.colHigh = List.replicate 16 Tree.reset ∧ t.colLast = 0 ∧ t.br = BitReader.reset
      ∧ t.tracks.length = n
      ∧ (∀ j, j < n → ∃ a, t.tracks[j]? = some a ∧ a.rate.toNat = Memory.u16 m (44 + 4 * n + 4 * j)
          ∧ a.flags.toNat = Memory.u16 m (44 + 4 * n + 4 * j + 2) ∧ a.ch = (if a.flags.getLsbD 13 then 2 else 1)
          ∧ a.kind = (if a.flags.getLsbD 12 then .dct else .rdft)
          ∧ a.n = (if a.rate.toNat < 22050 then 512 else if a.rate.toNat < 44100 then 1024 else 2048)
          ∧ a.ov = a.n / 16 ∧ a.nb = bandCount s.params.criticalFreqs ((a.rate.toNat + 1) / 2)
          ∧ a.band = bands s.params.criticalFreqs a.rate.toNat a.n ∧ a.qtab.length = 96
          ∧ (∀ i, i < 96 →
              a.qtab[i]? = some (qtabEntry s.params.audioQConst (Config.audioRoot a.kind a.n) i))
          ∧ a.coef = List.replicate a.ch [] ∧ a.prev = [] ∧ a.first = true ∧ a.out = [] ∧ a.outLen = 0
          ∧ a.trunc = false)
      ∧ t.inst = s.inst
      ∧ t.container = s.container ∧ t.pcmOut = s.pcmOut ∧ t.hostMoves = s.hostMoves ∧ t.readData = s.readData
      ∧ t.ctl = s.ctl

/-- OPEN raises the error of the first check that fails and leaves the reset state but for ARG0, ARG1, the result, the
instantiation and what is the host's (CONTAINER, PCM_OUT, its moves and its last read), which stays by the model's reading of
R634 (log 19); while a session is open it raises ALREADY_OPEN and changes the result registers alone. The codes of the checks,
in order, are NO_SOURCE 1, TRUNCATED 6, UNSUPPORTED 3, BAD_SIGNATURE 2, TRUNCATED 6, FRAME_COUNT 4, LARGEST_FRAME 5,
BAD_DIMENSIONS 7, BAD_AUDIO 9, TRUNCATED 6, BAD_AUDIO 9, TRUNCATED 6 and BAD_INDEX 8 (R630, R634, R656, R681, R691, R692). -/
def Obligations.CmdOpenErrors : Prop :=
  (∀ (p : Params) (m : List Host.Cell) (len : Nat),
    (openTable p m len).map (fun k => causeCode k.2) = [1, 6, 3, 2, 6, 4, 5, 7, 9, 6, 9, 6, 8])
  ∧ ∀ s : State, Idle s →
    (s.regs.isOpen = true → exec .cmdOpen s = .next (s.setRegs (errorRegs s.regs 36)))
      ∧ (s.regs.isOpen = false → ∀ (l r : List (Prop × Cause)) (k : Prop × Cause),
          openTable s.params s.container s.regs.arg0.toNat = l ++ k :: r → (∀ j ∈ l, j.1) → ¬ k.1 →
          exec .cmdOpen s
            = .next { State.reset with
                inst := s.inst
                regs := errorRegs { Regs.reset with arg0 := s.regs.arg0, arg1 := s.regs.arg1 } (causeCode k.2)
                container := s.container, pcmOut := s.pcmOut, hostMoves := s.hostMoves, readData := s.readData })

/-- CLOSE, SEEK and AUDIO_TRACK_INFO complete: CLOSE leaves the reset state but for ARG0, ARG1, the instantiation and what is
the host's, which stays by the model's reading of R635 (log 19); SEEK
sets the frame cursor alone, and raises SEEK_RANGE past the frame count; AUDIO_TRACK_INFO reports the track's rate and
channels and its ideal buffer size, an OPEN parameter (log 3), changes nothing else, and raises BAD_TRACK for a track the session
does not have. Without a session each raises NOT_OPEN (R635, R641, R648, R655). -/
def Obligations.CmdSessionComplete : Prop :=
  (∀ s : State, Ready s →
    exec .cmdClose s
        = .next { State.reset with
            inst := s.inst
            regs := { Regs.reset with arg0 := s.regs.arg0, arg1 := s.regs.arg1 }
            container := s.container, pcmOut := s.pcmOut, hostMoves := s.hostMoves, readData := s.readData }
      ∧ (s.regs.arg0.toNat ≤ s.session.frameCount.toNat →
          exec .cmdSeek s
            = .next ((s.setSession { s.session with curFrame := s.regs.arg0 }).setRegs (okRegs s.regs 0 0 0)))
      ∧ (s.session.frameCount.toNat < s.regs.arg0.toNat →
          exec .cmdSeek s = .next (s.setRegs (errorRegs s.regs 34)))
      ∧ (∀ x, s.regs.arg0.toNat < s.session.trackCount.toNat → s.tracks[s.regs.arg0.toNat]? = some x →
          exec .cmdAudioTrackInfo s
            = .next (s.setRegs (okRegs s.regs (x.rate.setWidth 32) (BitVec.ofNat 32 x.ch)
                (Config.idealBufferBytes s.regs.arg0.toNat x.rate x.ch x.kind))))
      ∧ (s.session.trackCount.toNat ≤ s.regs.arg0.toNat →
          exec .cmdAudioTrackInfo s = .next (s.setRegs (errorRegs s.regs 35))))
    ∧ ∀ s : State, Idle s → s.regs.isOpen = false →
        ∀ i ∈ [Instr.cmdClose, .cmdSeek, .cmdAudioTrackInfo], exec i s = .next (s.setRegs (errorRegs s.regs 32))

/-- READ_AUDIO copies `min(outLen, ARG1 & ~1)` bytes of the track's output to PCM_OUT, returns their count, and empties the
output; nothing else changes. A track the session does not have raises BAD_TRACK, and no session NOT_OPEN (R645, R692). -/
def Obligations.CmdReadAudioCompletes : Prop :=
  ∀ s : State, Idle s →
    (∀ x, s.regs.isOpen = true → s.regs.arg0.toNat < s.session.trackCount.toNat →
        s.tracks[s.regs.arg0.toNat]? = some x →
        let k := min x.outLen (s.regs.arg1.toNat - s.regs.arg1.toNat % 2)
        (∀ i, i < k → (Cells.get x.out i).isSome = true) →
        ∃ pcm, (∀ i, Cells.get pcm i = if i < k then Cells.get x.out i else Cells.get s.pcmOut i)
          ∧ exec .cmdReadAudio s
            = .next (((s.setPcmOut pcm).setTrack s.regs.arg0.toNat { x with outLen := 0 }).setRegs
                (okRegs s.regs (BitVec.ofNat 32 k) 0 0)))
      ∧ (s.regs.isOpen = true → s.session.trackCount.toNat ≤ s.regs.arg0.toNat →
          exec .cmdReadAudio s = .next (s.setRegs (errorRegs s.regs 35)))
      ∧ (s.regs.isOpen = false → exec .cmdReadAudio s = .next (s.setRegs (errorRegs s.regs 32)))

/-- DECODE_NEXT_FRAME starts the frame at the cursor: the cursor advances, FRAME_KEY takes the frame's flag, BITPOS and
AUDIO_TRUNC are cleared, every track's output is emptied, and the packets are laid out as in R204; the sequencer then
stands before the first track, a cut into small steps that is the model's (log 11). At the end of the index it raises
END_OF_STREAM; a frame too short for its first packet size raises PACKET_RANGE (R637, R638, R690, R692). -/
def Obligations.CmdDecodeStarts : Prop :=
  ∀ s : State, Ready s →
    (s.session.curFrame = s.session.frameCount →
        exec .cmdDecodeNextFrame s = .next (s.setRegs (errorRegs s.regs 33)))
      ∧ ∀ f, s.session.curFrame ≠ s.session.frameCount → s.session.frames[s.session.curFrame.toNat]? = some f →
          let s1 := ((s.setSession { s.session with curFrame := s.session.curFrame + 1 }).setRegs
            { s.regs with frameKey := f.isKeyframe, bitpos := 0, audioTrunc := false }).setTracks
            (s.tracks.map fun x => { x with outLen := 0, trunc := false })
          let c := { s.ctl with video := false, frame := s.session.curFrame.toNat, track := 0 }
          (∀ (ks : List Packet) (v : Nat), ks.length = s.session.trackCount.toNat →
              PacketsAt s.container (f.byteOffset + f.byteSize) f.byteOffset ks v →
              exec .cmdDecodeNextFrame s
                = .next (s1.setCtl { c with phase := .audioTrack, packets := ks, vbase := v
                                            vlen := f.byteOffset + f.byteSize - v }))
            ∧ (1 ≤ s.session.trackCount.toNat → f.byteSize < 4 →
                exec .cmdDecodeNextFrame s = .next (afterDecodeError (s1.setCtl c) 27))

/-- A CMD word whose low byte is 0x00 or 0x07 to 0xFF raises BAD_COMMAND at any time between commands, bits 31 to 8
ignored; without a session the five session commands raise NOT_OPEN; either way only ERR, CAUSE and RES0 to RES2 change
(R652, R656, R692, R731). -/
def Obligations.CommandErrorsChangeResultsOnly : Prop :=
  (∀ w, w < 2 ^ 32 → decode .cmd w = decode .cmd (w % 256)) ∧ ∀ s : State, Idle s →
    (∀ w, w < 2 ^ 32 → w % 256 = 0 ∨ 7 ≤ w % 256 →
        ∃ i, decode .cmd w = .ok i ∧ exec i s = .next (s.setRegs (errorRegs s.regs 37)))
      ∧ (∀ i ∈ [Instr.cmdIllegal00, .cmdIllegal07], exec i s = .next (s.setRegs (errorRegs s.regs 37)))
      ∧ (∀ lo, exec (.cmdIllegal08 lo) s = .next (s.setRegs (errorRegs s.regs 37)))
      ∧ (∀ lo, exec (.cmdIllegal10 lo) s = .next (s.setRegs (errorRegs s.regs 37)))
      ∧ (∀ lo, exec (.cmdIllegal20 lo) s = .next (s.setRegs (errorRegs s.regs 37)))
      ∧ (∀ lo, exec (.cmdIllegal40 lo) s = .next (s.setRegs (errorRegs s.regs 37)))
      ∧ (∀ lo, exec (.cmdIllegal80 lo) s = .next (s.setRegs (errorRegs s.regs 37)))
      ∧ (s.regs.isOpen = false →
          ∀ i ∈ [Instr.cmdClose, .cmdDecodeNextFrame, .cmdSeek, .cmdReadAudio, .cmdAudioTrackInfo],
            exec i s = .next (s.setRegs (errorRegs s.regs 32)))

/-- Each of the nineteen register reads returns its register's value and changes nothing of the core; the word returned
stands in `readData`, a field of the model's (log 7). The writes of ARG0 and ARG1 store the word and change nothing else
(R60, R61, R62, R167, R650). -/
def Obligations.RegisterAccesses : Prop :=
  ∀ s : State, Idle s →
    let st : Nat := s.regs.isOpen.toNat + 2 * s.regs.err.toNat + 4 * s.regs.audioTrunc.toNat
      + 8 * (s.regs.isOpen && s.session.hasAlpha).toNat + 16 * s.regs.frameValid.toNat
      + 32 * (s.regs.isOpen && s.session.curFrame == s.session.frameCount).toNat
    (∀ k ∈ [(Instr.rdCmd, (0 : Word)), (.rdArg0, s.regs.arg0), (.rdArg1, s.regs.arg1),
        (.rdStatus, BitVec.ofNat 32 st), (.rdCause, s.regs.cause.setWidth 32), (.rdRes0, s.regs.res0),
        (.rdRes1, s.regs.res1), (.rdRes2, s.regs.res2), (.rdFrameCount, s.session.frameCount),
        (.rdCurFrame, s.session.curFrame), (.rdFpsNum, s.session.fpsNum), (.rdFpsDen, s.session.fpsDen),
        (.rdWidth, s.session.width), (.rdHeight, s.session.height), (.rdAudioTracks, s.session.trackCount),
        (.rdVideoFlags, s.session.videoFlags), (.rdVersion, s.session.version.setWidth 32),
        (.rdBitpos, s.regs.bitpos), (.rdFrameKey, BitVec.ofNat 32 s.regs.frameKey.toNat)],
      exec k.1 s = .next (s.setReadData (some k.2)))
      ∧ ∀ v : Word, exec (.wrArg0 v) s = .next (s.setRegs { s.regs with arg0 := v })
          ∧ exec (.wrArg1 v) s = .next (s.setRegs { s.regs with arg1 := v })

/-! ## Steps -/

/-- Between commands a step runs exactly the instruction of the host's next move, that move taken off the list; a write
to any other register is ignored, an unmapped offset reads 0, and with no move left the state is held (R155, R166,
R717). The host places a byte of CONTAINER while no session is open, and reads a byte of a plane's `last` buffer, nothing where
it is unwritten; an address outside a space faults (R151, R154, R156). The list of moves is the model's way to hold the host's
side (log 7), and the stops of moves the spec does not admit are the model's (log 12). -/
def Obligations.StepRunsHostMove : Prop :=
  ∀ s : State, Idle s →
    (s.hostMoves = [] → step s = .next s)
      ∧ (∀ (v : Word) (ms : List HostMove) (i : Instr), s.hostMoves = .regWrite 0 v :: ms →
          decode .cmd v.toNat = .ok i → step s = exec i (s.setHostMoves ms))
      ∧ (∀ (v : Word) (ms : List HostMove), s.hostMoves = .regWrite 4 v :: ms →
          step s = exec (.wrArg0 v) (s.setHostMoves ms))
      ∧ (∀ (v : Word) (ms : List HostMove), s.hostMoves = .regWrite 8 v :: ms →
          step s = exec (.wrArg1 v) (s.setHostMoves ms))
      ∧ (∀ (a : Nat) (v : Word) (ms : List HostMove), s.hostMoves = .regWrite a v :: ms → a < 256 → a % 4 = 0 → 12 ≤ a →
          step s = .next (s.setHostMoves ms))
      ∧ (∀ (a : Nat) (ms : List HostMove) (i : Instr), s.hostMoves = .regRead a :: ms → decode .regRead a = .ok i →
          step s = exec i (s.setHostMoves ms))
      ∧ (∀ (a : Nat) (ms : List HostMove), s.hostMoves = .regRead a :: ms → 0x4C ≤ a → a < 256 → a % 4 = 0 →
          step s = .next ((s.setHostMoves ms).setReadData (some 0)))
      ∧ (∀ (a : Nat) (v : Byte) (ms : List HostMove), s.hostMoves = .containerWrite a v :: ms →
          step s = if 2 ^ 32 ≤ a then .fault .addressOutsideSpace
            else if s.regs.isOpen then .refused .containerWriteWhileOpen
            else .next ((s.setHostMoves ms).setContainer (Memory.setByte s.container a v)))
      ∧ ∀ (p : PlaneId) (a : Nat) (ms : List HostMove), s.hostMoves = .planeRead p a :: ms →
          step s = match s.plane p with
            | none => .fault .addressOutsideSpace
            | some x =>
              if a < x.pitch * x.rows then
                .next ((s.setHostMoves ms).setReadData ((Cells.get x.last a).map (BitVec.setWidth 32)))
              else .fault .addressOutsideSpace

/-- Inside a frame a step runs exactly the instruction that the header at the reader, or the next bundle value, encodes:
tree headers, refill headers, audio run headers, block-type symbols, block types and sub-types. The header's bits or the
value are consumed first, and a tree takes its shape as it is read; nothing else is done around exec. Without PATTERN_ESCAPE
(P18) a PATTERN header is its count alone. Where a header ends
and an instruction's payload begins is the model's choice (log 21), as is the cut of a frame into these steps (log 11). -/
def Obligations.StepRunsElement : Prop :=
  ∀ (s : State) (i : Instr),
    (∀ (r : TreeRef) (rest : List AgendaItem) (n w : Nat), TreeAt s r rest → i.wellFormed = true →
        encode .tree i = some (n, w) → BitsLeft s n → bitsAt s 0 n = w →
        step s = exec i ((s.setTree r { s.tree r with shape := BitVec.ofNat 4 w }).setPos (s.bitPos + n)))
      ∧ (∀ (b : BundleId) (rest : List BundleId) (n w t : Nat), RefillAt s b rest t → i.wellFormed = true →
          (s.bundle b).done = false → (s.bundle b).wr ≤ (s.bundle b).rd →
          (b = .pattern → s.params.patternEscape = true) →
          encode (.refill b (s.bundle b).len) i = some (n, w) → t = w % 2 ^ (s.bundle b).len → BitsLeft s n →
          bitsAt s 0 n = w → step s = exec i (s.setPos (s.bitPos + n)))
      ∧ (∀ (rest : List BundleId) (t : Nat), RefillAt s .pattern rest t → (s.bundle .pattern).done = false →
          (s.bundle .pattern).wr ≤ (s.bundle .pattern).rd → s.params.patternEscape = false →
          1 ≤ (s.bundle .pattern).len → (s.bundle .pattern).len ≤ 32 → BitsLeft s (s.bundle .pattern).len →
          bitsAt s 0 (s.bundle .pattern).len = t → t ≠ 0 → i = .refillPatternCoded (BitVec.ofNat 32 t) →
          step s = exec i (s.setPos (s.bitPos + (s.bundle .pattern).len)))
      ∧ (∀ (x : Track) (n w : Nat), s.ctl.phase = .audioCoef → s.tracks[s.ctl.track]? = some x → s.ctl.coefPos < x.n →
          encode .audioRun i = some (n, w) → BitsLeft s n → bitsAt s 0 n = w →
          step s = exec i (s.setPos (s.bitPos + n)))
      ∧ (∀ (b : BundleId) (rest : List BundleId) (v : BitVec 4) (u : State), s.ctl.phase = .btSym →
          s.ctl.refills = b :: rest → (s.bundle b).wr < s.ctl.stop → huff (.bundle b) s = .ok v u →
          decode .btsym v.toNat = .ok i → step s = exec i u)
      ∧ (∀ (p : PlaneId) (x : Plane) (w : Nat), BlockAt s .block p x → Holds (s.bundle .blockTypes) [(w : Int)] →
          w < 16 → decode .bt4 w = .ok i → step s = exec i (afterTake s .blockTypes 1))
      ∧ ∀ w : Nat, s.ctl.phase = .subBlock → Holds (s.bundle .subBlockTypes) [(w : Int)] → w < 16 →
          decode .st4 w = .ok i → step s = exec i (afterTake s .subBlockTypes 1)

/-- The steps of a video packet around its elements. The packet is opened and the planes stand in order: alpha where there is
one, luma, the chroma planes, V before U where SWAP_CHROMA says so (R430). A plane starts with its prefix skip, on alpha and
luma, its length widths, and PlaneStart's items: the tree and the new cursors of each bundle in order, the sixteen COLORS
trees and `colLast <- 0` before the tree of COLORS, no tree for the DC bundles (R430, R351, R353). Each block row begins with
the nine refills in order (R356), a block-type refill's symbol loop going on with the next refill once its values are stored
(R360), then its blocks (R402); a plane ends with the alignment and, but for alpha, the early exit at the packet's end (R402,
R306, R430); after the last plane the frame ends. There every plane's buffers are exchanged in one step, a plane the frame did
not decode shows nothing, FRAME_VALID is set, BITPOS and RES0 report the frame, and the core is idle again; nothing else
changes (R432, R460, R637, R655, R747). The cut into these steps is the model's (log 11), and so is the u32 `size_bits` of a
packet of 2^29 bytes or more (log 9). -/
def Obligations.SwapEndsFrame : Prop :=
  ∀ s : State,
    (s.ctl.phase = .videoStart →
        step s
          = .next ((s.setBr { base := BitVec.ofNat 32 s.ctl.vbase, sizeBits := BitVec.ofNat 32 (8 * s.ctl.vlen), pos := 0 }).setCtl
              { s.ctl with
                phase := .planeNext, video := true, decoded := []
                order := (if s.session.hasAlpha then [.a] else []) ++ [.y]
                  ++ (if s.params.swapsChroma s.session.version then [.v, .u] else [.u, .v]) }))
      ∧ (s.ctl.phase = .planeNext → s.ctl.order = [] → step s = .next (s.setPhase .videoEnd))
      ∧ (∀ (p : PlaneId) (ps : List PlaneId) (x : Plane), s.ctl.phase = .planeNext → s.ctl.order = p :: ps →
          s.plane p = some x →
          let whole := p = .a ∨ p = .y
          let skip := if whole then s.params.prefixSkip s.session.version else 0
          let width := if whole then s.session.width.toNat else s.session.width.toNat / 2
          (whole ∧ ¬ BitsLeft s skip → step s = .next (afterDecodeError s 16))
            ∧ (¬ whole ∨ BitsLeft s skip → ∃ bs : Bundles,
                (∀ b, bs.get b = { s.bundle b with len := bundleLenBits (s.params.bundle b) width x.bw })
                  ∧ step s
                    = .next (((s.setPos (s.bitPos + skip)).setBundles bs).setCtl
                        { s.ctl with
                          phase := .trees, order := ps, plane := p
                          agenda := [.tree (.bundle .blockTypes), .seed .blockTypes, .tree (.bundle .subBlockTypes),
                              .seed .subBlockTypes] ++ ((List.range 16).map fun i => .tree (.colHigh (BitVec.ofNat 4 i)))
                            ++ [.clearColLast, .tree (.bundle .colors), .seed .colors, .tree (.bundle .pattern), .seed .pattern,
                              .tree (.bundle .xOff), .seed .xOff, .tree (.bundle .yOff), .seed .yOff, .seed .intraDc,
                              .seed .interDc, .tree (.bundle .run), .seed .run] })))
      ∧ (∀ rest : List AgendaItem, s.ctl.phase = .trees →
          (s.ctl.agenda = .clearColLast :: rest → step s = .next ((s.setColLast 0).setCtl { s.ctl with agenda := rest }))
            ∧ (∀ b, s.ctl.agenda = .seed b :: rest →
                step s
                  = .next ((s.setBundle b { s.bundle b with wr := 0, rd := 0, done := false }).setCtl
                      { s.ctl with agenda := rest }))
            ∧ (s.ctl.agenda = [] → step s = .next (s.setCtl { s.ctl with phase := .rowStart, by_ := 0 })))
      ∧ (∀ x : Plane, s.plane s.ctl.plane = some x →
          (s.ctl.phase = .rowStart →
              step s
                = .next (if s.ctl.by_ < x.bh then
                    s.setCtl { s.ctl with
                      phase := .refill
                      refills := [.blockTypes, .subBlockTypes, .colors, .pattern, .xOff, .yOff, .intraDc, .interDc, .run] }
                  else s.setPhase .planeEnd))
            ∧ (s.ctl.phase = .block → x.bw ≤ s.ctl.bx →
                step s = .next (s.setCtl { s.ctl with phase := .rowStart, by_ := s.ctl.by_ + 1 })))
      ∧ (s.ctl.phase = .refill → s.ctl.refills = [] → step s = .next (s.setCtl { s.ctl with phase := .block, bx := 0 }))
      ∧ (∀ (b : BundleId) (rest : List BundleId), s.ctl.phase = .btSym → s.ctl.refills = b :: rest →
          s.ctl.stop ≤ (s.bundle b).wr → step s = .next (s.setCtl { s.ctl with phase := .refill, refills := rest }))
      ∧ (s.ctl.phase = .planeEnd →
          let stop := min (32 * ((s.bitPos + 31) / 32)) s.bitSize
          step s
            = .next ((s.setPos stop).setCtl
                { s.ctl with
                  decoded := s.ctl.decoded ++ [s.ctl.plane]
                  phase := if s.params.earlyPlaneExit = true ∧ s.ctl.plane ≠ .a ∧ stop = s.bitSize then .videoEnd
                    else .planeNext }))
      ∧ (s.ctl.phase = .videoEnd → ∃ ps : Planes,
          step s
              = .next (((s.setPlanes ps).setRegs
                  (okRegs { s.regs with frameValid := true, bitpos := s.br.pos }
                    (BitVec.ofNat 32 s.ctl.frame) 0 0)).setPhase .idle)
            ∧ ∀ p, ps.get p = match s.plane p with
                | none => none
                | some x => some { x with cur := x.last, last := if p ∈ s.ctl.decoded then x.cur else [] })

/-! ## Reset and invariants -/

/-- Right after reset: the core idle; every register the spec lists 0, the session's fields 0 or false and its index empty; no plane
and no track; reader, bundles and trees at their reset values; of the coefficient and inverse-DCT scratch no element written (the
scalars among it, which R90 gives no value, are 0 by the model's choice, log 6); CONTAINER in its canonical form (R60, R65, R71, R73,
R80, R81, R90, R91, R110, R730). The configuration has each value R10 gives, and its OPEN tables pass R11 and R12; and the invariants
below hold there. -/
def Obligations.ResetState : Prop :=
  State.reset.regs
      = { arg0 := 0, arg1 := 0, isOpen := false, err := false, audioTrunc := false, frameValid := false, cause := 0
          res0 := 0, res1 := 0, res2 := 0, bitpos := 0, frameKey := false }
    ∧ statusWord State.reset = 0
    ∧ State.reset.session
      = { signature := 0, version := 0, fileSize := 0, frameCount := 0, largestFrame := 0, width := 0, height := 0, fpsNum := 0
          fpsDen := 0, videoFlags := 0, hasAlpha := false, gray := false, trackCount := 0, frames := [], curFrame := 0 }
    ∧ (∀ p, State.reset.plane p = none) ∧ State.reset.tracks = []
    ∧ State.reset.br = { base := 0, sizeBits := 0, pos := 0 }
    ∧ (∀ b, State.reset.bundle b
        = { len := 0, tree := { shape := 0, syms := [] }, buf := [], wr := 0, rd := 0, cap := 0, done := false })
    ∧ (∀ i, State.reset.tree (.colHigh i) = { shape := 0, syms := [] }) ∧ State.reset.colLast = 0
    ∧ State.reset.coef
      = { coefList := [], modeList := [], listStart := 0, listEnd := 0, blk := [], coefIdx := [], coefCount := 0, res := []
          nz := [], nzCount := 0, budget := 0 }
    ∧ State.reset.dct = { tmp := [], ublk := [] }
    -- P1, P3, P8 to P14
    ∧ State.reset.params.numShapes = 16 ∧ State.reset.params.codes 0 = (List.range 16).map (fun l => (4, l))
    ∧ State.reset.params.coefListCapacity = 128
    ∧ State.reset.params.bundles
      = [⟨false, 1, 1, 511, 64⟩, ⟨false, 8, 16, 511, 64⟩, ⟨true, 64, 1, 511, 64⟩, ⟨true, 8, 1, 511, 64⟩, ⟨false, 1, 1, 511, 64⟩,
        ⟨false, 1, 1, 511, 64⟩, ⟨false, 1, 1, 511, 32⟩, ⟨false, 1, 1, 511, 32⟩, ⟨true, 48, 1, 511, 64⟩]
    ∧ State.reset.params.acceptedSignatures = [0x664B4942, 0x674B4942, 0x684B4942, 0x694B4942]
    ∧ State.reset.params.unsupportedSignatures = [0x624B4942]
    ∧ (∀ ver : Byte, State.reset.params.foldsColor ver = decide (ver.toNat < 0x69)
        ∧ State.reset.params.swapsChroma ver = decide (0x68 ≤ ver.toNat)
        ∧ State.reset.params.prefixSkip ver = if 0x69 ≤ ver.toNat then 32 else 0)
    -- P15 to P22, P26 to P28
    ∧ State.reset.params.earlyPlaneExit = true ∧ State.reset.params.listCountBias = 0
    ∧ State.reset.params.runSigned = true ∧ State.reset.params.patternEscape = true
    ∧ State.reset.params.scaledIntraQSource = .stream ∧ State.reset.params.pixelStore = .wrap
    ∧ State.reset.params.idctMulShift = 11 ∧ State.reset.params.idctRowBias = 2048
    ∧ State.reset.params.dctC0Factor = 0x3F000000 ∧ (∀ n, State.reset.params.postScale n = n)
    ∧ State.reset.params.audioDctPrefixBits = 2
    -- P30 to P37
    ∧ State.reset.params.maxDim = 32767 ∧ State.reset.params.maxAudioTracks = 255
    ∧ State.reset.params.maxFrameCount = 1000000 ∧ State.reset.params.planeReset = .poison
    ∧ State.reset.params.criticalFreqs
      = [100, 200, 300, 400, 510, 630, 770, 920, 1080, 1270, 1480, 1720, 2000, 2320, 2700, 3150, 3700, 4400, 5300, 6400, 7700,
        9500, 12000, 15500, 24500]
    ∧ State.reset.params.audioRleLen = [2, 3, 4, 5, 6, 8, 9, 10, 11, 12, 13, 14, 15, 16, 32, 64]
    ∧ State.reset.params.blockRleLen = [4, 8, 12, 32] ∧ State.reset.params.audioQConst = 15289164787221953823
    ∧ State.reset.params.wellFormed = true
    ∧ Idle State.reset ∧ Memory.wf State.reset.container = true ∧ ReaderInv State.reset ∧ BundleInv State.reset
    ∧ SessionInv State.reset ∧ PlaneInv State.reset

/-- Every step keeps CONTAINER in its canonical form and keeps every plane's pixels inside its buffers (R151, R158). -/
def Obligations.StepKeepsMemory : Prop :=
  ∀ s t : State, step s = .next t →
    (Memory.wf s.container = true → Memory.wf t.container = true) ∧ (PlaneInv s → PlaneInv t)

/-- Every step keeps the reader inside its packet and every bundle's cursors in order: `bit_position <= total_size_bits`
and `read_cursor <= write_cursor <= buffer_end`. A read past the packet's end raises READER_UNDERRUN, and a fetch at
`rd = wr` raises BUNDLE_UNDERRUN (R66, R72). -/
def Obligations.StepKeepsCursors : Prop :=
  (∀ s t : State, step s = .next t → (ReaderInv s → ReaderInv t) ∧ (BundleInv s → BundleInv t))
    ∧ (∀ (s : State) (n : Nat), 1 ≤ n → n ≤ 32 → s.bitSize < s.bitPos + n →
        getBits n s = .error (.raised .readerUnderrun) s)
    ∧ (∀ (s : State) (b : BundleId), (s.bundle b).rd = (s.bundle b).wr →
        getValue b s = .error (.raised .bundleUnderrun) s)
    ∧ ∀ s : State, takeError .readerUnderrun s = afterDecodeError s 16 ∧ takeError .bundleUnderrun s = afterDecodeError s 23

/-- Every step keeps the frame cursor inside the index, the index and the tracks at the header's counts, and a core without
a session empty and idle (R56, R61, R81, R110). No step changes the instantiation (R10). The model is instantiated with a
configuration exactly where its tables pass the checks of R11 and R12, which are spelled out here, and then stands at reset; any
other is refused, and no state runs on one. -/
def Obligations.StepKeepsSession : Prop :=
  (∀ s t : State, step s = .next t → (SessionInv s → SessionInv t) ∧ t.inst = s.inst)
    ∧ (∀ s : State, s.params.wellFormed = true)
    ∧ ∀ p : Params,
        (∀ h : p.wellFormed = true, instantiate p = .next { State.reset with inst := { params := p, accepted := h } })
          ∧ (p.wellFormed = false → instantiate p = .refused .illFormedInstantiation)
          ∧ (p.wellFormed = true ↔
              p.numShapes = 16 ∧ p.vlc.length = 16
                ∧ (∀ t ∈ p.vlc, t.length = 16 ∧ (∀ c ∈ t, 1 ≤ c.1 ∧ c.2 < 2 ^ c.1)
                  ∧ (∀ (i j : Nat) (c d : Nat × Nat), i ≠ j → t[i]? = some c → t[j]? = some d →
                      ¬ (c.1 ≤ d.1 ∧ d.2 % 2 ^ c.1 = c.2))
                  ∧ (t.map fun c => (1 / 2 ^ c.1 : ℚ)).sum = 1)
                ∧ p.runPatterns.length = 16 ∧ (∀ l ∈ p.runPatterns, l.Perm (List.range 64))
                ∧ p.scan.Perm (List.range 64) ∧ p.scan[0]? = some 0
                ∧ ∀ m ∈ [p.quantIntra, p.quantInter],
                    m.length = 16 ∧ ∀ l ∈ m, l.length = 64 ∧ ∀ v ∈ l, v < 2 ^ 31)

/-- While a frame is decoded no step but the swap changes any plane's `last` buffer or FRAME_VALID, whether it ends in an
error or not; and the reader of a packet moves only forward (R461, R690, R56). -/
def Obligations.FrameLeavesLast : Prop :=
  ∀ s t : State, step s = .next t → s.ctl.phase ≠ .idle →
    (s.ctl.phase ≠ .videoEnd → (∀ p, lastOf t p = lastOf s p) ∧ t.regs.frameValid = s.regs.frameValid)
      ∧ (ReaderInv s → s.ctl.phase ≠ .audioTrack → s.ctl.phase ≠ .videoStart →
          t.br.base = s.br.base ∧ t.br.sizeBits = s.br.sizeBits ∧ s.bitPos ≤ t.bitPos)

/-- What is the host's stays the host's: no step changes CONTAINER but the host's own placing of a byte while no session
is open, no step changes ARG0 or ARG1 but the host's write of it, and a move leaves the list only between commands (R62,
R154, R166, R175). -/
def Obligations.HostOwnsItsState : Prop :=
  ∀ s t : State, step s = .next t →
    (t.container = s.container
        ∨ (Idle s ∧ s.regs.isOpen = false ∧ ∃ a v ms, s.hostMoves = .containerWrite a v :: ms
            ∧ t.container = Memory.setByte s.container a v))
      ∧ (t.regs.arg0 = s.regs.arg0 ∨ (Idle s ∧ ∃ v ms, s.hostMoves = .regWrite 4 v :: ms ∧ t.regs.arg0 = v))
      ∧ (t.regs.arg1 = s.regs.arg1 ∨ (Idle s ∧ ∃ v ms, s.hostMoves = .regWrite 8 v :: ms ∧ t.regs.arg1 = v))
      ∧ (¬ Idle s → t.hostMoves = s.hostMoves)

/-- The geometry of R400: visible size, block grid, pitch and rows of luma and chroma. The length widths of R351,
`floor_log2(x + 511) + 1` with x from W8, W16 or the block grid, and the capacities of R352, 64 or 32 elements for each luma block, at
R10's values. For every picture size OPEN admits at R10's values, the planes' buffers cover their block grids in whole 16x16 regions,
the length fields are 9 to 19 bits wide, and every motion source inside the bounds of R411 is an 8x8 block inside the buffer (R400,
R351, R352, R411). -/
def Obligations.GeometryCovers : Prop :=
  (∀ (r : PlaneReset) (w h : Nat),
    ((lumaPlane r w h).w = w ∧ (lumaPlane r w h).h = h ∧ (lumaPlane r w h).bw = (w + 7) / 8
        ∧ (lumaPlane r w h).bh = (h + 7) / 8)
      ∧ ((chromaPlane r w h).w = (w + 1) / 2 ∧ (chromaPlane r w h).h = (h + 1) / 2
        ∧ (chromaPlane r w h).bw = (w + 15) / 16 ∧ (chromaPlane r w h).bh = (h + 15) / 16)
      ∧ ∀ x ∈ [lumaPlane r w h, chromaPlane r w h],
          x.pitch = 16 * ((8 * x.bw + 15) / 16) ∧ x.rows = 16 * ((8 * x.bh + 15) / 16))
    ∧ (∀ (b : BundleId) (lw bw w h : Nat),
        let w8 := (max lw 8 + 7) / 8
        let x := match b with
          | .blockTypes | .xOff | .yOff | .intraDc | .interDc => w8
          | .subBlockTypes => 8 * w8 / 16
          | .colors => 64 * bw
          | .pattern => 8 * bw
          | .run => 48 * bw
        bundleLenBits (State.reset.params.bundle b) lw bw = Nat.log2 (x + 511) + 1
          ∧ bundleCapacity State.reset.params b w h
            = (if b = .intraDc ∨ b = .interDc then 32 else 64) * ((w + 7) / 8) * ((h + 7) / 8))
    ∧ ∀ w h : Nat, 1 ≤ w → w ≤ 32767 → 1 ≤ h → h ≤ 32767 →
      ∀ (r : PlaneReset) (x : Plane), (x = lumaPlane r w h ∨ x = chromaPlane r w h) →
        1 ≤ x.bw ∧ 1 ≤ x.bh ∧ x.pitch % 16 = 0 ∧ x.rows % 16 = 0 ∧ 8 * x.bw ≤ x.pitch ∧ 8 * x.bh ≤ x.rows
          ∧ (∀ (bx r : Nat), bx < x.bw → r < x.bh → BlockFits x (blockDst x bx r))
          ∧ (∀ (bx r : Nat), bx < x.bw → r < x.bh → bx % 2 = 0 → r % 2 = 0 → RegionFits x (blockDst x bx r))
          ∧ (∀ (b : BundleId) (lw : Nat), lw ≤ w →
              9 ≤ bundleLenBits (State.reset.params.bundle b) lw x.bw
                ∧ bundleLenBits (State.reset.params.bundle b) lw x.bw ≤ 19)
          ∧ ∀ a : Int, 0 ≤ a → a ≤ motionLimit x → BlockFits x a.toNat
end

