-- ==== Sys2Proof/Laws/Cells.lean ====
section
/-! SUPPORT. Sparse arrays and CONTAINER: what a write changes and leaves alone, and that every memory operation keeps the
canonical form. -/

namespace Sys2Proof

variable {α : Type}

/-- A write gives the value written and leaves every other element alone; no order is needed. -/
theorem Cells.get_set (m : Cells α) (i : Nat) (v : α) (j : Nat) :
    Cells.get (Cells.set m i v) j = if j = i then some v else Cells.get m j := by
  induction m with
  | nil =>
    simp only [Cells.set, Cells.get]
    split
    · rfl
    · split <;> rfl
  | cons c m ih =>
    obtain ⟨k, x⟩ := c
    simp only [Cells.set]
    by_cases h1 : i < k
    · simp only [h1, if_true, Cells.get]
      by_cases h2 : j = i
      · simp [h2]
      · by_cases h3 : j < i
        · have h4 : j ≠ k := by omega
          have h5 : j < k := by omega
          simp [h2, h3, h4, h5]
        · simp [h2, h3]
    · by_cases h2 : i = k
      · subst h2
        simp only [Nat.lt_irrefl, if_false, if_true, Cells.get]
        by_cases h3 : j = i
        · simp [h3]
        · simp [h3]
      · simp only [h1, h2, if_false, Cells.get, ih]
        by_cases h3 : j = k
        · have h4 : j ≠ i := by omega
          simp [h3, Ne.symm h2]
        · by_cases h4 : j < k
          · have h5 : j ≠ i := by omega
            simp [h3, h4, h5]
          · simp [h3, h4]

@[simp] theorem Cells.get_set_same (m : Cells α) (i : Nat) (v : α) : Cells.get (Cells.set m i v) i = some v := by
  rw [Cells.get_set, if_pos rfl]

theorem Cells.get_set_other (m : Cells α) {i j : Nat} (v : α) (h : j ≠ i) :
    Cells.get (Cells.set m i v) j = Cells.get m j := by
  rw [Cells.get_set, if_neg h]

/-- Writing a list of values at `i`, `i + 1`, …: the last write of an index stands. -/
theorem Cells.get_setFrom (vs : List α) (m : Cells α) (i j : Nat) :
    Cells.get (Cells.setFrom m i vs) j = if i ≤ j ∧ j < i + vs.length then vs[j - i]? else Cells.get m j := by
  induction vs generalizing m i with
  | nil => simp [Cells.setFrom]
  | cons v vs ih =>
    rw [Cells.setFrom, ih, Cells.get_set]
    simp only [List.length_cons]
    by_cases h : j = i
    · subst h; simp
    · by_cases h2 : i + 1 ≤ j ∧ j < i + 1 + vs.length
      · have h3 : i ≤ j ∧ j < i + (vs.length + 1) := by omega
        have h4 : j - i = (j - (i + 1)) + 1 := by omega
        rw [if_pos h2, if_pos h3, h4, List.getElem?_cons_succ]
      · have h3 : ¬ (i ≤ j ∧ j < i + (vs.length + 1)) := by omega
        rw [if_neg h2, if_neg h3, if_neg h]

/-- Every index of a sorted array that starts above `k` is above `k`. -/
theorem Cells.sorted_cons {k : Nat} {x : α} {m : Cells α} :
    Cells.sorted ((k, x) :: m) = true ↔ (∀ c ∈ m, k < c.1) ∧ Cells.sorted m = true := by
  induction m generalizing k x with
  | nil => simp [Cells.sorted]
  | cons c m ih =>
    obtain ⟨k', y⟩ := c
    simp only [Cells.sorted, Bool.and_eq_true, decide_eq_true_eq, List.mem_cons]
    constructor
    · rintro ⟨h, hs⟩
      refine ⟨?_, hs⟩
      rintro c (rfl | hc)
      · exact h
      · exact Nat.lt_trans h ((ih.mp hs).1 c hc)
    · rintro ⟨h, hs⟩
      exact ⟨h (k', y) (Or.inl rfl), hs⟩

/-- What a write can put into the list: its own entry, or an old one of another index. -/
theorem Cells.mem_set {m : Cells α} {i : Nat} {v : α} {c : Nat × α} (h : c ∈ Cells.set m i v) :
    c = (i, v) ∨ c ∈ m := by
  induction m with
  | nil => simp only [Cells.set, List.mem_singleton] at h; exact Or.inl h
  | cons d m ih =>
    obtain ⟨k, x⟩ := d
    simp only [Cells.set] at h
    split at h
    · rcases List.mem_cons.mp h with h | h
      · exact Or.inl h
      · exact Or.inr h
    · split at h
      · rcases List.mem_cons.mp h with h | h
        · exact Or.inl h
        · exact Or.inr (List.mem_cons_of_mem _ h)
      · rcases List.mem_cons.mp h with h | h
        · exact Or.inr (h ▸ List.mem_cons_self)
        · rcases ih h with h | h
          · exact Or.inl h
          · exact Or.inr (List.mem_cons_of_mem _ h)

theorem Cells.mem_erase {m : Cells α} {i : Nat} {c : Nat × α} (h : c ∈ Cells.erase m i) : c ∈ m := by
  induction m with
  | nil => exact h
  | cons d m ih =>
    obtain ⟨k, x⟩ := d
    simp only [Cells.erase] at h
    split at h
    · exact h
    · split at h
      · exact List.mem_cons_of_mem _ h
      · rcases List.mem_cons.mp h with h | h
        · exact h ▸ List.mem_cons_self
        · exact List.mem_cons_of_mem _ (ih h)

/-- A write keeps the indices strictly rising. -/
theorem Cells.sorted_set {m : Cells α} (i : Nat) (v : α) (h : Cells.sorted m = true) :
    Cells.sorted (Cells.set m i v) = true := by
  induction m with
  | nil => rfl
  | cons c m ih =>
    obtain ⟨k, x⟩ := c
    have hk := Cells.sorted_cons.mp h
    simp only [Cells.set]
    split
    next hlt =>
      refine Cells.sorted_cons.mpr ⟨?_, h⟩
      intro c hc
      rcases List.mem_cons.mp hc with rfl | hc
      · exact hlt
      · exact Nat.lt_trans hlt (hk.1 c hc)
    next hlt =>
      split
      next heq => exact Cells.sorted_cons.mpr ⟨heq ▸ hk.1, hk.2⟩
      next hne =>
        refine Cells.sorted_cons.mpr ⟨?_, ih hk.2⟩
        intro c hc
        rcases Cells.mem_set hc with rfl | hc
        · show k < i
          omega
        · exact hk.1 c hc

theorem Cells.sorted_erase {m : Cells α} (i : Nat) (h : Cells.sorted m = true) :
    Cells.sorted (Cells.erase m i) = true := by
  induction m with
  | nil => rfl
  | cons c m ih =>
    obtain ⟨k, x⟩ := c
    have hk := Cells.sorted_cons.mp h
    simp only [Cells.erase]
    split
    · exact h
    · split
      · exact hk.2
      · exact Cells.sorted_cons.mpr ⟨fun c hc => hk.1 c (Cells.mem_erase hc), ih hk.2⟩

theorem Cells.sorted_setFrom (vs : List α) {m : Cells α} (i : Nat) (h : Cells.sorted m = true) :
    Cells.sorted (Cells.setFrom m i vs) = true := by
  induction vs generalizing m i with
  | nil => exact h
  | cons v vs ih => exact ih (i + 1) (Cells.sorted_set i v h)

/-- An index below every entry holds nothing. -/
theorem Cells.get_of_forall_lt {m : Cells α} {i : Nat} (h : ∀ c ∈ m, i < c.1) : Cells.get m i = none := by
  cases m with
  | nil => rfl
  | cons c m =>
    obtain ⟨k, x⟩ := c
    have hk : i < k := h (k, x) List.mem_cons_self
    have hne : i ≠ k := by omega
    simp [Cells.get, hk, hne]

/-- In a sorted array an erased element is gone and every other one stays. -/
theorem Cells.get_erase {m : Cells α} (i j : Nat) (h : Cells.sorted m = true) :
    Cells.get (Cells.erase m i) j = if j = i then none else Cells.get m j := by
  induction m with
  | nil => simp [Cells.erase, Cells.get]
  | cons c m ih =>
    obtain ⟨k, x⟩ := c
    have hk := Cells.sorted_cons.mp h
    simp only [Cells.erase]
    by_cases h1 : i < k
    · by_cases h2 : j = i
      · have h3 : j ≠ k := by omega
        have h4 : j < k := by omega
        simp [h1, h2, Cells.get]
        omega
      · simp [h1, h2]
    · by_cases h2 : i = k
      · subst h2
        by_cases h3 : j = i
        · simp only [Nat.lt_irrefl, if_false, if_true, h3]
          exact Cells.get_of_forall_lt hk.1
        · by_cases h4 : j < i
          · have : Cells.get m j = none := Cells.get_of_forall_lt fun c hc => Nat.lt_trans h4 (hk.1 c hc)
            simp [h3, h4, Cells.get, this]
          · simp [h3, h4, Cells.get]
      · simp only [h1, h2, if_false, Cells.get, ih hk.2]
        by_cases h3 : j = k
        · have h4 : k ≠ i := fun e => h2 e.symm
          simp [h3, h4]
        · by_cases h4 : j < k
          · have h5 : j ≠ i := by omega
            simp [h3, h4, h5]
          · simp [h3, h4]

namespace Machine

/-- A byte placed reads as placed and leaves every other byte alone. -/
theorem Memory.byte_setByte {m : List Host.Cell} (a : Nat) (v : Byte) (b : Nat) (h : Memory.wf m = true) :
    Memory.byte (Memory.setByte m a v) b = if b = a then v else Memory.byte m b := by
  have hs : Cells.sorted m = true := by
    simp only [Memory.wf, Bool.and_eq_true] at h
    exact h.1.1
  simp only [Memory.byte, Memory.setByte]
  by_cases hv : v = 0
  · rw [if_pos hv, Cells.get_erase a b hs]
    split
    · exact hv.symm
    · rfl
  · rw [if_neg hv, Cells.get_set]
    split <;> rfl

/-- Placing a byte below 2^32 keeps the canonical form. -/
theorem Memory.wf_setByte {m : List Host.Cell} {a : Nat} (v : Byte) (ha : a < 2 ^ 32) (h : Memory.wf m = true) :
    Memory.wf (Memory.setByte m a v) = true := by
  simp only [Memory.wf, Bool.and_eq_true, Cells.below, List.all_eq_true, decide_eq_true_eq, bne_iff_ne] at h ⊢
  obtain ⟨⟨hs, hb⟩, hz⟩ := h
  simp only [Memory.setByte]
  split
  next hv =>
    exact ⟨⟨Cells.sorted_erase a hs, fun c hc => hb c (Cells.mem_erase hc)⟩, fun c hc => hz c (Cells.mem_erase hc)⟩
  next hv =>
    refine ⟨⟨Cells.sorted_set a v hs, ?_⟩, ?_⟩
    · intro c hc
      rcases Cells.mem_set hc with rfl | hc
      · exact ha
      · exact hb c hc
    · intro c hc
      rcases Cells.mem_set hc with rfl | hc
      · exact hv
      · exact hz c hc

/-- Placing bytes below 2^32 keeps the canonical form. -/
theorem Memory.wf_setBytes (vs : List Byte) {m : List Host.Cell} {a : Nat} (ha : a + vs.length ≤ 2 ^ 32)
    (h : Memory.wf m = true) : Memory.wf (Memory.setBytes m a vs) = true := by
  induction vs generalizing m a with
  | nil => exact h
  | cons v vs ih =>
    simp only [List.length_cons] at ha
    exact ih (by omega) (Memory.wf_setByte v (by omega) h)

/-- The value of `n` packet bits is below `2^n`. -/
theorem Memory.packetBits_lt (m : List Host.Cell) (base pos n : Nat) : Memory.packetBits m base pos n < 2 ^ n := by
  induction n generalizing pos with
  | zero => simp [Memory.packetBits]
  | succ n ih =>
    have h := ih (pos + 1)
    have hb : Memory.packetBit m base pos < 2 := Nat.mod_lt _ (by decide)
    simp only [Memory.packetBits, Nat.pow_succ]
    omega

end Machine
end Sys2Proof
end

