-- ==== Sys2Proof/Laws/State.lean ====
section
/-! SUPPORT. One lemma per field per update of State, true by unfolding, so that no proof unfolds an update. -/

namespace Sys2Proof.Machine

/-! ## setInst -/

section
variable (s : State) (x : Instantiation)
@[simp] theorem State.setInst_inst : (s.setInst x).inst = x := rfl
@[simp] theorem State.setInst_params : (s.setInst x).params = x.params := rfl
@[simp] theorem State.setInst_regs : (s.setInst x).regs = s.regs := rfl
@[simp] theorem State.setInst_br : (s.setInst x).br = s.br := rfl
@[simp] theorem State.setInst_bundles : (s.setInst x).bundles = s.bundles := rfl
@[simp] theorem State.setInst_colHigh : (s.setInst x).colHigh = s.colHigh := rfl
@[simp] theorem State.setInst_colLast : (s.setInst x).colLast = s.colLast := rfl
@[simp] theorem State.setInst_session : (s.setInst x).session = s.session := rfl
@[simp] theorem State.setInst_planes : (s.setInst x).planes = s.planes := rfl
@[simp] theorem State.setInst_coef : (s.setInst x).coef = s.coef := rfl
@[simp] theorem State.setInst_dct : (s.setInst x).dct = s.dct := rfl
@[simp] theorem State.setInst_tracks : (s.setInst x).tracks = s.tracks := rfl
@[simp] theorem State.setInst_ctl : (s.setInst x).ctl = s.ctl := rfl
@[simp] theorem State.setInst_container : (s.setInst x).container = s.container := rfl
@[simp] theorem State.setInst_pcmOut : (s.setInst x).pcmOut = s.pcmOut := rfl
@[simp] theorem State.setInst_hostMoves : (s.setInst x).hostMoves = s.hostMoves := rfl
@[simp] theorem State.setInst_readData : (s.setInst x).readData = s.readData := rfl
@[simp] theorem State.setInst_bitBase : (s.setInst x).bitBase = s.bitBase := rfl
@[simp] theorem State.setInst_bitSize : (s.setInst x).bitSize = s.bitSize := rfl
@[simp] theorem State.setInst_bitPos : (s.setInst x).bitPos = s.bitPos := rfl
end

/-! ## setRegs -/

section
variable (s : State) (x : Regs)
@[simp] theorem State.setRegs_inst : (s.setRegs x).inst = s.inst := rfl
@[simp] theorem State.setRegs_params : (s.setRegs x).params = s.params := rfl
@[simp] theorem State.setRegs_bitBase : (s.setRegs x).bitBase = s.bitBase := rfl
@[simp] theorem State.setRegs_bitSize : (s.setRegs x).bitSize = s.bitSize := rfl
@[simp] theorem State.setRegs_bitPos : (s.setRegs x).bitPos = s.bitPos := rfl
@[simp] theorem State.setRegs_regs : (s.setRegs x).regs = x := rfl
@[simp] theorem State.setRegs_br : (s.setRegs x).br = s.br := rfl
@[simp] theorem State.setRegs_bundles : (s.setRegs x).bundles = s.bundles := rfl
@[simp] theorem State.setRegs_colHigh : (s.setRegs x).colHigh = s.colHigh := rfl
@[simp] theorem State.setRegs_colLast : (s.setRegs x).colLast = s.colLast := rfl
@[simp] theorem State.setRegs_session : (s.setRegs x).session = s.session := rfl
@[simp] theorem State.setRegs_planes : (s.setRegs x).planes = s.planes := rfl
@[simp] theorem State.setRegs_coef : (s.setRegs x).coef = s.coef := rfl
@[simp] theorem State.setRegs_dct : (s.setRegs x).dct = s.dct := rfl
@[simp] theorem State.setRegs_tracks : (s.setRegs x).tracks = s.tracks := rfl
@[simp] theorem State.setRegs_ctl : (s.setRegs x).ctl = s.ctl := rfl
@[simp] theorem State.setRegs_container : (s.setRegs x).container = s.container := rfl
@[simp] theorem State.setRegs_pcmOut : (s.setRegs x).pcmOut = s.pcmOut := rfl
@[simp] theorem State.setRegs_hostMoves : (s.setRegs x).hostMoves = s.hostMoves := rfl
@[simp] theorem State.setRegs_readData : (s.setRegs x).readData = s.readData := rfl
end

/-! ## setBr -/

section
variable (s : State) (x : BitReader)
@[simp] theorem State.setBr_inst : (s.setBr x).inst = s.inst := rfl
@[simp] theorem State.setBr_params : (s.setBr x).params = s.params := rfl
@[simp] theorem State.setBr_regs : (s.setBr x).regs = s.regs := rfl
@[simp] theorem State.setBr_br : (s.setBr x).br = x := rfl
@[simp] theorem State.setBr_bundles : (s.setBr x).bundles = s.bundles := rfl
@[simp] theorem State.setBr_colHigh : (s.setBr x).colHigh = s.colHigh := rfl
@[simp] theorem State.setBr_colLast : (s.setBr x).colLast = s.colLast := rfl
@[simp] theorem State.setBr_session : (s.setBr x).session = s.session := rfl
@[simp] theorem State.setBr_planes : (s.setBr x).planes = s.planes := rfl
@[simp] theorem State.setBr_coef : (s.setBr x).coef = s.coef := rfl
@[simp] theorem State.setBr_dct : (s.setBr x).dct = s.dct := rfl
@[simp] theorem State.setBr_tracks : (s.setBr x).tracks = s.tracks := rfl
@[simp] theorem State.setBr_ctl : (s.setBr x).ctl = s.ctl := rfl
@[simp] theorem State.setBr_container : (s.setBr x).container = s.container := rfl
@[simp] theorem State.setBr_pcmOut : (s.setBr x).pcmOut = s.pcmOut := rfl
@[simp] theorem State.setBr_hostMoves : (s.setBr x).hostMoves = s.hostMoves := rfl
@[simp] theorem State.setBr_readData : (s.setBr x).readData = s.readData := rfl
end

/-! ## setBundles -/

section
variable (s : State) (x : Bundles)
@[simp] theorem State.setBundles_inst : (s.setBundles x).inst = s.inst := rfl
@[simp] theorem State.setBundles_params : (s.setBundles x).params = s.params := rfl
@[simp] theorem State.setBundles_bitBase : (s.setBundles x).bitBase = s.bitBase := rfl
@[simp] theorem State.setBundles_bitSize : (s.setBundles x).bitSize = s.bitSize := rfl
@[simp] theorem State.setBundles_bitPos : (s.setBundles x).bitPos = s.bitPos := rfl
@[simp] theorem State.setBundles_regs : (s.setBundles x).regs = s.regs := rfl
@[simp] theorem State.setBundles_br : (s.setBundles x).br = s.br := rfl
@[simp] theorem State.setBundles_bundles : (s.setBundles x).bundles = x := rfl
@[simp] theorem State.setBundles_colHigh : (s.setBundles x).colHigh = s.colHigh := rfl
@[simp] theorem State.setBundles_colLast : (s.setBundles x).colLast = s.colLast := rfl
@[simp] theorem State.setBundles_session : (s.setBundles x).session = s.session := rfl
@[simp] theorem State.setBundles_planes : (s.setBundles x).planes = s.planes := rfl
@[simp] theorem State.setBundles_coef : (s.setBundles x).coef = s.coef := rfl
@[simp] theorem State.setBundles_dct : (s.setBundles x).dct = s.dct := rfl
@[simp] theorem State.setBundles_tracks : (s.setBundles x).tracks = s.tracks := rfl
@[simp] theorem State.setBundles_ctl : (s.setBundles x).ctl = s.ctl := rfl
@[simp] theorem State.setBundles_container : (s.setBundles x).container = s.container := rfl
@[simp] theorem State.setBundles_pcmOut : (s.setBundles x).pcmOut = s.pcmOut := rfl
@[simp] theorem State.setBundles_hostMoves : (s.setBundles x).hostMoves = s.hostMoves := rfl
@[simp] theorem State.setBundles_readData : (s.setBundles x).readData = s.readData := rfl
end

/-! ## setColHigh -/

section
variable (s : State) (x : List Tree)
@[simp] theorem State.setColHigh_inst : (s.setColHigh x).inst = s.inst := rfl
@[simp] theorem State.setColHigh_params : (s.setColHigh x).params = s.params := rfl
@[simp] theorem State.setColHigh_bitBase : (s.setColHigh x).bitBase = s.bitBase := rfl
@[simp] theorem State.setColHigh_bitSize : (s.setColHigh x).bitSize = s.bitSize := rfl
@[simp] theorem State.setColHigh_bitPos : (s.setColHigh x).bitPos = s.bitPos := rfl
@[simp] theorem State.setColHigh_regs : (s.setColHigh x).regs = s.regs := rfl
@[simp] theorem State.setColHigh_br : (s.setColHigh x).br = s.br := rfl
@[simp] theorem State.setColHigh_bundles : (s.setColHigh x).bundles = s.bundles := rfl
@[simp] theorem State.setColHigh_colHigh : (s.setColHigh x).colHigh = x := rfl
@[simp] theorem State.setColHigh_colLast : (s.setColHigh x).colLast = s.colLast := rfl
@[simp] theorem State.setColHigh_session : (s.setColHigh x).session = s.session := rfl
@[simp] theorem State.setColHigh_planes : (s.setColHigh x).planes = s.planes := rfl
@[simp] theorem State.setColHigh_coef : (s.setColHigh x).coef = s.coef := rfl
@[simp] theorem State.setColHigh_dct : (s.setColHigh x).dct = s.dct := rfl
@[simp] theorem State.setColHigh_tracks : (s.setColHigh x).tracks = s.tracks := rfl
@[simp] theorem State.setColHigh_ctl : (s.setColHigh x).ctl = s.ctl := rfl
@[simp] theorem State.setColHigh_container : (s.setColHigh x).container = s.container := rfl
@[simp] theorem State.setColHigh_pcmOut : (s.setColHigh x).pcmOut = s.pcmOut := rfl
@[simp] theorem State.setColHigh_hostMoves : (s.setColHigh x).hostMoves = s.hostMoves := rfl
@[simp] theorem State.setColHigh_readData : (s.setColHigh x).readData = s.readData := rfl
end

/-! ## setColLast -/

section
variable (s : State) (x : BitVec 4)
@[simp] theorem State.setColLast_inst : (s.setColLast x).inst = s.inst := rfl
@[simp] theorem State.setColLast_params : (s.setColLast x).params = s.params := rfl
@[simp] theorem State.setColLast_bitBase : (s.setColLast x).bitBase = s.bitBase := rfl
@[simp] theorem State.setColLast_bitSize : (s.setColLast x).bitSize = s.bitSize := rfl
@[simp] theorem State.setColLast_bitPos : (s.setColLast x).bitPos = s.bitPos := rfl
@[simp] theorem State.setColLast_regs : (s.setColLast x).regs = s.regs := rfl
@[simp] theorem State.setColLast_br : (s.setColLast x).br = s.br := rfl
@[simp] theorem State.setColLast_bundles : (s.setColLast x).bundles = s.bundles := rfl
@[simp] theorem State.setColLast_colHigh : (s.setColLast x).colHigh = s.colHigh := rfl
@[simp] theorem State.setColLast_colLast : (s.setColLast x).colLast = x := rfl
@[simp] theorem State.setColLast_session : (s.setColLast x).session = s.session := rfl
@[simp] theorem State.setColLast_planes : (s.setColLast x).planes = s.planes := rfl
@[simp] theorem State.setColLast_coef : (s.setColLast x).coef = s.coef := rfl
@[simp] theorem State.setColLast_dct : (s.setColLast x).dct = s.dct := rfl
@[simp] theorem State.setColLast_tracks : (s.setColLast x).tracks = s.tracks := rfl
@[simp] theorem State.setColLast_ctl : (s.setColLast x).ctl = s.ctl := rfl
@[simp] theorem State.setColLast_container : (s.setColLast x).container = s.container := rfl
@[simp] theorem State.setColLast_pcmOut : (s.setColLast x).pcmOut = s.pcmOut := rfl
@[simp] theorem State.setColLast_hostMoves : (s.setColLast x).hostMoves = s.hostMoves := rfl
@[simp] theorem State.setColLast_readData : (s.setColLast x).readData = s.readData := rfl
end

/-! ## setSession -/

section
variable (s : State) (x : Session)
@[simp] theorem State.setSession_inst : (s.setSession x).inst = s.inst := rfl
@[simp] theorem State.setSession_params : (s.setSession x).params = s.params := rfl
@[simp] theorem State.setSession_bitBase : (s.setSession x).bitBase = s.bitBase := rfl
@[simp] theorem State.setSession_bitSize : (s.setSession x).bitSize = s.bitSize := rfl
@[simp] theorem State.setSession_bitPos : (s.setSession x).bitPos = s.bitPos := rfl
@[simp] theorem State.setSession_regs : (s.setSession x).regs = s.regs := rfl
@[simp] theorem State.setSession_br : (s.setSession x).br = s.br := rfl
@[simp] theorem State.setSession_bundles : (s.setSession x).bundles = s.bundles := rfl
@[simp] theorem State.setSession_colHigh : (s.setSession x).colHigh = s.colHigh := rfl
@[simp] theorem State.setSession_colLast : (s.setSession x).colLast = s.colLast := rfl
@[simp] theorem State.setSession_session : (s.setSession x).session = x := rfl
@[simp] theorem State.setSession_planes : (s.setSession x).planes = s.planes := rfl
@[simp] theorem State.setSession_coef : (s.setSession x).coef = s.coef := rfl
@[simp] theorem State.setSession_dct : (s.setSession x).dct = s.dct := rfl
@[simp] theorem State.setSession_tracks : (s.setSession x).tracks = s.tracks := rfl
@[simp] theorem State.setSession_ctl : (s.setSession x).ctl = s.ctl := rfl
@[simp] theorem State.setSession_container : (s.setSession x).container = s.container := rfl
@[simp] theorem State.setSession_pcmOut : (s.setSession x).pcmOut = s.pcmOut := rfl
@[simp] theorem State.setSession_hostMoves : (s.setSession x).hostMoves = s.hostMoves := rfl
@[simp] theorem State.setSession_readData : (s.setSession x).readData = s.readData := rfl
end

/-! ## setPlanes -/

section
variable (s : State) (x : Planes)
@[simp] theorem State.setPlanes_inst : (s.setPlanes x).inst = s.inst := rfl
@[simp] theorem State.setPlanes_params : (s.setPlanes x).params = s.params := rfl
@[simp] theorem State.setPlanes_bitBase : (s.setPlanes x).bitBase = s.bitBase := rfl
@[simp] theorem State.setPlanes_bitSize : (s.setPlanes x).bitSize = s.bitSize := rfl
@[simp] theorem State.setPlanes_bitPos : (s.setPlanes x).bitPos = s.bitPos := rfl
@[simp] theorem State.setPlanes_regs : (s.setPlanes x).regs = s.regs := rfl
@[simp] theorem State.setPlanes_br : (s.setPlanes x).br = s.br := rfl
@[simp] theorem State.setPlanes_bundles : (s.setPlanes x).bundles = s.bundles := rfl
@[simp] theorem State.setPlanes_colHigh : (s.setPlanes x).colHigh = s.colHigh := rfl
@[simp] theorem State.setPlanes_colLast : (s.setPlanes x).colLast = s.colLast := rfl
@[simp] theorem State.setPlanes_session : (s.setPlanes x).session = s.session := rfl
@[simp] theorem State.setPlanes_planes : (s.setPlanes x).planes = x := rfl
@[simp] theorem State.setPlanes_coef : (s.setPlanes x).coef = s.coef := rfl
@[simp] theorem State.setPlanes_dct : (s.setPlanes x).dct = s.dct := rfl
@[simp] theorem State.setPlanes_tracks : (s.setPlanes x).tracks = s.tracks := rfl
@[simp] theorem State.setPlanes_ctl : (s.setPlanes x).ctl = s.ctl := rfl
@[simp] theorem State.setPlanes_container : (s.setPlanes x).container = s.container := rfl
@[simp] theorem State.setPlanes_pcmOut : (s.setPlanes x).pcmOut = s.pcmOut := rfl
@[simp] theorem State.setPlanes_hostMoves : (s.setPlanes x).hostMoves = s.hostMoves := rfl
@[simp] theorem State.setPlanes_readData : (s.setPlanes x).readData = s.readData := rfl
end

/-! ## setCoef -/

section
variable (s : State) (x : CoefScratch)
@[simp] theorem State.setCoef_inst : (s.setCoef x).inst = s.inst := rfl
@[simp] theorem State.setCoef_params : (s.setCoef x).params = s.params := rfl
@[simp] theorem State.setCoef_bitBase : (s.setCoef x).bitBase = s.bitBase := rfl
@[simp] theorem State.setCoef_bitSize : (s.setCoef x).bitSize = s.bitSize := rfl
@[simp] theorem State.setCoef_bitPos : (s.setCoef x).bitPos = s.bitPos := rfl
@[simp] theorem State.setCoef_regs : (s.setCoef x).regs = s.regs := rfl
@[simp] theorem State.setCoef_br : (s.setCoef x).br = s.br := rfl
@[simp] theorem State.setCoef_bundles : (s.setCoef x).bundles = s.bundles := rfl
@[simp] theorem State.setCoef_colHigh : (s.setCoef x).colHigh = s.colHigh := rfl
@[simp] theorem State.setCoef_colLast : (s.setCoef x).colLast = s.colLast := rfl
@[simp] theorem State.setCoef_session : (s.setCoef x).session = s.session := rfl
@[simp] theorem State.setCoef_planes : (s.setCoef x).planes = s.planes := rfl
@[simp] theorem State.setCoef_coef : (s.setCoef x).coef = x := rfl
@[simp] theorem State.setCoef_dct : (s.setCoef x).dct = s.dct := rfl
@[simp] theorem State.setCoef_tracks : (s.setCoef x).tracks = s.tracks := rfl
@[simp] theorem State.setCoef_ctl : (s.setCoef x).ctl = s.ctl := rfl
@[simp] theorem State.setCoef_container : (s.setCoef x).container = s.container := rfl
@[simp] theorem State.setCoef_pcmOut : (s.setCoef x).pcmOut = s.pcmOut := rfl
@[simp] theorem State.setCoef_hostMoves : (s.setCoef x).hostMoves = s.hostMoves := rfl
@[simp] theorem State.setCoef_readData : (s.setCoef x).readData = s.readData := rfl
end

/-! ## setDct -/

section
variable (s : State) (x : DctScratch)
@[simp] theorem State.setDct_inst : (s.setDct x).inst = s.inst := rfl
@[simp] theorem State.setDct_params : (s.setDct x).params = s.params := rfl
@[simp] theorem State.setDct_bitBase : (s.setDct x).bitBase = s.bitBase := rfl
@[simp] theorem State.setDct_bitSize : (s.setDct x).bitSize = s.bitSize := rfl
@[simp] theorem State.setDct_bitPos : (s.setDct x).bitPos = s.bitPos := rfl
@[simp] theorem State.setDct_regs : (s.setDct x).regs = s.regs := rfl
@[simp] theorem State.setDct_br : (s.setDct x).br = s.br := rfl
@[simp] theorem State.setDct_bundles : (s.setDct x).bundles = s.bundles := rfl
@[simp] theorem State.setDct_colHigh : (s.setDct x).colHigh = s.colHigh := rfl
@[simp] theorem State.setDct_colLast : (s.setDct x).colLast = s.colLast := rfl
@[simp] theorem State.setDct_session : (s.setDct x).session = s.session := rfl
@[simp] theorem State.setDct_planes : (s.setDct x).planes = s.planes := rfl
@[simp] theorem State.setDct_coef : (s.setDct x).coef = s.coef := rfl
@[simp] theorem State.setDct_dct : (s.setDct x).dct = x := rfl
@[simp] theorem State.setDct_tracks : (s.setDct x).tracks = s.tracks := rfl
@[simp] theorem State.setDct_ctl : (s.setDct x).ctl = s.ctl := rfl
@[simp] theorem State.setDct_container : (s.setDct x).container = s.container := rfl
@[simp] theorem State.setDct_pcmOut : (s.setDct x).pcmOut = s.pcmOut := rfl
@[simp] theorem State.setDct_hostMoves : (s.setDct x).hostMoves = s.hostMoves := rfl
@[simp] theorem State.setDct_readData : (s.setDct x).readData = s.readData := rfl
end

/-! ## setTracks -/

section
variable (s : State) (x : List Track)
@[simp] theorem State.setTracks_inst : (s.setTracks x).inst = s.inst := rfl
@[simp] theorem State.setTracks_params : (s.setTracks x).params = s.params := rfl
@[simp] theorem State.setTracks_bitBase : (s.setTracks x).bitBase = s.bitBase := rfl
@[simp] theorem State.setTracks_bitSize : (s.setTracks x).bitSize = s.bitSize := rfl
@[simp] theorem State.setTracks_bitPos : (s.setTracks x).bitPos = s.bitPos := rfl
@[simp] theorem State.setTracks_regs : (s.setTracks x).regs = s.regs := rfl
@[simp] theorem State.setTracks_br : (s.setTracks x).br = s.br := rfl
@[simp] theorem State.setTracks_bundles : (s.setTracks x).bundles = s.bundles := rfl
@[simp] theorem State.setTracks_colHigh : (s.setTracks x).colHigh = s.colHigh := rfl
@[simp] theorem State.setTracks_colLast : (s.setTracks x).colLast = s.colLast := rfl
@[simp] theorem State.setTracks_session : (s.setTracks x).session = s.session := rfl
@[simp] theorem State.setTracks_planes : (s.setTracks x).planes = s.planes := rfl
@[simp] theorem State.setTracks_coef : (s.setTracks x).coef = s.coef := rfl
@[simp] theorem State.setTracks_dct : (s.setTracks x).dct = s.dct := rfl
@[simp] theorem State.setTracks_tracks : (s.setTracks x).tracks = x := rfl
@[simp] theorem State.setTracks_ctl : (s.setTracks x).ctl = s.ctl := rfl
@[simp] theorem State.setTracks_container : (s.setTracks x).container = s.container := rfl
@[simp] theorem State.setTracks_pcmOut : (s.setTracks x).pcmOut = s.pcmOut := rfl
@[simp] theorem State.setTracks_hostMoves : (s.setTracks x).hostMoves = s.hostMoves := rfl
@[simp] theorem State.setTracks_readData : (s.setTracks x).readData = s.readData := rfl
end

/-! ## setCtl -/

section
variable (s : State) (x : Ctl)
@[simp] theorem State.setCtl_inst : (s.setCtl x).inst = s.inst := rfl
@[simp] theorem State.setCtl_params : (s.setCtl x).params = s.params := rfl
@[simp] theorem State.setCtl_bitBase : (s.setCtl x).bitBase = s.bitBase := rfl
@[simp] theorem State.setCtl_bitSize : (s.setCtl x).bitSize = s.bitSize := rfl
@[simp] theorem State.setCtl_bitPos : (s.setCtl x).bitPos = s.bitPos := rfl
@[simp] theorem State.setCtl_regs : (s.setCtl x).regs = s.regs := rfl
@[simp] theorem State.setCtl_br : (s.setCtl x).br = s.br := rfl
@[simp] theorem State.setCtl_bundles : (s.setCtl x).bundles = s.bundles := rfl
@[simp] theorem State.setCtl_colHigh : (s.setCtl x).colHigh = s.colHigh := rfl
@[simp] theorem State.setCtl_colLast : (s.setCtl x).colLast = s.colLast := rfl
@[simp] theorem State.setCtl_session : (s.setCtl x).session = s.session := rfl
@[simp] theorem State.setCtl_planes : (s.setCtl x).planes = s.planes := rfl
@[simp] theorem State.setCtl_coef : (s.setCtl x).coef = s.coef := rfl
@[simp] theorem State.setCtl_dct : (s.setCtl x).dct = s.dct := rfl
@[simp] theorem State.setCtl_tracks : (s.setCtl x).tracks = s.tracks := rfl
@[simp] theorem State.setCtl_ctl : (s.setCtl x).ctl = x := rfl
@[simp] theorem State.setCtl_container : (s.setCtl x).container = s.container := rfl
@[simp] theorem State.setCtl_pcmOut : (s.setCtl x).pcmOut = s.pcmOut := rfl
@[simp] theorem State.setCtl_hostMoves : (s.setCtl x).hostMoves = s.hostMoves := rfl
@[simp] theorem State.setCtl_readData : (s.setCtl x).readData = s.readData := rfl
end

/-! ## setContainer -/

section
variable (s : State) (x : List Host.Cell)
@[simp] theorem State.setContainer_inst : (s.setContainer x).inst = s.inst := rfl
@[simp] theorem State.setContainer_params : (s.setContainer x).params = s.params := rfl
@[simp] theorem State.setContainer_bitBase : (s.setContainer x).bitBase = s.bitBase := rfl
@[simp] theorem State.setContainer_bitSize : (s.setContainer x).bitSize = s.bitSize := rfl
@[simp] theorem State.setContainer_bitPos : (s.setContainer x).bitPos = s.bitPos := rfl
@[simp] theorem State.setContainer_regs : (s.setContainer x).regs = s.regs := rfl
@[simp] theorem State.setContainer_br : (s.setContainer x).br = s.br := rfl
@[simp] theorem State.setContainer_bundles : (s.setContainer x).bundles = s.bundles := rfl
@[simp] theorem State.setContainer_colHigh : (s.setContainer x).colHigh = s.colHigh := rfl
@[simp] theorem State.setContainer_colLast : (s.setContainer x).colLast = s.colLast := rfl
@[simp] theorem State.setContainer_session : (s.setContainer x).session = s.session := rfl
@[simp] theorem State.setContainer_planes : (s.setContainer x).planes = s.planes := rfl
@[simp] theorem State.setContainer_coef : (s.setContainer x).coef = s.coef := rfl
@[simp] theorem State.setContainer_dct : (s.setContainer x).dct = s.dct := rfl
@[simp] theorem State.setContainer_tracks : (s.setContainer x).tracks = s.tracks := rfl
@[simp] theorem State.setContainer_ctl : (s.setContainer x).ctl = s.ctl := rfl
@[simp] theorem State.setContainer_container : (s.setContainer x).container = x := rfl
@[simp] theorem State.setContainer_pcmOut : (s.setContainer x).pcmOut = s.pcmOut := rfl
@[simp] theorem State.setContainer_hostMoves : (s.setContainer x).hostMoves = s.hostMoves := rfl
@[simp] theorem State.setContainer_readData : (s.setContainer x).readData = s.readData := rfl
end

/-! ## setPcmOut -/

section
variable (s : State) (x : Cells Byte)
@[simp] theorem State.setPcmOut_inst : (s.setPcmOut x).inst = s.inst := rfl
@[simp] theorem State.setPcmOut_params : (s.setPcmOut x).params = s.params := rfl
@[simp] theorem State.setPcmOut_bitBase : (s.setPcmOut x).bitBase = s.bitBase := rfl
@[simp] theorem State.setPcmOut_bitSize : (s.setPcmOut x).bitSize = s.bitSize := rfl
@[simp] theorem State.setPcmOut_bitPos : (s.setPcmOut x).bitPos = s.bitPos := rfl
@[simp] theorem State.setPcmOut_regs : (s.setPcmOut x).regs = s.regs := rfl
@[simp] theorem State.setPcmOut_br : (s.setPcmOut x).br = s.br := rfl
@[simp] theorem State.setPcmOut_bundles : (s.setPcmOut x).bundles = s.bundles := rfl
@[simp] theorem State.setPcmOut_colHigh : (s.setPcmOut x).colHigh = s.colHigh := rfl
@[simp] theorem State.setPcmOut_colLast : (s.setPcmOut x).colLast = s.colLast := rfl
@[simp] theorem State.setPcmOut_session : (s.setPcmOut x).session = s.session := rfl
@[simp] theorem State.setPcmOut_planes : (s.setPcmOut x).planes = s.planes := rfl
@[simp] theorem State.setPcmOut_coef : (s.setPcmOut x).coef = s.coef := rfl
@[simp] theorem State.setPcmOut_dct : (s.setPcmOut x).dct = s.dct := rfl
@[simp] theorem State.setPcmOut_tracks : (s.setPcmOut x).tracks = s.tracks := rfl
@[simp] theorem State.setPcmOut_ctl : (s.setPcmOut x).ctl = s.ctl := rfl
@[simp] theorem State.setPcmOut_container : (s.setPcmOut x).container = s.container := rfl
@[simp] theorem State.setPcmOut_pcmOut : (s.setPcmOut x).pcmOut = x := rfl
@[simp] theorem State.setPcmOut_hostMoves : (s.setPcmOut x).hostMoves = s.hostMoves := rfl
@[simp] theorem State.setPcmOut_readData : (s.setPcmOut x).readData = s.readData := rfl
end

/-! ## setHostMoves -/

section
variable (s : State) (x : List HostMove)
@[simp] theorem State.setHostMoves_inst : (s.setHostMoves x).inst = s.inst := rfl
@[simp] theorem State.setHostMoves_params : (s.setHostMoves x).params = s.params := rfl
@[simp] theorem State.setHostMoves_bitBase : (s.setHostMoves x).bitBase = s.bitBase := rfl
@[simp] theorem State.setHostMoves_bitSize : (s.setHostMoves x).bitSize = s.bitSize := rfl
@[simp] theorem State.setHostMoves_bitPos : (s.setHostMoves x).bitPos = s.bitPos := rfl
@[simp] theorem State.setHostMoves_regs : (s.setHostMoves x).regs = s.regs := rfl
@[simp] theorem State.setHostMoves_br : (s.setHostMoves x).br = s.br := rfl
@[simp] theorem State.setHostMoves_bundles : (s.setHostMoves x).bundles = s.bundles := rfl
@[simp] theorem State.setHostMoves_colHigh : (s.setHostMoves x).colHigh = s.colHigh := rfl
@[simp] theorem State.setHostMoves_colLast : (s.setHostMoves x).colLast = s.colLast := rfl
@[simp] theorem State.setHostMoves_session : (s.setHostMoves x).session = s.session := rfl
@[simp] theorem State.setHostMoves_planes : (s.setHostMoves x).planes = s.planes := rfl
@[simp] theorem State.setHostMoves_coef : (s.setHostMoves x).coef = s.coef := rfl
@[simp] theorem State.setHostMoves_dct : (s.setHostMoves x).dct = s.dct := rfl
@[simp] theorem State.setHostMoves_tracks : (s.setHostMoves x).tracks = s.tracks := rfl
@[simp] theorem State.setHostMoves_ctl : (s.setHostMoves x).ctl = s.ctl := rfl
@[simp] theorem State.setHostMoves_container : (s.setHostMoves x).container = s.container := rfl
@[simp] theorem State.setHostMoves_pcmOut : (s.setHostMoves x).pcmOut = s.pcmOut := rfl
@[simp] theorem State.setHostMoves_hostMoves : (s.setHostMoves x).hostMoves = x := rfl
@[simp] theorem State.setHostMoves_readData : (s.setHostMoves x).readData = s.readData := rfl
end

/-! ## setReadData -/

section
variable (s : State) (x : Option Word)
@[simp] theorem State.setReadData_inst : (s.setReadData x).inst = s.inst := rfl
@[simp] theorem State.setReadData_params : (s.setReadData x).params = s.params := rfl
@[simp] theorem State.setReadData_bitBase : (s.setReadData x).bitBase = s.bitBase := rfl
@[simp] theorem State.setReadData_bitSize : (s.setReadData x).bitSize = s.bitSize := rfl
@[simp] theorem State.setReadData_bitPos : (s.setReadData x).bitPos = s.bitPos := rfl
@[simp] theorem State.setReadData_regs : (s.setReadData x).regs = s.regs := rfl
@[simp] theorem State.setReadData_br : (s.setReadData x).br = s.br := rfl
@[simp] theorem State.setReadData_bundles : (s.setReadData x).bundles = s.bundles := rfl
@[simp] theorem State.setReadData_colHigh : (s.setReadData x).colHigh = s.colHigh := rfl
@[simp] theorem State.setReadData_colLast : (s.setReadData x).colLast = s.colLast := rfl
@[simp] theorem State.setReadData_session : (s.setReadData x).session = s.session := rfl
@[simp] theorem State.setReadData_planes : (s.setReadData x).planes = s.planes := rfl
@[simp] theorem State.setReadData_coef : (s.setReadData x).coef = s.coef := rfl
@[simp] theorem State.setReadData_dct : (s.setReadData x).dct = s.dct := rfl
@[simp] theorem State.setReadData_tracks : (s.setReadData x).tracks = s.tracks := rfl
@[simp] theorem State.setReadData_ctl : (s.setReadData x).ctl = s.ctl := rfl
@[simp] theorem State.setReadData_container : (s.setReadData x).container = s.container := rfl
@[simp] theorem State.setReadData_pcmOut : (s.setReadData x).pcmOut = s.pcmOut := rfl
@[simp] theorem State.setReadData_hostMoves : (s.setReadData x).hostMoves = s.hostMoves := rfl
@[simp] theorem State.setReadData_readData : (s.setReadData x).readData = x := rfl
end

/-! ## setPhase -/

section
variable (s : State) (x : Phase)
@[simp] theorem State.setPhase_inst : (s.setPhase x).inst = s.inst := rfl
@[simp] theorem State.setPhase_params : (s.setPhase x).params = s.params := rfl
@[simp] theorem State.setPhase_bitBase : (s.setPhase x).bitBase = s.bitBase := rfl
@[simp] theorem State.setPhase_bitSize : (s.setPhase x).bitSize = s.bitSize := rfl
@[simp] theorem State.setPhase_bitPos : (s.setPhase x).bitPos = s.bitPos := rfl
@[simp] theorem State.setPhase_regs : (s.setPhase x).regs = s.regs := rfl
@[simp] theorem State.setPhase_br : (s.setPhase x).br = s.br := rfl
@[simp] theorem State.setPhase_bundles : (s.setPhase x).bundles = s.bundles := rfl
@[simp] theorem State.setPhase_colHigh : (s.setPhase x).colHigh = s.colHigh := rfl
@[simp] theorem State.setPhase_colLast : (s.setPhase x).colLast = s.colLast := rfl
@[simp] theorem State.setPhase_session : (s.setPhase x).session = s.session := rfl
@[simp] theorem State.setPhase_planes : (s.setPhase x).planes = s.planes := rfl
@[simp] theorem State.setPhase_coef : (s.setPhase x).coef = s.coef := rfl
@[simp] theorem State.setPhase_dct : (s.setPhase x).dct = s.dct := rfl
@[simp] theorem State.setPhase_tracks : (s.setPhase x).tracks = s.tracks := rfl
@[simp] theorem State.setPhase_ctl : (s.setPhase x).ctl = { s.ctl with phase := x } := rfl
@[simp] theorem State.setPhase_container : (s.setPhase x).container = s.container := rfl
@[simp] theorem State.setPhase_pcmOut : (s.setPhase x).pcmOut = s.pcmOut := rfl
@[simp] theorem State.setPhase_hostMoves : (s.setPhase x).hostMoves = s.hostMoves := rfl
@[simp] theorem State.setPhase_readData : (s.setPhase x).readData = s.readData := rfl
end

/-! ## setPos -/

section
variable (s : State) (x : Nat)
@[simp] theorem State.setPos_inst : (s.setPos x).inst = s.inst := rfl
@[simp] theorem State.setPos_params : (s.setPos x).params = s.params := rfl
@[simp] theorem State.setPos_bitBase : (s.setPos x).bitBase = s.bitBase := rfl
@[simp] theorem State.setPos_bitSize : (s.setPos x).bitSize = s.bitSize := rfl
@[simp] theorem State.setPos_regs : (s.setPos x).regs = s.regs := rfl
@[simp] theorem State.setPos_br : (s.setPos x).br = { s.br with pos := BitVec.ofNat 32 x } := rfl
@[simp] theorem State.setPos_bundles : (s.setPos x).bundles = s.bundles := rfl
@[simp] theorem State.setPos_colHigh : (s.setPos x).colHigh = s.colHigh := rfl
@[simp] theorem State.setPos_colLast : (s.setPos x).colLast = s.colLast := rfl
@[simp] theorem State.setPos_session : (s.setPos x).session = s.session := rfl
@[simp] theorem State.setPos_planes : (s.setPos x).planes = s.planes := rfl
@[simp] theorem State.setPos_coef : (s.setPos x).coef = s.coef := rfl
@[simp] theorem State.setPos_dct : (s.setPos x).dct = s.dct := rfl
@[simp] theorem State.setPos_tracks : (s.setPos x).tracks = s.tracks := rfl
@[simp] theorem State.setPos_ctl : (s.setPos x).ctl = s.ctl := rfl
@[simp] theorem State.setPos_container : (s.setPos x).container = s.container := rfl
@[simp] theorem State.setPos_pcmOut : (s.setPos x).pcmOut = s.pcmOut := rfl
@[simp] theorem State.setPos_hostMoves : (s.setPos x).hostMoves = s.hostMoves := rfl
@[simp] theorem State.setPos_readData : (s.setPos x).readData = s.readData := rfl
end

/-! ## setBundle -/

section
variable (s : State) (b : BundleId) (x : Bundle)
@[simp] theorem State.setBundle_inst : (s.setBundle b x).inst = s.inst := rfl
@[simp] theorem State.setBundle_params : (s.setBundle b x).params = s.params := rfl
@[simp] theorem State.setBundle_bitBase : (s.setBundle b x).bitBase = s.bitBase := rfl
@[simp] theorem State.setBundle_bitSize : (s.setBundle b x).bitSize = s.bitSize := rfl
@[simp] theorem State.setBundle_bitPos : (s.setBundle b x).bitPos = s.bitPos := rfl
@[simp] theorem State.setBundle_regs : (s.setBundle b x).regs = s.regs := rfl
@[simp] theorem State.setBundle_br : (s.setBundle b x).br = s.br := rfl
@[simp] theorem State.setBundle_bundles : (s.setBundle b x).bundles = s.bundles.set b x := rfl
@[simp] theorem State.setBundle_colHigh : (s.setBundle b x).colHigh = s.colHigh := rfl
@[simp] theorem State.setBundle_colLast : (s.setBundle b x).colLast = s.colLast := rfl
@[simp] theorem State.setBundle_session : (s.setBundle b x).session = s.session := rfl
@[simp] theorem State.setBundle_planes : (s.setBundle b x).planes = s.planes := rfl
@[simp] theorem State.setBundle_coef : (s.setBundle b x).coef = s.coef := rfl
@[simp] theorem State.setBundle_dct : (s.setBundle b x).dct = s.dct := rfl
@[simp] theorem State.setBundle_tracks : (s.setBundle b x).tracks = s.tracks := rfl
@[simp] theorem State.setBundle_ctl : (s.setBundle b x).ctl = s.ctl := rfl
@[simp] theorem State.setBundle_container : (s.setBundle b x).container = s.container := rfl
@[simp] theorem State.setBundle_pcmOut : (s.setBundle b x).pcmOut = s.pcmOut := rfl
@[simp] theorem State.setBundle_hostMoves : (s.setBundle b x).hostMoves = s.hostMoves := rfl
@[simp] theorem State.setBundle_readData : (s.setBundle b x).readData = s.readData := rfl
end

/-! ## setPlane -/

section
variable (s : State) (p : PlaneId) (x : Plane)
@[simp] theorem State.setPlane_inst : (s.setPlane p x).inst = s.inst := rfl
@[simp] theorem State.setPlane_params : (s.setPlane p x).params = s.params := rfl
@[simp] theorem State.setPlane_bitBase : (s.setPlane p x).bitBase = s.bitBase := rfl
@[simp] theorem State.setPlane_bitSize : (s.setPlane p x).bitSize = s.bitSize := rfl
@[simp] theorem State.setPlane_bitPos : (s.setPlane p x).bitPos = s.bitPos := rfl
@[simp] theorem State.setPlane_regs : (s.setPlane p x).regs = s.regs := rfl
@[simp] theorem State.setPlane_br : (s.setPlane p x).br = s.br := rfl
@[simp] theorem State.setPlane_bundles : (s.setPlane p x).bundles = s.bundles := rfl
@[simp] theorem State.setPlane_colHigh : (s.setPlane p x).colHigh = s.colHigh := rfl
@[simp] theorem State.setPlane_colLast : (s.setPlane p x).colLast = s.colLast := rfl
@[simp] theorem State.setPlane_session : (s.setPlane p x).session = s.session := rfl
@[simp] theorem State.setPlane_planes : (s.setPlane p x).planes = s.planes.set p x := rfl
@[simp] theorem State.setPlane_coef : (s.setPlane p x).coef = s.coef := rfl
@[simp] theorem State.setPlane_dct : (s.setPlane p x).dct = s.dct := rfl
@[simp] theorem State.setPlane_tracks : (s.setPlane p x).tracks = s.tracks := rfl
@[simp] theorem State.setPlane_ctl : (s.setPlane p x).ctl = s.ctl := rfl
@[simp] theorem State.setPlane_container : (s.setPlane p x).container = s.container := rfl
@[simp] theorem State.setPlane_pcmOut : (s.setPlane p x).pcmOut = s.pcmOut := rfl
@[simp] theorem State.setPlane_hostMoves : (s.setPlane p x).hostMoves = s.hostMoves := rfl
@[simp] theorem State.setPlane_readData : (s.setPlane p x).readData = s.readData := rfl
end

/-! ## setTrack -/

section
variable (s : State) (t : Nat) (x : Track)
@[simp] theorem State.setTrack_inst : (s.setTrack t x).inst = s.inst := rfl
@[simp] theorem State.setTrack_params : (s.setTrack t x).params = s.params := rfl
@[simp] theorem State.setTrack_bitBase : (s.setTrack t x).bitBase = s.bitBase := rfl
@[simp] theorem State.setTrack_bitSize : (s.setTrack t x).bitSize = s.bitSize := rfl
@[simp] theorem State.setTrack_bitPos : (s.setTrack t x).bitPos = s.bitPos := rfl
@[simp] theorem State.setTrack_regs : (s.setTrack t x).regs = s.regs := rfl
@[simp] theorem State.setTrack_br : (s.setTrack t x).br = s.br := rfl
@[simp] theorem State.setTrack_bundles : (s.setTrack t x).bundles = s.bundles := rfl
@[simp] theorem State.setTrack_colHigh : (s.setTrack t x).colHigh = s.colHigh := rfl
@[simp] theorem State.setTrack_colLast : (s.setTrack t x).colLast = s.colLast := rfl
@[simp] theorem State.setTrack_session : (s.setTrack t x).session = s.session := rfl
@[simp] theorem State.setTrack_planes : (s.setTrack t x).planes = s.planes := rfl
@[simp] theorem State.setTrack_coef : (s.setTrack t x).coef = s.coef := rfl
@[simp] theorem State.setTrack_dct : (s.setTrack t x).dct = s.dct := rfl
@[simp] theorem State.setTrack_tracks : (s.setTrack t x).tracks = s.tracks.set t x := rfl
@[simp] theorem State.setTrack_ctl : (s.setTrack t x).ctl = s.ctl := rfl
@[simp] theorem State.setTrack_container : (s.setTrack t x).container = s.container := rfl
@[simp] theorem State.setTrack_pcmOut : (s.setTrack t x).pcmOut = s.pcmOut := rfl
@[simp] theorem State.setTrack_hostMoves : (s.setTrack t x).hostMoves = s.hostMoves := rfl
@[simp] theorem State.setTrack_readData : (s.setTrack t x).readData = s.readData := rfl
end

/-! ## The position after a move -/

theorem State.bitPos_setPos (s : State) (x : Nat) : (s.setPos x).bitPos = x % 2 ^ 32 := BitVec.toNat_ofNat x 32

/-- A position inside the packet fits the u32 of R65. -/
theorem State.bitPos_setPos_of_le (s : State) {x : Nat} (h : x ≤ s.bitSize) : (s.setPos x).bitPos = x :=
  (s.bitPos_setPos x).trans (Nat.mod_eq_of_lt (Nat.lt_of_le_of_lt h s.br.sizeBits.isLt))

@[simp] theorem State.setPos_setPos (s : State) (x y : Nat) : (s.setPos x).setPos y = s.setPos y := rfl

@[simp] theorem State.setPos_bitPos (s : State) : s.setPos s.bitPos = s := by
  have h : BitVec.ofNat 32 s.bitPos = s.br.pos := BitVec.ofNat_toNat 32 s.br.pos
  rw [State.setPos, h]
  rfl

/-! ## Bundles and planes by name -/

@[simp] theorem Bundles.get_set_same (bs : Bundles) (b : BundleId) (x : Bundle) : (bs.set b x).get b = x := by
  cases b <;> rfl

theorem Bundles.get_set_other (bs : Bundles) {b b' : BundleId} (x : Bundle) (h : b' ≠ b) :
    (bs.set b x).get b' = bs.get b' := by
  cases b <;> cases b' <;> first | rfl | exact absurd rfl h

@[simp] theorem Planes.get_set_same (ps : Planes) (p : PlaneId) (x : Plane) : (ps.set p x).get p = some x := by
  cases p <;> rfl

theorem Planes.get_set_other (ps : Planes) {p p' : PlaneId} (x : Plane) (h : p' ≠ p) :
    (ps.set p x).get p' = ps.get p' := by
  cases p <;> cases p' <;> first | rfl | exact absurd rfl h

@[simp] theorem Planes.get_map (ps : Planes) (f : PlaneId → Plane → Plane) (p : PlaneId) :
    (ps.map f).get p = (ps.get p).map (f p) := by
  cases p <;> rfl

@[simp] theorem State.bundle_setBundle_same (s : State) (b : BundleId) (x : Bundle) :
    (s.setBundle b x).bundle b = x := Bundles.get_set_same s.bundles b x

theorem State.bundle_setBundle_other (s : State) {b b' : BundleId} (x : Bundle) (h : b' ≠ b) :
    (s.setBundle b x).bundle b' = s.bundle b' := Bundles.get_set_other s.bundles x h

@[simp] theorem State.plane_setPlane_same (s : State) (p : PlaneId) (x : Plane) :
    (s.setPlane p x).plane p = some x := Planes.get_set_same s.planes p x

theorem State.plane_setPlane_other (s : State) {p p' : PlaneId} (x : Plane) (h : p' ≠ p) :
    (s.setPlane p x).plane p' = s.plane p' := Planes.get_set_other s.planes x h

end Sys2Proof.Machine
end

