-- ==== Sys2Proof/Laws/Ops.lean ====
section
/-! SUPPORT. What each shared operation can do, once: sequencing, the bit reader, the bundle cursors, pixel access, and
taking an error. Later proofs cite these and do not unfold the operations. -/

namespace Sys2Proof.Machine

variable {α β : Type}

/-! ## Sequencing -/

theorem bind_of_ok {m : M α} {f : α → M β} {s s1 : State} {a : α} (h : m s = .ok a s1) : (m >>= f) s = f a s1 := by
  show EStateM.bind m f s = f a s1
  simp only [EStateM.bind, h]

theorem bind_of_error {m : M α} {f : α → M β} {s s1 : State} {e : Stop} (h : m s = .error e s1) :
    (m >>= f) s = .error e s1 := by
  show EStateM.bind m f s = .error e s1
  simp only [EStateM.bind, h]

/-- A sequence that answers went through its first part. -/
theorem bind_ok_inv {m : M α} {f : α → M β} {s s' : State} {b : β} (h : (m >>= f) s = .ok b s') :
    ∃ a s1, m s = .ok a s1 ∧ f a s1 = .ok b s' := by
  change EStateM.bind m f s = .ok b s' at h
  simp only [EStateM.bind] at h
  split at h
  next a s1 hm => exact ⟨a, s1, hm, h⟩
  next => cases h

/-- A sequence that stops, stopped in its first part or after it. -/
theorem bind_error_inv {m : M α} {f : α → M β} {s s' : State} {e : Stop} (h : (m >>= f) s = .error e s') :
    m s = .error e s' ∨ ∃ a s1, m s = .ok a s1 ∧ f a s1 = .error e s' := by
  change EStateM.bind m f s = .error e s' at h
  simp only [EStateM.bind] at h
  split at h
  next a s1 hm => exact Or.inr ⟨a, s1, hm, h⟩
  next hm => cases h; exact Or.inl hm

@[simp] theorem pure_apply (a : α) (s : State) : (pure a : M α) s = .ok a s := rfl
@[simp] theorem get_apply (s : State) : (get : M State) s = .ok s s := rfl
@[simp] theorem set_apply (s t : State) : (set t : M PUnit) s = .ok ⟨⟩ t := rfl
@[simp] theorem modify_apply (f : State → State) (s : State) : (modify f : M PUnit) s = .ok ⟨⟩ (f s) := rfl
@[simp] theorem raise_apply (c : Cause) (s : State) : (raise c : M α) s = .error (.raised c) s := rfl
@[simp] theorem refuse_apply (r : Refusal) (s : State) : (refuse r : M α) s = .error (.refused r) s := rfl

theorem check_of_true {ok : Bool} (c : Cause) (s : State) (h : ok = true) : check ok c s = .ok () s := by
  subst h; rfl

theorem check_of_false {ok : Bool} (c : Cause) (s : State) (h : ok = false) : check ok c s = .error (.raised c) s := by
  subst h; rfl

theorem demand_of_true {ok : Bool} (r : Refusal) (s : State) (h : ok = true) : demand ok r s = .ok () s := by
  subst h; rfl

theorem getOr_some (v : α) (r : Refusal) (s : State) : getOr (some v) r s = .ok v s := rfl

theorem forEach_nil (f : α → M Unit) (s : State) : forEach [] f s = .ok () s := rfl

theorem forEach_cons (x : α) (xs : List α) (f : α → M Unit) : forEach (x :: xs) f = (f x >>= fun _ => forEach xs f) := rfl

/-! ## Running a sequence -/

theorem run_of_ok {m : M Unit} {s t : State} (h : m s = .ok () t) : run m s = .next t := by
  simp [run, outcome, h]

theorem run_of_raised {m : M Unit} {s t : State} {c : Cause} (h : m s = .error (.raised c) t) :
    run m s = .next (takeError c t) := by
  simp [run, outcome, h]

/-- A sequence that leads to a next state completed, or raised an error that was then taken. -/
theorem run_next_inv {m : M Unit} {s t : State} (h : run m s = .next t) :
    m s = .ok () t ∨ ∃ c u, m s = .error (.raised c) u ∧ t = takeError c u := by
  simp only [run, outcome] at h
  split at h
  next u hm => cases h; exact Or.inl hm
  next c u hm => cases h; exact Or.inr ⟨c, u, hm, rfl⟩
  next => cases h
  next => cases h

theorem atPhase_of_eq {x : Phase} {s : State} (h : s.ctl.phase = x) : atPhase x s = .ok () s := by
  rw [atPhase, bind_of_ok (get_apply s)]
  exact demand_of_true _ s (by rw [h]; cases x <;> rfl)

theorem whileIdle_of_idle {s : State} (h : s.ctl.phase = .idle) : whileIdle s = .ok () s := by
  rw [whileIdle, bind_of_ok (get_apply s)]
  exact demand_of_true _ s (by rw [h]; rfl)

/-! ## Taking an error (R690 to R692) -/

theorem takeError_commandError {c : Cause} (s : State) (h : causeKind c = .commandError) :
    takeError c s = s.setRegs (failedRegs c s.regs) := by
  simp only [takeError, h]

theorem takeError_openError {c : Cause} (s : State) (h : causeKind c = .openError) :
    takeError c s = s.coreReset.setRegs (failedRegs c s.coreReset.regs) := by
  simp only [takeError, h]

theorem takeError_decodeError {c : Cause} (s : State) (h : causeKind c = .decodeError) :
    takeError c s = (s.setRegs { failedRegs c s.regs with
      bitpos := if s.ctl.video then s.br.pos else 0 }).setPhase .idle := by
  simp only [takeError, h]

/-- Whatever the error, STATUS.ERR and CAUSE report it and the results read 0 (R655). -/
theorem takeError_result (c : Cause) (s : State) :
    (takeError c s).regs.err = true ∧ (takeError c s).regs.cause = causeCode c ∧ (takeError c s).regs.res0 = 0
      ∧ (takeError c s).regs.res1 = 0 ∧ (takeError c s).regs.res2 = 0 := by
  unfold takeError
  split <;> exact ⟨rfl, rfl, rfl, rfl, rfl⟩

/-- Every state runs on tables that pass R11 and R12. -/
theorem State.accepted (s : State) : s.params.wellFormed = true := s.inst.accepted

theorem instantiate_of_wellFormed {p : Params} (h : p.wellFormed = true) :
    instantiate p = .next { State.reset with inst := { params := p, accepted := h } } := dif_pos h

theorem instantiate_of_illFormed {p : Params} (h : p.wellFormed = false) :
    instantiate p = .refused .illFormedInstantiation := dif_neg (by simp [h])

/-- No error changes the instantiation. -/
theorem takeError_inst (c : Cause) (s : State) : (takeError c s).inst = s.inst := by
  unfold takeError
  split <;> rfl

/-- No error changes the configuration. -/
theorem takeError_params (c : Cause) (s : State) : (takeError c s).params = s.params :=
  congrArg Instantiation.params (takeError_inst c s)

/-- No error changes CONTAINER, PCM_OUT, the host's moves or its last read. -/
theorem takeError_host (c : Cause) (s : State) :
    (takeError c s).container = s.container ∧ (takeError c s).pcmOut = s.pcmOut
      ∧ (takeError c s).hostMoves = s.hostMoves ∧ (takeError c s).readData = s.readData := by
  unfold takeError
  split <;> exact ⟨rfl, rfl, rfl, rfl⟩

/-! ## The bit reader (R302 to R306) -/

theorem getBits_of_fits {n : Nat} {s : State} (h1 : 1 ≤ n) (h2 : n ≤ 32) (h3 : s.bitPos + n ≤ s.bitSize) :
    getBits n s = .ok (Memory.packetBits s.container s.bitBase s.bitPos n) (s.setPos (s.bitPos + n)) := by
  rw [getBits, bind_of_ok (demand_of_true _ s (by simp [h1, h2])), bind_of_ok (get_apply s),
    bind_of_ok (check_of_true _ s (by simp [h3])), bind_of_ok (set_apply s _), pure_apply]

theorem getBits_of_underrun {n : Nat} {s : State} (h1 : 1 ≤ n) (h2 : n ≤ 32) (h3 : s.bitSize < s.bitPos + n) :
    getBits n s = .error (.raised .readerUnderrun) s := by
  rw [getBits, bind_of_ok (demand_of_true _ s (by simp [h1, h2])), bind_of_ok (get_apply s)]
  exact bind_of_error (check_of_false _ s (by simp; omega))

/-- All that a read can do when it answers. -/
theorem getBits_ok_inv {n v : Nat} {s t : State} (h : getBits n s = .ok v t) :
    1 ≤ n ∧ n ≤ 32 ∧ s.bitPos + n ≤ s.bitSize
      ∧ v = Memory.packetBits s.container s.bitBase s.bitPos n ∧ t = s.setPos (s.bitPos + n) := by
  by_cases h1 : 1 ≤ n ∧ n ≤ 32
  · by_cases h3 : s.bitPos + n ≤ s.bitSize
    · rw [getBits_of_fits h1.1 h1.2 h3] at h
      cases h
      exact ⟨h1.1, h1.2, h3, rfl, rfl⟩
    · rw [getBits_of_underrun h1.1 h1.2 (by omega)] at h
      cases h
  · obtain ⟨_, _, hd, _⟩ := bind_ok_inv h
    have hf : (decide (1 ≤ n) && decide (n ≤ 32)) = false := by
      simp only [Bool.and_eq_false_iff, decide_eq_false_iff_not]; omega
    rw [hf] at hd
    cases hd

theorem getBit_of_fits {s : State} (h : s.bitPos < s.bitSize) :
    getBit s = .ok (Memory.packetBits s.container s.bitBase s.bitPos 1) (s.setPos (s.bitPos + 1)) :=
  getBits_of_fits (Nat.le_refl 1) (by omega) h

/-- After a read the position has moved by what was read. -/
theorem bitPos_after_fits {n : Nat} {s : State} (h : s.bitPos + n ≤ s.bitSize) :
    (s.setPos (s.bitPos + n)).bitPos = s.bitPos + n := s.bitPos_setPos_of_le h

theorem skipBits_of_fits {n : Nat} {s : State} (h : s.bitPos + n ≤ s.bitSize) :
    skipBits n s = .ok () (s.setPos (s.bitPos + n)) := by
  rw [skipBits, bind_of_ok (get_apply s), bind_of_ok (check_of_true _ s (by simp [h])), set_apply]

theorem skipBits_of_underrun {n : Nat} {s : State} (h : s.bitSize < s.bitPos + n) :
    skipBits n s = .error (.raised .readerUnderrun) s := by
  rw [skipBits, bind_of_ok (get_apply s)]
  exact bind_of_error (check_of_false _ s (by simp; omega))

theorem alignTo32_apply (s : State) : alignTo32 s = .ok () (s.setPos (alignedPos s.br)) := rfl

/-! ## Bundle cursors (R390, R72) -/

theorem getValue_of_buffered {b : BundleId} {s : State} {v : Int} (h1 : (s.bundle b).rd < (s.bundle b).wr)
    (h2 : Cells.get (s.bundle b).buf (s.bundle b).rd = some v) :
    getValue b s = .ok v (s.setBundle b { s.bundle b with rd := (s.bundle b).rd + 1 }) := by
  rw [getValue, bind_of_ok (get_apply s), bind_of_ok (check_of_true _ s (by simp [h1])), h2,
    bind_of_ok (getOr_some v _ s), bind_of_ok (set_apply s _), pure_apply]

theorem getValue_of_empty {b : BundleId} {s : State} (h : (s.bundle b).wr ≤ (s.bundle b).rd) :
    getValue b s = .error (.raised .bundleUnderrun) s := by
  rw [getValue, bind_of_ok (get_apply s)]
  exact bind_of_error (check_of_false _ s (by simp; omega))

theorem pushValue_apply (b : BundleId) (v : Int) (s : State) :
    pushValue b v s = .ok () (s.setBundle b ((s.bundle b).push v)) := rfl

theorem fillValue_apply (b : BundleId) (v : Int) (n : Nat) (s : State) :
    fillValue b v n s = .ok () (s.setBundle b ((s.bundle b).fill v n)) := rfl

@[simp] theorem Bundle.push_wr (x : Bundle) (v : Int) : (x.push v).wr = x.wr + 1 := rfl
@[simp] theorem Bundle.push_rd (x : Bundle) (v : Int) : (x.push v).rd = x.rd := rfl
@[simp] theorem Bundle.push_cap (x : Bundle) (v : Int) : (x.push v).cap = x.cap := rfl

theorem Bundle.fill_eq (x : Bundle) (v : Int) (n : Nat) :
    x.fill v n = { x with buf := Cells.setFrom x.buf x.wr (List.replicate n v), wr := x.wr + n } := by
  induction n generalizing x with
  | zero => rfl
  | succ n ih =>
    rw [Bundle.fill, ih]
    simp only [Bundle.push, List.replicate_succ, Cells.setFrom, Nat.add_assoc, Nat.add_comm 1 n]

/-! ## Pixels (R158, R403, R404) -/

theorem planeOf_of_present {p : PlaneId} {x : Plane} {s : State} (h : s.plane p = some x) :
    planeOf p s = .ok x s := by
  rw [planeOf, bind_of_ok (get_apply s), h, getOr_some]

theorem planeOf_of_absent {p : PlaneId} {s : State} (h : s.plane p = none) :
    planeOf p s = .error (.refused .absentUnit) s := by
  rw [planeOf, bind_of_ok (get_apply s), h]
  rfl

theorem readLast_of_written {p : PlaneId} {x : Plane} {a : Nat} {v : Byte} {s : State} (h : s.plane p = some x)
    (hr : x.inRange a = true) (hv : Cells.get x.last a = some v) : readLast p a s = .ok v s := by
  rw [readLast, bind_of_ok (planeOf_of_present h), bind_of_ok (demand_of_true _ s hr), hv]
  rfl

theorem readLast_of_unwritten {p : PlaneId} {x : Plane} {a : Nat} {s : State} (h : s.plane p = some x)
    (hr : x.inRange a = true) (hv : Cells.get x.last a = none) :
    readLast p a s = .error (.raised .pixelUnwritten) s := by
  rw [readLast, bind_of_ok (planeOf_of_present h), bind_of_ok (demand_of_true _ s hr), hv]
  rfl

theorem readCur_of_written {p : PlaneId} {x : Plane} {a : Nat} {v : Byte} {s : State} (h : s.plane p = some x)
    (hr : x.inRange a = true) (hv : Cells.get x.cur a = some v) : readCur p a s = .ok v s := by
  rw [readCur, bind_of_ok (planeOf_of_present h), bind_of_ok (demand_of_true _ s hr), hv]
  rfl

theorem writeCur_of_inRange {p : PlaneId} {x : Plane} {a : Nat} (v : Byte) {s : State} (h : s.plane p = some x)
    (hr : x.inRange a = true) :
    writeCur p a v s = .ok () (s.setPlane p { x with cur := Cells.set x.cur a v }) := by
  rw [writeCur, bind_of_ok (planeOf_of_present h), bind_of_ok (demand_of_true _ s hr), modify_apply]

/-- Under `wrap` a result keeps its low byte (R403, P20). -/
theorem storeByte_wrap (v : Int) : storeByte .wrap v = BitVec.ofInt 8 v := by
  unfold storeByte
  split <;> rfl

/-- A result inside 0..255 is stored unchanged under either law (R403). -/
theorem storeByte_inside (law : PixelStore) {v : Int} (h0 : 0 ≤ v) (h1 : v ≤ 255) :
    storeByte law v = BitVec.ofInt 8 v := by
  unfold storeByte
  exact if_pos ⟨h0, h1⟩

theorem store_apply (p : PlaneId) (a : Nat) (v : Int) (s : State) :
    store p a v s = writeCur p a (storeByte s.params.pixelStore v) s := rfl

/-! ## VLC decode (R310, R312) -/

/-- Shape 0 with its code of P3 is `GetBits(4)`. -/
theorem decodeSymbol_zero {s : State} (h : s.params.codes 0 = identityCode) :
    decodeSymbol 0 s = (getBits 4 >>= fun v => pure (BitVec.ofNat 4 v)) s := by
  rw [decodeSymbol, bind_of_ok (get_apply s), if_pos ⟨rfl, h⟩]

/-- Any other code is read bit by bit. -/
theorem decodeSymbol_loop {sh : BitVec 4} {s : State} (h : ¬ (sh = 0 ∧ s.params.codes 0 = identityCode)) :
    decodeSymbol sh s = decodeSymbolFrom (s.params.codes sh) (longestCode (s.params.codes sh)) 1 0 s := by
  rw [decodeSymbol, bind_of_ok (get_apply s), if_neg h]

/-- A code of shape 0 that the packet's end cuts off is an underrun that takes no bit. -/
theorem decodeSymbol_zero_underrun {s : State} (h : s.params.codes 0 = identityCode) (hb : s.bitSize < s.bitPos + 4) :
    decodeSymbol 0 s = .error (.raised .readerUnderrun) s := by
  rw [decodeSymbol_zero h]
  exact bind_of_error (getBits_of_underrun (by decide) (by decide) hb)

end Sys2Proof.Machine
end

