-- ==== Sys2Proof/Laws/Blocks.lean ====
section
/-! SUPPORT. What the operations around an element can do: finding the element in hand, painting a list of pixels, copying a
block, and the geometry that keeps a block's pixels inside its buffer and apart. -/

namespace Sys2Proof.Machine

/-! ## The element in hand -/

theorem currentTree_of_treeAt {s : State} {r : TreeRef} {rest : List AgendaItem} (h : TreeAt s r rest) :
    currentTree s = .ok r s := by
  rw [currentTree, bind_of_ok (get_apply s), bind_of_ok (atPhase_of_eq h.1), h.2]
  rfl

theorem nextAgendaItem_apply (s : State) :
    nextAgendaItem s = .ok () (s.setCtl { s.ctl with agenda := s.ctl.agenda.tail }) := rfl

theorem writeShape_apply (r : TreeRef) (sh : BitVec 4) (s : State) :
    writeShape r sh s = .ok () (s.setTree r { s.tree r with shape := sh }) := rfl

theorem writeSyms_apply (r : TreeRef) (i : Nat) (vs : List (BitVec 4)) (s : State) :
    writeSyms r i vs s = .ok () (s.setTree r { s.tree r with syms := Cells.setFrom (s.tree r).syms i vs }) := rfl

theorem currentRefill_of_refill {s : State} {b : BundleId} {rest : List BundleId} (h1 : s.ctl.phase = .refill)
    (h2 : s.ctl.refills = b :: rest) : currentRefill s = .ok b s := by
  rw [currentRefill, bind_of_ok (get_apply s), bind_of_ok (atPhase_of_eq h1), h2]
  rfl

theorem nextRefill_apply (s : State) :
    nextRefill s = .ok () (s.setCtl { s.ctl with phase := .refill, refills := s.ctl.refills.tail }) := rfl

theorem beginRefill_of_refillAt {s : State} {b : BundleId} {rest : List BundleId} {t : Nat} (h : RefillAt s b rest t) :
    beginRefill b t s = .ok () s := by
  rw [beginRefill, bind_of_ok (currentRefill_of_refill h.1 h.2.1), bind_of_ok (demand_of_true _ s (by simp)),
    bind_of_ok (get_apply s)]
  exact check_of_true _ s (by simpa using h.2.2)

theorem currentBlock_of_blockAt {s : State} {ph : Phase} {p : PlaneId} {x : Plane} (h : BlockAt s ph p x) :
    currentBlock ph s = .ok (p, cursorDst s x) s := by
  obtain ⟨h1, h2, h3, h4⟩ := h
  rw [currentBlock, bind_of_ok (atPhase_of_eq h1), bind_of_ok (get_apply s), h2, bind_of_ok (planeOf_of_present h3),
    bind_of_ok (demand_of_true _ s (by simpa using h4))]
  rfl

theorem nextBlock_apply (n : Nat) (s : State) :
    nextBlock n s = .ok () (s.setCtl { s.ctl with phase := .block, bx := s.ctl.bx + n }) := rfl

theorem succeed_apply (r0 r1 r2 : Word) (s : State) :
    succeed r0 r1 r2 s = .ok () ((s.setRegs (okRegs s.regs r0 r1 r2)).setPhase .idle) := rfl

theorem currentTrack_of_present {s : State} {x : Track} (h : s.tracks[s.ctl.track]? = some x) :
    currentTrack s = .ok x s := by
  rw [currentTrack, bind_of_ok (get_apply s), h, getOr_some]

/-- The next value of a bundle that holds some (R390). -/
theorem getValue_of_holds {b : BundleId} {s : State} {v : Int} {vs : List Int} (h : Holds (s.bundle b) (v :: vs)) :
    getValue b s = .ok v (afterTake s b 1) := by
  have h1 := h.1
  have h2 := h.2 0 (by simp)
  simp only [List.length_cons, Nat.add_zero, List.getElem?_cons_zero] at h1 h2
  exact getValue_of_buffered (by omega) h2

/-- The motion source of a vector inside the bounds (R411). -/
theorem motionSource_of_inside {s : State} {p : PlaneId} {x : Plane} {dst : Nat} {xo yo : Int} (hp : s.plane p = some x)
    (hx : Holds (s.bundle .xOff) [xo]) (hy : Holds (s.bundle .yOff) [yo]) (h0 : 0 ≤ motionTarget x dst xo yo)
    (h1 : motionTarget x dst xo yo ≤ motionLimit x) :
    motionSource p dst s = .ok (motionTarget x dst xo yo).toNat (afterVector s) := by
  have hy' : Holds ((afterTake s .xOff 1).bundle .yOff) [yo] := by
    rw [afterTake, State.bundle_setBundle_other s _ (by decide)]
    exact hy
  rw [motionSource, bind_of_ok (planeOf_of_present hp), bind_of_ok (getValue_of_holds hx),
    bind_of_ok (getValue_of_holds hy')]
  unfold motionTarget at h0 h1 ⊢
  rw [bind_of_ok (check_of_true _ _ (by simp [h0, h1]))]
  rfl

/-! ## Painting -/

/-- Writing `f i` at `place i` for `i < n`, the places apart, paints them and nothing else. -/
theorem painted_foldl (place : Nat → Nat) (f : Nat → Byte) (m : Cells Byte) (n : Nat)
    (hinj : ∀ i j, i < n → j < n → place i = place j → i = j) :
    Painted n place f m ((List.range n).foldl (fun c i => Cells.set c (place i) (f i)) m) := by
  induction n with
  | zero => exact ⟨fun i h => absurd h (Nat.not_lt_zero i), fun a _ => rfl⟩
  | succ n ih =>
    obtain ⟨h1, h2⟩ := ih fun i j hi hj => hinj i j (by omega) (by omega)
    rw [List.range_succ, List.foldl_append]
    refine ⟨fun i hi => ?_, fun a ha => ?_⟩
    · show Cells.get (Cells.set _ (place n) (f n)) (place i) = some (f i)
      by_cases h : i = n
      · subst h; exact Cells.get_set_same _ _ _
      · rw [Cells.get_set_other _ _ fun e => h (hinj i n hi (by omega) e)]
        exact h1 i (by omega)
    · show Cells.get (Cells.set _ (place n) (f n)) a = _
      rw [Cells.get_set_other _ _ (ha n (by omega))]
      exact h2 a fun i hi => ha i (by omega)

/-- Writing a list of pixels inside the buffer changes the plane's `cur` and nothing else. -/
theorem forEach_writeCur {α : Type} {p : PlaneId} (place : α → Nat) (f : α → Byte) (l : List α) {s : State} {x : Plane}
    (hp : s.plane p = some x) (hr : ∀ i ∈ l, x.inRange (place i) = true) :
    forEach l (fun i => writeCur p (place i) (f i)) s
      = .ok () (if l = [] then s
        else s.setPlane p { x with cur := l.foldl (fun c i => Cells.set c (place i) (f i)) x.cur }) := by
  induction l generalizing s x with
  | nil => rfl
  | cons i l ih =>
    have hset : ∀ (y z : Plane), (s.setPlane p y).setPlane p z = s.setPlane p z := by
      intro y z; cases p <;> rfl
    have h := ih (s := s.setPlane p { x with cur := Cells.set x.cur (place i) (f i) })
      (x := { x with cur := Cells.set x.cur (place i) (f i) }) (State.plane_setPlane_same s p _)
      fun j hj => hr j (List.mem_cons_of_mem i hj)
    rw [forEach_cons, bind_of_ok (writeCur_of_inRange (f i) hp (hr i List.mem_cons_self))]
    refine h.trans ?_
    rw [if_neg (List.cons_ne_nil i l)]
    by_cases hl : l = []
    · subst hl; rfl
    · rw [if_neg hl, hset]; rfl

/-! ## The pixels of a block -/

theorem Plane.inRange_eq (x : Plane) (a : Nat) : x.inRange a = true ↔ a < x.pitch * x.rows := by
  simp [Plane.inRange]

/-- Every pixel of a block that fits lies inside the buffer. -/
theorem BlockFits.inRange {x : Plane} {a i : Nat} (h : BlockFits x a) (hi : i < 64) :
    x.inRange (a + blockOffset x i) = true := by
  have h1 : i / 8 * x.pitch ≤ 7 * x.pitch := Nat.mul_le_mul_right _ (by omega)
  have h2 := h.2
  rw [Plane.inRange_eq, blockOffset]
  omega

/-- The pixels of a block are apart. -/
theorem BlockFits.inj {x : Plane} {a i j : Nat} (h : BlockFits x a)
    (he : a + blockOffset x i = a + blockOffset x j) : i = j := by
  have hp : 8 ≤ x.pitch := h.1
  have he' : i / 8 * x.pitch + i % 8 = j / 8 * x.pitch + j % 8 := by simpa only [blockOffset, Nat.add_left_cancel_iff] using he
  have hd : ∀ q r, r < 8 → (q * x.pitch + r) / x.pitch = q := fun q r hr => by
    rw [Nat.mul_comm, Nat.mul_add_div (by omega), Nat.div_eq_of_lt (by omega), Nat.add_zero]
  have h1 : i / 8 = j / 8 := by
    rw [← hd (i / 8) (i % 8) (Nat.mod_lt _ (by omega)), he', hd _ _ (Nat.mod_lt _ (by omega))]
  rw [h1] at he'
  omega

/-- Every pixel of a region that fits lies inside the buffer. -/
theorem RegionFits.inRange {x : Plane} {a i : Nat} (h : RegionFits x a) (hi : i < 256) :
    x.inRange (a + regionOffset x i) = true := by
  have h1 : i / 16 * x.pitch ≤ 15 * x.pitch := Nat.mul_le_mul_right _ (by omega)
  have h2 := h.2
  rw [Plane.inRange_eq, regionOffset]
  omega

/-- The pixels of a region are apart. -/
theorem RegionFits.inj {x : Plane} {a i j : Nat} (h : RegionFits x a)
    (he : a + regionOffset x i = a + regionOffset x j) : i = j := by
  have hp : 16 ≤ x.pitch := h.1
  have he' : i / 16 * x.pitch + i % 16 = j / 16 * x.pitch + j % 16 := by
    simpa only [regionOffset, Nat.add_left_cancel_iff] using he
  have hd : ∀ q r, r < 16 → (q * x.pitch + r) / x.pitch = q := fun q r hr => by
    rw [Nat.mul_comm, Nat.mul_add_div (by omega), Nat.div_eq_of_lt (by omega), Nat.add_zero]
  have h1 : i / 16 = j / 16 := by
    rw [← hd (i / 16) (i % 16) (Nat.mod_lt _ (by omega)), he', hd _ _ (Nat.mod_lt _ (by omega))]
  rw [h1] at he'
  omega

/-- Painting the 64 pixels of a block in row-major order. -/
theorem forEach_paint_block {p : PlaneId} {s : State} {x : Plane} {dst : Nat} (f : Nat → Byte) (hp : s.plane p = some x)
    (hf : BlockFits x dst) :
    ∃ new, BlockPainted x dst f new
      ∧ forEach blockPositions (fun i => writeCur p (dst + blockOffset x i) (f i)) s
        = .ok () (s.setPlane p { x with cur := new }) := by
  refine ⟨_, painted_foldl (fun i => dst + blockOffset x i) f x.cur 64 fun i j _ _ => hf.inj, ?_⟩
  rw [blockPositions, forEach_writeCur (fun i => dst + blockOffset x i) f (List.range 64) hp
    fun i hi => hf.inRange (List.mem_range.mp hi), if_neg (by decide)]

/-- Painting the 256 pixels of a region in row-major order. -/
theorem forEach_paint_region {p : PlaneId} {s : State} {x : Plane} {dst : Nat} (f : Nat → Byte) (hp : s.plane p = some x)
    (hf : RegionFits x dst) :
    ∃ new, RegionPainted x dst f new
      ∧ forEach (List.range 256) (fun i => writeCur p (dst + regionOffset x i) (f i)) s
        = .ok () (s.setPlane p { x with cur := new }) := by
  refine ⟨_, painted_foldl (fun i => dst + regionOffset x i) f x.cur 256 fun i j _ _ => hf.inj, ?_⟩
  rw [forEach_writeCur (fun i => dst + regionOffset x i) f (List.range 256) hp
    fun i hi => hf.inRange (List.mem_range.mp hi), if_neg (by decide)]

end Sys2Proof.Machine
end

