-- ==== Sys2Proof/Laws/Coef.lean ====
section
/-! SUPPORT. The coefficient unit against the plain-list decode of Safety.lean: what a coefficient or residual decode leaves in
the scratch, and what Dequantise does to it. -/

namespace Sys2Proof.Machine

/-! ## Reading at an offset -/

/-- The state with `off` bits taken and the coefficient scratch `k`. -/
def readAt (s : State) (off : Nat) (k : CoefScratch) : State := (s.setPos (s.bitPos + off)).setCoef k

theorem readAt_zero (s : State) : readAt s 0 s.coef = s := by
  simp [readAt, State.setPos, State.bitPos, State.setBr, State.setCoef]

@[simp] theorem readAt_coef (s : State) (off : Nat) (k : CoefScratch) : (readAt s off k).coef = k := rfl
@[simp] theorem readAt_params (s : State) (off : Nat) (k : CoefScratch) : (readAt s off k).params = s.params := rfl

theorem BitsLeft.mono {s : State} {n m : Nat} (h : BitsLeft s m) (hn : n ≤ m) : BitsLeft s n :=
  Nat.le_trans (Nat.add_le_add_left hn _) h

theorem readAt_bitPos {s : State} {off : Nat} (h : BitsLeft s off) (k : CoefScratch) :
    (readAt s off k).bitPos = s.bitPos + off := s.bitPos_setPos_of_le h

theorem readAt_setPos (s : State) (off m : Nat) (k : CoefScratch) :
    (readAt s off k).setPos (s.bitPos + m) = readAt s m k := rfl

theorem getBits_readAt {s : State} {off n : Nat} (k : CoefScratch) (h1 : 1 ≤ n) (h2 : n ≤ 32) (h : BitsLeft s (off + n)) :
    getBits n (readAt s off k) = .ok (bitsAt s off n) (readAt s (off + n) k) := by
  have hp := readAt_bitPos (h.mono (Nat.le_add_right off n)) k
  have hs : (readAt s off k).bitSize = s.bitSize := rfl
  have hf : (readAt s off k).bitPos + n ≤ (readAt s off k).bitSize := by
    rw [hp, hs]; unfold BitsLeft at h; omega
  rw [getBits_of_fits h1 h2 hf, hp, Nat.add_assoc, readAt_setPos]
  rfl

theorem getBit_readAt {s : State} {off : Nat} (k : CoefScratch) (h : BitsLeft s (off + 1)) :
    getBit (readAt s off k) = .ok (bitsAt s off 1) (readAt s (off + 1) k) :=
  getBits_readAt k (Nat.le_refl 1) (by omega) h

theorem modifyCoef_readAt (s : State) (off : Nat) (k : CoefScratch) (f : CoefScratch → CoefScratch) :
    modifyCoef f (readAt s off k) = .ok () (readAt s off (f k)) := rfl

theorem bitsAt_lt (s : State) (off n : Nat) : bitsAt s off n < 2 ^ n := Memory.packetBits_lt _ _ _ _

theorem bitsAt_one (s : State) (off : Nat) : bitsAt s off 1 = 0 ∨ bitsAt s off 1 = 1 := by
  have := bitsAt_lt s off 1; omega

/-! ## Every step takes bits forward -/

theorem Decoded.spend_off (x : Decoded) : x.spend.off = x.off := by
  unfold Decoded.spend; split <;> rfl

theorem Decoded.spend_out (x : Decoded) : x.spend.out = x.out := by
  unfold Decoded.spend; split <;> rfl

theorem Decoded.emit_off (value : Nat → Int × Nat) (c : Nat) (x : Decoded) :
    (x.emit value c).off = x.off + (value x.off).2 := by rw [Decoded.emit, Decoded.spend_off]

theorem Decoded.emit_out (value : Nat → Int × Nat) (c : Nat) (x : Decoded) :
    (x.emit value c).out = x.out ++ [(c, (value x.off).1)] := by rw [Decoded.emit, Decoded.spend_out]

theorem groupNodes_off_le (s : State) (value : Nat → Int × Nat) (n c : Nat) (front : List Node) (x : Decoded) :
    x.off ≤ (groupNodes s value n c front x).2.off := by
  induction n generalizing c front x with
  | zero => exact Nat.le_refl _
  | succ n ih =>
    rw [groupNodes]
    split
    · exact Nat.le_refl _
    · split
      · exact Nat.le_trans (m := (x.skip 1).off) (Nat.le_add_right _ 1) (ih _ _ _)
      · refine Nat.le_trans ?_ (ih _ _ _)
        rw [Decoded.emit_off]; simp only [Decoded.skip]; omega

theorem passNodes_off_le (s : State) (value : Nat → Int × Nat) (visits : Nat) (front done todo : List Node) (x : Decoded) :
    x.off ≤ (passNodes s value visits front done todo x).2.off := by
  induction visits generalizing front done todo x with
  | zero => exact Nat.le_refl _
  | succ v ih =>
    have hskip : x.off ≤ (x.skip 1).off := Nat.le_add_right _ 1
    match todo with
    | [] => exact Nat.le_refl _
    | (c, m) :: todo =>
      rw [passNodes.eq_def]
      dsimp only
      split
      · exact Nat.le_refl _
      · split
        · exact ih _ _ _ _
        · split
          · exact Nat.le_trans hskip (ih _ _ _ _)
          · split
            · exact Nat.le_trans hskip (Nat.le_trans (groupNodes_off_le _ _ _ _ _ _) (ih _ _ _ _))
            · exact Nat.le_trans hskip (ih _ _ _ _)
            · exact Nat.le_trans hskip (Nat.le_trans (groupNodes_off_le _ _ _ _ _ _) (ih _ _ _ _))
            · refine Nat.le_trans hskip (Nat.le_trans ?_ (ih _ _ _ _))
              rw [Decoded.emit_off]; exact Nat.le_add_right _ _

theorem fullPlanes_off_le (s : State) (n : Nat) (l : List Node) (x : Decoded) : x.off ≤ (fullPlanes s n l x).off := by
  induction n generalizing l x with
  | zero => exact Nat.le_refl _
  | succ k ih => exact Nat.le_trans (passNodes_off_le _ _ _ _ _ _ _) (ih _ _)

theorem refineValues_off_le (s : State) (k : Nat) (done todo : List (Nat × Int)) (x : Decoded) :
    x.off ≤ (refineValues s k done todo x).off := by
  induction todo generalizing done x with
  | nil => exact Nat.le_refl _
  | cons e todo ih =>
    obtain ⟨c, v⟩ := e
    have hskip : x.off ≤ (x.skip 1).off := Nat.le_add_right _ 1
    rw [refineValues]
    split
    · exact Nat.le_refl _
    · split
      · refine Nat.le_trans hskip (Nat.le_trans ?_ (ih _ _))
        rw [Decoded.spend_off]
      · exact Nat.le_trans hskip (ih _ _)

theorem residualMasks_off_le (s : State) (n : Nat) (l : List Node) (x : Decoded) : x.off ≤ (residualMasks s n l x).off := by
  induction n generalizing l x with
  | zero => exact Nat.le_refl _
  | succ k ih =>
    exact Nat.le_trans (refineValues_off_le _ _ _ _ _) (Nat.le_trans (passNodes_off_le _ _ _ _ _ _ _) (ih _ _))

/-! ## A stopped decode stands -/

theorem groupNodes_stopped {s : State} {value : Nat → Int × Nat} {n c : Nat} {front : List Node} {x : Decoded}
    (h : x.stopped = true) : groupNodes s value n c front x = (front, x) := by
  cases n with
  | zero => rfl
  | succ n => rw [groupNodes, if_pos h]

theorem passNodes_stopped {s : State} {value : Nat → Int × Nat} {v : Nat} {front done todo : List Node} {x : Decoded}
    (h : x.stopped = true) : (passNodes s value v front done todo x).2 = x := by
  cases v with
  | zero => rfl
  | succ v =>
    cases todo with
    | nil => rfl
    | cons e todo => rw [passNodes.eq_def]; dsimp only; rw [if_pos h]

theorem refineValues_stopped {s : State} {k : Nat} {done todo : List (Nat × Int)} {x : Decoded} (h : x.stopped = true) :
    refineValues s k done todo x = { x with out := done ++ todo } := by
  cases todo with
  | nil => simp [refineValues]
  | cons e todo => rw [refineValues, if_pos h]

theorem residualMasks_stopped {s : State} {n : Nat} {l : List Node} {x : Decoded} (h : x.stopped = true) :
    residualMasks s n l x = x := by
  induction n generalizing l x with
  | zero => rfl
  | succ k ih =>
    have hr : refineValues s k [] x.out x = x := by rw [refineValues_stopped h]; rfl
    rw [residualMasks, hr]
    have hp : (passNodes s (residualValue s k) 128 [] [] l x).2 = x := passNodes_stopped h
    rw [hp, ih h]

/-! ## The node list -/

/-- The scan indices an entry still stands for (R480). -/
def Node.indices (e : Node) : List Nat :=
  if e.1 = 0 ∧ e.2 = 0 then []
  else
    match e.2 with
    | 0 => List.range' e.1 20
    | 1 => List.range' e.1 16
    | 2 => List.range' e.1 4
    | _ => [e.1]

/-- A bound on the visits an entry costs, with those of the entries that come from it. -/
def Node.weight (e : Node) : Nat :=
  if e.1 = 0 ∧ e.2 = 0 then 1
  else
    match e.2 with
    | 0 => 25
    | 1 => 21
    | 2 => 5
    | _ => 1

/-- The entries that can still come to the front from an entry. -/
def Node.pushes (e : Node) : Nat :=
  if e.1 = 0 ∧ e.2 = 0 then 0
  else
    match e.2 with
    | 0 => 20
    | 1 => 16
    | 2 => 4
    | _ => 0

/-- The scan indices a list still stands for. -/
def indicesOf (l : List Node) : List Nat := l.flatMap Node.indices
/-- The weight of a list. -/
def weightOf (l : List Node) : Nat := (l.map Node.weight).sum
/-- The pushes of a list. -/
def pushesOf (l : List Node) : Nat := (l.map Node.pushes).sum

@[simp] theorem indicesOf_nil : indicesOf [] = [] := rfl
@[simp] theorem indicesOf_cons (e : Node) (l : List Node) : indicesOf (e :: l) = e.indices ++ indicesOf l := rfl
@[simp] theorem indicesOf_append (l r : List Node) : indicesOf (l ++ r) = indicesOf l ++ indicesOf r := List.flatMap_append
@[simp] theorem weightOf_nil : weightOf [] = 0 := rfl
@[simp] theorem weightOf_cons (e : Node) (l : List Node) : weightOf (e :: l) = e.weight + weightOf l := by
  simp [weightOf]
@[simp] theorem weightOf_append (l r : List Node) : weightOf (l ++ r) = weightOf l + weightOf r := by
  simp [weightOf]
@[simp] theorem pushesOf_nil : pushesOf [] = 0 := rfl
@[simp] theorem pushesOf_cons (e : Node) (l : List Node) : pushesOf (e :: l) = e.pushes + pushesOf l := by
  simp [pushesOf]
@[simp] theorem pushesOf_append (l r : List Node) : pushesOf (l ++ r) = pushesOf l + pushesOf r := by
  simp [pushesOf]

theorem Node.indices_single (c : Nat) : Node.indices (c, 3) = [c] := by simp [Node.indices]
theorem Node.weight_single (c : Nat) : Node.weight (c, 3) = 1 := by simp [Node.weight]
theorem Node.pushes_single (c : Nat) : Node.pushes (c, 3) = 0 := by simp [Node.pushes]

/-- The arena holds the entries `l` from place `i` on. -/
def ArenaHolds (k : CoefScratch) (i : Nat) (l : List Node) : Prop :=
  ∀ j e, l[j]? = some e → Cells.get k.coefList (i + j) = some e.1 ∧ Cells.get k.modeList (i + j) = some e.2

theorem ArenaHolds.cons {k : CoefScratch} {i : Nat} {e : Node} {l : List Node} :
    ArenaHolds k i (e :: l) ↔
      (Cells.get k.coefList i = some e.1 ∧ Cells.get k.modeList i = some e.2) ∧ ArenaHolds k (i + 1) l := by
  constructor
  · intro h
    refine ⟨h 0 e rfl, fun j e' hj => ?_⟩
    have := h (j + 1) e' (by simpa using hj)
    rwa [Nat.add_assoc, Nat.add_comm 1 j]
  · rintro ⟨h0, h⟩ j e' hj
    cases j with
    | zero => cases hj; exact h0
    | succ j =>
      have := h j e' (by simpa using hj)
      rwa [Nat.add_assoc, Nat.add_comm 1 j] at this

theorem ArenaHolds.append {k : CoefScratch} {i : Nat} {l r : List Node} :
    ArenaHolds k i (l ++ r) ↔ ArenaHolds k i l ∧ ArenaHolds k (i + l.length) r := by
  induction l generalizing i with
  | nil => simp [ArenaHolds]
  | cons e l ih =>
    rw [List.cons_append, ArenaHolds.cons, ArenaHolds.cons, ih, List.length_cons, Nat.add_assoc, Nat.add_comm 1 l.length,
      and_assoc, and_assoc, and_assoc]

/-- Entries outside the places `i`, …, `i + l.length - 1` do not matter. -/
theorem ArenaHolds.congr {k k' : CoefScratch} {i : Nat} {l : List Node} (h : ArenaHolds k i l)
    (hc : ∀ a, i ≤ a → a < i + l.length → Cells.get k'.coefList a = Cells.get k.coefList a)
    (hm : ∀ a, i ≤ a → a < i + l.length → Cells.get k'.modeList a = Cells.get k.modeList a) : ArenaHolds k' i l := by
  intro j e hj
  have hl : j < l.length := (List.getElem?_eq_some_iff.mp hj).1
  rw [hc _ (by omega) (by omega), hm _ (by omega) (by omega)]
  exact h j e hj

/-- The two scratches have the same node list. -/
def SameLists (k k' : CoefScratch) : Prop :=
  k'.coefList = k.coefList ∧ k'.modeList = k.modeList ∧ k'.listStart = k.listStart ∧ k'.listEnd = k.listEnd

/-- The two scratches agree on all but the node list. -/
def SameData (k k' : CoefScratch) : Prop :=
  k'.blk = k.blk ∧ k'.coefIdx = k.coefIdx ∧ k'.coefCount = k.coefCount ∧ k'.res = k.res ∧ k'.nz = k.nz
    ∧ k'.nzCount = k.nzCount ∧ k'.budget = k.budget

theorem SameLists.trans {a b c : CoefScratch} (h : SameLists a b) (h' : SameLists b c) : SameLists a c :=
  ⟨h'.1.trans h.1, h'.2.1.trans h.2.1, h'.2.2.1.trans h.2.2.1, h'.2.2.2.trans h.2.2.2⟩

theorem SameLists.holds {k k' : CoefScratch} (h : SameLists k k') {i : Nat} {l : List Node} (ha : ArenaHolds k i l) :
    ArenaHolds k' i l := ha.congr (fun _ _ _ => by rw [h.1]) (fun _ _ _ => by rw [h.2.1])

theorem SameData.refl (k : CoefScratch) : SameData k k := ⟨rfl, rfl, rfl, rfl, rfl, rfl, rfl⟩

/-- The state of a node list in the middle of a decode: it stands in the arena between the cursors, with room in front for
every push to come, and every index of `targets` is either still in it or emitted (R490, R506). -/
structure Nodes (targets : List Nat) (k : CoefScratch) (l : List Node) (x : Decoded) : Prop where
  holds : ArenaHolds k k.listStart l
  stop : k.listEnd = k.listStart + l.length
  room : pushesOf l ≤ k.listStart
  weight : weightOf l ≤ 80
  covers : ∀ a, (indicesOf l).count a + (x.out.map Prod.fst).count a = targets.count a

/-- What a mode's `Emit` and `Spend` do, as far as the walk needs it: `R` ties the scratch to what was decoded. -/
structure Emitter (s : State) (targets : List Nat) (value : Nat → Int × Nat) (emit : Nat → M Unit) (spend : M Bool)
    (R : CoefScratch → Decoded → Prop) : Prop where
  congr : ∀ k k' x, SameData k k' → R k x → R k' x
  skip : ∀ k x n, R k x → R k (x.skip n)
  emit : ∀ k x c, R k x → x.stopped = false → c ∈ targets → c ∉ x.out.map Prod.fst →
    BitsLeft s (x.off + (value x.off).2) →
    ∃ k1, emit c (readAt s x.off k) = .ok () (readAt s (x.off + (value x.off).2) k1) ∧ SameLists k k1
      ∧ ∀ k2, SameData k1 k2 →
          ∃ k3, spend (readAt s (x.off + (value x.off).2) k2)
              = .ok (x.emit value c).stopped (readAt s (x.off + (value x.off).2) k3)
            ∧ SameLists k2 k3 ∧ R k3 (x.emit value c)

section
variable {s : State} {targets : List Nat} {value : Nat → Int × Nat} {emit : Nat → M Unit} {spend : M Bool}
  {R : CoefScratch → Decoded → Prop}

/-- An index that a list without repeats counts as pending is no emitted one. -/
theorem not_emitted {c : Nat} {p o : List Nat} (hT : targets.Nodup) (h : p.count c + o.count c = targets.count c)
    (hp : 0 < p.count c) : c ∈ targets ∧ c ∉ o := by
  have h1 : targets.count c ≤ 1 := List.nodup_iff_count_le_one.mp hT c
  refine ⟨List.count_pos_iff.mp (by omega), fun ho => ?_⟩
  have := List.count_pos_iff.mpr ho
  omega

theorem walkGroup_decodes (E : Emitter s targets value emit spend R) (hT : targets.Nodup) (n c : Nat) (k : CoefScratch)
    (x : Decoded) (front tail : List Node) (others : List Nat) (hR : R k x) (hx : x.stopped = false)
    (ha : ArenaHolds k k.listStart (front ++ tail)) (hn : n ≤ k.listStart)
    (hc : ∀ a, (indicesOf front).count a + (List.range' c n).count a + others.count a + (x.out.map Prod.fst).count a
      = targets.count a)
    (hb : BitsLeft s (groupNodes s value n c front x).2.off) :
    ∃ k', walkGroup emit spend n c (readAt s x.off k)
        = .ok (groupNodes s value n c front x).2.stopped (readAt s (groupNodes s value n c front x).2.off k')
      ∧ R k' (groupNodes s value n c front x).2
      ∧ ((groupNodes s value n c front x).2.stopped = false →
          ArenaHolds k' k'.listStart ((groupNodes s value n c front x).1 ++ tail) ∧ k'.listEnd = k.listEnd
            ∧ k'.listStart + (groupNodes s value n c front x).1.length = k.listStart + front.length
            ∧ k.listStart ≤ k'.listStart + n
            ∧ weightOf (groupNodes s value n c front x).1 ≤ weightOf front + n
            ∧ pushesOf (groupNodes s value n c front x).1 = pushesOf front
            ∧ ∀ a, (indicesOf (groupNodes s value n c front x).1).count a + others.count a
                + ((groupNodes s value n c front x).2.out.map Prod.fst).count a = targets.count a) := by
  induction n generalizing c k x front with
  | zero =>
    refine ⟨k, by rw [walkGroup, pure_apply]; simp [groupNodes, hx], hR, fun _ => ?_⟩
    refine ⟨ha, rfl, rfl, Nat.le_refl _, Nat.le_refl _, rfl, fun a => ?_⟩
    have := hc a
    simp only [List.range'_zero, List.count_nil] at this
    simp only [groupNodes]
    omega
  | succ n ih =>
    have hfirst : x.off + 1 ≤ (groupNodes s value (n + 1) c front x).2.off := by
      rw [groupNodes, if_neg (by simp [hx])]
      split
      · exact groupNodes_off_le s value n _ _ (x.skip 1)
      · refine Nat.le_trans ?_ (groupNodes_off_le s value n _ _ _)
        rw [Decoded.emit_off]; exact Nat.le_add_right _ _
    rw [walkGroup, bind_of_ok (getBit_readAt k (hb.mono hfirst))]
    by_cases hbit : bitsAt s x.off 1 = 1
    · rw [if_pos hbit]
      have he : groupNodes s value (n + 1) c front x = groupNodes s value n (c + 1) ((c, 3) :: front) (x.skip 1) := by
        rw [groupNodes, if_neg (by simp [hx]), if_pos hbit]
      rw [he] at hb ⊢
      rw [pushFront, bind_of_ok (modifyCoef_readAt s _ k _)]
      have hroom : k.listStart - 1 + 1 = k.listStart := by omega
      obtain ⟨k', h1, h2, h3⟩ := ih (c + 1)
        { k with
          coefList := Cells.set k.coefList (k.listStart - 1) c
          modeList := Cells.set k.modeList (k.listStart - 1) 3
          listStart := k.listStart - 1 } (x.skip 1) ((c, 3) :: front)
        (E.congr k _ _ (SameData.refl k) (E.skip _ _ _ hR)) hx
        (by
          rw [List.cons_append, ArenaHolds.cons]
          refine ⟨⟨Cells.get_set_same _ _ _, Cells.get_set_same _ _ _⟩, ?_⟩
          dsimp only
          rw [hroom]
          exact ha.congr (fun a h _ => Cells.get_set_other _ _ (by omega)) (fun a h _ => Cells.get_set_other _ _ (by omega)))
        (by dsimp only; omega)
        (fun a => by
          have := hc a
          simp only [List.range'_succ, List.count_cons] at this
          simp only [indicesOf_cons, Node.indices_single, List.count_append, List.count_cons, List.count_nil, Decoded.skip]
          omega)
        hb
      refine ⟨k', h1, h2, fun hs => ?_⟩
      obtain ⟨g1, g2, g3, g4, g5, g6, g7⟩ := h3 hs
      simp only [List.length_cons, weightOf_cons, pushesOf_cons, Node.weight_single, Node.pushes_single] at g3 g4 g5 g6
      refine ⟨g1, g2, ?_, ?_, ?_, ?_, g7⟩ <;> omega
    · rw [if_neg hbit]
      have he : groupNodes s value (n + 1) c front x = groupNodes s value n (c + 1) front ((x.skip 1).emit value c) := by
        rw [groupNodes, if_neg (by simp [hx]), if_neg hbit]
      rw [he] at hb ⊢
      have hfresh : c ∈ targets ∧ c ∉ (x.skip 1).out.map Prod.fst := by
        have h := hc c
        refine not_emitted (p := indicesOf front ++ List.range' c (n + 1) ++ others) hT ?_ ?_
        · simpa only [List.count_append, Decoded.skip] using h
        · simp only [List.count_append, List.range'_succ, List.count_cons]; simp
      have hoff : (x.skip 1).off + (value (x.skip 1).off).2 ≤ (groupNodes s value n (c + 1) front ((x.skip 1).emit value c)).2.off := by
        rw [← Decoded.emit_off value c]; exact groupNodes_off_le _ _ _ _ _ _
      obtain ⟨k1, e1, e2, e3⟩ := E.emit k (x.skip 1) c (E.skip _ _ _ hR) hx hfresh.1 hfresh.2 (hb.mono hoff)
      obtain ⟨k3, f1, f2, f3⟩ := e3 k1 (SameData.refl k1)
      have hl : SameLists k k3 := e2.trans f2
      rw [show x.off + 1 = (x.skip 1).off from rfl, bind_of_ok e1, bind_of_ok f1]
      by_cases hs : ((x.skip 1).emit value c).stopped = true
      · rw [if_pos hs]
        refine ⟨k3, ?_, ?_, fun h => ?_⟩
        · rw [groupNodes_stopped hs, pure_apply]
          simp [hs, Decoded.emit_off]
        · rw [groupNodes_stopped hs]; exact f3
        · rw [groupNodes_stopped hs, hs] at h; cases h
      · rw [if_neg hs]
        have hs' : ((x.skip 1).emit value c).stopped = false := by simpa using hs
        obtain ⟨k', h1, h2, h3⟩ := ih (c + 1) k3 ((x.skip 1).emit value c) front f3 hs'
          (by rw [hl.2.2.1]; exact hl.holds ha) (by rw [hl.2.2.1]; omega)
          (fun a => by
            have := hc a
            simp only [List.range'_succ, List.count_cons] at this
            simp only [Decoded.emit_out, Decoded.skip, List.map_append, List.map_cons, List.map_nil, List.count_append,
              List.count_cons, List.count_nil]
            omega) hb
        rw [Decoded.emit_off] at h1
        refine ⟨k', h1, h2, fun h => ?_⟩
        obtain ⟨g1, g2, g3, g4, g5, g6, g7⟩ := h3 h
        rw [hl.2.2.1] at g3 g4
        refine ⟨g1, g2.trans hl.2.2.2, ?_, ?_, ?_, g6, g7⟩ <;> omega

theorem setEntry_readAt (s : State) (off pos c m : Nat) (k : CoefScratch) :
    setEntry pos c m (readAt s off k)
      = .ok () (readAt s off
          { k with coefList := Cells.set k.coefList pos c, modeList := Cells.set k.modeList pos m }) := rfl

theorem pushBack_readAt (s : State) (off c m : Nat) (k : CoefScratch) :
    pushBack c m (readAt s off k)
      = .ok () (readAt s off
          { k with
            coefList := Cells.set k.coefList k.listEnd c
            modeList := Cells.set k.modeList k.listEnd m
            listEnd := k.listEnd + 1 }) := rfl

/-- Replacing the entry after `l`. -/
theorem ArenaHolds.setEntry {k : CoefScratch} {i : Nat} {l r : List Node} {e : Node} (c m : Nat)
    (h : ArenaHolds k i (l ++ e :: r)) :
    ArenaHolds
      { k with
        coefList := Cells.set k.coefList (i + l.length) c, modeList := Cells.set k.modeList (i + l.length) m } i
      (l ++ (c, m) :: r) := by
  rw [ArenaHolds.append, ArenaHolds.cons] at h ⊢
  refine ⟨h.1.congr (fun a _ h' => ?_) (fun a _ h' => ?_), ⟨Cells.get_set_same _ _ _, Cells.get_set_same _ _ _⟩,
    h.2.2.congr (fun a h' _ => ?_) (fun a h' _ => ?_)⟩
  all_goals exact Cells.get_set_other _ _ (by omega)

/-- Adding an entry at the back. -/
theorem ArenaHolds.pushBack {k : CoefScratch} {i : Nat} {l : List Node} (c m : Nat) (h : ArenaHolds k i l)
    (he : k.listEnd = i + l.length) :
    ArenaHolds
      { k with
        coefList := Cells.set k.coefList k.listEnd c, modeList := Cells.set k.modeList k.listEnd m
        listEnd := k.listEnd + 1 } i (l ++ [(c, m)]) := by
  rw [ArenaHolds.append, ArenaHolds.cons]
  refine ⟨h.congr (fun a _ h' => ?_) (fun a _ h' => ?_), ⟨?_, ?_⟩, fun j e hj => by simp at hj⟩
  · exact Cells.get_set_other _ _ (by omega)
  · exact Cells.get_set_other _ _ (by omega)
  · rw [he]; exact Cells.get_set_same _ _ _
  · rw [he]; exact Cells.get_set_same _ _ _

/-- One visit of the walk, at an entry. -/
theorem walk_at {fuel pos c m off : Nat} {k : CoefScratch} (hp : pos < k.listEnd)
    (hc : Cells.get k.coefList pos = some c) (hm : Cells.get k.modeList pos = some m) :
    walk emit spend (fuel + 1) pos (readAt s off k)
      = (if c = 0 ∧ m = 0 then walk emit spend fuel (pos + 1)
        else do
          let gate ← getBit
          if gate = 0 then walk emit spend fuel (pos + 1)
          else
            match m with
            | 0 => do
              setEntry pos (c + 4) 1
              let stopped ← walkGroup emit spend 4 c
              if stopped then pure true else walk emit spend fuel pos
            | 1 => do
              setEntry pos c 2
              Machine.pushBack (c + 4) 2
              Machine.pushBack (c + 8) 2
              Machine.pushBack (c + 12) 2
              walk emit spend fuel pos
            | 2 => do
              setEntry pos 0 0
              let stopped ← walkGroup emit spend 4 c
              if stopped then pure true else walk emit spend fuel (pos + 1)
            | _ => do
              emit c
              setEntry pos 0 0
              let stopped ← spend
              if stopped then pure true else walk emit spend fuel (pos + 1)) (readAt s off k) := by
  rewrite [walk, bind_of_ok (get_apply _), if_neg (show ¬ (readAt s off k).coef.listEnd ≤ pos from Nat.not_le.mpr hp),
    show Cells.get (readAt s off k).coef.coefList pos = some c from hc, bind_of_ok (getOr_some _ _ _),
    show Cells.get (readAt s off k).coef.modeList pos = some m from hm, bind_of_ok (getOr_some _ _ _)]
  rcases m with _ | _ | _ | m <;> rfl

theorem walk_decodes (E : Emitter s targets value emit spend R) (hT : targets.Nodup) (fuel visits : Nat) (k : CoefScratch)
    (x : Decoded) (front done todo : List Node) (hR : R k x) (hx : x.stopped = false)
    (hn : Nodes targets k (front ++ done ++ todo) x) (hf : weightOf todo < fuel) (hv : weightOf todo < visits)
    (hb : BitsLeft s (passNodes s value visits front done todo x).2.off) :
    ∃ k', walk emit spend fuel (k.listStart + (front ++ done).length) (readAt s x.off k)
        = .ok (passNodes s value visits front done todo x).2.stopped
            (readAt s (passNodes s value visits front done todo x).2.off k')
      ∧ R k' (passNodes s value visits front done todo x).2
      ∧ ((passNodes s value visits front done todo x).2.stopped = false →
          Nodes targets k' (passNodes s value visits front done todo x).1 (passNodes s value visits front done todo x).2) := by
  induction fuel generalizing visits k x front done todo with
  | zero => omega
  | succ fuel ih =>
    obtain _ | visits := visits
    · omega
    match todo with
    | [] =>
      have hp : passNodes s value (visits + 1) front done [] x = (front ++ done, x) := rfl
      rw [hp]
      have hstop := hn.stop
      rw [List.append_nil] at hstop hn
      refine ⟨k, ?_, hR, fun _ => hn⟩
      rw [walk, bind_of_ok (get_apply _), if_pos (show (readAt s x.off k).coef.listEnd ≤ _ from Nat.le_of_eq hstop),
        pure_apply, hx]
    | (c, m) :: todo =>
      have hstop := hn.stop
      have hroom := hn.room
      have hweight := hn.weight
      have hcov := hn.covers
      have harena := hn.holds
      simp only [List.length_append, List.length_cons, pushesOf_append, pushesOf_cons, weightOf_append, weightOf_cons,
        indicesOf_append, indicesOf_cons, List.count_append] at hstop hroom hweight hcov
      simp only [weightOf_cons] at hf hv
      have hent := ArenaHolds.append.mp harena
      have hpos := (ArenaHolds.cons.mp hent.2).1
      rw [walk_at (by rw [List.length_append]; omega) hpos.1 hpos.2]
      by_cases hd : c = 0 ∧ m = 0
      · obtain ⟨rfl, rfl⟩ := hd
        have he : passNodes s value (visits + 1) front done ((0, 0) :: todo) x
            = passNodes s value visits front (done ++ [(0, 0)]) todo x := by
          rw [passNodes.eq_def]; dsimp only; rw [if_neg (by simp [hx]), if_pos ⟨rfl, rfl⟩]
        rw [if_pos ⟨rfl, rfl⟩]
        rw [he] at hb ⊢
        have h := ih visits k x front (done ++ [(0, 0)]) todo hR hx (by simpa using hn)
          (by have : Node.weight (0, 0) = 1 := rfl
              omega) (by have : Node.weight (0, 0) = 1 := rfl
                         omega) hb
        rw [← List.append_assoc, List.length_append (as := front ++ done)] at h
        exact h
      · rw [if_neg hd]
        have hw : 1 ≤ Node.weight (c, m) := by
          unfold Node.weight; split
          · omega
          · split <;> omega
        have hoff : x.off + 1 ≤ (passNodes s value (visits + 1) front done ((c, m) :: todo) x).2.off := by
          rw [passNodes.eq_def]; dsimp only; rw [if_neg (by simp [hx]), if_neg hd]
          have hskip : (x.skip 1).off = x.off + 1 := rfl
          rw [← hskip]
          split
          · exact passNodes_off_le _ _ _ _ _ _ _
          · split
            · exact Nat.le_trans (groupNodes_off_le _ _ _ _ _ _) (passNodes_off_le _ _ _ _ _ _ _)
            · exact passNodes_off_le _ _ _ _ _ _ _
            · exact Nat.le_trans (groupNodes_off_le _ _ _ _ _ _) (passNodes_off_le _ _ _ _ _ _ _)
            · refine Nat.le_trans ?_ (passNodes_off_le _ _ _ _ _ _ _)
              rw [Decoded.emit_off]; exact Nat.le_add_right _ _
        rw [bind_of_ok (getBit_readAt k (hb.mono hoff))]
        by_cases hg : bitsAt s x.off 1 = 0
        · have he : passNodes s value (visits + 1) front done ((c, m) :: todo) x
              = passNodes s value visits front (done ++ [(c, m)]) todo (x.skip 1) := by
            rw [passNodes.eq_def]; dsimp only; rw [if_neg (by simp [hx]), if_neg hd, if_pos hg]
          rw [if_pos hg]
          rw [he] at hb ⊢
          have h := ih visits k (x.skip 1) front (done ++ [(c, m)]) todo (E.skip _ _ _ hR) hx
            (by
              have : front ++ (done ++ [(c, m)]) ++ todo = front ++ done ++ (c, m) :: todo := by simp
              rw [this]
              exact ⟨hn.holds, hn.stop, hn.room, hn.weight, hn.covers⟩)
            (by omega) (by omega) hb
          rw [← List.append_assoc, List.length_append (as := front ++ done)] at h
          exact h
        · rw [if_neg hg]
          match m with
          | 0 =>
            have hc : c ≠ 0 := fun h => hd ⟨h, rfl⟩
            have hi : Node.indices (c, 0) = List.range' c 20 := by simp [Node.indices, hc]
            have hwt : Node.weight (c, 0) = 25 := by simp [Node.weight, hc]
            have hpu : Node.pushes (c, 0) = 20 := by simp [Node.pushes, hc]
            have hi' : Node.indices (c + 4, 1) = List.range' (c + 4) 16 := by simp [Node.indices]
            have hwt' : Node.weight (c + 4, 1) = 21 := by simp [Node.weight]
            have hpu' : Node.pushes (c + 4, 1) = 16 := by simp [Node.pushes]
            rw [hwt] at hf hv hweight
            rw [hpu] at hroom
            rw [hi] at hcov
            have he : passNodes s value (visits + 1) front done ((c, 0) :: todo) x
                = passNodes s value visits (groupNodes s value 4 c front (x.skip 1)).1 done ((c + 4, 1) :: todo)
                  (groupNodes s value 4 c front (x.skip 1)).2 := by
              rw [passNodes.eq_def]; dsimp only; rw [if_neg (by simp [hx]), if_neg hd, if_neg hg]; rfl
            rw [he] at hb ⊢
            show ∃ k', (do
              setEntry (k.listStart + (front ++ done).length) (c + 4) 1
              let stopped ← walkGroup emit spend 4 c
              if stopped then pure true else walk emit spend fuel (k.listStart + (front ++ done).length) : M Bool) _ = _ ∧ _
            rw [bind_of_ok (setEntry_readAt s _ _ _ _ k)]
            obtain ⟨k', h1, h2, h3⟩ := walkGroup_decodes E hT 4 c
              { k with
                coefList := Cells.set k.coefList (k.listStart + (front ++ done).length) (c + 4)
                modeList := Cells.set k.modeList (k.listStart + (front ++ done).length) 1 } (x.skip 1) front (done ++ (c + 4, 1) :: todo)
              (indicesOf (done ++ (c + 4, 1) :: todo)) (E.congr k _ _ (SameData.refl k) (E.skip _ _ 1 hR)) hx
              (by rw [← List.append_assoc]; exact harena.setEntry (c + 4) 1) (by dsimp only; omega)
              (fun a => by
                have h := hcov a
                have hr : List.range' c 20 = List.range' c 4 ++ List.range' (c + 4) 16 := by
                  rw [List.range'_append_1]
                rw [hr, List.count_append] at h
                simp only [indicesOf_append, indicesOf_cons, hi', List.count_append, Decoded.skip]
                omega)
              (hb.mono (passNodes_off_le _ _ _ _ _ _ _))
            rw [show x.off + 1 = (x.skip 1).off from rfl, bind_of_ok h1]
            by_cases hs : (groupNodes s value 4 c front (x.skip 1)).2.stopped = true
            · rw [if_pos hs, passNodes_stopped hs, pure_apply]
              exact ⟨k', by rw [hs], h2, fun h => by rw [hs] at h; cases h⟩
            · rw [if_neg hs]
              have hs' := Bool.eq_false_iff.mpr hs
              obtain ⟨g1, g2, g3, g4, g5, g6, g7⟩ := h3 hs'
              dsimp only at g2 g3 g4
              have h := ih visits k' _ (groupNodes s value 4 c front (x.skip 1)).1 done ((c + 4, 1) :: todo) h2 hs'
                { holds := by rw [List.append_assoc]; exact g1
                  stop := by
                    simp only [List.length_append, List.length_cons]; omega
                  room := by
                    simp only [pushesOf_append, pushesOf_cons, hpu']; omega
                  weight := by
                    simp only [weightOf_append, weightOf_cons, hwt']; omega
                  covers := fun a => by
                    have h := g7 a
                    simp only [indicesOf_append, List.count_append] at h ⊢
                    omega }
                (by simp only [weightOf_cons, hwt']; omega) (by simp only [weightOf_cons, hwt']; omega) hb
              have hp : k'.listStart + ((groupNodes s value 4 c front (x.skip 1)).1 ++ done).length
                  = k.listStart + (front ++ done).length := by
                simp only [List.length_append]; omega
              rw [hp] at h
              exact h
          | 1 =>
            have hi : Node.indices (c, 1) = List.range' c 16 := by simp [Node.indices]
            have hwt : Node.weight (c, 1) = 21 := by simp [Node.weight]
            have hpu : Node.pushes (c, 1) = 16 := by simp [Node.pushes]
            have hi' (d : Nat) : Node.indices (d, 2) = List.range' d 4 := by simp [Node.indices]
            have hwt' (d : Nat) : Node.weight (d, 2) = 5 := by simp [Node.weight]
            have hpu' (d : Nat) : Node.pushes (d, 2) = 4 := by simp [Node.pushes]
            rw [hwt] at hf hv hweight
            rw [hpu] at hroom
            rw [hi] at hcov
            have he : passNodes s value (visits + 1) front done ((c, 1) :: todo) x
                = passNodes s value visits front done ((c, 2) :: (todo ++ [(c + 4, 2), (c + 8, 2), (c + 12, 2)]))
                  (x.skip 1) := by
              rw [passNodes.eq_def]; dsimp only; rw [if_neg (by simp [hx]), if_neg hd, if_neg hg]; rfl
            rw [he] at hb ⊢
            show ∃ k', (do
              setEntry (k.listStart + (front ++ done).length) c 2
              Machine.pushBack (c + 4) 2
              Machine.pushBack (c + 8) 2
              Machine.pushBack (c + 12) 2
              walk emit spend fuel (k.listStart + (front ++ done).length) : M Bool) _ = _ ∧ _
            rw [bind_of_ok (setEntry_readAt s _ _ _ _ k), bind_of_ok (pushBack_readAt s _ _ _ _),
              bind_of_ok (pushBack_readAt s _ _ _ _), bind_of_ok (pushBack_readAt s _ _ _ _)]
            have a0 := harena.setEntry c 2
            have a1 := a0.pushBack (c + 4) 2 (by simp only [List.length_append, List.length_cons]; omega)
            have a2 := a1.pushBack (c + 8) 2 (by
              simp only [List.length_append, List.length_cons, List.length_nil]; omega)
            have a3 := a2.pushBack (c + 12) 2 (by
              simp only [List.length_append, List.length_cons, List.length_nil]; omega)
            simp only [List.append_assoc, List.cons_append, List.nil_append] at a3
            refine ih visits
              { k with
                coefList := Cells.set (Cells.set (Cells.set (Cells.set k.coefList (k.listStart + (front ++ done).length) c)
                  k.listEnd (c + 4)) (k.listEnd + 1) (c + 8)) (k.listEnd + 1 + 1) (c + 12)
                modeList := Cells.set (Cells.set (Cells.set (Cells.set k.modeList (k.listStart + (front ++ done).length) 2)
                  k.listEnd 2) (k.listEnd + 1) 2) (k.listEnd + 1 + 1) 2
                listEnd := k.listEnd + 1 + 1 + 1 }
              (x.skip 1) front done _ (E.congr k _ _ (SameData.refl k) (E.skip _ _ 1 hR)) hx
              { holds := ?_
                stop := ?_
                room := ?_
                weight := ?_
                covers := fun a => ?_ } ?_ ?_ hb
            · simp only [List.append_assoc]
              exact a3
            · simp only [List.length_append, List.length_cons, List.length_nil]; omega
            · simp only [pushesOf_append, pushesOf_cons, pushesOf_nil, hpu']; omega
            · simp only [weightOf_append, weightOf_cons, weightOf_nil, hwt']; omega
            · have h := hcov a
              have hr : List.range' c 16
                  = List.range' c 4 ++ (List.range' (c + 4) 4 ++ (List.range' (c + 8) 4 ++ List.range' (c + 12) 4)) := by
                rw [List.range'_append_1 (s := c + 8), List.range'_append_1 (s := c + 4), List.range'_append_1]
              rw [hr] at h
              simp only [List.count_append] at h
              simp only [indicesOf_append, indicesOf_cons, indicesOf_nil, hi', List.count_append, List.count_nil,
                Decoded.skip]
              omega
            · simp only [weightOf_append, weightOf_cons, weightOf_nil, hwt']; omega
            · simp only [weightOf_append, weightOf_cons, weightOf_nil, hwt']; omega
          | 2 =>
            have hi : Node.indices (c, 2) = List.range' c 4 := by simp [Node.indices]
            have hwt : Node.weight (c, 2) = 5 := by simp [Node.weight]
            have hpu : Node.pushes (c, 2) = 4 := by simp [Node.pushes]
            have hi' : Node.indices (0, 0) = [] := rfl
            have hwt' : Node.weight (0, 0) = 1 := rfl
            have hpu' : Node.pushes (0, 0) = 0 := rfl
            rw [hwt] at hf hv hweight
            rw [hpu] at hroom
            rw [hi] at hcov
            have he : passNodes s value (visits + 1) front done ((c, 2) :: todo) x
                = passNodes s value visits (groupNodes s value 4 c front (x.skip 1)).1 (done ++ [(0, 0)]) todo
                  (groupNodes s value 4 c front (x.skip 1)).2 := by
              rw [passNodes.eq_def]; dsimp only; rw [if_neg (by simp [hx]), if_neg hd, if_neg hg]; rfl
            rw [he] at hb ⊢
            show ∃ k', (do
              setEntry (k.listStart + (front ++ done).length) 0 0
              let stopped ← walkGroup emit spend 4 c
              if stopped then pure true else walk emit spend fuel (k.listStart + (front ++ done).length + 1) : M Bool) _ = _ ∧ _
            rw [bind_of_ok (setEntry_readAt s _ _ _ _ k)]
            obtain ⟨k', h1, h2, h3⟩ := walkGroup_decodes E hT 4 c
              { k with
                coefList := Cells.set k.coefList (k.listStart + (front ++ done).length) 0
                modeList := Cells.set k.modeList (k.listStart + (front ++ done).length) 0 } (x.skip 1) front (done ++ (0, 0) :: todo)
              (indicesOf (done ++ (0, 0) :: todo)) (E.congr k _ _ (SameData.refl k) (E.skip _ _ 1 hR)) hx
              (by rw [← List.append_assoc]; exact harena.setEntry 0 0) (by dsimp only; omega)
              (fun a => by
                have h := hcov a
                simp only [indicesOf_append, indicesOf_cons, hi', List.nil_append, List.count_append, Decoded.skip]
                omega)
              (hb.mono (passNodes_off_le _ _ _ _ _ _ _))
            rw [show x.off + 1 = (x.skip 1).off from rfl, bind_of_ok h1]
            by_cases hs : (groupNodes s value 4 c front (x.skip 1)).2.stopped = true
            · rw [if_pos hs, passNodes_stopped hs, pure_apply]
              exact ⟨k', by rw [hs], h2, fun h => by rw [hs] at h; cases h⟩
            · rw [if_neg hs]
              have hs' := Bool.eq_false_iff.mpr hs
              obtain ⟨g1, g2, g3, g4, g5, g6, g7⟩ := h3 hs'
              dsimp only at g2 g3 g4
              have h := ih visits k' _ (groupNodes s value 4 c front (x.skip 1)).1 (done ++ [(0, 0)]) todo h2 hs'
                { holds := by
                    rw [List.append_assoc, List.append_assoc]; exact g1
                  stop := by
                    simp only [List.length_append, List.length_cons, List.length_nil] at g3 hstop ⊢; omega
                  room := by
                    simp only [pushesOf_append, pushesOf_cons, pushesOf_nil, hpu']; omega
                  weight := by
                    simp only [weightOf_append, weightOf_cons, weightOf_nil, hwt']; omega
                  covers := fun a => by
                    have h := g7 a
                    simp only [indicesOf_append, indicesOf_cons, indicesOf_nil, hi', List.nil_append, List.append_nil,
                      List.count_append] at h ⊢
                    omega }
                (by omega) (by omega) hb
              have hp : k'.listStart + ((groupNodes s value 4 c front (x.skip 1)).1 ++ (done ++ [(0, 0)])).length
                  = k.listStart + (front ++ done).length + 1 := by
                simp only [List.length_append, List.length_cons, List.length_nil]; omega
              rw [hp] at h
              exact h
          | m + 3 =>
            have hi : Node.indices (c, m + 3) = [c] := by simp [Node.indices]
            have hwt : Node.weight (c, m + 3) = 1 := by simp [Node.weight]
            have hi' : Node.indices (0, 0) = [] := rfl
            have hwt' : Node.weight (0, 0) = 1 := rfl
            have hpu' : Node.pushes (0, 0) = 0 := rfl
            rw [hwt] at hf hv hweight
            rw [hi] at hcov
            have he : passNodes s value (visits + 1) front done ((c, m + 3) :: todo) x
                = passNodes s value visits front (done ++ [(0, 0)]) todo ((x.skip 1).emit value c) := by
              rw [passNodes.eq_def]; dsimp only; rw [if_neg (by simp [hx]), if_neg hd, if_neg hg]; rfl
            rw [he] at hb ⊢
            show ∃ k', (do
              emit c
              setEntry (k.listStart + (front ++ done).length) 0 0
              let stopped ← spend
              if stopped then pure true else walk emit spend fuel (k.listStart + (front ++ done).length + 1) : M Bool) _ = _ ∧ _
            have hfresh : c ∈ targets ∧ c ∉ (x.skip 1).out.map Prod.fst := by
              have h := hcov c
              refine not_emitted (p := indicesOf front ++ indicesOf done ++ ([c] ++ indicesOf todo)) hT ?_ ?_
              · simp only [List.count_append, Decoded.skip]; exact h
              · simp only [List.count_append, List.count_cons_self]; omega
            have hoff' : (x.skip 1).off + (value (x.skip 1).off).2
                ≤ (passNodes s value visits front (done ++ [(0, 0)]) todo ((x.skip 1).emit value c)).2.off := by
              rw [← Decoded.emit_off value c]; exact passNodes_off_le _ _ _ _ _ _ _
            obtain ⟨k1, e1, e2, e3⟩ := E.emit k (x.skip 1) c (E.skip _ _ _ hR) hx hfresh.1 hfresh.2 (hb.mono hoff')
            obtain ⟨k3, f1, f2, f3⟩ := e3
              { k1 with
                coefList := Cells.set k1.coefList (k.listStart + (front ++ done).length) 0
                modeList := Cells.set k1.modeList (k.listStart + (front ++ done).length) 0 } (SameData.refl k1)
            rw [show x.off + 1 = (x.skip 1).off from rfl, bind_of_ok e1, bind_of_ok (setEntry_readAt s _ _ _ _ k1),
              bind_of_ok f1]
            have hl : k3.listStart = k.listStart := f2.2.2.1.trans e2.2.2.1
            have hl' : k3.listEnd = k.listEnd := f2.2.2.2.trans e2.2.2.2
            by_cases hs : ((x.skip 1).emit value c).stopped = true
            · rw [if_pos hs, passNodes_stopped hs, pure_apply]
              exact ⟨k3, by rw [hs, Decoded.emit_off], f3, fun h => by rw [hs] at h; cases h⟩
            · rw [if_neg hs]
              have hs' := Bool.eq_false_iff.mpr hs
              have ha : ArenaHolds k3 k3.listStart (front ++ done ++ (0, 0) :: todo) := by
                rw [hl]; exact f2.holds ((e2.holds harena).setEntry 0 0)
              have h := ih visits k3 _ front (done ++ [(0, 0)]) todo f3 hs'
                { holds := by
                    rw [List.append_assoc, List.append_assoc]
                    rw [List.append_assoc] at ha
                    exact ha
                  stop := by
                    simp only [List.length_append, List.length_cons, List.length_nil]; omega
                  room := by
                    simp only [pushesOf_append, pushesOf_cons, pushesOf_nil, hpu']; omega
                  weight := by
                    simp only [weightOf_append, weightOf_cons, weightOf_nil, hwt']; omega
                  covers := fun a => by
                    have h := hcov a
                    simp only [List.count_cons, List.count_nil] at h
                    simp only [indicesOf_append, indicesOf_cons, indicesOf_nil, hi', List.append_nil,
                      List.count_append, Decoded.emit_out, Decoded.skip, List.map_append, List.map_cons, List.map_nil,
                      List.count_cons, List.count_nil]
                    omega }
                (by omega) (by omega) hb
              have hp : k3.listStart + (front ++ (done ++ [(0, 0)])).length = k.listStart + (front ++ done).length + 1 := by
                simp only [List.length_append, List.length_cons, List.length_nil]; omega
              rw [hp, Decoded.emit_off] at h
              exact h

end

/-! ## The scan order (R11 (c)) -/

theorem perm_of_isPerm64 {l : List Nat} (h : isPerm64 l = true) : l.Perm (List.range 64) := by
  simp only [isPerm64, Bool.and_eq_true, beq_iff_eq, List.all_eq_true, List.contains_iff_mem, List.mem_range] at h
  have hs : (List.range 64).Subperm l := List.nodup_range.subperm fun a ha => h.2 a (List.mem_range.mp ha)
  exact (hs.perm_of_length_le (by rw [h.1, List.length_range])).symm

theorem scan_isPerm64 {p : Params} (h : p.wellFormed = true) : isPerm64 p.scan = true ∧ p.scanAt 0 = 0 := by
  simp only [Params.wellFormed, Bool.and_eq_true, beq_iff_eq] at h
  refine ⟨h.1.1.1.2, ?_⟩
  have h0 := h.1.1.2
  unfold Params.scanAt
  cases hs : p.scan with
  | nil => rfl
  | cons a l => rw [hs] at h0; simpa using h0

theorem scanAt_lt {p : Params} (h : p.wellFormed = true) {c : Nat} (hc : c < 64) : p.scanAt c < 64 := by
  have hp := perm_of_isPerm64 (scan_isPerm64 h).1
  have hl : c < p.scan.length := by rw [hp.length_eq, List.length_range]; exact hc
  rw [Params.scanAt, List.getD_eq_getElem _ _ hl]
  exact List.mem_range.mp (hp.mem_iff.mp (List.getElem_mem hl))

theorem scanAt_inj {p : Params} (h : p.wellFormed = true) {c d : Nat} (hc : c < 64) (hd : d < 64)
    (he : p.scanAt c = p.scanAt d) : c = d := by
  have hp := perm_of_isPerm64 (scan_isPerm64 h).1
  have hc' : c < p.scan.length := by rw [hp.length_eq, List.length_range]; exact hc
  have hd' : d < p.scan.length := by rw [hp.length_eq, List.length_range]; exact hd
  rw [Params.scanAt, Params.scanAt, List.getD_eq_getElem _ _ hc', List.getD_eq_getElem _ _ hd'] at he
  exact (List.Nodup.getElem_inj_iff (hp.nodup_iff.mpr List.nodup_range)).mp he

/-- The indices emitted so far: no index twice, each of them one of `targets` (R490). -/
def Emitted (targets : List Nat) (out : List (Nat × Int)) : Prop :=
  (out.map Prod.fst).Nodup ∧ ∀ e ∈ out, e.1 ∈ targets

theorem Emitted.append {targets : List Nat} {out : List (Nat × Int)} (h : Emitted targets out) {c : Nat} (v : Int)
    (hc : c ∈ targets) (hf : c ∉ out.map Prod.fst) : Emitted targets (out ++ [(c, v)]) := by
  refine ⟨?_, fun e he => ?_⟩
  · rw [List.map_append, List.nodup_append]
    refine ⟨h.1, by simp, fun a ha b hb => ?_⟩
    simp only [List.map_cons, List.map_nil, List.mem_singleton] at hb
    rintro rfl
    exact hf (hb ▸ ha)
  · rcases List.mem_append.mp he with he | he
    · exact h.2 e he
    · rw [List.mem_singleton.mp he]; exact hc

section
variable {p : Params} {targets : List Nat} {out : List (Nat × Int)}

/-- The value at a block position is the one whose index the scan order puts there. -/
theorem valueAt_eq_some (hw : p.wellFormed = true) (ht : ∀ c ∈ targets, c < 64) (h : Emitted targets out) (a : Nat)
    (e : Nat × Int) : valueAt p out a = some e ↔ e ∈ out ∧ p.scanAt e.1 = a := by
  unfold valueAt
  constructor
  · intro he
    exact ⟨List.mem_of_find?_eq_some he, by simpa using List.find?_some he⟩
  · rintro ⟨hm, rfl⟩
    cases hf : out.find? (fun d => p.scanAt d.1 == p.scanAt e.1) with
    | none => exact absurd (by simp) (List.find?_eq_none.mp hf e hm)
    | some d =>
      have hd := List.mem_of_find?_eq_some hf
      have hs : p.scanAt d.1 = p.scanAt e.1 := by simpa using List.find?_some hf
      have h1 := scanAt_inj hw (ht _ (h.2 d hd)) (ht _ (h.2 e hm)) hs
      have h2 := List.inj_on_of_nodup_map h.1 hd hm h1
      rw [h2]

theorem valueAt_eq_none (hw : p.wellFormed = true) (ht : ∀ c ∈ targets, c < 64) (h : Emitted targets out) (a : Nat) :
    valueAt p out a = none ↔ ∀ e ∈ out, p.scanAt e.1 ≠ a := by
  rw [Option.eq_none_iff_forall_ne_some]
  constructor
  · intro hn e he ha
    exact hn e ((valueAt_eq_some hw ht h a e).mpr ⟨he, ha⟩)
  · intro hn e he
    obtain ⟨h1, h2⟩ := (valueAt_eq_some hw ht h a e).mp he
    exact hn e h1 h2

/-- One more coefficient: its own position holds it, and every other one what it held. -/
theorem valueAt_append (hw : p.wellFormed = true) (ht : ∀ c ∈ targets, c < 64) (h : Emitted targets out) {c : Nat} (v : Int)
    (hc : c ∈ targets) (hf : c ∉ out.map Prod.fst) (a : Nat) :
    valueAt p (out ++ [(c, v)]) a = if a = p.scanAt c then some (c, v) else valueAt p out a := by
  have h' := h.append v hc hf
  split
  · rename_i ha
    exact (valueAt_eq_some hw ht h' a _).mpr ⟨by simp, ha.symm⟩
  · rename_i ha
    apply Option.ext
    intro e
    rw [valueAt_eq_some hw ht h', valueAt_eq_some hw ht h, List.mem_append, List.mem_singleton]
    constructor
    · rintro ⟨he | rfl, hs⟩
      · exact ⟨he, hs⟩
      · exact absurd hs.symm ha
    · rintro ⟨he, hs⟩
      exact ⟨Or.inl he, hs⟩

end

/-! ## Full-coefficient mode (R481 to R489) -/

/-- The scan indices the full-coefficient mode decodes (R496). -/
def fullTargets : List Nat := List.range' 1 63

theorem fullTargets_lt : ∀ c ∈ fullTargets, c < 64 := by
  intro c h; have := List.mem_range'_1.mp h; omega

/-- The block before dequantisation. -/
def rawAt (p : Params) (dc : Int) (out : List (Nat × Int)) (a : Nat) : Word :=
  match valueAt p out a with
  | some e => BitVec.ofInt 32 e.2
  | none => if a = 0 then BitVec.ofInt 32 dc else 0

/-- What a full-coefficient decode has left in the scratch. -/
structure FullScratch (p : Params) (dc : Int) (k : CoefScratch) (x : Decoded) : Prop where
  left : x.left = none
  stopped : x.stopped = false
  emitted : Emitted fullTargets x.out
  count : k.coefCount = x.out.length
  listed : ∀ (i : Nat) (e : Nat × Int), x.out[i]? = some e → Cells.get k.coefIdx i = some e.1
  blk : ∀ a, a < 64 → Cells.get k.blk a = some (rawAt p dc x.out a)

theorem bitsAt_zero (s : State) (off : Nat) : bitsAt s off 0 = 0 := rfl

theorem coefficientValue_readAt {s : State} {bits off : Nat} (k : CoefScratch) (hb : bits ≤ 32)
    (h : BitsLeft s (off + (bits + 1))) :
    coefficientValue bits (readAt s off k) = .ok (fullValue s bits off).1 (readAt s (off + (bits + 1)) k) := by
  unfold coefficientValue
  by_cases h0 : bits = 0
  · subst h0
    rw [if_pos rfl, bind_of_ok (getBit_readAt k h), pure_apply]
    congr 1
    simp only [fullValue, bitsAt_zero]
    rcases bitsAt_one s off with h1 | h1 <;> simp [h1]
  · rw [if_neg h0, bind_of_ok (getBits_readAt k (by omega) hb (h.mono (by omega))),
      bind_of_ok (getBit_readAt k (by rw [Nat.add_assoc]; exact h)), pure_apply, Nat.add_assoc]
    rfl

theorem getElem?_append_single {α : Type} {l : List α} {a e : α} {i : Nat} (h : (l ++ [a])[i]? = some e) :
    l[i]? = some e ∨ (i = l.length ∧ e = a) := by
  rcases Nat.lt_or_ge i l.length with hi | hi
  · rw [List.getElem?_append_left hi] at h; exact Or.inl h
  · rw [List.getElem?_append_right hi] at h
    have : i - l.length = 0 := by
      by_contra hne
      rw [List.getElem?_eq_none (by simp only [List.length_cons, List.length_nil]; omega)] at h
      cases h
    rw [this] at h
    cases h
    exact Or.inr ⟨by omega, rfl⟩

theorem fullEmitter {s : State} (hw : s.params.wellFormed = true) (dc : Int) {bits : Nat} (hb : bits ≤ 32) :
    Emitter s fullTargets (fullValue s bits) (emitCoefficient bits) (pure false) (FullScratch s.params dc) where
  congr k k' x hs h :=
    { left := h.left
      stopped := h.stopped
      emitted := h.emitted
      count := hs.2.2.1.trans h.count
      listed := fun i e he => by rw [hs.2.1]; exact h.listed i e he
      blk := fun a ha => by rw [hs.1]; exact h.blk a ha }
  skip k x n h := { left := h.left, stopped := h.stopped, emitted := h.emitted, count := h.count, listed := h.listed, blk := h.blk }
  emit k x c h hx hc hf hbits := by
    refine ⟨{ k with
      blk := Cells.set k.blk (s.params.scanAt c) (BitVec.ofInt 32 (fullValue s bits x.off).1)
      coefIdx := Cells.set k.coefIdx k.coefCount c
      coefCount := k.coefCount + 1 }, ?_, ⟨rfl, rfl, rfl, rfl⟩, fun k2 hs => ⟨k2, ?_, ⟨rfl, rfl, rfl, rfl⟩, ?_⟩⟩
    · rw [emitCoefficient, bind_of_ok (coefficientValue_readAt k hb hbits), bind_of_ok (get_apply _)]
      rfl
    · rw [pure_apply]
      have : (x.emit (fullValue s bits) c).stopped = false := by
        simp only [Decoded.emit, Decoded.spend, h.left, hx]
      rw [this]
    · have he : x.emit (fullValue s bits) c
          = { x with off := x.off + (fullValue s bits x.off).2, out := x.out ++ [(c, (fullValue s bits x.off).1)] } := by
        simp only [Decoded.emit, Decoded.spend, h.left]
      rw [he]
      refine { left := h.left, stopped := h.stopped, emitted := h.emitted.append _ hc hf, count := ?_, listed := ?_, blk := ?_ }
      · rw [hs.2.2.1]; simp [h.count]
      · intro i e hi
        rw [hs.2.1]
        rcases getElem?_append_single hi with hi | ⟨rfl, rfl⟩
        · have hl := (List.getElem?_eq_some_iff.mp hi).1
          exact (Cells.get_set_other _ _ (by rw [h.count]; omega)).trans (h.listed i e hi)
        · rw [← h.count]; exact Cells.get_set_same _ _ _
      · intro a ha
        rw [hs.1, Cells.get_set]
        simp only [rawAt, valueAt_append hw fullTargets_lt h.emitted _ hc hf]
        split
        · rfl
        · exact h.blk a ha

/-- A pass decodes what the rules say (R482, R503). -/
theorem pass_decodes {s : State} {targets : List Nat} {value : Nat → Int × Nat} {emit : Nat → M Unit} {spend : M Bool}
    {R : CoefScratch → Decoded → Prop} (E : Emitter s targets value emit spend R) (hT : targets.Nodup) (hf : ArenaFits s)
    (k : CoefScratch) (x : Decoded) (l : List Node) (hR : R k x) (hx : x.stopped = false) (hn : Nodes targets k l x)
    (hb : BitsLeft s (passNodes s value 128 [] [] l x).2.off) :
    ∃ k', pass emit spend (readAt s x.off k)
        = .ok (passNodes s value 128 [] [] l x).2.stopped (readAt s (passNodes s value 128 [] [] l x).2.off k')
      ∧ R k' (passNodes s value 128 [] [] l x).2
      ∧ ((passNodes s value 128 [] [] l x).2.stopped = false →
          Nodes targets k' (passNodes s value 128 [] [] l x).1 (passNodes s value 128 [] [] l x).2) := by
  have hw := hn.weight
  have hcap : 128 ≤ s.params.coefListCapacity := hf
  rw [pass, bind_of_ok (get_apply _)]
  exact walk_decodes E hT (walkFuel s.params) 128 k x [] [] l hR hx hn (by rw [walkFuel]; omega) (by omega) hb

theorem bitPlanes_decodes {s : State} (hf : ArenaFits s) (dc : Int) (n : Nat) (hn : n ≤ 32) (k : CoefScratch) (x : Decoded)
    (l : List Node) (hR : FullScratch s.params dc k x) (hl : Nodes fullTargets k l x)
    (hb : BitsLeft s (fullPlanes s n l x).off) :
    ∃ k', bitPlanes n (readAt s x.off k) = .ok () (readAt s (fullPlanes s n l x).off k')
      ∧ FullScratch s.params dc k' (fullPlanes s n l x) := by
  induction n generalizing k x l with
  | zero => exact ⟨k, rfl, hR⟩
  | succ n ih =>
    have E := fullEmitter (s := s) s.accepted dc (bits := n) (by omega)
    obtain ⟨k1, h1, h2, h3⟩ := pass_decodes E (List.nodup_range' (step := 1)) hf k x l hR hR.stopped hl
      (hb.mono (fullPlanes_off_le _ _ _ _))
    obtain ⟨k2, g1, g2⟩ := ih (by omega) k1 _ _ h2 (h3 h2.stopped) hb
    exact ⟨k2, by rw [bitPlanes, bind_of_ok h1]; exact g1, g2⟩

/-- The three roots both modes start with (R481, R500). -/
theorem startLists_readAt (s : State) (off : Nat) (k : CoefScratch) :
    ∃ k', startLists (readAt s off k) = .ok () (readAt s off k') ∧ k'.listStart = 64 ∧ k'.listEnd = 67 ∧ SameData k k'
      ∧ ArenaHolds k' 64 [(4, 0), (24, 0), (44, 0)] := by
  refine ⟨_, rfl, rfl, rfl, SameData.refl k, ?_⟩
  have h0 : ArenaHolds { k with listStart := 64, listEnd := 64 } 64 [] := fun j e hj => by simp at hj
  exact ((h0.pushBack 4 0 rfl).pushBack 24 0 rfl).pushBack 44 0 rfl

/-- The list a full-coefficient decode starts with (R481). -/
def fullRoots : List Node := [(4, 0), (24, 0), (44, 0), (1, 3), (2, 3), (3, 3)]

theorem fullRoots_cover (a : Nat) : (indicesOf fullRoots).count a = fullTargets.count a := by
  have h : (indicesOf fullRoots).Perm fullTargets := by decide
  exact h.count_eq a

/-- What `CoefDecode` leaves: the coefficients of the rules, and the quantiser index from its source (R481, R491). -/
theorem coefDecode_decodes {s : State} (hf : ArenaFits s) (dc : Int) (src : QSource)
    (hblk : ∀ a, a < 64 → Cells.get s.coef.blk a = some (if a = 0 then BitVec.ofInt 32 dc else 0))
    (hb : BitsLeft s ((fullDecoded s).off + match src with | .stream => 4 | .external _ => 0)) :
    ∃ k', coefDecode src s
        = .ok (match src with | .stream => BitVec.ofNat 4 (bitsAt s (fullDecoded s).off 4) | .external q => q)
            (readAt s ((fullDecoded s).off + match src with | .stream => 4 | .external _ => 0) k')
      ∧ FullScratch s.params dc k' (fullDecoded s) := by
  have hstart : modifyCoef (fun x => { x with coefCount := 0 }) s = .ok () (readAt s 0 { s.coef with coefCount := 0 }) := by
    conv_lhs => rw [← readAt_zero s]
    rfl
  unfold coefDecode
  rw [bind_of_ok hstart]
  obtain ⟨k0, h0, hs, he, hd, ha⟩ := startLists_readAt s 0 { s.coef with coefCount := 0 }
  rw [bind_of_ok h0, bind_of_ok (pushBack_readAt _ _ _ _ _), bind_of_ok (pushBack_readAt _ _ _ _ _),
    bind_of_ok (pushBack_readAt _ _ _ _ _)]
  have hoff : 4 ≤ (fullDecoded s).off :=
    fullPlanes_off_le s (bitsAt s 0 4) fullRoots { off := 4, left := none, out := [], stopped := false }
  rw [bind_of_ok (getBits_readAt _ (by omega) (by omega) (hb.mono (by omega))), Nat.zero_add]
  have htop : bitsAt s 0 4 < 16 := bitsAt_lt s 0 4
  have b1 := ha.pushBack 1 3 he
  have b2 := b1.pushBack 2 3 (by simp only [he, List.length_append, List.length_cons, List.length_nil])
  have b3 := b2.pushBack 3 3 (by simp only [he, List.length_append, List.length_cons, List.length_nil])
  obtain ⟨k1, h1, h2⟩ := bitPlanes_decodes hf dc (bitsAt s 0 4) (by omega)
    { k0 with
      coefList := Cells.set (Cells.set (Cells.set k0.coefList k0.listEnd 1) (k0.listEnd + 1) 2) (k0.listEnd + 1 + 1) 3
      modeList := Cells.set (Cells.set (Cells.set k0.modeList k0.listEnd 3) (k0.listEnd + 1) 3) (k0.listEnd + 1 + 1) 3
      listEnd := k0.listEnd + 1 + 1 + 1 }
    { off := 4, left := none, out := [], stopped := false } fullRoots
    { left := rfl
      stopped := rfl
      emitted := ⟨List.nodup_nil, fun e h => by cases h⟩
      count := hd.2.2.1
      listed := fun i e h => by cases h
      blk := fun a ha => by
        show Cells.get k0.blk a = _
        rw [hd.1]
        exact hblk a ha }
    { holds := by rw [show _ = _ from hs]; exact b3
      stop := by
        show k0.listEnd + 1 + 1 + 1 = k0.listStart + 6
        omega
      room := by
        show 60 ≤ k0.listStart
        omega
      weight := by decide
      covers := fun a => by
        rw [fullRoots_cover]
        rfl }
    (hb.mono (Nat.le_add_right _ _))
  rw [bind_of_ok h1]
  cases src with
  | stream =>
    refine ⟨k1, ?_, h2⟩
    have hb' : BitsLeft s ((fullDecoded s).off + 4) := hb
    show (getBits 4 >>= fun q => pure (BitVec.ofNat 4 q)) (readAt s (fullDecoded s).off k1) = _
    rw [bind_of_ok (getBits_readAt (n := 4) k1 (by omega) (by omega) hb'), pure_apply]
  | external q => exact ⟨k1, rfl, h2⟩

/-! ## Dequantise (R492) -/

theorem dequantiseAt_of_written {s : State} {a : Nat} {x : Word} (q : Nat) (h : Cells.get s.coef.blk a = some x) :
    dequantiseAt a q s = .ok () (s.setCoef { s.coef with blk := Cells.set s.coef.blk a (scaledBy x q) }) := by
  rw [dequantiseAt, bind_of_ok (get_apply _), h, bind_of_ok (getOr_some _ _ _)]
  rfl

/-- Dequantising the listed places, none of them twice: each holds its scaled value, and the others what they held. -/
theorem forEach_dequantise {matrix : Nat → Nat} (cs : List Nat) (i : Nat) {s : State} (w : Nat → Word)
    (hl : ∀ j c, cs[j]? = some c → Cells.get s.coef.coefIdx (i + j) = some c)
    (hb : ∀ a, a < 64 → Cells.get s.coef.blk a = some (w a)) (hlt : ∀ c ∈ cs, s.params.scanAt c < 64)
    (hd : (cs.map s.params.scanAt).Nodup) :
    ∃ blk, forEach (List.range' i cs.length) (fun i => do
          let c ← getOr (Cells.get s.coef.coefIdx i) .unwrittenField
          dequantiseAt (s.params.scanAt c) (matrix c)) s = .ok () (s.setCoef { s.coef with blk := blk })
      ∧ (∀ c ∈ cs, Cells.get blk (s.params.scanAt c) = some (scaledBy (w (s.params.scanAt c)) (matrix c)))
      ∧ ∀ a, a < 64 → (∀ c ∈ cs, s.params.scanAt c ≠ a) → Cells.get blk a = some (w a) := by
  induction cs generalizing i s w with
  | nil => exact ⟨s.coef.blk, rfl, fun c h => by simp at h, fun a ha _ => hb a ha⟩
  | cons c cs ih =>
    have hc := hl 0 c rfl
    have hca := hlt c List.mem_cons_self
    have hd' := List.nodup_cons.mp (show (s.params.scanAt c :: cs.map s.params.scanAt).Nodup from hd)
    rw [List.length_cons, List.range'_succ, forEach_cons]
    rw [Nat.add_zero] at hc
    obtain ⟨blk, h1, h2, h3⟩ := ih (i + 1)
      (s := s.setCoef { s.coef with blk := Cells.set s.coef.blk (s.params.scanAt c) (scaledBy (w (s.params.scanAt c)) (matrix c)) })
      (fun a => if a = s.params.scanAt c then scaledBy (w (s.params.scanAt c)) (matrix c) else w a)
      (fun j d hj => by
        have := hl (j + 1) d (by simpa using hj)
        rwa [Nat.add_assoc, Nat.add_comm 1 j])
      (fun a ha => by
        show Cells.get (Cells.set s.coef.blk _ _) a = _
        rw [Cells.get_set]
        split
        · rfl
        · exact hb a ha)
      (fun d hd => hlt d (List.mem_cons_of_mem _ hd)) hd'.2
    refine ⟨blk, ?_, fun d hdm => ?_, fun a ha hn => ?_⟩
    · rw [bind_of_ok (a := ()) (s1 := s.setCoef { s.coef with
          blk := Cells.set s.coef.blk (s.params.scanAt c) (scaledBy (w (s.params.scanAt c)) (matrix c)) })]
      · exact h1
      · rw [hc, bind_of_ok (getOr_some _ _ _)]
        exact dequantiseAt_of_written _ (hb _ hca)
    · rcases List.mem_cons.mp hdm with rfl | hdm
      · refine (h3 _ hca fun e he hs => hd'.1 ?_).trans (by simp)
        exact List.mem_map.mpr ⟨e, he, hs⟩
      · refine (h2 d hdm).trans ?_
        have : s.params.scanAt d ≠ s.params.scanAt c := fun hs => hd'.1 (List.mem_map.mpr ⟨d, hdm, hs⟩)
        exact congrArg (fun v => some (scaledBy v (matrix d))) (if_neg this)
    · refine (h3 a ha fun e he => hn e (List.mem_cons_of_mem _ he)).trans ?_
      rw [if_neg (Ne.symm (hn c List.mem_cons_self))]

/-- Cells that hold the values of a function, as a list. -/
theorem slice_of_get {α : Type} {m : Cells α} {f : Nat → α} (n i : Nat) (h : ∀ a, a < n → Cells.get m (i + a) = some (f (i + a))) :
    Cells.slice m i n = some ((List.range' i n).map f) := by
  induction n generalizing i with
  | zero => rfl
  | succ n ih =>
    have h0 := h 0 (by omega)
    rw [Nat.add_zero] at h0
    rw [Cells.slice, h0, ih (i + 1) fun a ha => by
      have := h (a + 1) (by omega)
      rwa [show i + (a + 1) = i + 1 + a by omega] at this]
    simp [List.range'_succ]

/-- What Dequantise makes of a decoded block (R492, R496). -/
theorem dequantise_decodes {s : State} (hw : s.params.wellFormed = true) (matrix : Nat → Nat) (dc : Int) (x : Decoded)
    (h : FullScratch s.params dc s.coef x) :
    ∃ blk, dequantise matrix s = .ok () (s.setCoef { s.coef with blk := blk })
      ∧ Cells.slice blk 0 64 = some (blockOf s.params matrix dc x.out) := by
  have hz := (scan_isPerm64 hw).2
  have hne : ∀ e ∈ x.out, s.params.scanAt e.1 ≠ 0 := fun e he hs => by
    have ht := h.emitted.2 e he
    have := scanAt_inj hw (fullTargets_lt _ ht) (by omega) (hs.trans hz.symm)
    have h1 := List.mem_range'_1.mp ht
    omega
  have h0 : valueAt s.params x.out 0 = none := (valueAt_eq_none hw fullTargets_lt h.emitted 0).mpr hne
  have hb0 : Cells.get s.coef.blk 0 = some (BitVec.ofInt 32 dc) := by
    rw [h.blk 0 (by omega), rawAt, h0]; rfl
  obtain ⟨blk, h1, h2, h3⟩ := forEach_dequantise (matrix := matrix) (x.out.map Prod.fst) 0
    (s := s.setCoef { s.coef with blk := Cells.set s.coef.blk 0 (scaledBy (BitVec.ofInt 32 dc) (matrix 0)) })
    (fun a => if a = 0 then scaledBy (BitVec.ofInt 32 dc) (matrix 0) else rawAt s.params dc x.out a)
    (fun j c hj => by
      rw [List.getElem?_map] at hj
      obtain ⟨e, he, rfl⟩ := Option.map_eq_some_iff.mp hj
      rw [Nat.zero_add]
      exact h.listed j e he)
    (fun a ha => by
      show Cells.get (Cells.set s.coef.blk 0 _) a = _
      rw [Cells.get_set]
      split
      · rfl
      · exact h.blk a ha)
    (fun c hc => by
      obtain ⟨e, he, rfl⟩ := List.mem_map.mp hc
      exact scanAt_lt hw (fullTargets_lt _ (h.emitted.2 e he)))
    (by
      refine (List.nodup_map_iff_inj_on h.emitted.1).mpr fun c hc d hd hs => ?_
      obtain ⟨e, he, rfl⟩ := List.mem_map.mp hc
      obtain ⟨f, hf, rfl⟩ := List.mem_map.mp hd
      exact scanAt_inj hw (fullTargets_lt _ (h.emitted.2 e he)) (fullTargets_lt _ (h.emitted.2 f hf)) hs)
  refine ⟨blk, ?_, ?_⟩
  · rw [dequantise, bind_of_ok (dequantiseAt_of_written _ hb0), bind_of_ok (get_apply _)]
    have hlen : (x.out.map Prod.fst).length = s.coef.coefCount := by rw [List.length_map, h.count]
    rw [hlen, ← List.range_eq_range'] at h1
    exact h1
  · have hs : Cells.slice blk 0 64 = some ((List.range' 0 64).map fun a =>
        match valueAt s.params x.out a with
        | some (c, v) => scaledBy (BitVec.ofInt 32 v) (matrix c)
        | none => if a = 0 then scaledBy (BitVec.ofInt 32 dc) (matrix 0) else 0) := by
      apply slice_of_get
      intro a ha
      rw [Nat.zero_add]
      cases hv : valueAt s.params x.out a with
      | some e =>
        obtain ⟨hm, hsc⟩ := (valueAt_eq_some hw fullTargets_lt h.emitted a e).mp hv
        have ha0 : a ≠ 0 := fun hz => hne e hm (hsc.trans hz)
        have := h2 e.1 (List.mem_map.mpr ⟨e, hm, rfl⟩)
        have hsc' : (s.setCoef { s.coef with blk := Cells.set s.coef.blk 0 (scaledBy (BitVec.ofInt 32 dc) (matrix 0)) }).params.scanAt e.1 = a := hsc
        rw [hsc', if_neg ha0, rawAt, hv] at this
        exact this
      | none =>
        have := h3 a ha fun c hc => by
          obtain ⟨e, he, rfl⟩ := List.mem_map.mp hc
          exact (valueAt_eq_none hw fullTargets_lt h.emitted a).mp hv e he
        rw [this, rawAt, hv]
        split <;> rfl
    exact hs

/-! ## Residual mode (R500 to R506) -/

/-- The scan indices the residual mode decodes (R506). -/
def residualTargets : List Nat := List.range' 0 64

theorem residualTargets_lt : ∀ c ∈ residualTargets, c < 64 := by
  intro c h; have := List.mem_range'_1.mp h; omega

/-- What a residual decode has left in the scratch. -/
structure ResidualScratch (p : Params) (k : CoefScratch) (x : Decoded) : Prop where
  emitted : Emitted residualTargets x.out
  count : k.nzCount = x.out.length
  listed : ∀ (i : Nat) (e : Nat × Int), x.out[i]? = some e → Cells.get k.nz i = some (p.scanAt e.1)
  res : ∀ a, a < 64 → Cells.get k.res a = some (residualAt p x.out a)
  budget : x.stopped = false → ∃ n : Nat, x.left = some n ∧ k.budget = (n : Int)

theorem ResidualScratch.congr {p : Params} {k k' : CoefScratch} {x : Decoded} (hs : SameData k k')
    (h : ResidualScratch p k x) : ResidualScratch p k' x :=
  { emitted := h.emitted
    count := hs.2.2.2.2.2.1.trans h.count
    listed := fun i e he => by rw [hs.2.2.2.2.1]; exact h.listed i e he
    res := fun a ha => by rw [hs.2.2.2.1]; exact h.res a ha
    budget := fun hx => by rw [hs.2.2.2.2.2.2]; exact h.budget hx }

/-- `Spend()` on a scratch that holds the budget (R505). -/
theorem spendBudget_decodes {p : Params} {s : State} {off : Nat} {k : CoefScratch} {x : Decoded}
    (hx : x.stopped = false) (h : ResidualScratch p k x) :
    ∃ k', spendBudget (readAt s off k) = .ok x.spend.stopped (readAt s off k') ∧ SameLists k k'
      ∧ ResidualScratch p k' x.spend := by
  obtain ⟨n, hn, hk⟩ := h.budget hx
  refine ⟨{ k with budget := k.budget - 1 }, ?_, ⟨rfl, rfl, rfl, rfl⟩, ?_⟩
  · rw [spendBudget, bind_of_ok (modifyCoef_readAt _ _ _ _), bind_of_ok (get_apply _), pure_apply]
    congr 1
    show decide (k.budget - 1 < 0) = _
    rw [hk, Decoded.spend, hn]
    cases n with
    | zero => rfl
    | succ n => simp [hx]
  · refine { emitted := ?_, count := ?_, listed := ?_, res := ?_, budget := ?_ }
    · rw [Decoded.spend_out]; exact h.emitted
    · rw [Decoded.spend_out]; exact h.count
    · rw [Decoded.spend_out]; exact h.listed
    · rw [Decoded.spend_out]; exact h.res
    · intro hs
      rw [Decoded.spend, hn] at hs ⊢
      cases n with
      | zero => simp at hs
      | succ n => exact ⟨n, rfl, by show k.budget - 1 = _; rw [hk]; push_cast; omega⟩

theorem residualEmitter {s : State} (hw : s.params.wellFormed = true) (n : Nat) :
    Emitter s residualTargets (residualValue s n) (emitResidual (2 ^ n)) spendBudget (ResidualScratch s.params) where
  congr k k' x hs h := h.congr hs
  skip k x n h := { emitted := h.emitted, count := h.count, listed := h.listed, res := h.res, budget := h.budget }
  emit k x c h hx hc hf hbits := by
    have hv : (if bitsAt s x.off 1 = 1 then -((2 ^ n : Nat) : Int) else ((2 ^ n : Nat) : Int)) = (residualValue s n x.off).1 := by
      simp only [residualValue]; push_cast; rfl
    have hR : ResidualScratch s.params
        { k with
          nz := Cells.set k.nz k.nzCount (s.params.scanAt c)
          nzCount := k.nzCount + 1
          res := Cells.set k.res (s.params.scanAt c) (residualValue s n x.off).1 }
        { x with off := x.off + 1, out := x.out ++ [(c, (residualValue s n x.off).1)] } := by
      refine { emitted := h.emitted.append _ hc hf, count := ?_, listed := ?_, res := ?_, budget := h.budget }
      · simp [h.count]
      · intro i e hi
        rcases getElem?_append_single hi with hi | ⟨rfl, rfl⟩
        · have hl := (List.getElem?_eq_some_iff.mp hi).1
          exact (Cells.get_set_other _ _ (by rw [h.count]; omega)).trans (h.listed i e hi)
        · rw [← h.count]; exact Cells.get_set_same _ _ _
      · intro a ha
        rw [Cells.get_set, residualAt, valueAt_append hw residualTargets_lt h.emitted _ hc hf]
        split
        · rfl
        · exact h.res a ha
    refine ⟨{ k with
      nz := Cells.set k.nz k.nzCount (s.params.scanAt c)
      nzCount := k.nzCount + 1
      res := Cells.set k.res (s.params.scanAt c) (residualValue s n x.off).1 }, ?_, ⟨rfl, rfl, rfl, rfl⟩, fun k2 hs => ?_⟩
    · rw [emitResidual, bind_of_ok (get_apply _), bind_of_ok (modifyCoef_readAt _ _ _ _), bind_of_ok (getBit_readAt _ hbits), hv]
      rfl
    · obtain ⟨k3, h1, h2, h3⟩ := spendBudget_decodes (s := s) (off := x.off + 1)
        (x := { x with off := x.off + 1, out := x.out ++ [(c, (residualValue s n x.off).1)] }) hx (hR.congr hs)
      exact ⟨k3, h1, h2, h3⟩

/-- A refined value stands at the place of the old one. -/
theorem valueAt_replace {p : Params} (hw : p.wellFormed = true) {done todo : List (Nat × Int)} {c : Nat} {v : Int} (v' : Int)
    (h : Emitted residualTargets (done ++ (c, v) :: todo)) (a : Nat) :
    Emitted residualTargets (done ++ (c, v') :: todo) ∧ valueAt p (done ++ (c, v') :: todo) a
      = if a = p.scanAt c then some (c, v') else valueAt p (done ++ (c, v) :: todo) a := by
  have h' : Emitted residualTargets (done ++ (c, v') :: todo) := by
    refine ⟨by simpa using h.1, fun e he => ?_⟩
    rcases List.mem_append.mp he with he | he
    · exact h.2 e (List.mem_append_left _ he)
    · rcases List.mem_cons.mp he with rfl | he
      · exact h.2 (c, v) (by simp)
      · exact h.2 e (List.mem_append_right _ (List.mem_cons_of_mem _ he))
  refine ⟨h', ?_⟩
  split
  · rename_i ha
    exact (valueAt_eq_some hw residualTargets_lt h' a _).mpr ⟨by simp, ha.symm⟩
  · rename_i ha
    apply Option.ext
    intro e
    rw [valueAt_eq_some hw residualTargets_lt h', valueAt_eq_some hw residualTargets_lt h]
    simp only [List.mem_append, List.mem_cons]
    constructor
    · rintro ⟨he | rfl | he, hs⟩
      · exact ⟨Or.inl he, hs⟩
      · exact absurd hs.symm ha
      · exact ⟨Or.inr (Or.inr he), hs⟩
    · rintro ⟨he | rfl | he, hs⟩
      · exact ⟨Or.inl he, hs⟩
      · exact absurd hs.symm ha
      · exact ⟨Or.inr (Or.inr he), hs⟩

theorem refineValues_fst (s : State) (n : Nat) (done todo : List (Nat × Int)) (x : Decoded) :
    (refineValues s n done todo x).out.map Prod.fst = (done ++ todo).map Prod.fst := by
  induction todo generalizing done x with
  | nil => simp [refineValues]
  | cons e todo ih =>
    obtain ⟨c, v⟩ := e
    rw [refineValues]
    split
    · rfl
    · split
      · rw [ih]; simp
      · rw [ih]; simp

theorem refine_decodes {s : State} (hw : s.params.wellFormed = true) (n : Nat) (done todo : List (Nat × Int))
    (k : CoefScratch) (x : Decoded) (hR : ResidualScratch s.params k { x with out := done ++ todo })
    (hx : x.stopped = false) (hb : BitsLeft s (refineValues s n done todo x).off) :
    ∃ k', refine (2 ^ n) (List.range' done.length todo.length) (readAt s x.off k)
        = .ok (refineValues s n done todo x).stopped (readAt s (refineValues s n done todo x).off k')
      ∧ SameLists k k' ∧ ResidualScratch s.params k' (refineValues s n done todo x) := by
  induction todo generalizing done k x with
  | nil =>
    rw [List.append_nil] at hR
    exact ⟨k, by rw [List.length_nil, List.range'_zero, refine, pure_apply]; simp [refineValues, hx], ⟨rfl, rfl, rfl, rfl⟩, hR⟩
  | cons e todo ih =>
    obtain ⟨c, v⟩ := e
    have hoff : x.off + 1 ≤ (refineValues s n done ((c, v) :: todo) x).off := by
      rw [refineValues, if_neg (by simp [hx])]
      split
      · refine Nat.le_trans ?_ (refineValues_off_le _ _ _ _ _)
        rw [Decoded.spend_off]; exact Nat.le_refl _
      · exact refineValues_off_le s n _ _ (x.skip 1)
    rw [List.length_cons, List.range'_succ, refine, bind_of_ok (getBit_readAt k (hb.mono hoff))]
    by_cases hbit : bitsAt s x.off 1 = 1
    · have he : refineValues s n done ((c, v) :: todo) x
          = refineValues s n (done ++ [(c, if v < 0 then v - 2 ^ n else v + 2 ^ n)]) todo (x.skip 1).spend := by
        rw [refineValues, if_neg (by simp [hx]), if_pos hbit]
      rw [he] at hb ⊢
      rw [if_pos hbit, bind_of_ok (get_apply _)]
      have hnz := hR.listed done.length (c, v) (by simp)
      have hcm : (c, v) ∈ done ++ (c, v) :: todo := by simp
      have hct := residualTargets_lt _ (hR.emitted.2 _ hcm)
      have hres := hR.res (s.params.scanAt c) (scanAt_lt hw hct)
      rw [residualAt, (valueAt_eq_some hw residualTargets_lt hR.emitted _ _).mpr ⟨hcm, rfl⟩] at hres
      rw [show Cells.get (readAt s (x.off + 1) k).coef.nz done.length = some (s.params.scanAt c) from hnz,
        bind_of_ok (getOr_some _ _ _),
        show Cells.get (readAt s (x.off + 1) k).coef.res (s.params.scanAt c) = some v from hres,
        bind_of_ok (getOr_some _ _ _), bind_of_ok (modifyCoef_readAt _ _ _ _)]
      have hm : (if v < 0 then v - ((2 ^ n : Nat) : Int) else v + ((2 ^ n : Nat) : Int))
          = if v < 0 then v - 2 ^ n else v + 2 ^ n := by push_cast; rfl
      rw [hm]
      generalize hv' : (if v < 0 then v - 2 ^ n else v + 2 ^ n) = v' at hb ⊢
      have hR' : ResidualScratch s.params { k with res := Cells.set k.res (s.params.scanAt c) v' }
          { x.skip 1 with out := (done ++ [(c, v')]) ++ todo } := by
        have hrep := valueAt_replace hw v' hR.emitted
        simp only [List.append_assoc, List.cons_append, List.nil_append]
        refine { emitted := (hrep 0).1, count := ?_, listed := fun i e hi => ?_, res := fun a ha => ?_, budget := hR.budget }
        · have := hR.count
          simp only [List.length_append, List.length_cons] at this ⊢
          exact this
        · rcases Nat.lt_trichotomy i done.length with h | h | h
          · refine hR.listed i e ?_
            simp only [List.getElem?_append_left h] at hi ⊢
            exact hi
          · subst h
            rw [List.getElem?_append_right (Nat.le_refl _), Nat.sub_self] at hi
            cases hi
            exact hnz
          · refine hR.listed i e ?_
            rw [List.getElem?_append_right (by omega)] at hi
            dsimp only
            rw [List.getElem?_append_right (by omega)]
            obtain ⟨j, hj⟩ : ∃ j, i - done.length = j + 1 := ⟨i - done.length - 1, by omega⟩
            rw [hj, List.getElem?_cons_succ] at hi ⊢
            exact hi
        · dsimp only
          rw [Cells.get_set, residualAt, (hrep a).2]
          split
          · rfl
          · exact hR.res a ha
      obtain ⟨k1, h1, h2, h3⟩ := spendBudget_decodes (s := s) (off := x.off + 1) (x := { x.skip 1 with out := (done ++ [(c, v')]) ++ todo })
        hx hR'
      have hsp : Decoded.spend { x.skip 1 with out := (done ++ [(c, v')]) ++ todo }
          = { (x.skip 1).spend with out := (done ++ [(c, v')]) ++ todo } := by
        simp only [Decoded.spend, Decoded.skip]
        split <;> simp_all
      rw [hsp] at h1 h3
      rw [bind_of_ok h1]
      by_cases hs : (x.skip 1).spend.stopped = true
      · rw [if_pos hs, refineValues_stopped hs, pure_apply]
        refine ⟨k1, ?_, h2, h3⟩
        rw [Decoded.spend_off, hs]
        rfl
      · rw [if_neg hs]
        obtain ⟨k', g1, g2, g3⟩ := ih (done ++ [(c, v')]) k1 (x.skip 1).spend h3 (Bool.eq_false_iff.mpr hs) hb
        refine ⟨k', ?_, SameLists.trans h2 g2, g3⟩
        rw [Decoded.spend_off, List.length_append] at g1
        exact g1
    · have he : refineValues s n done ((c, v) :: todo) x = refineValues s n (done ++ [(c, v)]) todo (x.skip 1) := by
        rw [refineValues, if_neg (by simp [hx]), if_neg hbit]
      rw [he] at hb ⊢
      rw [if_neg hbit]
      obtain ⟨k', g1, g2, g3⟩ := ih (done ++ [(c, v)]) k (x.skip 1)
        (by
          simp only [List.append_assoc, List.cons_append, List.nil_append]
          exact { emitted := hR.emitted, count := hR.count, listed := hR.listed, res := hR.res, budget := hR.budget })
        hx hb
      refine ⟨k', ?_, g2, g3⟩
      rw [List.length_append] at g1
      exact g1

theorem residualPlanes_decodes {s : State} (hf : ArenaFits s) (n : Nat) (k : CoefScratch) (x : Decoded) (l : List Node)
    (hR : ResidualScratch s.params k x) (hx : x.stopped = false) (hl : Nodes residualTargets k l x)
    (hb : BitsLeft s (residualMasks s n l x).off) :
    ∃ k', residualPlanes n (readAt s x.off k) = .ok () (readAt s (residualMasks s n l x).off k')
      ∧ ResidualScratch s.params k' (residualMasks s n l x) := by
  induction n generalizing k x l with
  | zero => exact ⟨k, rfl, hR⟩
  | succ n ih =>
    have hp := passNodes_off_le s (residualValue s n) 128 [] [] l (refineValues s n [] x.out x)
    have hm := residualMasks_off_le s n (passNodes s (residualValue s n) 128 [] [] l (refineValues s n [] x.out x)).1
      (passNodes s (residualValue s n) 128 [] [] l (refineValues s n [] x.out x)).2
    obtain ⟨k1, h1, h2, h3⟩ := refine_decodes s.accepted n [] x.out k x hR hx (hb.mono (Nat.le_trans hp hm))
    have hlen : x.out.length = k.nzCount := hR.count.symm
    rw [List.length_nil, hlen, ← List.range_eq_range'] at h1
    rw [residualPlanes, bind_of_ok (get_apply _)]
    rw [show (readAt s x.off k).coef.nzCount = k.nzCount from rfl, bind_of_ok h1]
    by_cases hs : (refineValues s n [] x.out x).stopped = true
    · have he : residualMasks s (n + 1) l x = refineValues s n [] x.out x := by
        rw [residualMasks]
        have : (passNodes s (residualValue s n) 128 [] [] l (refineValues s n [] x.out x)).2 = refineValues s n [] x.out x :=
          passNodes_stopped hs
        rw [this, residualMasks_stopped hs]
      rw [if_pos hs, pure_apply, he]
      exact ⟨k1, rfl, h3⟩
    · rw [if_neg hs]
      have hl1 : Nodes residualTargets k1 l (refineValues s n [] x.out x) :=
        { holds := by rw [h2.2.2.1]; exact h2.holds hl.holds
          stop := by rw [h2.2.2.1, h2.2.2.2]; exact hl.stop
          room := by rw [h2.2.2.1]; exact hl.room
          weight := hl.weight
          covers := fun a => by rw [refineValues_fst]; exact hl.covers a }
      obtain ⟨k2, g1, g2, g3⟩ := pass_decodes (residualEmitter s.accepted n) (List.nodup_range' (step := 1)) hf k1 _ l h3
        (Bool.eq_false_iff.mpr hs) hl1 (hb.mono hm)
      rw [bind_of_ok g1]
      by_cases ht : (passNodes s (residualValue s n) 128 [] [] l (refineValues s n [] x.out x)).2.stopped = true
      · rw [if_pos ht, pure_apply, residualMasks, residualMasks_stopped ht]
        exact ⟨k2, rfl, g2⟩
      · rw [if_neg ht]
        exact ih k2 _ _ g2 (Bool.eq_false_iff.mpr ht) (g3 (Bool.eq_false_iff.mpr ht)) hb

/-- What a RESIDUE block's budget and `ResidualDecode` leave: the residual of the rules (R416, R500). -/
theorem residualDecode_decodes {s : State} (hf : ArenaFits s) (hb : BitsLeft s (residualDecoded s).off) :
    ∃ k', (do
          let n ← getBits 7
          residualDecode n) s = .ok () (readAt s (residualDecoded s).off k')
      ∧ ResidualScratch s.params k' (residualDecoded s) := by
  have hoff : 10 ≤ (residualDecoded s).off :=
    residualMasks_off_le s (bitsAt s 7 3 + 1) [(4, 0), (24, 0), (44, 0), (0, 2)]
      { off := 10, left := some (bitsAt s 0 7), out := [], stopped := false }
  have h7 := getBits_readAt (s := s) (off := 0) (n := 7) s.coef (by omega) (by omega) (hb.mono (by omega))
  rw [readAt_zero] at h7
  rw [bind_of_ok h7, residualDecode, bind_of_ok (modifyCoef_readAt _ _ _ _)]
  obtain ⟨k0, h0, hs, he, hd, ha⟩ := startLists_readAt s (0 + 7)
    { s.coef with res := Cells.setFrom [] 0 (List.replicate 64 0), nzCount := 0, budget := (bitsAt s 0 7 : Int) }
  rw [bind_of_ok h0, bind_of_ok (pushBack_readAt _ _ _ _ _),
    bind_of_ok (getBits_readAt _ (by omega) (by omega) (hb.mono (by omega))), Nat.zero_add]
  refine residualPlanes_decodes hf (bitsAt s 7 3 + 1) _ { off := 10, left := some (bitsAt s 0 7), out := [], stopped := false }
    [(4, 0), (24, 0), (44, 0), (0, 2)]
    { emitted := ⟨List.nodup_nil, fun e h => by cases h⟩
      count := hd.2.2.2.2.2.1
      listed := fun i e h => by cases h
      res := fun a h => ?_
      budget := fun _ => ⟨bitsAt s 0 7, rfl, hd.2.2.2.2.2.2⟩ } rfl
    { holds := by rw [show _ = _ from hs]; exact ha.pushBack 0 2 he
      stop := by
        show k0.listEnd + 1 = k0.listStart + 4
        omega
      room := by
        show 64 ≤ k0.listStart
        omega
      weight := by decide
      covers := fun a => by
        have h : (indicesOf [(4, 0), (24, 0), (44, 0), (0, 2)]).Perm residualTargets := by decide
        rw [h.count_eq]
        rfl } hb
  show Cells.get k0.res a = some 0
  rw [hd.2.2.2.1, Cells.get_setFrom, if_pos ⟨by omega, by rw [List.length_replicate]; omega⟩, List.getElem?_replicate,
    if_pos (by omega)]

/-- Every value is a nonzero one whose magnitude leaves room for the masks below `m`. -/
def Bounded (m : Int) (out : List (Nat × Int)) : Prop := ∀ e ∈ out, -(256 - m) ≤ e.2 ∧ e.2 ≤ 256 - m

theorem Bounded.emit {m : Int} {s : State} {n c : Nat} {x : Decoded} (hm : m = 2 ^ n) (hn : n ≤ 7) (h : Bounded m x.out) :
    Bounded m (x.emit (residualValue s n) c).out := by
  intro e he
  rw [Decoded.emit_out, List.mem_append, List.mem_singleton] at he
  rcases he with he | rfl
  · exact h e he
  · have h2 : (2 : Int) ^ n ≤ 2 ^ 7 := by exact_mod_cast Nat.pow_le_pow_right (by omega) hn
    have h3 : (0 : Int) < 2 ^ n := by positivity
    simp only [residualValue]
    split <;> constructor <;> omega

theorem Bounded.group {m : Int} {s : State} {n : Nat} (hm : m = 2 ^ n) (hn : n ≤ 7) (j c : Nat) (front : List Node)
    (x : Decoded) (h : Bounded m x.out) : Bounded m (groupNodes s (residualValue s n) j c front x).2.out := by
  induction j generalizing c front x with
  | zero => exact h
  | succ j ih =>
    rw [groupNodes]
    split
    · exact h
    · split
      · exact ih _ _ _ h
      · exact ih _ _ _ (Bounded.emit (x := x.skip 1) hm hn h)

theorem Bounded.pass {m : Int} {s : State} {n : Nat} (hm : m = 2 ^ n) (hn : n ≤ 7) (v : Nat) (front done todo : List Node)
    (x : Decoded) (h : Bounded m x.out) : Bounded m (passNodes s (residualValue s n) v front done todo x).2.out := by
  induction v generalizing front done todo x with
  | zero => exact h
  | succ v ih =>
    match todo with
    | [] => exact h
    | (c, d) :: todo =>
      rw [passNodes.eq_def]
      dsimp only
      split
      · exact h
      · split
        · exact ih _ _ _ _ h
        · split
          · exact ih _ _ _ _ h
          · split
            · exact ih _ _ _ _ (Bounded.group hm hn _ _ _ (x.skip 1) h)
            · exact ih _ _ _ (x.skip 1) h
            · exact ih _ _ _ _ (Bounded.group hm hn _ _ _ (x.skip 1) h)
            · exact ih _ _ _ _ (Bounded.emit (x := x.skip 1) hm hn h)

theorem Bounded.refine {s : State} {n : Nat} (done todo : List (Nat × Int)) (x : Decoded) (hd : Bounded (2 ^ n) done)
    (ht : Bounded (2 ^ (n + 1)) todo) : Bounded (2 ^ n) (refineValues s n done todo x).out := by
  have h3 : (0 : Int) < 2 ^ n := by positivity
  have h4 : (2 : Int) ^ (n + 1) = 2 ^ n + 2 ^ n := by rw [pow_succ]; omega
  have hweak : ∀ l, Bounded (2 ^ (n + 1)) l → Bounded (2 ^ n) l := fun l hl e he => by
    have := hl e he; constructor <;> omega
  induction todo generalizing done x with
  | nil => exact hd
  | cons e todo ih =>
    obtain ⟨c, v⟩ := e
    have hv := ht (c, v) List.mem_cons_self
    have ht' : Bounded (2 ^ (n + 1)) todo := fun e he => ht e (List.mem_cons_of_mem _ he)
    have happ : ∀ w, -(256 - 2 ^ n) ≤ w → w ≤ 256 - 2 ^ n → Bounded (2 ^ n) (done ++ [(c, w)]) := fun w h1 h2 e he => by
      rcases List.mem_append.mp he with he | he
      · exact hd e he
      · rw [List.mem_singleton.mp he]; exact ⟨h1, h2⟩
    dsimp only at hv
    rw [refineValues]
    split
    · intro e he
      rcases List.mem_append.mp he with he | he
      · exact hd e he
      · exact hweak _ ht e he
    · split
      · refine ih _ _ (happ _ ?_ ?_) ht' <;> split <;> omega
      · exact ih _ _ (happ _ (by omega) (by omega)) ht'

/-- Every residual lies in -255..255. -/
theorem residualDecoded_bounds (s : State) : ∀ e ∈ (residualDecoded s).out, -255 ≤ e.2 ∧ e.2 ≤ 255 := by
  have key : ∀ (n : Nat) (l : List Node) (x : Decoded), n ≤ 8 → Bounded (2 ^ n) x.out →
      Bounded 1 (residualMasks s n l x).out := by
    intro n
    induction n with
    | zero => intro l x _ h; exact h
    | succ n ih =>
      intro l x hn h
      exact ih _ _ (by omega) (Bounded.pass rfl (by omega) _ _ _ _ _ (Bounded.refine [] x.out x (fun e he => by cases he) h))
  have h3 := bitsAt_lt s 7 3
  have := key (bitsAt s 7 3 + 1) [(4, 0), (24, 0), (44, 0), (0, 2)]
    { off := 10, left := some (bitsAt s 0 7), out := [], stopped := false } (by omega) (fun e he => by cases he)
  intro e he
  have hb := this e he
  constructor <;> omega

/-! ## The decode is one of the bits alone -/

theorem groupNodes_congr {s t : State} (h : ∀ off n, bitsAt s off n = bitsAt t off n) {u v : Nat → Int × Nat} (huv : u = v)
    (n c : Nat) (front : List Node) (x : Decoded) : groupNodes s u n c front x = groupNodes t v n c front x := by
  subst huv
  induction n generalizing c front x with
  | zero => rfl
  | succ n ih => rw [groupNodes, groupNodes, h]; simp only [ih]

theorem passNodes_congr {s t : State} (h : ∀ off n, bitsAt s off n = bitsAt t off n) {u v : Nat → Int × Nat} (huv : u = v)
    (n : Nat) (front done todo : List Node) (x : Decoded) :
    passNodes s u n front done todo x = passNodes t v n front done todo x := by
  subst huv
  induction n generalizing front done todo x with
  | zero => rfl
  | succ n ih =>
    match todo with
    | [] => rfl
    | (c, m) :: todo =>
      rw [passNodes.eq_def s, passNodes.eq_def t]
      simp only [h, groupNodes_congr h rfl, ih]

theorem fullDecoded_congr {s t : State} (h : ∀ off n, bitsAt s off n = bitsAt t off n) : fullDecoded s = fullDecoded t := by
  have hv : ∀ k, fullValue s k = fullValue t k := fun k => by funext off; simp only [fullValue, h]
  have key : ∀ n l x, fullPlanes s n l x = fullPlanes t n l x := by
    intro n
    induction n with
    | zero => intro l x; rfl
    | succ n ih => intro l x; simp only [fullPlanes, passNodes_congr h (hv n), ih]
  rw [fullDecoded, fullDecoded, h, key]

theorem residualDecoded_congr {s t : State} (h : ∀ off n, bitsAt s off n = bitsAt t off n) :
    residualDecoded s = residualDecoded t := by
  have hv : ∀ k, residualValue s k = residualValue t k := fun k => by funext off; simp only [residualValue, h]
  have hr : ∀ k done todo x, refineValues s k done todo x = refineValues t k done todo x := by
    intro k done todo
    induction todo generalizing done with
    | nil => intro x; rfl
    | cons e todo ih =>
      obtain ⟨c, v⟩ := e
      intro x
      simp only [refineValues, h, ih]
  have key : ∀ n l x, residualMasks s n l x = residualMasks t n l x := by
    intro n
    induction n with
    | zero => intro l x; rfl
    | succ n ih => intro l x; simp only [residualMasks, passNodes_congr h (hv n), hr, ih]
  rw [residualDecoded, residualDecoded, h, h, key]

end Sys2Proof.Machine
end

