-- ==== Sys2Proof/Laws/Float.lean ====
section
/-! SUPPORT. The quantiser entries: each is the real value of R575 rounded once. -/

namespace Sys2Proof.Machine

/-- The next binary32 after magnitude bits `m` is one unit of the last place on. -/
theorem f32Size_succ {m : Nat} (hm : m < 0x7F800000) :
    f32Size (m + 1) = f32Size m + 2 ^ f32Scale (BitVec.ofNat 32 m) := by
  have e0 : (BitVec.ofNat 32 m).toNat = m := by simp; omega
  have e1 : (BitVec.ofNat 32 (m + 1)).toNat = m + 1 := by simp; omega
  simp only [f32Size, f32Significand, f32Scale, f32Exponent, f32Fraction, e0, e1]
  by_cases hf : m % 2 ^ 23 + 1 < 2 ^ 23
  · have h1 : (m + 1) / 2 ^ 23 % 256 = m / 2 ^ 23 % 256 := by omega
    have h2 : (m + 1) % 2 ^ 23 = m % 2 ^ 23 + 1 := by omega
    rw [h1, h2]
    split <;> (push_cast; ring)
  · have h1 : (m + 1) / 2 ^ 23 % 256 = m / 2 ^ 23 % 256 + 1 := by omega
    have h2 : (m + 1) % 2 ^ 23 = 0 := by omega
    have h3 : m % 2 ^ 23 = 2 ^ 23 - 1 := by omega
    rw [h1, h2, h3, if_neg (Nat.succ_ne_zero _), if_neg (Nat.succ_ne_zero _)]
    split
    · rename_i h
      rw [h]
      norm_num
    · have e : (((m / 2 ^ 23 % 256 + 1 : ℕ) : ℤ) - 150) = ((m / 2 ^ 23 % 256 : ℕ) : ℤ) - 150 + 1 := by push_cast; ring
      rw [e, zpow_add₀ (by norm_num)]
      norm_num
      ring

theorem f32Size_le_succ {m : Nat} (hm : m < 0x7F800000) : f32Size m ≤ f32Size (m + 1) := by
  rw [f32Size_succ hm]
  exact le_add_of_nonneg_right (by positivity)

/-- `aboveMidpoint` compares with the midpoint after `m`. -/
theorem aboveMidpoint_iff {a m : Nat} {root : F32} (ha : 0 < a) (hr : 0 < f32Significand root) (hm : m < 0x7F800000) :
    aboveMidpoint a root m = true
      ↔ ((f32Size m + f32Size (m + 1) : ℚ) : ℝ)
        < 2 * (Real.exp ((a : ℝ) / (10 ^ 20 : ℕ)) * (f32Significand root * 2 ^ f32Scale root)) := by
  have hr' : (0 : ℝ) < f32Significand root := by exact_mod_cast hr
  simp only [aboveMidpoint]
  rw [expAbove_iff _ ha (by positivity) (by positivity), f32Size_succ hm]
  simp only [f32Size]
  generalize f32Significand (BitVec.ofNat 32 m) = g
  generalize f32Scale (BitVec.ofNat 32 m) = k
  generalize Real.exp ((a : ℝ) / (10 ^ 20 : ℕ)) = y
  generalize f32Scale root = r
  have e : (2 : ℝ) ^ k = 2 * 2 ^ r * (2 ^ (k - 1 - r).toNat / 2 ^ (-(k - 1 - r)).toNat) := by
    have h : (2 : ℝ) ^ (k - 1 - r) = 2 ^ (k - 1 - r).toNat / 2 ^ (-(k - 1 - r)).toNat := by
      rcases le_total 0 (k - 1 - r) with h | h
      · rw [show (-(k - 1 - r)).toNat = 0 by omega, pow_zero, div_one, ← zpow_natCast, Int.toNat_of_nonneg h]
      · rw [show (k - 1 - r).toNat = 0 by omega, pow_zero, one_div, ← zpow_natCast, Int.toNat_of_nonneg (by omega),
          zpow_neg, inv_inv]
    rw [← h, show k = 1 + r + (k - 1 - r) by ring, zpow_add₀ (by norm_num), zpow_add₀ (by norm_num), zpow_one]
    congr 2
    ring
  push_cast
  rw [e, div_lt_iff₀ (by positivity)]
  generalize (k - 1 - r).toNat = u
  generalize (-(k - 1 - r)).toNat = v
  have h2 : (0 : ℝ) < 2 * 2 ^ r / 2 ^ v := by positivity
  have l : (g : ℝ) * (2 * 2 ^ r * (2 ^ u / 2 ^ v)) + (g * (2 * 2 ^ r * (2 ^ u / 2 ^ v)) + 2 * 2 ^ r * (2 ^ u / 2 ^ v))
      = 2 * 2 ^ r / 2 ^ v * ((2 * g + 1) * 2 ^ u) := by ring
  have l' : 2 * (y * (f32Significand root * 2 ^ r)) = 2 * 2 ^ r / 2 ^ v * (y * (f32Significand root * 2 ^ v)) := by
    field_simp
  rw [l, l', mul_lt_mul_iff_right₀ h2]

/-- The magnitude found is the first that the value is not above the midpoint after. -/
theorem nearestMagnitude_spec {above : Nat → Bool} (k : Nat) {n : Nat} (h0 : n ≤ 0x7F800000)
    (h1 : 0 < n → above (n - 1) = true) (h2 : n + 2 ^ k ≤ 0x7F800000 → above (n + 2 ^ k - 1) = false) :
    nearestMagnitude above k n ≤ 0x7F800000
      ∧ (0 < nearestMagnitude above k n → above (nearestMagnitude above k n - 1) = true)
      ∧ (nearestMagnitude above k n < 0x7F800000 → above (nearestMagnitude above k n) = false) := by
  induction k generalizing n with
  | zero => exact ⟨h0, h1, fun h => h2 (by simpa [nearestMagnitude] using h)⟩
  | succ k ih =>
    rw [nearestMagnitude]
    split
    · rename_i h
      refine ih h.1 (fun _ => h.2) fun h3 => ?_
      have e : n + 2 ^ k + 2 ^ k = n + 2 ^ (k + 1) := by rw [pow_succ]; ring
      rw [e] at h3 ⊢
      exact h2 h3
    · rename_i h
      refine ih h0 h1 fun h3 => ?_
      simpa using fun h4 => h ⟨h3, h4⟩

/-- A value is its own rounding. -/
theorem roundsTo_self {m : Nat} (hm : m ≤ 0x7F800000) : RoundsTo (f32Size m) m := by
  refine ⟨hm, fun h => ?_, fun h => ?_⟩
  · have := f32Size_le_succ (m := m - 1) (by omega)
    rw [Nat.sub_add_cancel h] at this
    have h' : ((f32Size (m - 1) : ℚ) : ℝ) ≤ f32Size m := by exact_mod_cast this
    linarith
  · have h' : ((f32Size m : ℚ) : ℝ) ≤ f32Size (m + 1) := by exact_mod_cast f32Size_le_succ h
    linarith

/-- The magnitude bits of a pattern, with its sign, are the pattern. -/
theorem f32OfParts_self (x : F32) : f32OfParts (f32Negative x) (x.toNat % 2 ^ 31) = x := by
  have hx := x.isLt
  apply BitVec.eq_of_toNat_eq
  simp only [f32OfParts, f32Negative, BitVec.toNat_ofNat, ← BitVec.testBit_toNat, Nat.testBit_eq_decide_div_mod_eq,
    decide_eq_true_eq]
  split <;> omega

/-- The size of a finite pattern's magnitude bits is that of its significand and scale. -/
theorem f32Size_magnitude (x : F32) :
    f32Size (x.toNat % 2 ^ 31) = (f32Significand x : ℚ) * (2 : ℚ) ^ f32Scale x := by
  have hx := x.isLt
  have e : (BitVec.ofNat 32 (x.toNat % 2 ^ 31)).toNat = x.toNat % 2 ^ 31 := by simp; omega
  have h1 : f32Exponent (BitVec.ofNat 32 (x.toNat % 2 ^ 31)) = f32Exponent x := by
    rw [f32Exponent, f32Exponent, e]; omega
  have h2 : f32Fraction (BitVec.ofNat 32 (x.toNat % 2 ^ 31)) = f32Fraction x := by
    rw [f32Fraction, f32Fraction, e]; omega
  rw [f32Size, f32Significand, f32Scale, h1, h2]
  rfl

/-- Entry `i` of `QTable` is `exp(i * AUDIO_Q_CONST) * root` rounded once, for a finite root and any constant (R575). -/
theorem qtabEntry_rounds (step : Nat) {root : F32} (i : Nat) (hr : f32Exponent root ≠ 255) :
    ∃ m, qtabEntry step root i = f32OfParts (f32Negative root) m
      ∧ RoundsTo (Real.exp (((i * step : ℕ) : ℝ) / (10 ^ 20 : ℕ)) * (f32Size (root.toNat % 2 ^ 31) : ℚ)) m := by
  have hlt : root.toNat % 2 ^ 31 ≤ 0x7F800000 := by
    simp only [f32Exponent] at hr
    have := root.isLt
    omega
  by_cases h : f32Significand root = 0 ∨ i * step = 0
  · refine ⟨root.toNat % 2 ^ 31, by rw [qtabEntry, if_pos (.inr h), f32OfParts_self], ?_⟩
    have e : Real.exp (((i * step : ℕ) : ℝ) / (10 ^ 20 : ℕ)) * (f32Size (root.toNat % 2 ^ 31) : ℚ)
        = (f32Size (root.toNat % 2 ^ 31) : ℚ) := by
      rcases h with h | h
      · have e : f32Size (root.toNat % 2 ^ 31) = 0 := by rw [f32Size_magnitude, h]; simp
        rw [e]
        simp
      · simp [h]
    rw [e]
    exact roundsTo_self hlt
  · have ha : 0 < i * step := by omega
    have hs : 0 < f32Significand root := by omega
    refine ⟨_, by rw [qtabEntry, if_neg (by tauto)], ?_⟩
    obtain ⟨h0, h1, h2⟩ := nearestMagnitude_spec (above := aboveMidpoint (i * step) root) 31 (n := 0) (by decide)
      (by omega) (by omega)
    have e : (((f32Size (root.toNat % 2 ^ 31) : ℚ)) : ℝ) = f32Significand root * 2 ^ f32Scale root := by
      rw [f32Size_magnitude]; push_cast; rfl
    rw [e]
    refine ⟨h0, fun h => ?_, fun h => ?_⟩
    · have := (aboveMidpoint_iff ha hs (by omega)).1 (h1 h)
      rw [Nat.sub_add_cancel h] at this
      push_cast at this
      push_cast
      exact this.le
    · have := mt (aboveMidpoint_iff ha hs h).2 (by rw [h2 h]; decide)
      push_cast at this
      push_cast
      exact not_lt.1 this

end Sys2Proof.Machine
end

