-- ==== Sys2Proof/Laws/Steps.lean ====
section
/-! SUPPORT. How a relation between states carries through a sequence of steps, an outcome and a step of the machine: what a
proof of an invariant or of a frame cites instead of unfolding the sequences. -/

namespace Sys2Proof.Machine

variable {α β : Type} {R : State → State → Prop}

/-- Started at `s`, the sequence ends in a state that `R` relates to `s`, whether it answers or raises an error; a stop of
the model leaves no state. -/
def KeepsAt (R : State → State → Prop) (m : M α) (s : State) : Prop :=
  match m s with
  | .ok _ t => R s t
  | .error (.raised _) t => R s t
  | .error (.refused _) _ => True
  | .error (.faulted _) _ => True

/-- `KeepsAt` at every state. -/
def Keeps (R : State → State → Prop) (m : M α) : Prop := ∀ s, KeepsAt R m s

theorem KeepsAt.of_ok {m : M α} {s t : State} {a : α} (h : KeepsAt R m s) (hm : m s = .ok a t) : R s t := by
  simpa only [KeepsAt, hm] using h

theorem KeepsAt.of_raised {m : M α} {s t : State} {c : Cause} (h : KeepsAt R m s)
    (hm : m s = .error (.raised c) t) : R s t := by
  simpa only [KeepsAt, hm] using h

/-- Sequencing: the rest need only keep `R` from the states the first part leads to. -/
theorem KeepsAt.bind (htrans : ∀ s t u, R s t → R t u → R s u) {m : M α} {f : α → M β} {s : State} (hm : KeepsAt R m s)
    (hf : ∀ a t, m s = .ok a t → KeepsAt R (f a) t) : KeepsAt R (m >>= f) s := by
  cases h : m s with
  | ok a t =>
    have h1 : R s t := hm.of_ok h
    have h2 := hf a t h
    simp only [KeepsAt, bind_of_ok h] at h2 ⊢
    split at h2
    · exact htrans _ _ _ h1 h2
    · exact htrans _ _ _ h1 h2
    · trivial
    · trivial
  | error e t =>
    simp only [KeepsAt, bind_of_error h]
    simp only [KeepsAt, h] at hm
    cases e with
    | raised c => exact hm
    | refused r => trivial
    | faulted f => trivial

theorem Keeps.bind (htrans : ∀ s t u, R s t → R t u → R s u) {m : M α} {f : α → M β} (hm : Keeps R m)
    (hf : ∀ a, Keeps R (f a)) : Keeps R (m >>= f) :=
  fun s => KeepsAt.bind htrans (hm s) fun a t _ => hf a t

theorem Keeps.pure (hrefl : ∀ s, R s s) (a : α) : Keeps R (Pure.pure a : M α) := fun s => hrefl s

theorem Keeps.get (hrefl : ∀ s, R s s) : Keeps R (MonadState.get : M State) := fun s => hrefl s

theorem Keeps.raise (hrefl : ∀ s, R s s) (c : Cause) : Keeps R (Machine.raise c : M α) := fun s => hrefl s

theorem Keeps.refuse (r : Refusal) : Keeps R (Machine.refuse r : M α) := fun _ => trivial

theorem Keeps.modify {f : State → State} (h : ∀ s, R s (f s)) : Keeps R (modify f : M PUnit) := fun s => h s

theorem KeepsAt.set {s t : State} (h : R s t) : KeepsAt R (MonadStateOf.set t : M PUnit) s := h

theorem Keeps.check (hrefl : ∀ s, R s s) (ok : Bool) (c : Cause) : Keeps R (Machine.check ok c) := by
  cases ok
  · exact Keeps.raise hrefl c
  · exact Keeps.pure hrefl ()

theorem Keeps.demand (hrefl : ∀ s, R s s) (ok : Bool) (r : Refusal) : Keeps R (Machine.demand ok r) := by
  cases ok
  · exact Keeps.refuse r
  · exact Keeps.pure hrefl ()

theorem Keeps.getOr (hrefl : ∀ s, R s s) (x : Option α) (r : Refusal) : Keeps R (Machine.getOr x r) := by
  cases x
  · exact Keeps.refuse r
  · exact Keeps.pure hrefl _

theorem Keeps.forEach (hrefl : ∀ s, R s s) (htrans : ∀ s t u, R s t → R t u → R s u) {f : α → M Unit}
    (hf : ∀ a, Keeps R (f a)) (l : List α) : Keeps R (Machine.forEach l f) := by
  induction l with
  | nil => exact Keeps.pure hrefl ()
  | cons x xs ih => exact Keeps.bind htrans (hf x) fun _ => ih

theorem Keeps.readMany (hrefl : ∀ s, R s s) (htrans : ∀ s t u, R s t → R t u → R s u) {f : M α} (hf : Keeps R f)
    (n : Nat) : Keeps R (Machine.readMany f n) := by
  induction n with
  | zero => exact Keeps.pure hrefl _
  | succ n ih => exact Keeps.bind htrans hf fun _ => Keeps.bind htrans ih fun _ => Keeps.pure hrefl _

theorem Keeps.atPhase (hrefl : ∀ s, R s s) (x : Phase) : Keeps R (Machine.atPhase x) := by
  intro s
  rw [Machine.atPhase, KeepsAt, bind_of_ok (get_apply s)]
  exact Keeps.demand hrefl _ _ s

theorem Keeps.whileIdle (hrefl : ∀ s, R s s) : Keeps R Machine.whileIdle := by
  intro s
  rw [Machine.whileIdle, KeepsAt, bind_of_ok (get_apply s)]
  exact Keeps.demand hrefl _ _ s

/-- A read of the bit reader keeps `R` if moving the position inside the packet does. -/
theorem Keeps.getBits (hrefl : ∀ s, R s s) (hpos : ∀ s n, s.bitPos + n ≤ s.bitSize → R s (s.setPos (s.bitPos + n)))
    (n : Nat) : Keeps R (Machine.getBits n) := by
  intro s
  by_cases h1 : 1 ≤ n ∧ n ≤ 32
  · by_cases h2 : s.bitPos + n ≤ s.bitSize
    · rw [KeepsAt, getBits_of_fits h1.1 h1.2 h2]
      exact hpos s n h2
    · rw [KeepsAt, getBits_of_underrun h1.1 h1.2 (by omega)]
      exact hrefl s
  · have hf : (decide (1 ≤ n) && decide (n ≤ 32)) = false := by
      simp only [Bool.and_eq_false_iff, decide_eq_false_iff_not]; omega
    rw [Machine.getBits, hf]
    exact trivial

theorem Keeps.decodeSymbolFrom (hrefl : ∀ s, R s s) (htrans : ∀ s t u, R s t → R t u → R s u)
    (hpos : ∀ s n, s.bitPos + n ≤ s.bitSize → R s (s.setPos (s.bitPos + n))) (codes : List (Nat × Nat))
    (fuel j acc : Nat) : Keeps R (Machine.decodeSymbolFrom codes fuel j acc) := by
  induction fuel generalizing j acc with
  | zero => exact Keeps.refuse _
  | succ fuel ih =>
    refine Keeps.bind htrans (Keeps.getBits hrefl hpos 1) fun b => ?_
    dsimp only
    split
    · exact Keeps.pure hrefl _
    · exact ih _ _

theorem Keeps.decodeSymbol (hrefl : ∀ s, R s s) (htrans : ∀ s t u, R s t → R t u → R s u)
    (hpos : ∀ s n, s.bitPos + n ≤ s.bitSize → R s (s.setPos (s.bitPos + n))) (sh : BitVec 4) :
    Keeps R (Machine.decodeSymbol sh) := by
  intro s
  rw [Machine.decodeSymbol, KeepsAt, bind_of_ok (get_apply s)]
  by_cases h : sh = 0 ∧ s.params.codes 0 = identityCode
  · rw [if_pos h]
    exact Keeps.bind htrans (Keeps.getBits hrefl hpos 4) (fun _ => Keeps.pure hrefl _) s
  · rw [if_neg h]
    exact Keeps.decodeSymbolFrom hrefl htrans hpos (s.params.codes sh) _ 1 0 s

/-- One Huffman symbol keeps `R` if moving the position inside the packet does. -/
theorem Keeps.huff (hrefl : ∀ s, R s s) (htrans : ∀ s t u, R s t → R t u → R s u)
    (hpos : ∀ s n, s.bitPos + n ≤ s.bitSize → R s (s.setPos (s.bitPos + n))) (r : TreeRef) :
    Keeps R (Machine.huff r) := by
  intro s
  rw [Machine.huff, KeepsAt, bind_of_ok (get_apply s)]
  exact Keeps.bind htrans (Keeps.decodeSymbol hrefl htrans hpos _) (fun _ => Keeps.getOr hrefl _ _) s

/-- Taking a bundle value keeps `R` if moving a read cursor up to its write cursor does. -/
theorem Keeps.getValue (hrefl : ∀ s, R s s)
    (hrd : ∀ s b, (s.bundle b).rd < (s.bundle b).wr →
      R s (s.setBundle b { s.bundle b with rd := (s.bundle b).rd + 1 })) (b : BundleId) :
    Keeps R (Machine.getValue b) := by
  intro s
  by_cases h : (s.bundle b).rd < (s.bundle b).wr
  · cases hv : Cells.get (s.bundle b).buf (s.bundle b).rd with
    | some v => rw [KeepsAt, getValue_of_buffered h hv]; exact hrd s b h
    | none =>
      rw [Machine.getValue, KeepsAt, bind_of_ok (get_apply s), bind_of_ok (check_of_true _ s (by simp [h])), hv]
      exact trivial
  · rw [KeepsAt, getValue_of_empty (by omega)]
    exact hrefl s

/-- Writing a pixel keeps `R` if a write inside the buffer does. -/
theorem Keeps.writeCur (hpix : ∀ s p x a v, s.plane p = some x → x.inRange a = true →
      R s (s.setPlane p { x with cur := Cells.set x.cur a v })) (p : PlaneId) (a : Nat) (v : Byte) :
    Keeps R (Machine.writeCur p a v) := by
  intro s
  cases hp : s.plane p with
  | none =>
    rw [Machine.writeCur, KeepsAt, bind_of_error (planeOf_of_absent hp)]
    exact trivial
  | some x =>
    cases hr : x.inRange a with
    | true => rw [KeepsAt, writeCur_of_inRange v hp hr]; exact hpix s p x a v hp hr
    | false =>
      rw [Machine.writeCur, KeepsAt, bind_of_ok (planeOf_of_present hp), hr]
      exact trivial

/-- Reading a pixel of `last` changes nothing. -/
theorem Keeps.readLast (hrefl : ∀ s, R s s) (p : PlaneId) (a : Nat) : Keeps R (Machine.readLast p a) := by
  intro s
  cases hp : s.plane p with
  | none =>
    rw [Machine.readLast, KeepsAt, bind_of_error (planeOf_of_absent hp)]
    exact trivial
  | some x =>
    rw [Machine.readLast, KeepsAt, bind_of_ok (planeOf_of_present hp)]
    cases hr : x.inRange a with
    | false => exact trivial
    | true =>
      rw [bind_of_ok (demand_of_true _ s rfl)]
      cases Cells.get x.last a
      · exact hrefl s
      · exact hrefl s

/-! ## From sequences to outcomes and steps -/

/-- What an instruction's meaning leads to, when its sequence keeps `R` and taking an error does. -/
theorem run_keeps (htrans : ∀ s t u, R s t → R t u → R s u) {m : M Unit} {s t : State} (hm : KeepsAt R m s)
    (herr : ∀ c u, m s = .error (.raised c) u → R u (takeError c u)) (h : run m s = .next t) : R s t := by
  rcases run_next_inv h with hok | ⟨c, u, hc, rfl⟩
  · exact hm.of_ok hok
  · exact htrans _ _ _ (hm.of_raised hc) (herr c u hc)

/-- All that a step can do: the sequencer acts alone, or fetches an instruction that then runs, or raises an error that
is taken. -/
theorem step_next_inv {s t : State} (h : step s = .next t) :
    sequence s = .ok none t
      ∨ (∃ i u, sequence s = .ok (some i) u ∧ exec i u = .next t)
      ∨ ∃ c u, sequence s = .error (.raised c) u ∧ t = takeError c u := by
  simp only [step, finish] at h
  split at h
  next i u hs => exact Or.inr (Or.inl ⟨i, u, hs, h⟩)
  next u hs => cases h; exact Or.inl hs
  next c u hs => cases h; exact Or.inr (Or.inr ⟨c, u, hs, rfl⟩)
  next => cases h
  next => cases h

theorem step_of_fetched {s u : State} {i : Instr} (h : sequence s = .ok (some i) u) : step s = exec i u := by
  simp only [step, finish, h]

theorem step_of_alone {s u : State} (h : sequence s = .ok none u) : step s = .next u := by
  simp only [step, finish, h]

theorem step_of_raised {s u : State} {c : Cause} (h : sequence s = .error (.raised c) u) :
    step s = .next (takeError c u) := by
  simp only [step, finish, h]

theorem fetched_of_decode {sp : CodeSpace} {w : Nat} {i : Instr} (s : State) (h : decode sp w = .ok i) :
    fetched sp w s = .ok (some i) s := by
  simp only [fetched, h]
  rfl

end Sys2Proof.Machine
end

