-- ==== Sys2Proof/Tests/Slice0.lean ====
section
/-! SUPPORT. Tests: the well-formedness checks, a word written out for every constructor, and single steps on small states.
The expected values are those of the vectors of spec/95_test_vectors.md, or counted by hand from the rule a comment names.
At the end stand the witnesses of the statements' hypotheses. -/

namespace Sys2Proof.Machine

-- One theorem at a time: side by side, their kernel evaluations start more threads than the memory limit admits.
set_option Elab.async false

/-! ## Helpers -/

/-- The next state, where there is one. -/
def next? (o : Host.Outcome State Fault Refusal) : Option State :=
  match o with
  | .next s => some s
  | _ => none

/-- An instantiation: every OPEN table a plain one that passes R11, and the candidate row shift. No test on a value that
depends on it is a claim about the hardware. -/
def testParams : Params :=
  { sourceParams with
    vlc := List.replicate 16 identityCode
    runPatterns := List.replicate 16 (List.range 64)
    quantIntra := List.replicate 16 (List.replicate 64 4096)
    quantInter := List.replicate 16 (List.replicate 64 4096)
    scan := List.range 64
    idctRowShift := 12 }

theorem testParams_wellFormed : testParams.wellFormed = true := by decide +kernel

/-- The reset state of that instantiation. -/
def start : State := State.reset.setInst { params := testParams, accepted := testParams_wellFormed }

/-- The state on another configuration that passes R11. -/
def withParams (s : State) (p : Params) (h : p.wellFormed = true) : State := s.setInst { params := p, accepted := h }

/-- The start state with the bytes placed at address 0 of CONTAINER and the reader opened on them. -/
def packet (bytes : List Byte) : State :=
  (start.setContainer (Memory.setBytes [] 0 bytes)).setBr
    { base := 0, sizeBits := BitVec.ofNat 32 (8 * bytes.length), pos := 0 }

/-- The identity tree. -/
def idTree : Tree := { shape := 0, syms := Cells.setFrom [] 0 leaves }

/-- A bundle that holds the given values. -/
def holding (vs : List Int) : Bundle :=
  { Bundle.reset with len := 10, tree := idTree, buf := Cells.setFrom [] 0 vs, wr := vs.length, cap := 64 }

/-- PlaneStart before the tree of RUN. -/
def atTree (bytes : List Byte) : State :=
  (packet bytes).setCtl { Ctl.reset with phase := .trees, agenda := [.tree (.bundle .run)] }

/-- RowRefill before bundle `b`, every tree the identity, in a session of the given version. -/
def atRefill (version : Byte) (b : BundleId) (bytes : List Byte) : State :=
  ((((packet bytes).setSession { Session.reset with version := version }).setColHigh (List.replicate 16 idTree)).setBundle
    b (holding [])).setCtl { Ctl.reset with phase := .refill, refills := [b] }

/-- The symbol loop of BLOCK_TYPES, with `room` values to come after a last literal 6. -/
def atSymbol (room : Nat) (bytes : List Byte) : State :=
  ((packet bytes).setBundle .blockTypes (holding [])).setCtl
    { Ctl.reset with phase := .btSym, refills := [.blockTypes], stop := room, lastLit := 6 }

/-- An 8x8 luma plane whose `last` is 0x10 throughout. -/
def grayPlane : Plane := { lumaPlane .poison 8 8 with last := (List.range 256).map fun i => (i, 0x10) }

/-- The block cursor at the first block of that plane, the bundles holding the given values. -/
def atBlock (ph : Phase) (vs : List (BundleId × List Int)) (bytes : List Byte) : State :=
  vs.foldl (fun s v => s.setBundle v.1 (holding v.2))
    (((packet bytes).setPlane .y grayPlane).setCtl { Ctl.reset with phase := ph })

/-- The pixels of `cur` after a step that went on. -/
def pixels (o : Host.Outcome State Fault Refusal) : Option (Cells Byte) := (next? o).bind fun t => (t.plane .y).map Plane.cur

/-- Pixel `a` of `cur` after a step that went on. -/
def pixel (o : Host.Outcome State Fault Refusal) (a : Nat) : Option Byte := (pixels o).bind fun m => Cells.get m a

/-- CAUSE after a step that went on. -/
def causeAfter (o : Host.Outcome State Fault Refusal) : Option Byte := (next? o).map fun t => t.regs.cause

/-- The values of bundle `b` after a step that went on. -/
def valuesAfter (b : BundleId) (o : Host.Outcome State Fault Refusal) : Option (List Int) :=
  (next? o).map fun t => (t.bundle b).buf.map Prod.snd

/-- The reader's position after a step that went on. -/
def posAfter (o : Host.Outcome State Fault Refusal) : Option Nat := (next? o).map State.bitPos

/-- The word a register read returned. -/
def readAfter (o : Host.Outcome State Fault Refusal) : Option Word := (next? o).bind State.readData

/-- A session of 10 frames at frame 3, with register values that differ from one another. -/
def session10 : State :=
  (start.setSession
    { Session.reset with
      version := 0x69, frameCount := 10, curFrame := 3, width := 8, height := 16, fpsNum := 30, fpsDen := 1
      videoFlags := 0x100000, hasAlpha := true, trackCount := 1
      frames := List.replicate 10 { byteOffset := 100, byteSize := 20, isKeyframe := true } }).setRegs
    { Regs.reset with isOpen := true, arg0 := 3, arg1 := 5, cause := 29, res0 := 70, res1 := 71, res2 := 72, bitpos := 73
                      frameKey := true }

/-! ## Well-formedness -/

theorem test_wf_treeList_shape0_refused : (Instr.treeList 0 3).wellFormed = false := by decide
theorem test_wf_treeMerge_shape0_refused : (Instr.treeMerge 0 3).wellFormed = false := by decide
theorem test_wf_refill_count0_refused : (Instr.refillColorsConst 0).wellFormed = false := by decide
theorem test_wf_dc_count0_refused : (Instr.refillInterDc 0).wellFormed = false := by decide
theorem test_wf_accepts :
    (Instr.treeList 15 7).wellFormed && (Instr.refillRunCoded 1).wellFormed && Instr.btRaw.wellFormed = true := by decide

/-! ## Decoding, a word for every constructor (spec/30_encoding.md R220 to R230, R260; spec/10_state.md R60) -/

theorem test_decode_bt4 :
    [0b0000, 0b0001, 0b0010, 0b0011, 0b0100, 0b0101, 0b0110, 0b0111, 0b1000, 0b1001, 0b1010, 0b1011, 0b1100, 0b1101,
        0b1110, 0b1111].map (decode .bt4)
      = [.ok .btSkip, .ok .btScaled, .ok .btMotion, .ok .btRun, .ok .btResidue, .ok .btIntra, .ok .btFill, .ok .btInter,
        .ok .btPattern, .ok .btRaw, .ok .btIllegal10, .ok .btIllegal11, .ok .btIllegal12, .ok .btIllegal13,
        .ok .btIllegal14, .ok .btIllegal15] := rfl

theorem test_decode_st4 :
    [0b0000, 0b0001, 0b0010, 0b0011, 0b0100, 0b0101, 0b0110, 0b0111, 0b1000, 0b1001, 0b1010, 0b1011, 0b1100, 0b1101,
        0b1110, 0b1111].map (decode .st4)
      = [.ok .scaledIllegal0, .ok .scaledIllegal1, .ok .scaledIllegal2, .ok .scaledRun, .ok .scaledIllegal4,
        .ok .scaledIntra, .ok .scaledFill, .ok .scaledIllegal7, .ok .scaledPattern, .ok .scaledRaw, .ok .scaledIllegal10,
        .ok .scaledIllegal11, .ok .scaledIllegal12, .ok .scaledIllegal13, .ok .scaledIllegal14,
        .ok .scaledIllegal15] := rfl

theorem test_decode_btsym :
    [0b0000, 0b0001, 0b0010, 0b0011, 0b0100, 0b0101, 0b0110, 0b0111, 0b1000, 0b1001, 0b1010, 0b1011, 0b1100, 0b1101,
        0b1110, 0b1111].map (decode .btsym)
      = [.ok .btsymLiteral0, .ok .btsymLiteral1, .ok .btsymLiteral2, .ok .btsymLiteral3, .ok .btsymLiteral4,
        .ok .btsymLiteral5, .ok .btsymLiteral6, .ok .btsymLiteral7, .ok .btsymLiteral8, .ok .btsymLiteral9,
        .ok .btsymLiteral10, .ok .btsymLiteral11, .ok .btsymRun4, .ok .btsymRun8, .ok .btsymRun12, .ok .btsymRun32] := rfl

/-- Shape in bits 3 to 0, form in bit 4, count in bits 7 to 5 or k in bits 6 and 5 (R220). -/
theorem test_decode_tree :
    [0b0000, 0b01010011, 0b11111111, 0b1100011, 0b0000001].map (decode .tree)
      = [.ok .treeIdentity, .ok (.treeList 3 2), .ok (.treeList 15 7), .ok (.treeMerge 3 3), .ok (.treeMerge 1 0)] := rfl

theorem test_decode_tree_unused_bits : decode .tree 0b10000 = .error .unusedBits := rfl

/-- A 10-bit count 5 with the escape bit above it (R222). -/
theorem test_decode_refill_const :
    [BundleId.blockTypes, .subBlockTypes, .colors, .pattern, .xOff, .yOff, .run].map
        (fun b => decode (.refill b 10) 0b10000000101)
      = [.ok (.refillBlockTypesConst 5), .ok (.refillSubBlockTypesConst 5), .ok (.refillColorsConst 5),
        .ok (.refillPatternConst 5), .ok (.refillXOffConst 5), .ok (.refillYOffConst 5), .ok (.refillRunConst 5)] := rfl

theorem test_decode_refill_coded :
    [BundleId.blockTypes, .subBlockTypes, .colors, .pattern, .xOff, .yOff, .run, .intraDc, .interDc].map
        (fun b => decode (.refill b 10) 0b00000000101)
      = [.ok (.refillBlockTypesCoded 5), .ok (.refillSubBlockTypesCoded 5), .ok (.refillColorsCoded 5),
        .ok (.refillPatternCoded 5), .ok (.refillXOffCoded 5), .ok (.refillYOffCoded 5), .ok (.refillRunCoded 5),
        .ok (.refillIntraDc 5), .ok (.refillInterDc 5)] := rfl

theorem test_decode_refill_done :
    [decode (.refill .colors 10) 0, decode (.refill .interDc 13) 0, decode (.refill .colors 10) 0b10000000000]
      = [.ok .refillDone, .ok .refillDone, .error .unusedBits] := rfl

/-- The DC bundles have no escape bit (R380). -/
theorem test_decode_refill_dc_no_escape : decode (.refill .intraDc 10) 0b10000000101 = .error .unusedBits := rfl

/-- rle in bit 0, idx in bits 4 to 1 and width in bits 8 to 5, or width in bits 4 to 1 (R230). -/
theorem test_decode_audioRun :
    [0b10010, 0b011101111].map (decode .audioRun) = [.ok (.audioRun8 9), .ok (.audioRunRle 7 7)] := rfl

theorem test_decode_cmd :
    [0x00, 0x01, 0x02, 0x03, 0x04, 0x05, 0x06, 0x07, 0x0D, 0x1A, 0x35, 0x6B, 0xD7].map (decode .cmd)
      = [.ok .cmdIllegal00, .ok .cmdOpen, .ok .cmdClose, .ok .cmdDecodeNextFrame, .ok .cmdSeek, .ok .cmdReadAudio,
        .ok .cmdAudioTrackInfo, .ok .cmdIllegal07, .ok (.cmdIllegal08 5), .ok (.cmdIllegal10 10), .ok (.cmdIllegal20 21),
        .ok (.cmdIllegal40 43), .ok (.cmdIllegal80 87)] := rfl

/-- Bits 31 to 8 are ignored (R652). -/
theorem test_decode_cmd_high_bits : decode .cmd 0x12345601 = .ok .cmdOpen := rfl

theorem test_decode_regWrite :
    [0x0000008C04, 0xFFFFFFFE08].map (decode .regWrite) = [.ok (.wrArg0 140), .ok (.wrArg1 0xFFFFFFFE)] := rfl

theorem test_decode_regRead :
    [0x00, 0x04, 0x08, 0x0C, 0x10, 0x14, 0x18, 0x1C, 0x20, 0x24, 0x28, 0x2C, 0x30, 0x34, 0x38, 0x3C, 0x40, 0x44,
        0x48].map (decode .regRead)
      = [.ok .rdCmd, .ok .rdArg0, .ok .rdArg1, .ok .rdStatus, .ok .rdCause, .ok .rdRes0, .ok .rdRes1, .ok .rdRes2,
        .ok .rdFrameCount, .ok .rdCurFrame, .ok .rdFpsNum, .ok .rdFpsDen, .ok .rdWidth, .ok .rdHeight,
        .ok .rdAudioTracks, .ok .rdVideoFlags, .ok .rdVersion, .ok .rdBitpos, .ok .rdFrameKey] := rfl

theorem test_decode_regRead_unmapped : decode .regRead 0x4C = .error .noSuchRegister := rfl

/-! ## The bit reader (vectors B1, B4, B7, B8) -/

theorem test_getBits_B1_B2 :
    [Memory.packetBits (packet [0xB5, 0x01]).container 0 0 4, Memory.packetBits (packet [0xB5, 0x01]).container 0 4 6]
      = [0x5, 0x1B] := by decide +kernel

theorem test_getBits_B4 :
    getBits 4 ((packet [0xFF]).setPos 6) = .error (.raised .readerUnderrun) ((packet [0xFF]).setPos 6) := rfl

theorem test_alignTo32_B7_B8_B9 :
    [alignedPos { base := 0, sizeBits := 200, pos := 70 }, alignedPos { base := 0, sizeBits := 80, pos := 70 },
      alignedPos { base := 0, sizeBits := 200, pos := 64 }] = [96, 80, 64] := by decide

/-! ## Trees (vectors T3, T4, T6, T7) -/

/-- The symbols of RUN's tree after a step that went on. -/
def symsAfter (o : Host.Outcome State Fault Refusal) : Option (List (BitVec 4)) :=
  (next? o).map fun t => (t.bundle .run).tree.syms.map Prod.snd

theorem test_treeIdentity_T3 :
    symsAfter (step (atTree [0x00])) = some leaves ∧ posAfter (step (atTree [0x00])) = some 4 := by decide +kernel

theorem test_treeList_T4 :
    symsAfter (step (atTree [0x53, 0x39])) = some [9, 3, 0, 1, 2, 4, 5, 6, 7, 8, 10, 11, 12, 13, 14, 15]
      ∧ posAfter (step (atTree [0x53, 0x39])) = some 16 := by decide +kernel

theorem test_treeList_T6 :
    causeAfter (step (atTree [0x53, 0x55])) = some 24 ∧ posAfter (step (atTree [0x53, 0x55])) = some 16 := by
  decide +kernel

theorem test_treeMerge_T7 :
    symsAfter (step (atTree [0x83, 0x00])) = some [1, 0, 2, 3, 4, 5, 6, 7, 8, 9, 10, 11, 12, 13, 14, 15]
      ∧ posAfter (step (atTree [0x83, 0x00])) = some 15 := by decide +kernel

/-! ## Refills (vectors N2, N5, V4 to V16) -/

theorem test_refillDone_N2 :
    (next? (step (atRefill 0x69 .run [0x00, 0x00]))).map (fun t => ((t.bundle .run).done, t.bitPos)) = some (true, 10) := by
  decide +kernel

theorem test_refill_overflow_N5 :
    causeAfter (step ((atRefill 0x69 .run [0x05, 0x00]).setBundle .run
      { holding [] with wr := 60, rd := 60 })) = some 22 := by decide +kernel

theorem test_refillBlockTypesConst_V4 :
    valuesAfter .blockTypes (step (atRefill 0x69 .blockTypes [0x04, 0x5C])) = some [11, 11, 11, 11] := by decide +kernel

theorem test_refillSubBlockTypesConst_V4 :
    valuesAfter .subBlockTypes (step (atRefill 0x69 .subBlockTypes [0x04, 0x5C])) = some [11, 11, 11, 11] := by
  decide +kernel

/-- A coded block-type refill only opens the symbol loop (R360). -/
theorem test_refillBlockTypesCoded_opens :
    (next? (step (atRefill 0x69 .blockTypes [0x09, 0x00]))).map (fun t => (t.ctl.phase, t.ctl.stop, t.bitPos))
      = some (.btSym, 9, 11) := by decide +kernel

theorem test_refillSubBlockTypesCoded_opens :
    (next? (step (atRefill 0x69 .subBlockTypes [0x09, 0x00]))).map (fun t => (t.ctl.phase, t.ctl.stop, t.bitPos))
      = some (.btSym, 9, 11) := by decide +kernel

theorem test_refillColorsCoded_V5 :
    valuesAfter .colors (step (atRefill 0x69 .colors [0x01, 0x20, 0x01])) = some [0x42]
      ∧ (next? (step (atRefill 0x69 .colors [0x01, 0x20, 0x01]))).map State.colLast = some 4 := by decide +kernel

theorem test_refillColorsConst_V6 :
    valuesAfter .colors (step (atRefill 0x69 .colors [0x03, 0xCC, 0x00])) = some [0x91, 0x91, 0x91]
      ∧ posAfter (step (atRefill 0x69 .colors [0x03, 0xCC, 0x00])) = some 19 := by decide +kernel

theorem test_refillColorsCoded_V7 :
    valuesAfter .colors (step (atRefill 0x68 .colors [0x01, 0xC0, 0x02])) = some [0x7B] := by decide +kernel

theorem test_refillPatternCoded_V8 :
    valuesAfter .pattern (step (atRefill 0x69 .pattern [0x01, 0x78, 0x00])) = some [0x0F] := by decide +kernel

/-- The V8 nibbles with the escape bit set and a count of 2 (R370). -/
theorem test_refillPatternConst :
    valuesAfter .pattern (step (atRefill 0x69 .pattern [0x02, 0x7C, 0x00])) = some [0x0F, 0x0F] := by decide +kernel

theorem test_refillXOffCoded_V9 :
    valuesAfter .xOff (step (atRefill 0x69 .xOff [0x02, 0x98, 0x00])) = some [-3, 0]
      ∧ posAfter (step (atRefill 0x69 .xOff [0x02, 0x98, 0x00])) = some 20 := by decide +kernel

theorem test_refillYOffCoded_V9 :
    valuesAfter .yOff (step (atRefill 0x69 .yOff [0x02, 0x98, 0x00])) = some [-3, 0] := by decide +kernel

/-- The V9 bits with the escape bit set: two copies of -3 (R373). -/
theorem test_refillXOffConst : valuesAfter .xOff (step (atRefill 0x69 .xOff [0x02, 0x9C, 0x00])) = some [-3, -3] := by
  decide +kernel

theorem test_refillYOffConst : valuesAfter .yOff (step (atRefill 0x69 .yOff [0x02, 0x9C, 0x00])) = some [-3, -3] := by
  decide +kernel

theorem test_refillRunConst_V10 :
    valuesAfter .run (step (atRefill 0x69 .run [0x01, 0x2C])) = some [5]
      ∧ posAfter (step (atRefill 0x69 .run [0x01, 0x2C])) = some 16 := by decide +kernel

theorem test_refillRunCoded : valuesAfter .run (step (atRefill 0x69 .run [0x02, 0x98, 0x00])) = some [-3, 0] := by
  decide +kernel

theorem test_refillIntraDc_V11 :
    valuesAfter .intraDc (step (atRefill 0x69 .intraDc [0x03, 0xA0, 0x4F, 0x0E])) = some [1000, 997, 997] := by
  decide +kernel

theorem test_refillIntraDc_V13 :
    causeAfter (step (atRefill 0x69 .intraDc [0x02, 0xFC, 0xFF, 0xFF, 0xFF, 0x00])) = some 19 := by decide +kernel

theorem test_refillInterDc_V15 :
    valuesAfter .interDc (step (atRefill 0x69 .interDc [0x01, 0xFC, 0x1F])) = some [-1023] := by decide +kernel

/-! ## Block-type symbols (vectors V1 to V3) -/

/-- The twelve literals store their own value (R360). -/
theorem test_btsym_literals :
    (List.range 12).map (fun v => valuesAfter .blockTypes (step (atSymbol 32 [BitVec.ofNat 8 v])))
      = (List.range 12).map (fun v => some [(v : Int)]) := by decide +kernel

/-- The four runs repeat the last literal 4, 8, 12 and 32 times (R360). -/
theorem test_btsym_runs :
    [12, 13, 14, 15].map (fun v => valuesAfter .blockTypes (step (atSymbol 32 [v])))
      = [4, 8, 12, 32].map (fun n => some (List.replicate n (6 : Int))) := by decide +kernel

theorem test_btsymRun8_V2 : causeAfter (step (atSymbol 5 [13])) = some 28 := by decide +kernel

/-! ## Blocks (vectors D1 to D12, D17, M4) -/

theorem test_btFill_D1 :
    [0, 7, 119].map (pixel (step (atBlock .block [(.blockTypes, [6]), (.colors, [0x42])] [])))
      = [some 0x42, some 0x42, some 0x42] := by decide +kernel

theorem test_btFill_only_its_block :
    (pixels (step (atBlock .block [(.blockTypes, [6]), (.colors, [0x42])] []))).map List.length = some 64 := by
  decide +kernel

theorem test_btSkip_D2 :
    [0, 7, 119].map (pixel (step (atBlock .block [(.blockTypes, [0])] [])))
      = [some 0x10, some 0x10, some 0x10] := by decide +kernel

theorem test_btPattern_D4 :
    [0, 1, 7, 22, 23, 32].map
        (pixel (step (atBlock .block
          [(.blockTypes, [8]), (.colors, [0x11, 0x22]), (.pattern, [1, 0x80, 0, 0, 0, 0, 0, 0])] [])))
      = [some 0x22, some 0x11, some 0x11, some 0x11, some 0x22, some 0x11] := by decide +kernel

theorem test_btRaw_D5 :
    [0, 3, 18, 119].map
        (pixel (step (atBlock .block [(.blockTypes, [9]), (.colors, (List.range 64).map Int.ofNat)] [])))
      = [some 0, some 3, some 10, some 63] := by decide +kernel

theorem test_btRaw_D6 :
    causeAfter (step (atBlock .block [(.blockTypes, [9]), (.colors, (List.range 63).map Int.ofNat)] [])) = some 23 := by
  decide +kernel

theorem test_btIllegals_D7 :
    [10, 11, 12, 13, 14, 15].map (fun v => causeAfter (step (atBlock .block [(.blockTypes, [v])] [])))
      = List.replicate 6 (some 20) := by decide +kernel

/-- At an odd column of a wider plane SCALED raises SCALED_POSITION. -/
theorem test_btScaled_D8 :
    causeAfter (exec .btScaled (((atBlock .block [] []).setPlane .y (lumaPlane .poison 16 8)).setCtl
      { Ctl.reset with phase := .block, bx := 1 })) = some 25 := by decide +kernel

theorem test_btScaled_D9 :
    (next? (exec .btScaled (((atBlock .block [] []).setPlane .y (lumaPlane .poison 16 16)).setCtl
      { Ctl.reset with phase := .block, by_ := 1 }))).map (fun t => (t.ctl.phase, t.ctl.bx)) = some (.block, 2) := by
  decide +kernel

theorem test_scaledFill_D10 :
    [0, 8, 17].map (pixel (step (atBlock .subBlock [(.subBlockTypes, [6]), (.colors, [0x11])] [])))
      = [some 0x11, some 0x11, some 0x11] := by decide +kernel

theorem test_scaledIllegals_D11 :
    [0, 1, 2, 4, 7, 10, 11, 12, 13, 14, 15].map
        (fun v => causeAfter (step (atBlock .subBlock [(.subBlockTypes, [v])] [])))
      = List.replicate 11 (some 21) := by decide +kernel

theorem test_scaledPattern_D12 :
    [1, 2].map
        (pixel (step (atBlock .subBlock
          [(.subBlockTypes, [8]), (.colors, [0x00, 0xFF]), (.pattern, List.replicate 8 1)] [])))
      = [some 0xFF, some 0] := by decide +kernel

/-- Each pixel (x, y) of the 8x8 block shows at (2x, 2y) (R422). -/
theorem test_scaledRaw :
    [2, 17].map
        (pixel (step (atBlock .subBlock [(.subBlockTypes, [9]), (.colors, (List.range 64).map Int.ofNat)] [])))
      = [some 1, some 0] := by decide +kernel

/-- RUN, D17: the runs are tested before any pixel is written, so no scan pattern matters. -/
theorem test_btRun_D17 :
    causeAfter (step (atBlock .block [(.blockTypes, [3]), (.run, [-2])] [0x00])) = some 26
      ∧ causeAfter (step (atBlock .subBlock [(.subBlockTypes, [3]), (.run, [64])] [0x00])) = some 18 := by
  decide +kernel

theorem test_btMotion_M4 :
    causeAfter (step (atBlock .block [(.blockTypes, [2]), (.xOff, [1]), (.yOff, [0])] [])) = some 17 := by decide +kernel

theorem test_btMotion_copies :
    pixel (step (atBlock .block [(.blockTypes, [2]), (.xOff, [0]), (.yOff, [0])] [])) 119 = some 0x10 := by decide +kernel

/-- RUN, R414's example: four shared runs of 16 pixels, four colors, 4 + 4 bits (D15). -/
theorem test_btRun_D15 :
    let o := step (atBlock .block [(.blockTypes, [3]), (.run, [15, 15, 15, 15]), (.colors, [0x30, 0x31, 0x32, 0x33])] [0xF0])
    [0, 23, 32, 119].map (pixel o) = [some 0x30, some 0x30, some 0x31, some 0x33] ∧ posAfter o = some 8 := by
  decide +kernel

/-- A copied 0xFE and a residual of +4 at its first place: 2 under wrap, 255 under clamp (D14). -/
theorem test_btResidue_D14 :
    let s := (atBlock .block [(.blockTypes, [4]), (.xOff, [0]), (.yOff, [0])] [0x00, 0x21]).setPlane .y
      { lumaPlane .poison 8 8 with last := (List.range 256).map fun i => (i, 0xFE) }
    pixel (step s) 0 = some 2
      ∧ pixel (step (withParams s { testParams with pixelStore := .clamp } (by decide +kernel))) 0 = some 255 := by
  decide +kernel

/-- A residual of no significant place leaves the copied block: n 127, one mask, four gates of 0 (R500). -/
theorem test_btResidue_zero :
    posAfter (step (atBlock .block [(.blockTypes, [4]), (.xOff, [0]), (.yOff, [0])] [0x7F, 0x00])) = some 14 := by
  decide +kernel

/-- INTRA of vector K2: top 0 and q 7, 8 bits. -/
theorem test_btIntra_K2 :
    posAfter (step (atBlock .block [(.blockTypes, [5]), (.intraDc, [1])] [0x70])) = some 8 := by decide +kernel

theorem test_btInter_K2 :
    posAfter (step (atBlock .block [(.blockTypes, [7]), (.xOff, [0]), (.yOff, [0]), (.interDc, [1])] [0x70])) = some 8 := by
  decide +kernel

theorem test_scaledIntra_K2 :
    posAfter (step (atBlock .subBlock [(.subBlockTypes, [5]), (.intraDc, [1])] [0x70])) = some 8 := by decide +kernel

/-! ## The transform (vectors I1, I2, I4, I6) and the dequantiser -/

theorem test_butterfly_I2 : butterfly testParams 0 100 0 0 0 0 0 0 = [100, 84, 57, 19, -19, -57, -84, -100] := by decide +kernel
theorem test_butterfly_I3 : butterfly testParams 0 0 100 0 0 0 0 0 = [100, 41, -41, -100, -100, -41, 41, 100] := by decide +kernel
theorem test_butterfly_I6 : butterfly testParams 1000 0 0 0 0 0 0 100 = [1100, 715, 1426, 498, 1502, 574, 1285, 900] := by
  decide +kernel
theorem test_dequantised : dequantised 3 4096 = 6 ∧ dequantised (-1) 1000 = -1 := by decide

/-! ## Audio (vectors A1, A5, A8 to A11, A13, C1) -/

theorem test_bands_A1 :
    bands testParams.criticalFreqs 8000 512 = [2, 12, 24, 38, 50, 64, 80, 98, 116, 138, 162, 188, 220, 256, 296, 344, 402, 472, 512] := by
  decide +kernel

/-- -3.0 is 0xC0400000; -2.5 is 0xC0200000. -/
theorem test_floats_A5_A8 : f32Round true 3 0 = 0xC0400000 ∧ f32Neg (f32Mul 0x3F000000 (f32OfNat 5)) = 0xC0200000 := by
  decide +kernel

/-- 1.1651987 at i = 1 and 2032356.57 at i = 95 are 0x3F95253B and 0x49F81725; with a root of -2^120 the entry 95 is beyond the
largest binary32, and the entry 0 is the root. -/
theorem test_qtabEntry :
    [qtabEntry testParams.audioQConst 0x3F800000 1, qtabEntry testParams.audioQConst 0x3F800000 95,
        qtabEntry testParams.audioQConst 0xFB800000 95, qtabEntry testParams.audioQConst 0xFB800000 0]
      = [0x3F95253B, 0x49F81725, 0xFF800000, 0xFB800000] := by decide +kernel

theorem test_blended_A9_A10_A11 : blended 64 16 1000 2000 = 1250 ∧ blended 64 16 (-1000) (-2000) = -1250
    ∧ blended 64 1 (-1) 0 = -1 := by decide +kernel

/-- 1.5, 2.5, -0.5 and infinity. -/
theorem test_pcm_A13 :
    [0x3FC00000, 0x40200000, 0xBF000000, 0x7F800000].map (f32ToClamped (-32768) 32767) = [2, 2, 0, 32767] := by
  decide +kernel

/-- A track of rate 22050 (A2), its quantisers 1.0 but for 2.0 in band 0. -/
def runTrack : Track :=
  { rate := 22050, flags := 0, ch := 1, kind := .rdft, n := 1024, ov := 64, nb := 23, band := bands testParams.criticalFreqs 22050 1024, qtab := []
    coef := [[]], prev := [], first := true, out := [], outLen := 0, trunc := false }

/-- The start of the coefficient runs of that track. -/
def atRuns (bytes : List Byte) : State :=
  ((packet bytes).setTracks [runTrack]).setCtl
    { Ctl.reset with phase := .audioCoef, coefPos := 2
                     quant := 0x40000000 :: List.replicate 22 0x3F800000, bandQ := 0x40000000 }

theorem test_audioRunRle_C1 :
    (next? (step (atRuns [0x01, 0x00]))).map (fun t => (t.ctl.coefPos, t.ctl.bandK, t.ctl.bandQ, t.bitPos))
      = some (18, 2, 0x3F800000, 9) := by decide +kernel

/-- Eight coefficients of width 1, each 0: positions 2 to 9, 1 bit each, band 1 reached at 8 (C3). -/
theorem test_audioRun8_C3 :
    (next? (step (atRuns [0x02, 0x00]))).map (fun t => (t.ctl.coefPos, t.ctl.bandK, t.bitPos)) = some (10, 2, 13) := by
  decide +kernel

/-! ## Host commands (vectors H2, H3, the SEEK and CMD lines) and registers -/

/-- A command written by the host. -/
def commanded (s : State) (cmd : Word) : Host.Outcome State Fault Refusal := step (s.setHostMoves [.regWrite 0 cmd])

theorem test_cmdOpen_H2_H3 :
    causeAfter (commanded State.reset 0x12345601) = some 1
      ∧ causeAfter (commanded (State.reset.setRegs { Regs.reset with arg0 := 40 }) 1) = some 6 := by decide +kernel

theorem test_cmdClose : (next? (commanded session10 2)).map (fun t => (t.regs.isOpen, t.regs.arg0, t.session.frameCount))
    = some (false, 3, 0) := by decide +kernel

theorem test_cmdSeek :
    (next? (commanded (session10.setRegs { session10.regs with arg0 := 10 }) 4)).map (fun t => t.session.curFrame) = some 10
      ∧ causeAfter (commanded (session10.setRegs { session10.regs with arg0 := 11 }) 4) = some 34 := by decide +kernel

/-- ARG1 = 3 takes 2 of the 4 bytes; the rest is dropped (R645). -/
theorem test_cmdReadAudio :
    (next? (commanded ((session10.setTracks [{ runTrack with out := [(0, 1), (1, 2), (2, 3), (3, 4)], outLen := 4 }]).setRegs
      { session10.regs with arg0 := 0, arg1 := 3 }) 5)).map (fun t => (t.pcmOut, t.regs.res0, t.tracks.map Track.outLen))
      = some ([(0, 1), (1, 2)], 2, [0]) := by decide +kernel

theorem test_cmdAudioTrackInfo :
    (next? (commanded ((session10.setTracks [runTrack]).setRegs { session10.regs with arg0 := 0 }) 6)).map
      (fun t => (t.regs.res0, t.regs.res1)) = some (22050, 1) := by decide +kernel

/-- The packet of the only track is 4 bytes at 104; the video packet starts at 108 (R638). -/
theorem test_cmdDecodeNextFrame :
    (next? (commanded ((session10.setTracks [runTrack]).setContainer [(100, 4)]) 3)).map
        (fun t => (t.session.curFrame, t.ctl.packets, t.ctl.vbase, t.ctl.vlen))
      = some (4, [{ a := 104, sz := 4 }], 108, 12) := by decide +kernel

theorem test_cmdIllegals :
    [0x00, 0x07, 0x0D, 0x1A, 0x35, 0x6B, 0x107].map (fun c => causeAfter (commanded State.reset c))
      = List.replicate 7 (some 37) := by decide +kernel

/-- The nineteen registers of `session10`, by offset (R60, R61). -/
theorem test_registers_read :
    (List.range 19).map (fun k => readAfter (step (session10.setHostMoves [.regRead (4 * k)])))
      = [some 0, some 3, some 5, some 0x09, some 29, some 70, some 71, some 72, some 10, some 3, some 30, some 1, some 8,
        some 16, some 1, some 0x100000, some 0x69, some 73, some 1] := by decide +kernel

theorem test_registers_write :
    (next? (step (session10.setHostMoves [.regWrite 4 77]))).map (fun t => (t.regs.arg0, t.regs.arg1)) = some (77, 5)
      ∧ (next? (step (session10.setHostMoves [.regWrite 8 77]))).map (fun t => (t.regs.arg0, t.regs.arg1))
        = some (3, 77) := by decide +kernel

/-! ## Reset -/

theorem test_reset_memory_wf : Memory.wf State.reset.container = true := by decide

theorem test_reset_step_waits : step State.reset = .next State.reset := rfl

/-- A table word placed at the fetch runs as the first instruction: RD_BITPOS, and BT_ILLEGAL_12, which raises. -/
theorem test_withFetchWord :
    readAfter (step (State.reset.withFetchWord 8 0x44)) = some 0 ∧ decodeTableWord 8 0x44 = some .rdBitpos
      ∧ causeAfter (step (State.reset.withFetchWord 4 0xC)) = some 20 ∧ decodeTableWord 4 0xC = some .btIllegal12 := by
  decide +kernel

/-! ## Witnesses: a concrete state and operands that meet all hypotheses of a statement together

`witness_<Name>` is the witness of `Obligations.<Name>`, clause by clause, at the boundary of the clause's range where it
has one. Statements without hypotheses have none. -/

/-- A packet of `n` zero bits. -/
def zeros (n : Nat) : State := start.setBr { base := 0, sizeBits := BitVec.ofNat 32 n, pos := 0 }

theorem witness_DecodeOfEncode :
    (Instr.treeList 15 7).wellFormed = true ∧ encode .tree (.treeList 15 7) = some (8, 0xFF)
      ∧ (Instr.refillColorsConst 0xFFFFFFFF).wellFormed = true
      ∧ encode (.refill .colors 32) (.refillColorsConst 0xFFFFFFFF) = some (33, 2 ^ 33 - 1) := by decide +kernel

theorem witness_EncodeOfDecode :
    decode .cmd 0xFFFFFFFF = .ok (.cmdIllegal80 127) ∧ decode .audioRun 0x1FF = .ok (.audioRunRle 15 15) := ⟨rfl, rfl⟩

theorem witness_GetBitsReads :
    (zeros 32).bitPos + 32 ≤ (zeros 32).bitSize ∧ ¬ (zeros 31).bitPos + 32 ≤ (zeros 31).bitSize
      ∧ ¬ (1 ≤ 33 ∧ 33 ≤ 32) ∧ ¬ (1 ≤ 0 ∧ 0 ≤ 32) := by decide +kernel

theorem witness_DecodeSymbolFindsLeaf :
    isCompletePrefixCode ((zeros 4).params.codes 15) = true
      ∧ BitsLeft (zeros 4) (longestCode ((zeros 4).params.codes 15)) := by
  refine ⟨by decide +kernel, ?_⟩
  unfold BitsLeft; decide +kernel

/-- Four bits left, and three; and the symbol loop before a code cut after three bits. -/
theorem witness_ShapeZeroReadsNibble :
    let s := (atSymbol 1 []).setBr (zeros 3).br
    (zeros 4).params.codes 0 = (List.range 16).map (fun l => (4, l)) ∧ BitsLeft (zeros 4) 4 ∧ ¬ BitsLeft (zeros 3) 4
      ∧ s.params.codes 0 = (List.range 16).map (fun l => (4, l)) ∧ s.ctl.phase = .btSym ∧ s.ctl.refills = .blockTypes :: []
      ∧ (s.bundle .blockTypes).wr < s.ctl.stop ∧ (s.bundle .blockTypes).tree.shape = 0 ∧ ¬ BitsLeft s 4 := by
  unfold BitsLeft
  exact ⟨by decide +kernel, by decide +kernel, by decide +kernel, by decide +kernel, rfl, rfl, by decide +kernel, rfl,
    by decide +kernel⟩

/-- A shape-0 code cut after three bits takes none of them (R312, R302); one of another shape takes those before the end (R310). -/
theorem test_decodeSymbol_cut :
    decodeSymbol 0 (zeros 3) = .error (.raised .readerUnderrun) (zeros 3)
      ∧ decodeSymbol 1 (zeros 3) = .error (.raised .readerUnderrun) ((zeros 3).setPos 3) := ⟨by rfl, by rfl⟩

theorem witness_TreeIdentityCompletes : TreeAt (atTree []) (.bundle .run) [] := ⟨rfl, rfl⟩

/-- Seven leaves, the most a count names. -/
theorem witness_TreeListCompletes :
    let s := atTree [0x10, 0x32, 0x54, 0x06]
    let vs : List (BitVec 4) := [0, 1, 2, 3, 4, 5, 6]
    TreeAt s (.bundle .run) [] ∧ BitsLeft s (4 * vs.length)
      ∧ vs.length = (7 : BitVec 3).toNat + s.params.listCountBias
      ∧ (∀ i, i < vs.length → vs[i]? = some (BitVec.ofNat 4 (bitsAt s (4 * i) 4))) ∧ vs.Nodup :=
  ⟨⟨rfl, rfl⟩, by unfold BitsLeft; decide +kernel, by decide +kernel, by decide +kernel, by decide⟩

/-- The second leaf repeats the first. -/
theorem witness_TreeListDuplicate :
    TreeAt (atTree [0x55]) (.bundle .run) [] ∧ 1 < (7 : BitVec 3).toNat + (atTree [0x55]).params.listCountBias
      ∧ BitsLeft (atTree [0x55]) (4 * (1 + 1))
      ∧ (∀ i j, i < j → j < 1 → bitsAt (atTree [0x55]) (4 * i) 4 ≠ bitsAt (atTree [0x55]) (4 * j) 4)
      ∧ ∃ i, i < 1 ∧ bitsAt (atTree [0x55]) (4 * i) 4 = bitsAt (atTree [0x55]) (4 * 1) 4 :=
  ⟨⟨rfl, rfl⟩, by decide +kernel, by unfold BitsLeft; decide +kernel, fun i j h1 h2 => by omega, 0, by decide,
    by decide +kernel⟩

/-- PlaneStart before the tree of RUN with k = 3 and all bits 0, each block taken from the left; R323's example of three bits. -/
theorem witness_TreeMergePermutes :
    TreeAt ((atTree []).setBr (zeros 32).br) (.bundle .run) [] ∧ BitsLeft ((atTree []).setBr (zeros 32).br) 32
      ∧ mergePassesAt ((atTree []).setBr (zeros 32).br) ((3 : BitVec 2).toNat + 1) = (leaves, 32)
      ∧ BitsLeft (packet [0x02]) (mergeAt (packet [0x02]) ([0, 1].length + [2, 3].length) [0, 1] [2, 3] 0).2 := by
  refine ⟨⟨rfl, rfl⟩, ?_, by decide +kernel, ?_⟩
  · unfold BitsLeft; decide +kernel
  · unfold BitsLeft; decide +kernel

/-- R323's examples: bits 1, 1 and bits 0, 1, 0; R322's: the first pair exchanged. -/
theorem test_mergeAt_R323 :
    mergeAt (packet [0x03]) 4 [0, 1] [2, 3] 0 = ([2, 3, 0, 1], 2) ∧ mergeAt (packet [0x02]) 4 [0, 1] [2, 3] 0 = ([0, 2, 1, 3], 3)
      ∧ mergePassesAt (packet [0x01]) 1 = ([1, 0, 2, 3, 4, 5, 6, 7, 8, 9, 10, 11, 12, 13, 14, 15], 8) := by decide +kernel

theorem witness_RefillDoneCompletes :
    (atRefill 0x69 .run []).ctl.phase = .refill ∧ (atRefill 0x69 .run []).ctl.refills = .run :: [] := ⟨rfl, rfl⟩

/-- A full buffer's worth of values. -/
theorem witness_RefillBlockTypesComplete :
    RefillAt (atRefill 0x69 .subBlockTypes [0x0B]) .subBlockTypes [] (64 : BitVec 32).toNat
      ∧ BitsLeft (atRefill 0x69 .subBlockTypes [0x0B]) 4 :=
  ⟨⟨rfl, rfl, by decide +kernel⟩, by unfold BitsLeft; decide +kernel⟩

theorem witness_RefillSignedConstComplete :
    RefillAt (atRefill 0x69 .run [0x1F]) .run [] (64 : BitVec 32).toNat ∧ BitsLeft (atRefill 0x69 .run [0x1F]) 5 :=
  ⟨⟨rfl, rfl, by decide +kernel⟩, by unfold BitsLeft; decide +kernel⟩

/-- All trees of COLORS written, two codes for each of 64 values, and no bit more. -/
theorem witness_RefillHuffmanComplete :
    let s := (atRefill 0x69 .colors []).setBr (zeros (8 * 64)).br
    RefillAt s .colors [] (64 : BitVec 32).toNat ∧ (s.bundle .colors).tree.Written
      ∧ (∀ i, (s.tree (.colHigh i)).Written) ∧ BitsLeft s (codedValues s .colors 64).off
      ∧ BitsLeft s (codedAt s .colors s.colLast 0).bits := by
  refine ⟨⟨rfl, rfl, by decide +kernel⟩, ?_, ?_, ?_, ?_⟩
  · unfold Tree.Written; decide +kernel
  · unfold Tree.Written; decide +kernel
  · unfold BitsLeft; decide +kernel
  · unfold BitsLeft; decide +kernel

/-- V7, V8 and V9 without their headers: a folded color, a pattern byte, its low nibble first, and -3 and 0. -/
theorem test_codedValues_V7_V8_V9 :
    codedValues (atRefill 0x68 .colors [0x58]) .colors 1 = { values := [0x7B], off := 8, last := 8 }
      ∧ codedValues (atRefill 0x69 .pattern [0x0F]) .pattern 1 = { values := [0x0F], off := 8, last := 0 }
      ∧ codedValues (atRefill 0x69 .xOff [0x13, 0x00]) .xOff 2 = { values := [-3, 0], off := 9, last := 0 } := by
  decide +kernel

/-- A code of unequal lengths, under a tree that reverses the leaves: bits 1, 1, 0 are leaf 2. -/
theorem test_huffAt_shape1 :
    let code := [(1, 0), (2, 1), (3, 3), (4, 7), (5, 15), (6, 31), (7, 63), (8, 127), (9, 255), (10, 511), (11, 1023), (12, 2047),
      (13, 4095), (14, 8191), (15, 16383), (15, 32767)]
    let s := withParams (atRefill 0x69 .run [0x03]) { testParams with vlc := identityCode :: code :: List.replicate 14 identityCode }
      (by decide +kernel)
    huffAt (s.setBundle .run { holding [] with tree := { shape := 1, syms := Cells.setFrom [] 0 leaves.reverse } }) (.bundle .run) 0
      = (13, 3) := by decide +kernel

/-- Nine zero values: two groups of width 0. -/
theorem witness_RefillDcComplete :
    let s := (atRefill 0x69 .intraDc []).setBr (zeros 19).br
    let u := (atRefill 0x69 .interDc []).setBr (zeros 18).br
    1 ≤ (9 : BitVec 32).toNat ∧ RefillAt s .intraDc [] (9 : BitVec 32).toNat ∧ BitsLeft s (11 + 4 * ((9 - 1 + 7) / 8))
      ∧ (∀ g, g < 1 → bitsAt s (11 + 4 * g) 4 = 0) ∧ RefillAt u .interDc [] (9 : BitVec 32).toNat
      ∧ bitsAt u 0 10 = 0 ∧ BitsLeft u (10 + 4 * ((9 - 1 + 7) / 8)) ∧ ∀ g, g < 1 → bitsAt u (10 + 4 * g) 4 = 0 := by
  refine ⟨by decide, ⟨rfl, rfl, by decide +kernel⟩, ?_, by decide +kernel, ⟨rfl, rfl, by decide +kernel⟩,
    by decide +kernel, ?_, by decide +kernel⟩
  · unfold BitsLeft; decide +kernel
  · unfold BitsLeft; decide +kernel

/-- 1000 and 997, inside the range; 2047 and 34814, outside it; nine INTER_DC values that fall by 16383
and leave the range at the fourth. -/
theorem witness_RefillDcDelta :
    let s := atRefill 0x69 .intraDc [0xE8, 0x93, 0x03]
    let u := atRefill 0x69 .intraDc [0xFF, 0xFF, 0xFF, 0x3F]
    let v := atRefill 0x69 .interDc [0x00, 0xFC, 0xFF, 0xEF, 0xFF, 0xEF, 0xFF, 0x2F]
    (RefillAt s .intraDc [] 2 ∧ bitsAt s 11 4 ≠ 0 ∧ bitsAt s 15 (bitsAt s 11 4) ≠ 0 ∧ BitsLeft s (16 + bitsAt s 11 4)
      ∧ RefillAt u .intraDc [] 2 ∧ bitsAt u 11 4 = 15 ∧ bitsAt u 15 15 = 32767 ∧ BitsLeft u (16 + bitsAt u 11 4))
      ∧ (RefillAt v .interDc [] (9 : BitVec 32).toNat ∧ (dcValues v .interDc 9).inRange = false
        ∧ BitsLeft v (dcValues v .interDc 9).off)
      ∧ RefillAt s .intraDc [] (2 : BitVec 32).toNat ∧ (dcValues s .intraDc 2).inRange = true
      ∧ BitsLeft s (dcValues s .intraDc 2).off := by
  unfold BitsLeft
  exact ⟨⟨⟨rfl, rfl, by decide +kernel⟩, by decide +kernel, by decide +kernel, by decide +kernel,
      ⟨rfl, rfl, by decide +kernel⟩, by decide +kernel, by decide +kernel, by decide +kernel⟩,
    ⟨⟨rfl, rfl, by decide +kernel⟩, by decide +kernel, by decide +kernel⟩, ⟨rfl, rfl, by decide +kernel⟩, by decide +kernel,
    by decide +kernel⟩

/-- V11 without its header; and an INTER_DC start of -1 whose group of width 15 reaches -32768 and then leaves the range. -/
theorem test_dcValues :
    dcValues (atRefill 0x69 .intraDc [0xE8, 0x93, 0x03]) .intraDc 3
        = { values := [1000, 997, 997], value := 997, off := 20, inRange := true }
      ∧ dcValues (atRefill 0x69 .interDc [0x01, 0xFC, 0xFF, 0x7F, 0x00, 0x40, 0x00, 0x20]) .interDc 4
        = { values := [-1, -32768, -32768], value := -32768, off := 62, inRange := false } := by decide +kernel

theorem witness_DecodeColorShapeZero :
    let s := atRefill 0x68 .colors [0x24]
    s.params.codes 0 = (List.range 16).map (fun l => (4, l))
      ∧ (s.tree (.colHigh s.colLast)).shape = 0 ∧ (s.bundle .colors).tree.shape = 0 ∧ BitsLeft s 8
      ∧ Cells.get (s.tree (.colHigh s.colLast)).syms (bitsAt s 0 4) = some 4
      ∧ Cells.get (s.bundle .colors).tree.syms (bitsAt s 4 4) = some 2 := by
  refine ⟨rfl, rfl, rfl, ?_, by decide +kernel, by decide +kernel⟩
  unfold BitsLeft; decide +kernel

/-- A done bundle, one that still holds a value, and a count one above the room. -/
theorem witness_RefillTest :
    let s := (atRefill 0x69 .run []).setBundle .run { holding [] with done := true }
    let u := (atRefill 0x69 .run []).setBundle .run (holding [7])
    let v := (atRefill 0x69 .run [0x05, 0x00]).setBundle .run { holding [] with wr := 60, rd := 60 }
    (s.ctl.phase = .refill ∧ s.ctl.refills = [.run] ∧ (s.bundle .run).done = true)
      ∧ (u.ctl.phase = .refill ∧ u.ctl.refills = [.run] ∧ (u.bundle .run).rd < (u.bundle .run).wr)
      ∧ v.ctl.phase = .refill ∧ v.ctl.refills = [.run] ∧ (v.bundle .run).done = false
      ∧ (v.bundle .run).wr ≤ (v.bundle .run).rd ∧ 1 ≤ (v.bundle .run).len ∧ (v.bundle .run).len ≤ 32
      ∧ BitsLeft v (v.bundle .run).len ∧ bitsAt v 0 (v.bundle .run).len ≠ 0
      ∧ (v.bundle .run).cap < (v.bundle .run).wr + bitsAt v 0 (v.bundle .run).len := by
  refine ⟨⟨rfl, rfl, rfl⟩, ⟨rfl, rfl, by decide +kernel⟩, rfl, rfl, rfl, by decide +kernel, by decide +kernel,
    by decide +kernel, ?_, by decide +kernel, by decide +kernel⟩
  unfold BitsLeft; decide +kernel

theorem witness_BtsymLiteralsComplete :
    0 < 12 ∧ decode .btsym 0 = .ok .btsymLiteral0 ∧ 11 < 12 ∧ decode .btsym 11 = .ok .btsymLiteral11
      ∧ (atSymbol 1 []).ctl.phase = .btSym ∧ (atSymbol 1 []).ctl.refills = [.blockTypes]
      ∧ ((atSymbol 1 []).bundle .blockTypes).wr < (atSymbol 1 []).ctl.stop :=
  ⟨by decide, rfl, by decide, rfl, rfl, rfl, by decide +kernel⟩

/-- A run that just fits, and one a value too long. -/
theorem witness_BtsymRunsComplete :
    (Instr.btsymRun32, 3) ∈ [(Instr.btsymRun4, 0), (.btsymRun8, 1), (.btsymRun12, 2), (.btsymRun32, 3)]
      ∧ (atSymbol 32 []).params.blockRle 3 = 32
      ∧ (atSymbol 32 []).ctl.phase = .btSym ∧ (atSymbol 32 []).ctl.refills = [.blockTypes]
      ∧ ((atSymbol 32 []).bundle .blockTypes).wr + 32 ≤ (atSymbol 32 []).ctl.stop
      ∧ ((atSymbol 31 []).bundle .blockTypes).wr < (atSymbol 31 []).ctl.stop
      ∧ ¬ ((atSymbol 31 []).bundle .blockTypes).wr + 32 ≤ (atSymbol 31 []).ctl.stop :=
  ⟨by decide, rfl, rfl, rfl, by decide +kernel, by decide +kernel, by decide +kernel⟩

/-- Before the last coefficient of the frame. -/
def atLastRun : State := (atRuns [0xFF, 0xFF, 0xFF]).setCtl { (atRuns []).ctl with coefPos := 1023, bandK := 22 }

theorem witness_AudioRunZeroCompletes :
    RunAt (atRuns []) runTrack ∧ RunAt atLastRun runTrack ∧ (512 = 8 * (atRuns []).params.audioRle (15 : BitVec 4).toNat) :=
  ⟨⟨rfl, rfl, by decide +kernel, by decide +kernel, by decide +kernel, rfl, by decide +kernel⟩,
    ⟨rfl, rfl, by decide +kernel, by decide +kernel, by decide +kernel, rfl, by decide +kernel⟩, rfl⟩

theorem witness_AudioRunCodedCompletes :
    RunAt atLastRun runTrack ∧ (15 : BitVec 4) ≠ 0 ∧ atLastRun.ctl.chan < runTrack.coef.length
      ∧ BitsLeft atLastRun (((15 : BitVec 4).toNat + 1) * (min (1023 + 8) 1024 - 1023)) := by
  refine ⟨⟨rfl, rfl, by decide +kernel, by decide +kernel, by decide +kernel, rfl, by decide +kernel⟩,
    by decide, by decide, ?_⟩
  unfold BitsLeft; decide +kernel

/-- A block to put out: two samples and no tail; the head of the block loop with bytes left, and at the packet's end; the
start of a packet of 3 bytes and of one of 4; past the last track; and the head, the end and the transform of a channel. -/
theorem witness_CrossFadeConvex :
    let x : Track := { runTrack with n := 2, ov := 1, coef := [[(0, 0x3FC00000), (1, 0x40200000)]], prev := [(0, 7)] }
    let at_ (ph : Phase) (sz : Nat) : State :=
      (((zeros 16).setTracks [x]).setSession { Session.reset with trackCount := 1 }).setCtl
        { Ctl.reset with phase := ph, packets := [{ a := 0, sz := sz }] }
    let y : Track := { runTrack with qtab := List.replicate 96 0x3F800000 }
    let z : Track := { runTrack with n := 2, kind := .dct, coef := [[(0, 0x3FC00000), (1, 0x40200000)]] }
    let on (x : Track) (c : Ctl) : State := ((zeros (58 + 8 * 23)).setTracks [x]).setCtl c
    (0 < 2 ^ 6 ∧ 63 < 2 ^ 6)
      ∧ ((at_ .audioEmit 6).ctl.phase = .audioEmit ∧ (at_ .audioEmit 6).tracks[(at_ .audioEmit 6).ctl.track]? = some x
        ∧ x.ov ≤ x.n
        ∧ (∀ i, i < x.n * x.ch → Cells.get (x.coef.getD (i % x.ch) []) (i / x.ch)
              = some (([0x3FC00000, 0x40200000] : List F32).getD i 0)
            ∧ f32IsNaN (([0x3FC00000, 0x40200000] : List F32).getD i 0) = false)
        ∧ (∀ i, i < x.ov * x.ch → Cells.get x.prev i = some 7))
      ∧ ((at_ .audioLoop 6).ctl.packets[(at_ .audioLoop 6).ctl.track]? = some { a := 0, sz := 6 }
        ∧ (at_ .audioLoop 6).bitPos / 8 < 6 - 4 ∧ (x.kind = .dct → BitsLeft (at_ .audioLoop 6) 2)
        ∧ 4 - 4 ≤ (at_ .audioLoop 4).bitPos / 8)
      ∧ ((at_ .audioTrack 3).ctl.track < (at_ .audioTrack 3).session.trackCount.toNat ∧ 3 < 4 ∧ ¬ 4 < 4)
      ∧ (on y { Ctl.reset with phase := .audioTrack, track := 1 }).session.trackCount.toNat ≤ 1
      ∧ (y.qtab.length = 96 ∧ 1 ≤ y.nb ∧ 0 < y.coef.length
        ∧ BitsLeft (on y { Ctl.reset with phase := .audioHead }) (58 + 8 * y.nb)
        ∧ y.n ≤ (on y { Ctl.reset with phase := .audioCoef, coefPos := 1024 }).ctl.coefPos)
      ∧ Cells.slice (z.coef.getD (on z { Ctl.reset with phase := .audioXform }).ctl.chan []) 0 z.n
        = some [0x3FC00000, 0x40200000] := by
  unfold BitsLeft
  refine ⟨by decide, ⟨rfl, rfl, by decide, by decide +kernel, by decide +kernel⟩,
    ⟨rfl, by decide +kernel, fun h => (nomatch h), by decide +kernel⟩, ⟨by decide +kernel, by decide, by decide⟩,
    by decide +kernel, ⟨by decide +kernel, by decide, by decide, by decide +kernel, by decide⟩, by decide +kernel⟩

theorem witness_BandsRise : 1 ≤ 1 ∧ 1 ≤ 65535 ∧ 65535 ≤ 65535 := by decide

/-- A block or region of the gray plane with every bundle holding what its block types take, and a long packet. -/
def fullBlock (ph : Phase) : State :=
  (atBlock ph [(.xOff, [0]), (.yOff, [0]), (.intraDc, [32767]), (.interDc, [-32768]), (.run, [62]),
    (.colors, (List.range 64).map Int.ofNat), (.pattern, [0, 1, 2, 3, 4, 5, 6, 255])] []).setBr (zeros (2 ^ 19)).br

theorem fullBlock_at : BlockAt (fullBlock .block) .block .y grayPlane := ⟨rfl, rfl, rfl, by decide +kernel⟩
theorem fullBlock_atSub : BlockAt (fullBlock .subBlock) .subBlock .y grayPlane := ⟨rfl, rfl, rfl, by decide +kernel⟩
theorem fullBlock_fits : BlockFits grayPlane (cursorDst (fullBlock .block) grayPlane) :=
  ⟨by decide +kernel, by decide +kernel⟩
theorem fullBlock_regionFits : RegionFits grayPlane (cursorDst (fullBlock .subBlock) grayPlane) :=
  ⟨by decide +kernel, by decide +kernel⟩
theorem fullBlock_arena (ph : Phase) : ArenaFits (fullBlock ph) := Nat.le_refl 128

/-- The block with R481's example before it, 11 bits and the index 5, the packet ending there. -/
def exampleBlock (ph : Phase) : State :=
  ((fullBlock ph).setContainer [(0, 0x81), (1, 0x29)]).setBr { base := 0, sizeBits := 15, pos := 0 }

/-- The block with R500's example before it, 16 bits. -/
def exampleResidue : State :=
  ((fullBlock .block).setContainer [(1, 0x20)]).setBr { base := 0, sizeBits := 16, pos := 0 }

/-- R481's example: the entry (1, 3) fires, with the value -1. -/
theorem test_fullDecoded_R481 :
    fullDecoded (exampleBlock .block) = { off := 11, left := none, out := [(1, -1)], stopped := false }
      ∧ bitsAt (exampleBlock .block) 11 4 = 5 := by decide +kernel

/-- R500's example: index 0 becomes +1, and the budget of 0 stops the decode. -/
theorem test_residualDecoded_R500 :
    residualDecoded exampleResidue = { off := 16, left := some 0, out := [(0, 1)], stopped := true } := by decide +kernel

/-- K5: the list after a walk that emits nothing. -/
theorem test_passNodes_K5 :
    let s := ((zeros 64).setContainer (Memory.setBytes [] 0 [0xF1, 0x03, 0x30, 0x00]))
    bitsAt s 0 4 = 1
      ∧ (passNodes s (fullValue s 0) 128 [] [] [(4, 0), (24, 0), (44, 0), (1, 3), (2, 3), (3, 3)]
          { off := 4, left := none, out := [], stopped := false }).1
        = [(7, 3), (6, 3), (5, 3), (4, 3), (8, 2), (24, 0), (44, 0), (1, 3), (2, 3), (3, 3), (12, 2), (16, 2), (20, 2)] := by
  decide +kernel

theorem grayPlane_lastHolds : LastHolds grayPlane 0 (fun _ => 0x10) := by unfold LastHolds; decide +kernel

/-- The only vector inside the bounds of an 8x8 plane. -/
theorem fullBlock_motion : MotionHolds (fullBlock .block) grayPlane (cursorDst (fullBlock .block) grayPlane) fun _ => 0x10 :=
  ⟨0, 0, ⟨by decide +kernel, by decide +kernel⟩, ⟨by decide +kernel, by decide +kernel⟩, by decide +kernel,
    by decide +kernel, ⟨by decide +kernel, by decide +kernel⟩, grayPlane_lastHolds⟩

theorem witness_BtSkipCopies :
    BlockAt (fullBlock .block) .block .y grayPlane ∧ BlockFits grayPlane (cursorDst (fullBlock .block) grayPlane)
      ∧ LastHolds grayPlane (cursorDst (fullBlock .block) grayPlane) fun _ => 0x10 :=
  ⟨fullBlock_at, fullBlock_fits, grayPlane_lastHolds⟩

/-- A plane without pixels, as OPEN leaves it. -/
theorem witness_BtSkipCopies_unwritten :
    let s := (fullBlock .block).setPlane .y (lumaPlane .poison 8 8)
    BlockAt s .block .y (lumaPlane .poison 8 8) ∧ BlockFits (lumaPlane .poison 8 8) (cursorDst s (lumaPlane .poison 8 8))
      ∧ Cells.get (lumaPlane .poison 8 8).last (cursorDst s (lumaPlane .poison 8 8)) = none :=
  ⟨⟨rfl, rfl, rfl, by decide +kernel⟩, ⟨by decide +kernel, by decide +kernel⟩, rfl⟩

theorem witness_BtMotionCopies :
    BlockAt (fullBlock .block) .block .y grayPlane ∧ BlockFits grayPlane (cursorDst (fullBlock .block) grayPlane)
      ∧ MotionHolds (fullBlock .block) grayPlane (cursorDst (fullBlock .block) grayPlane) fun _ => 0x10 :=
  ⟨fullBlock_at, fullBlock_fits, fullBlock_motion⟩

/-- One pixel before the plane and one past the last legal source. -/
theorem witness_BtMotionCopies_outside :
    let s := (fullBlock .block).setBundle .xOff (holding [-1])
    let u := (fullBlock .block).setBundle .xOff (holding [1])
    (BlockAt s .block .y grayPlane ∧ Holds (s.bundle .xOff) [-1] ∧ Holds (s.bundle .yOff) [0]
        ∧ motionTarget grayPlane (cursorDst s grayPlane) (-1) 0 < 0)
      ∧ BlockAt u .block .y grayPlane ∧ Holds (u.bundle .xOff) [1] ∧ Holds (u.bundle .yOff) [0]
      ∧ motionLimit grayPlane < motionTarget grayPlane (cursorDst u grayPlane) 1 0 :=
  ⟨⟨⟨rfl, rfl, rfl, by decide +kernel⟩, ⟨by decide +kernel, by decide +kernel⟩, ⟨by decide +kernel, by decide +kernel⟩,
      by decide +kernel⟩,
    ⟨rfl, rfl, rfl, by decide +kernel⟩, ⟨by decide +kernel, by decide +kernel⟩, ⟨by decide +kernel, by decide +kernel⟩,
    by decide +kernel⟩

/-- The three places: an odd column, an even column of an odd row, and of an even one. -/
theorem witness_BtScaledPlaces :
    let at_ := fun (bx by' : Nat) =>
      ((fullBlock .block).setPlane .y (lumaPlane .poison 16 16)).setCtl { Ctl.reset with phase := .block, bx := bx, by_ := by' }
    BlockAt (at_ 1 0) .block .y (lumaPlane .poison 16 16) ∧ BlockAt (at_ 0 1) .block .y (lumaPlane .poison 16 16)
      ∧ BlockAt (at_ 0 0) .block .y (lumaPlane .poison 16 16) :=
  ⟨⟨rfl, rfl, rfl, by decide +kernel⟩, ⟨rfl, rfl, rfl, by decide +kernel⟩, ⟨rfl, rfl, rfl, by decide +kernel⟩⟩

/-- The runs of R414's example; one run of 63 and the final color; and after a run of 62, a run of 0 and one of 3. -/
theorem witness_BtRunCompletes :
    let s := ((fullBlock .block).setBundle .run (holding [15, 15, 15, 15])).setContainer [(0, 0xF0)]
    let four : Runs := List.replicate 4 (16, true)
    let u := (fullBlock .block).setBundle .run (holding [61, -1])
    let w := (fullBlock .block).setBundle .run (holding [61, 2])
    let colors := fun (n : Nat) => (List.range n).map Int.ofNat
    (BlockAt s .block .y grayPlane ∧ BlockFits grayPlane (cursorDst s grayPlane) ∧ BitsLeft s 4
        ∧ isPerm64 (runOrder s) = true ∧ Holds (s.bundle .colors) (colors 4) ∧ Runs.Fill four ∧ RunsAhead s four []
        ∧ (colors 4).length = Runs.allColors four)
      ∧ (isPerm64 (runOrder (fullBlock .block)) = true ∧ Holds ((fullBlock .block).bundle .colors) (colors 64)
        ∧ Runs.Fill [(63, false)] ∧ RunsAhead (fullBlock .block) [(63, false)] []
        ∧ (colors 64).length = Runs.allColors [(63, false)])
      ∧ (Runs.pixels [(62, false)] < 63 ∧ RunsAhead u [(62, false)] [-1]
        ∧ (colors 62).length = Runs.colors [(62, false)] ∧ Holds (u.bundle .colors) (colors 62))
      ∧ RunsAhead w [(62, false)] [2] ∧ (64 : Int) < 62 + (2 + 1) := by
  unfold Runs.Fill RunsAhead Holds BitsLeft
  refine ⟨⟨⟨rfl, rfl, rfl, by decide +kernel⟩, ⟨by decide +kernel, by decide +kernel⟩, by decide +kernel,
    by decide +kernel, by decide +kernel, by decide +kernel, by decide +kernel, by decide +kernel⟩,
    ⟨by decide +kernel, by decide +kernel, by decide +kernel, by decide +kernel, by decide +kernel⟩,
    ⟨by decide +kernel, by decide +kernel, by decide +kernel, by decide +kernel⟩, by decide +kernel, by decide⟩

theorem witness_BtResidueCompletes :
    BlockAt (fullBlock .block) .block .y grayPlane ∧ BlockFits grayPlane (cursorDst (fullBlock .block) grayPlane)
      ∧ ArenaFits (fullBlock .block)
      ∧ (MotionHolds (fullBlock .block) grayPlane (cursorDst (fullBlock .block) grayPlane) fun _ => 0x10)
      ∧ BitsLeft (fullBlock .block) (residualDecoded (fullBlock .block)).off := by
  refine ⟨fullBlock_at, fullBlock_fits, fullBlock_arena _, fullBlock_motion, ?_⟩
  unfold BitsLeft; decide +kernel

/-- R500's example, with no bit to spare. -/
theorem witness_BtResidueCompletes_example :
    BlockAt exampleResidue .block .y grayPlane ∧ BlockFits grayPlane (cursorDst exampleResidue grayPlane)
      ∧ ArenaFits exampleResidue
      ∧ (MotionHolds exampleResidue grayPlane (cursorDst exampleResidue grayPlane) fun _ => 0x10)
      ∧ BitsLeft exampleResidue (residualDecoded exampleResidue).off := by
  refine ⟨⟨rfl, rfl, rfl, by decide +kernel⟩, ⟨by decide +kernel, by decide +kernel⟩, Nat.le_refl 128, ?_, ?_⟩
  · exact ⟨0, 0, ⟨by decide +kernel, by decide +kernel⟩, ⟨by decide +kernel, by decide +kernel⟩, by decide +kernel,
      by decide +kernel, ⟨by decide +kernel, by decide +kernel⟩, grayPlane_lastHolds⟩
  · unfold BitsLeft; decide +kernel

theorem witness_BtIntraCompletes :
    let s := exampleBlock .block
    BlockAt s .block .y grayPlane ∧ BlockFits grayPlane (cursorDst s grayPlane) ∧ ArenaFits s
      ∧ Holds (s.bundle .intraDc) [32767] ∧ BitsLeft s ((fullDecoded s).off + 4) := by
  refine ⟨⟨rfl, rfl, rfl, by decide +kernel⟩, ⟨by decide +kernel, by decide +kernel⟩, Nat.le_refl 128,
    ⟨by decide +kernel, by decide +kernel⟩, ?_⟩
  unfold BitsLeft; decide +kernel

theorem witness_BtIntraDcOnly :
    BlockAt (fullBlock .block) .block .y grayPlane ∧ BlockFits grayPlane (cursorDst (fullBlock .block) grayPlane)
      ∧ Holds ((fullBlock .block).bundle .intraDc) [32767] ∧ BitsLeft (fullBlock .block) 8
      ∧ bitsAt (fullBlock .block) 0 4 = 0 := by
  refine ⟨fullBlock_at, fullBlock_fits, ⟨by decide +kernel, by decide +kernel⟩, ?_, by decide +kernel⟩
  unfold BitsLeft; decide +kernel

theorem witness_BtFillPaints :
    BlockAt (fullBlock .block) .block .y grayPlane ∧ BlockFits grayPlane (cursorDst (fullBlock .block) grayPlane)
      ∧ Holds ((fullBlock .block).bundle .colors) [0] :=
  ⟨fullBlock_at, fullBlock_fits, ⟨by decide +kernel, by decide +kernel⟩⟩

/-- No color, and 63 of them: an underrun of FILL and of RAW. -/
theorem witness_BtFillPaints_BtPatternRawPaint_underrun :
    let s := (fullBlock .block).setBundle .colors (holding [])
    let u := (fullBlock .block).setBundle .colors (holding ((List.range 63).map Int.ofNat))
    (BlockAt s .block .y grayPlane ∧ BlockFits grayPlane (cursorDst s grayPlane)
        ∧ (s.bundle .colors).wr ≤ (s.bundle .colors).rd)
      ∧ BlockAt u .block .y grayPlane ∧ BlockFits grayPlane (cursorDst u grayPlane)
      ∧ Holds (u.bundle .colors) ((List.range 63).map Int.ofNat) ∧ ((List.range 63).map Int.ofNat).length < 64
      ∧ (u.bundle .colors).wr = (u.bundle .colors).rd + ((List.range 63).map Int.ofNat).length :=
  ⟨⟨⟨rfl, rfl, rfl, by decide +kernel⟩, ⟨by decide +kernel, by decide +kernel⟩, by decide +kernel⟩,
    ⟨rfl, rfl, rfl, by decide +kernel⟩, ⟨by decide +kernel, by decide +kernel⟩, ⟨by decide +kernel, by decide +kernel⟩,
    by decide, by decide +kernel⟩

theorem witness_BtInterCompletes :
    BlockAt (fullBlock .block) .block .y grayPlane ∧ BlockFits grayPlane (cursorDst (fullBlock .block) grayPlane)
      ∧ ArenaFits (fullBlock .block)
      ∧ (MotionHolds (fullBlock .block) grayPlane (cursorDst (fullBlock .block) grayPlane) fun _ => 0x10)
      ∧ Holds ((fullBlock .block).bundle .interDc) [-32768]
      ∧ BitsLeft (fullBlock .block) ((fullDecoded (fullBlock .block)).off + 4) := by
  refine ⟨fullBlock_at, fullBlock_fits, fullBlock_arena _, fullBlock_motion, ⟨by decide +kernel, by decide +kernel⟩, ?_⟩
  unfold BitsLeft; decide +kernel

theorem witness_BtPatternRawPaint :
    BlockAt (fullBlock .block) .block .y grayPlane ∧ BlockFits grayPlane (cursorDst (fullBlock .block) grayPlane)
      ∧ Holds ((fullBlock .block).bundle .colors) [0, 1]
      ∧ Holds ((fullBlock .block).bundle .pattern) [0, 1, 2, 3, 4, 5, 6, 255]
      ∧ Holds ((fullBlock .block).bundle .colors) ((List.range 64).map Int.ofNat)
      ∧ ((List.range 64).map Int.ofNat).length = 64 :=
  ⟨fullBlock_at, fullBlock_fits, ⟨by decide +kernel, by decide +kernel⟩, ⟨by decide +kernel, by decide +kernel⟩,
    ⟨by decide +kernel, by decide +kernel⟩, by decide⟩

theorem witness_IllegalCodesRaise :
    BlockAt (fullBlock .block) .block .y grayPlane ∧ decode .bt4 10 = .ok .btIllegal10
      ∧ decode .bt4 15 = .ok .btIllegal15 ∧ BlockAt (fullBlock .subBlock) .subBlock .y grayPlane
      ∧ 0 ∉ [3, 5, 6, 8, 9] ∧ decode .st4 0 = .ok .scaledIllegal0 ∧ 15 ∉ [3, 5, 6, 8, 9]
      ∧ decode .st4 15 = .ok .scaledIllegal15 :=
  ⟨fullBlock_at, rfl, rfl, fullBlock_atSub, by decide, rfl, by decide, rfl⟩

theorem witness_ScaledFillPaints :
    BlockAt (fullBlock .subBlock) .subBlock .y grayPlane
      ∧ RegionFits grayPlane (cursorDst (fullBlock .subBlock) grayPlane)
      ∧ Holds ((fullBlock .subBlock).bundle .colors) [0] :=
  ⟨fullBlock_atSub, fullBlock_regionFits, ⟨by decide +kernel, by decide +kernel⟩⟩

/-- One run of 63 and the final color; no run before one of 0 and one of 65. -/
theorem witness_ScaledRunCompletes :
    let s := fullBlock .subBlock
    let u := s.setBundle .run (holding [-1])
    let w := s.setBundle .run (holding [64])
    BlockAt s .subBlock .y grayPlane ∧ RegionFits grayPlane (cursorDst s grayPlane) ∧ BitsLeft s 4
      ∧ isPerm64 (runOrder s) = true ∧ Holds (s.bundle .colors) ((List.range 64).map Int.ofNat)
      ∧ Runs.Fill [(63, false)] ∧ RunsAhead s [(63, false)] [] ∧ 64 = Runs.allColors [(63, false)]
      ∧ (BlockAt u .subBlock .y grayPlane ∧ Runs.pixels [] < 63 ∧ RunsAhead u [] [-1] ∧ 0 = Runs.colors []
        ∧ Holds (u.bundle .colors) [])
      ∧ BlockAt w .subBlock .y grayPlane ∧ RunsAhead w [] [64] ∧ (64 : Int) < 0 + (64 + 1) := by
  unfold Runs.Fill RunsAhead Holds BitsLeft
  refine ⟨fullBlock_atSub, fullBlock_regionFits, by decide +kernel, by decide +kernel, by decide +kernel,
    by decide +kernel, by decide +kernel, by decide +kernel, ⟨⟨rfl, rfl, rfl, by decide +kernel⟩, by decide +kernel,
    by decide +kernel, by decide +kernel, by decide +kernel⟩, ⟨rfl, rfl, rfl, by decide +kernel⟩, by decide +kernel,
    by decide⟩

theorem witness_ScaledIntraCompletes :
    let s := exampleBlock .subBlock
    let u := withParams s { testParams with scaledIntraQSource := .external 15 } (by decide +kernel)
    (BlockAt s .subBlock .y grayPlane ∧ RegionFits grayPlane (cursorDst s grayPlane) ∧ ArenaFits s
        ∧ Holds (s.bundle .intraDc) [32767] ∧ s.params.scaledIntraQSource = .stream
        ∧ (5 : BitVec 4) = BitVec.ofNat 4 (bitsAt s (fullDecoded s).off 4) ∧ 15 = (fullDecoded s).off + 4 ∧ BitsLeft s 15)
      ∧ BlockAt u .subBlock .y grayPlane ∧ RegionFits grayPlane (cursorDst u grayPlane) ∧ ArenaFits u
      ∧ Holds (u.bundle .intraDc) [32767] ∧ u.params.scaledIntraQSource = .external 15 ∧ 11 = (fullDecoded u).off
      ∧ BitsLeft u 11 := by
  unfold BitsLeft
  refine ⟨⟨⟨rfl, rfl, rfl, by decide +kernel⟩, ⟨by decide +kernel, by decide +kernel⟩, Nat.le_refl 128,
      ⟨by decide +kernel, by decide +kernel⟩, rfl, by decide +kernel, by decide +kernel, by decide +kernel⟩,
    ⟨rfl, rfl, rfl, by decide +kernel⟩, ⟨by decide +kernel, by decide +kernel⟩, Nat.le_refl 128,
    ⟨by decide +kernel, by decide +kernel⟩, rfl, by decide +kernel, by decide +kernel⟩

theorem witness_ScaledPatternRawPaint :
    BlockAt (fullBlock .subBlock) .subBlock .y grayPlane
      ∧ RegionFits grayPlane (cursorDst (fullBlock .subBlock) grayPlane)
      ∧ Holds ((fullBlock .subBlock).bundle .colors) [0, 1]
      ∧ Holds ((fullBlock .subBlock).bundle .pattern) [0, 1, 2, 3, 4, 5, 6, 255]
      ∧ Holds ((fullBlock .subBlock).bundle .colors) ((List.range 64).map Int.ofNat) :=
  ⟨fullBlock_atSub, fullBlock_regionFits, ⟨by decide +kernel, by decide +kernel⟩, ⟨by decide +kernel, by decide +kernel⟩,
    ⟨by decide +kernel, by decide +kernel⟩⟩

/-- One coefficient listed, in an all-zero block and in one that is nowhere 0. -/
theorem witness_DequantiseKeepsZero :
    let filled (v : Word) : State := start.setCoef { CoefScratch.reset with
      blk := (List.range 64).map fun i => (i, v), coefIdx := [(0, 63)], coefCount := 1 }
    (filled 0).params.wellFormed = true ∧ (filled 3).params.wellFormed = true
      ∧ (∀ a, a < 64 → Cells.get (filled 0).coef.blk a = some 0)
      ∧ (∀ i, i < (filled 0).coef.coefCount → ∃ c, Cells.get (filled 0).coef.coefIdx i = some c)
      ∧ (∀ a, a < 64 → Cells.get (filled 3).coef.blk a = some 3) ∧ (filled 3).coef.coefCount = [63].length
      ∧ (∀ i, i < [63].length → Cells.get (filled 3).coef.coefIdx i = ([63] : List Nat)[i]?) ∧ ([63] : List Nat).Nodup
      ∧ ∀ c ∈ ([63] : List Nat), 1 ≤ c ∧ c < 64 := by
  refine ⟨testParams_wellFormed, testParams_wellFormed, by decide +kernel, fun i h => ⟨63, ?_⟩, by decide +kernel, rfl,
    by decide +kernel, by decide, by decide⟩
  have h0 : i = 0 := Nat.lt_one_iff.mp h
  subst h0
  rfl

/-- The header of program P1: 140 bytes, one frame, no track. -/
def p1Header : State :=
  (start.setContainer (Memory.setBytes [] 0
    [0x42, 0x49, 0x4B, 0x69, 0x84, 0, 0, 0, 1, 0, 0, 0, 0x58, 0, 0, 0, 0, 0, 0, 0, 8, 0, 0, 0, 8, 0, 0, 0, 0x1E, 0, 0, 0,
      1, 0, 0, 0, 0, 0, 0, 0, 0, 0, 0, 0, 0x35, 0, 0, 0, 0x8C, 0, 0, 0])).setRegs { Regs.reset with arg0 := 140 }

theorem p1Header_passes : ∀ k ∈ openTable p1Header.params p1Header.container p1Header.regs.arg0.toNat, k.1 := by
  have hm : p1Header.container = [(0, 0x42), (1, 0x49), (2, 0x4B), (3, 0x69), (4, 0x84), (8, 1), (12, 0x58), (20, 8),
      (24, 8), (28, 0x1E), (32, 1), (44, 0x35), (48, 0x8C)] := by decide +kernel
  rw [hm]
  simp only [openTable, List.forall_mem_cons, List.not_mem_nil, false_implies, implies_true, and_true]
  refine ⟨?_, ?_, ?_, ?_, ?_, ?_, ?_, ?_, ?_, ?_, ?_, ?_, ?_⟩
  all_goals first
    | decide +kernel
    | (refine ⟨fun j h => absurd h ?_, by decide +kernel⟩
       intro hc
       have h1 : Memory.u32 [(0, 0x42), (1, 0x49), (2, 0x4B), (3, 0x69), (4, 0x84), (8, 1), (12, 0x58), (20, 8),
          (24, 8), (28, 0x1E), (32, 1), (44, 0x35), (48, 0x8C)] 8 = 1 := by decide +kernel
       rw [h1] at hc
       omega)

theorem witness_CmdOpenCompletes :
    Idle p1Header ∧ p1Header.regs.isOpen = false
      ∧ ∀ k ∈ openTable p1Header.params p1Header.container p1Header.regs.arg0.toNat, k.1 :=
  ⟨rfl, rfl, p1Header_passes⟩

/-- A scan order that visits one place only, and a VLC shape whose codes leave some bits without a leaf: neither is an
instantiation (R11 (a), (c), R12). -/
theorem test_instantiate_illFormed :
    instantiate { testParams with scan := List.replicate 64 0 } = .refused .illFormedInstantiation
      ∧ instantiate { testParams with vlc := List.replicate 15 identityCode ++ [(List.range 16).map fun l => (5, l)] }
        = .refused .illFormedInstantiation := ⟨by rfl, by rfl⟩

theorem test_instantiate_wellFormed : instantiate testParams = .next start := by rfl

theorem test_cmdOpen_P1 :
    (next? (commanded p1Header 1)).map (fun t => (t.regs.isOpen, t.regs.res0, t.session.frames))
      = some (true, 1, [{ byteOffset := 52, byteSize := 88, isKeyframe := true }]) := by decide +kernel

/-- An open session; the first check failing (ARG0 = 0); the second (ARG0 = 43). -/
theorem witness_CmdOpenErrors :
    (Idle session10 ∧ session10.regs.isOpen = true)
      ∧ (Idle State.reset ∧ State.reset.regs.isOpen = false
        ∧ openTable sourceParams State.reset.container State.reset.regs.arg0.toNat
          = [] ++ (0 ≠ 0, .noSource) :: (openTable sourceParams [] 0).tail ∧ ¬ (0 ≠ 0))
      ∧ openTable sourceParams [] 43 = [(43 ≠ 0, Cause.noSource)] ++ (44 ≤ 43, .truncated) :: (openTable sourceParams [] 43).tail.tail
      ∧ 43 ≠ 0 ∧ ¬ 44 ≤ 43 :=
  ⟨⟨rfl, rfl⟩, ⟨rfl, rfl, rfl, by decide⟩, rfl, by decide, by decide⟩

/-- `session10` with another ARG0 and its one track. -/
def session10With (arg0 : Word) (x : Track) : State :=
  (session10.setTracks [x]).setRegs { session10.regs with arg0 := arg0 }

/-- SEEK at and one past the frame count, the first track and the first that is none, and no session. -/
theorem witness_CmdSessionComplete :
    (Ready (session10With 1 runTrack)
        ∧ (session10With 1 runTrack).session.trackCount.toNat ≤ (session10With 1 runTrack).regs.arg0.toNat)
      ∧ (Idle State.reset ∧ State.reset.regs.isOpen = false) ∧ Ready (session10With 10 runTrack)
      ∧ (session10With 10 runTrack).regs.arg0.toNat ≤ (session10With 10 runTrack).session.frameCount.toNat
      ∧ Ready (session10With 11 runTrack)
      ∧ (session10With 11 runTrack).session.frameCount.toNat < (session10With 11 runTrack).regs.arg0.toNat
      ∧ Ready (session10With 0 runTrack)
      ∧ (session10With 0 runTrack).regs.arg0.toNat < (session10With 0 runTrack).session.trackCount.toNat
      ∧ (session10With 0 runTrack).tracks[(session10With 0 runTrack).regs.arg0.toNat]? = some runTrack :=
  ⟨⟨⟨rfl, rfl⟩, by decide +kernel⟩, ⟨rfl, rfl⟩, ⟨rfl, rfl⟩, by decide +kernel, ⟨rfl, rfl⟩, by decide +kernel, ⟨rfl, rfl⟩,
    by decide +kernel, rfl⟩

/-- Four bytes of output, ARG1 = 5; the first track the session does not have; no session. -/
theorem witness_CmdReadAudioCompletes :
    let x := { runTrack with out := [(0, 1), (1, 2), (2, 3), (3, 4)], outLen := 4 }
    Ready (session10With 0 x) ∧ (session10With 0 x).regs.arg0.toNat < (session10With 0 x).session.trackCount.toNat
      ∧ (session10With 0 x).tracks[(session10With 0 x).regs.arg0.toNat]? = some x
      ∧ (∀ i, i < min x.outLen (5 - 5 % 2) → (Cells.get x.out i).isSome = true)
      ∧ Ready (session10With 1 x)
      ∧ (session10With 1 x).session.trackCount.toNat ≤ (session10With 1 x).regs.arg0.toNat
      ∧ Idle State.reset ∧ State.reset.regs.isOpen = false :=
  ⟨⟨rfl, rfl⟩, by decide +kernel, rfl, by decide, ⟨rfl, rfl⟩, by decide +kernel, rfl, rfl⟩

/-- The end of the index; a frame with one packet of 4 bytes; a frame of 3 bytes. -/
theorem witness_CmdDecodeStarts :
    let f : Frame := { byteOffset := 100, byteSize := 20, isKeyframe := true }
    let g : Frame := { byteOffset := 100, byteSize := 3, isKeyframe := true }
    let s := (session10With 0 runTrack).setContainer [(100, 4)]
    let e := s.setSession { s.session with curFrame := 10 }
    let u := s.setSession { s.session with frames := List.replicate 10 g }
    (Ready e ∧ e.session.curFrame = e.session.frameCount)
      ∧ (Ready s ∧ s.session.curFrame ≠ s.session.frameCount ∧ s.session.frames[s.session.curFrame.toNat]? = some f
        ∧ [Packet.mk 104 4].length = s.session.trackCount.toNat
        ∧ PacketsAt s.container (f.byteOffset + f.byteSize) f.byteOffset [Packet.mk 104 4] 108)
      ∧ Ready u ∧ u.session.curFrame ≠ u.session.frameCount ∧ u.session.frames[u.session.curFrame.toNat]? = some g
      ∧ 1 ≤ u.session.trackCount.toNat ∧ g.byteSize < 4 :=
  ⟨⟨⟨rfl, rfl⟩, rfl⟩,
    ⟨⟨rfl, rfl⟩, by decide +kernel, rfl, rfl, ⟨rfl, by decide +kernel, by decide +kernel, by unfold PacketsAt; decide +kernel⟩⟩,
    ⟨rfl, rfl⟩, by decide +kernel, rfl, by decide +kernel, by decide⟩

/-- The first and the last illegal code, and high bits that are ignored. -/
theorem witness_CommandErrorsChangeResultsOnly :
    Idle State.reset ∧ State.reset.regs.isOpen = false ∧ 0xFFFFFF00 < 2 ^ 32 ∧ 0xFFFFFF00 % 256 = 0
      ∧ 0x12345607 < 2 ^ 32 ∧ 7 ≤ 0x12345607 % 256 := ⟨rfl, rfl, by decide, by decide, by decide, by decide⟩

theorem witness_RegisterAccesses : Idle session10 := rfl

/-- One move of each kind the statement names, at the first and the last offset. -/
theorem witness_StepRunsHostMove :
    let one := fun (m : HostMove) => State.reset.setHostMoves [m]
    Idle State.reset ∧ State.reset.hostMoves = [] ∧ (∀ m, Idle (one m) ∧ (one m).hostMoves = m :: [])
      ∧ decode .cmd (0x12345601 : Word).toNat = .ok .cmdOpen ∧ (12 < 256 ∧ 12 % 4 = 0 ∧ 12 ≤ 12)
      ∧ (252 < 256 ∧ 252 % 4 = 0 ∧ 12 ≤ 252) ∧ decode .regRead 0 = .ok .rdCmd ∧ decode .regRead 0x48 = .ok .rdFrameKey
      ∧ (0x4C ≤ 0x4C ∧ 0x4C < 256 ∧ 0x4C % 4 = 0) ∧ (0x4C ≤ 252 ∧ 252 < 256 ∧ 252 % 4 = 0) :=
  ⟨rfl, rfl, fun _ => ⟨rfl, rfl⟩, rfl, by decide, by decide, rfl, rfl, by decide, by decide⟩

/-- A byte placed at the last address and one past it, with and without a session; a plane's first byte, one past its last,
and a plane the session does not have. -/
theorem witness_StepRunsHostMove_spaces :
    let one := fun (s : State) (m : HostMove) => s.setHostMoves [m]
    Idle (one start (.containerWrite 0xFFFFFFFF 7)) ∧ ¬ 2 ^ 32 ≤ 0xFFFFFFFF ∧ 2 ^ 32 ≤ 2 ^ 32
      ∧ (one start (.containerWrite 0xFFFFFFFF 7)).regs.isOpen = false
      ∧ Idle (one session10 (.containerWrite 0 7)) ∧ (one session10 (.containerWrite 0 7)).regs.isOpen = true
      ∧ Idle (one (fullBlock .idle) (.planeRead .y 0)) ∧ (one (fullBlock .idle) (.planeRead .y 0)).plane .y = some grayPlane
      ∧ 0 < grayPlane.pitch * grayPlane.rows ∧ ¬ 256 < grayPlane.pitch * grayPlane.rows
      ∧ (one (fullBlock .idle) (.planeRead .a 0)).plane .a = none :=
  ⟨rfl, by decide, by decide, rfl, rfl, rfl, rfl, rfl, by decide +kernel, by decide +kernel, rfl⟩

theorem witness_StepRunsElement_tree :
    let s := atTree [0x53, 0x39]
    TreeAt s (.bundle .run) [] ∧ (Instr.treeList 3 2).wellFormed = true ∧ encode .tree (.treeList 3 2) = some (8, 0x53)
      ∧ BitsLeft s 8 ∧ bitsAt s 0 8 = 0x53 := by
  refine ⟨⟨rfl, rfl⟩, rfl, rfl, ?_, by decide +kernel⟩
  unfold BitsLeft; decide +kernel

/-- A constant refill that fills the buffer, and the refill that ends the bundle. -/
theorem witness_StepRunsElement_refill :
    let s := atRefill 0x69 .colors [0x40, 0x04]
    let u := atRefill 0x69 .colors [0x00, 0x00]
    (RefillAt s .colors [] 64 ∧ (Instr.refillColorsConst 64).wellFormed = true ∧ (s.bundle .colors).done = false
        ∧ (s.bundle .colors).wr ≤ (s.bundle .colors).rd
        ∧ encode (.refill .colors (s.bundle .colors).len) (.refillColorsConst 64) = some (11, 0x440)
        ∧ 64 = 0x440 % 2 ^ (s.bundle .colors).len ∧ BitsLeft s 11 ∧ bitsAt s 0 11 = 0x440)
      ∧ RefillAt u .colors [] 0 ∧ Instr.refillDone.wellFormed = true
      ∧ encode (.refill .colors (u.bundle .colors).len) .refillDone = some (10, 0) ∧ BitsLeft u 10 ∧ bitsAt u 0 10 = 0 := by
  refine ⟨⟨⟨rfl, rfl, by decide +kernel⟩, rfl, rfl, by decide +kernel, by decide +kernel, by decide +kernel, ?_,
    by decide +kernel⟩, ⟨rfl, rfl, by decide +kernel⟩, rfl, by decide +kernel, ?_, by decide +kernel⟩
  · unfold BitsLeft; decide +kernel
  · unfold BitsLeft; decide +kernel

/-- A PATTERN header without the escape bit (P18 false). -/
theorem witness_StepRunsElement_pattern :
    let s := withParams (atRefill 0x69 .pattern [0x40, 0x04]) { testParams with patternEscape := false } (by decide +kernel)
    RefillAt s .pattern [] 64 ∧ (s.bundle .pattern).done = false ∧ (s.bundle .pattern).wr ≤ (s.bundle .pattern).rd
      ∧ s.params.patternEscape = false ∧ 1 ≤ (s.bundle .pattern).len ∧ (s.bundle .pattern).len ≤ 32
      ∧ BitsLeft s (s.bundle .pattern).len ∧ bitsAt s 0 (s.bundle .pattern).len = 64 := by
  refine ⟨⟨rfl, rfl, by decide +kernel⟩, rfl, by decide +kernel, rfl, by decide +kernel, by decide +kernel, ?_,
    by decide +kernel⟩
  unfold BitsLeft; decide +kernel

theorem witness_StepRunsElement_audio :
    let s := atRuns [0x02, 0x00]
    s.ctl.phase = .audioCoef ∧ s.tracks[s.ctl.track]? = some runTrack ∧ s.ctl.coefPos < runTrack.n
      ∧ encode .audioRun (.audioRun8 1) = some (5, 2) ∧ BitsLeft s 5 ∧ bitsAt s 0 5 = 2 := by
  refine ⟨rfl, rfl, by decide, rfl, ?_, by decide +kernel⟩
  unfold BitsLeft; decide +kernel

theorem witness_StepRunsElement_symbol :
    let s := atSymbol 1 [0x06]
    s.ctl.phase = .btSym ∧ s.ctl.refills = .blockTypes :: [] ∧ (s.bundle .blockTypes).wr < s.ctl.stop
      ∧ huff (.bundle .blockTypes) s = .ok 6 (s.setPos 4) ∧ decode .btsym (6 : BitVec 4).toNat = .ok .btsymLiteral6 :=
  ⟨rfl, rfl, by decide +kernel, by rfl, rfl⟩

theorem witness_StepRunsElement_block :
    let s := atBlock .block [(.blockTypes, [15])] []
    let u := atBlock .subBlock [(.subBlockTypes, [6])] []
    (BlockAt s .block .y grayPlane ∧ Holds (s.bundle .blockTypes) [((15 : Nat) : Int)]
        ∧ decode .bt4 15 = .ok .btIllegal15)
      ∧ u.ctl.phase = .subBlock ∧ Holds (u.bundle .subBlockTypes) [((6 : Nat) : Int)]
      ∧ decode .st4 6 = .ok .scaledFill :=
  ⟨⟨⟨rfl, rfl, rfl, by decide +kernel⟩, ⟨by decide +kernel, by decide +kernel⟩, rfl⟩, rfl,
    ⟨by decide +kernel, by decide +kernel⟩, rfl⟩

/-- The step before each clause: the packet's start, the last plane done, luma with its prefix and without, chroma, PlaneStart's
three items, a block row to come and none, a refilled row and a finished one, a symbol loop's end, a plane's end, and the frame's. -/
theorem witness_SwapEndsFrame :
    let at_ (c : Ctl) (n : Nat) : State :=
      (((zeros n).setSession { Session.reset with version := 0x69, width := 8, height := 8 }).setPlane .y
        grayPlane).setPlane .u (chromaPlane .poison 8 8) |>.setCtl c
    let next : Ctl := { Ctl.reset with phase := .planeNext, order := [.y, .u] }
    (at_ { Ctl.reset with phase := .videoStart } 0).ctl.phase = .videoStart
      ∧ (at_ { next with order := [] } 0).ctl.order = []
      ∧ ((at_ next 32).ctl.phase = .planeNext ∧ (at_ next 32).ctl.order = .y :: [.u] ∧ (at_ next 32).plane .y = some grayPlane
        ∧ BitsLeft (at_ next 32) ((at_ next 32).params.prefixSkip 0x69)
        ∧ ¬ BitsLeft (at_ next 31) ((at_ next 31).params.prefixSkip 0x69))
      ∧ (at_ { next with order := [.u] } 0).plane .u = some (chromaPlane .poison 8 8)
      ∧ (∀ l : List AgendaItem, (at_ { Ctl.reset with phase := .trees, agenda := l } 0).ctl.phase = .trees
        ∧ (at_ { Ctl.reset with phase := .trees, agenda := l } 0).ctl.agenda = l)
      ∧ (0 < grayPlane.bh ∧ ¬ 1 < grayPlane.bh ∧ grayPlane.bw ≤ 1
        ∧ (at_ { Ctl.reset with phase := .rowStart } 0).plane .y = some grayPlane
        ∧ (at_ { Ctl.reset with phase := .rowStart } 0).ctl.plane = .y)
      ∧ (at_ { Ctl.reset with phase := .refill } 0).ctl.refills = []
      ∧ ((atSymbol 0 []).ctl.phase = .btSym ∧ (atSymbol 0 []).ctl.refills = [.blockTypes]
        ∧ (atSymbol 0 []).ctl.stop ≤ ((atSymbol 0 []).bundle .blockTypes).wr)
      ∧ (at_ { Ctl.reset with phase := .planeEnd } 0).ctl.phase = .planeEnd
      ∧ (fullBlock .videoEnd).ctl.phase = .videoEnd := by
  unfold BitsLeft
  refine ⟨rfl, rfl, ⟨rfl, rfl, rfl, by decide +kernel, by decide +kernel⟩, rfl, fun _ => ⟨rfl, rfl⟩,
    ⟨by decide +kernel, by decide +kernel, by decide +kernel, rfl, rfl⟩, rfl, ⟨rfl, rfl, by decide +kernel⟩, rfl, rfl⟩

/-- The host places a byte: CONTAINER changes and keeps its form. -/
theorem witness_StepKeepsMemory :
    let s := (packet [1, 0, 3]).setHostMoves [.containerWrite 0 0]
    (∃ t, step s = .next t) ∧ Memory.wf s.container = true :=
  ⟨⟨_, by rfl⟩, by decide +kernel⟩

/-- A FILL of a plane whose `last` is full. -/
theorem witness_StepKeepsMemory_planes :
    let s := atBlock .block [(.blockTypes, [6]), (.colors, [0x42])] []
    (next? (step s)).isSome = true ∧ PlaneInv s := by
  refine ⟨by decide +kernel, fun p x h => ?_⟩
  cases p <;> cases h
  refine ⟨by decide +kernel, by decide +kernel, by decide +kernel, by decide +kernel⟩

/-- A read of 32 bits with 31 left, and a fetch from an empty bundle. -/
theorem witness_StepKeepsCursors_underruns :
    (zeros 31).bitSize < (zeros 31).bitPos + 32 ∧ ((zeros 31).bundle .run).rd = ((zeros 31).bundle .run).wr :=
  ⟨by decide, rfl⟩

/-- A symbol read inside a running refill. -/
theorem witness_StepKeepsCursors :
    let s := atSymbol 32 [0x06]
    (next? (step s)).isSome = true ∧ ReaderInv s ∧ BundleInv s := by
  refine ⟨by decide +kernel, ?_, fun b => ?_, fun _ b rest h => ?_⟩
  · unfold ReaderInv; decide +kernel
  · cases b <;> decide +kernel
  · cases h; decide +kernel

theorem witness_StepKeepsSession :
    let s := (session10With 10 runTrack).setHostMoves [.regWrite 0 4]
    (next? (step s)).isSome = true ∧ SessionInv s ∧ testParams.wellFormed = true
      ∧ Params.wellFormed { testParams with scan := List.replicate 64 0 } = false :=
  ⟨by decide +kernel, ⟨by decide +kernel, by decide +kernel, by decide +kernel, fun h => nomatch h⟩,
    testParams_wellFormed, by decide +kernel⟩

theorem witness_FrameLeavesLast :
    let s := atSymbol 32 [0x06]
    (next? (step s)).isSome = true ∧ s.ctl.phase ≠ .idle ∧ s.ctl.phase ≠ .videoEnd ∧ ReaderInv s
      ∧ s.ctl.phase ≠ .audioTrack ∧ s.ctl.phase ≠ .videoStart := by
  refine ⟨by decide +kernel, by decide +kernel, by decide +kernel, ?_, by decide +kernel, by decide +kernel⟩
  unfold ReaderInv; decide +kernel

theorem witness_HostOwnsItsState :
    let s := State.reset.setHostMoves [.containerWrite 0xFFFFFFFF 7]
    (∃ t, step s = .next t ∧ t.container = [(0xFFFFFFFF, 7)]) ∧ Idle s := ⟨⟨_, by rfl, by rfl⟩, rfl⟩

/-- The smallest and the largest picture. -/
theorem witness_GeometryCovers :
    0 < (chromaPlane .poison 1 1).bw ∧ 0 < (chromaPlane .poison 1 1).bh ∧ (0 : Int) ≤ motionLimit (chromaPlane .poison 1 1)
      ∧ 4095 < (lumaPlane .poison 32767 32767).bw ∧ 4095 < (lumaPlane .poison 32767 32767).bh := by decide +kernel

end Sys2Proof.Machine
end

/-! # DecodeSymbol finds a leaf (R11 (a), R12, R310)

A code that passes R11 (a) covers every bit pattern: the patterns as long as its longest code that begin with one of its codes
are counted by the sum of R12, no two codes share one, and the sum is their number. So some code is ahead of the reader, and
the loop of R310 ends at it if it did not end before. -/

section
namespace Sys2Proof.Machine

/-! ## A complete code covers every bit pattern -/

/-- What R11 (a) and R12 check of a shape. -/
theorem isCompletePrefixCode_inv {t : List (Nat × Nat)} (h : isCompletePrefixCode t = true) :
    t.length = 16 ∧ (∀ c ∈ t, 1 ≤ c.1 ∧ c.2 < 2 ^ c.1)
      ∧ (∀ i j : Fin t.length, i ≠ j → isCodePrefix t[i] t[j] = false)
      ∧ (t.map fun c => 2 ^ (longestCode t - c.1)).sum = 2 ^ longestCode t := by
  simp only [isCompletePrefixCode, Bool.and_eq_true, beq_iff_eq] at h
  obtain ⟨⟨⟨hlen, hall⟩, hpre⟩, hsum⟩ := h
  refine ⟨hlen, fun c hc => by simpa using List.all_eq_true.mp hall c hc, fun i j hij => ?_, hsum⟩
  have hi := List.all_eq_true.mp hpre i (List.mem_range.mpr (by omega))
  have hj := List.all_eq_true.mp hi j (List.mem_range.mpr (by omega))
  simpa [Fin.val_ne_of_ne hij] using hj

theorem length_le_longestCode {t : List (Nat × Nat)} {c : Nat × Nat} (h : c ∈ t) : c.1 ≤ longestCode t := by
  rw [longestCode, List.foldl_eq_foldr]
  exact List.le_max_of_le (List.mem_map_of_mem h) (Nat.le_refl _)

/-- The patterns of `n` bits that begin with the code `c`, the first bit read being bit 0 (R310). -/
def patternsOf (n : Nat) (c : Nat × Nat) : Finset Nat := {v ∈ Finset.range (2 ^ n) | v % 2 ^ c.1 = c.2}

theorem mem_patternsOf {n v : Nat} {c : Nat × Nat} : v ∈ patternsOf n c ↔ v < 2 ^ n ∧ v % 2 ^ c.1 = c.2 := by
  simp [patternsOf]

/-- A code fixes its own bits of a pattern and leaves the others free. -/
theorem card_patternsOf {n : Nat} {c : Nat × Nat} (hlen : c.1 ≤ n) (hval : c.2 < 2 ^ c.1) :
    (patternsOf n c).card = 2 ^ (n - c.1) := by
  have hmod : (fun v => v % 2 ^ c.1 = c.2) = (· ≡ c.2 [MOD 2 ^ c.1]) := by
    funext v; rw [Nat.ModEq, Nat.mod_eq_of_lt hval]
  have hdvd : 2 ^ n % 2 ^ c.1 = 0 := Nat.mod_eq_zero_of_dvd (Nat.pow_dvd_pow 2 hlen)
  calc (patternsOf n c).card
      = (2 ^ n).count (fun v => v % 2 ^ c.1 = c.2) := by rw [patternsOf, Nat.count_eq_card_filter_range]
    _ = (2 ^ n).count (· ≡ c.2 [MOD 2 ^ c.1]) := by simp only [hmod]
    _ = 2 ^ n / 2 ^ c.1 := by rw [Nat.count_modEq_card _ (by positivity), hdvd, if_neg (Nat.not_lt_zero _), Nat.add_zero]
    _ = 2 ^ (n - c.1) := Nat.pow_div hlen (by decide)

/-- Of two codes that begin the same pattern, one that is no longer begins the other. -/
theorem isCodePrefix_of_mem_patternsOf {n v : Nat} {c c' : Nat × Nat} (hle : c.1 ≤ c'.1) (h : v ∈ patternsOf n c)
    (h' : v ∈ patternsOf n c') : isCodePrefix c c' = true := by
  have hv : c'.2 % 2 ^ c.1 = c.2 := by
    rw [← (mem_patternsOf.mp h').2, Nat.mod_mod_of_dvd _ (Nat.pow_dvd_pow 2 hle), (mem_patternsOf.mp h).2]
  simp [isCodePrefix, hle, hv]

/-- Every pattern of as many bits as the longest code begins with a code of the shape. -/
theorem exists_code_of_pattern {t : List (Nat × Nat)} (h : isCompletePrefixCode t = true) {v : Nat}
    (hv : v < 2 ^ longestCode t) : ∃ c ∈ t, v % 2 ^ c.1 = c.2 := by
  obtain ⟨_, hcode, hpre, hsum⟩ := isCompletePrefixCode_inv h
  have hdisj : ((Finset.univ : Finset (Fin t.length)) : Set (Fin t.length)).PairwiseDisjoint fun i => patternsOf (longestCode t) t[i] := by
    intro i _ j _ hij
    refine Finset.disjoint_left.mpr fun w hi hj => ?_
    rcases Nat.le_total t[i].1 t[j].1 with hle | hle
    · exact Bool.eq_false_iff.mp (hpre i j hij) (isCodePrefix_of_mem_patternsOf hle hi hj)
    · exact Bool.eq_false_iff.mp (hpre j i hij.symm) (isCodePrefix_of_mem_patternsOf hle hj hi)
  have hcard : (Finset.univ.biUnion fun i : Fin t.length => patternsOf (longestCode t) t[i]).card = 2 ^ longestCode t := by
    rw [Finset.card_biUnion hdisj, ← hsum, ← Fin.sum_univ_fun_getElem]
    refine Finset.sum_congr rfl fun i _ => ?_
    have hi : t[i] ∈ t := List.getElem_mem i.isLt
    exact card_patternsOf (length_le_longestCode hi) (hcode _ hi).2
  have hall : (Finset.univ.biUnion fun i : Fin t.length => patternsOf (longestCode t) t[i])
      = Finset.range (2 ^ longestCode t) := by
    refine Finset.eq_of_subset_of_card_le (fun w hw => ?_) (by rw [hcard, Finset.card_range])
    obtain ⟨i, _, hi⟩ := Finset.mem_biUnion.mp hw
    exact Finset.mem_range.mpr (mem_patternsOf.mp hi).1
  obtain ⟨i, _, hi⟩ := Finset.mem_biUnion.mp (hall ▸ Finset.mem_range.mpr hv)
  exact ⟨t[i], List.getElem_mem i.isLt, (mem_patternsOf.mp hi).2⟩

/-! ## Bits read one by one -/

/-- One bit more is read as the next higher bit. -/
theorem Memory.packetBits_succ (m : List Host.Cell) (base pos n : Nat) :
    Memory.packetBits m base pos (n + 1)
      = Memory.packetBits m base pos n + Memory.packetBits m base (pos + n) 1 * 2 ^ n := by
  induction n generalizing pos with
  | zero => simp [Memory.packetBits]
  | succ n ih =>
    calc Memory.packetBits m base pos (n + 2)
        = Memory.packetBit m base pos + 2 * Memory.packetBits m base (pos + 1) (n + 1) := rfl
      _ = Memory.packetBit m base pos
          + 2 * (Memory.packetBits m base (pos + 1) n + Memory.packetBits m base (pos + 1 + n) 1 * 2 ^ n) := by rw [ih]
      _ = Memory.packetBit m base pos + 2 * Memory.packetBits m base (pos + 1) n
          + Memory.packetBits m base (pos + (n + 1)) 1 * 2 ^ (n + 1) := by
        rw [Nat.add_assoc pos 1 n, Nat.add_comm 1 n]; ring

theorem bitsAt_succ (s : State) (off n : Nat) :
    bitsAt s off (n + 1) = bitsAt s off n + bitsAt s (off + n) 1 * 2 ^ n := by
  rw [bitsAt, Memory.packetBits_succ, Nat.add_assoc s.bitPos off n]
  rfl

/-- The first bits of a longer read. -/
theorem bitsAt_mod {n k : Nat} (h : n ≤ k) (s : State) (off : Nat) : bitsAt s off k % 2 ^ n = bitsAt s off n := by
  induction k, h using Nat.le_induction with
  | base => exact Nat.mod_eq_of_lt (bitsAt_lt s off n)
  | succ k hk ih =>
    have hdvd : 2 ^ n ∣ bitsAt s (off + k) 1 * 2 ^ k := Dvd.dvd.mul_left (Nat.pow_dvd_pow 2 hk) _
    rw [bitsAt_succ, Nat.add_mod, Nat.mod_eq_zero_of_dvd hdvd, Nat.add_zero, Nat.mod_mod, ih]

/-- Reading one bit, `j` bits past the position of `s`. -/
theorem getBit_setPos {s : State} {j : Nat} (h : BitsLeft s (j + 1)) :
    getBit (s.setPos (s.bitPos + j)) = .ok (bitsAt s j 1) (s.setPos (s.bitPos + (j + 1))) := by
  unfold BitsLeft at h
  have hpos : (s.setPos (s.bitPos + j)).bitPos = s.bitPos + j := s.bitPos_setPos_of_le (by omega)
  rw [getBit_of_fits (by rw [hpos, State.setPos_bitSize]; omega), hpos]
  rfl

/-! ## The loop of R310 -/

/-- A leaf that is found is the index of the bits read. -/
theorem getElem?_of_findLeaf {codes : List (Nat × Nat)} (hlen : codes.length ≤ 16) {j acc : Nat} {l : BitVec 4}
    (h : findLeaf codes j acc = some l) : codes[l.toNat]? = some (j, acc) := by
  obtain ⟨i, hfind, rfl⟩ := Option.map_eq_some_iff.mp h
  obtain ⟨hi, hcode, -⟩ := List.findIdx?_eq_some_iff_getElem.mp hfind
  rw [BitVec.toNat_ofNat, Nat.mod_eq_of_lt (by omega), List.getElem?_eq_getElem hi, eq_of_beq hcode]

/-- No leaf is found only where the bits read are no code. -/
theorem not_mem_of_findLeaf_eq_none {codes : List (Nat × Nat)} {j acc : Nat} (h : findLeaf codes j acc = none) :
    (j, acc) ∉ codes := fun hmem => by
  have hne := List.findIdx?_eq_none_iff.mp (Option.map_eq_none_iff.mp h) (j, acc) hmem
  simp at hne

/-- One round of the loop, `j` bits past the position of `s`. -/
theorem decodeSymbolFrom_succ {s : State} {j : Nat} (codes : List (Nat × Nat)) (fuel : Nat) (h : BitsLeft s (j + 1)) :
    decodeSymbolFrom codes (fuel + 1) (j + 1) (bitsAt s 0 j) (s.setPos (s.bitPos + j))
      = (findLeaf codes (j + 1) (bitsAt s 0 (j + 1))).elim (decodeSymbolFrom codes fuel (j + 2) (bitsAt s 0 (j + 1))) pure
          (s.setPos (s.bitPos + (j + 1))) := by
  have hacc : bitsAt s 0 j + bitsAt s j 1 * 2 ^ (j + 1 - 1) = bitsAt s 0 (j + 1) := by
    rw [bitsAt_succ s 0 j, Nat.zero_add, Nat.add_sub_cancel]
  rw [decodeSymbolFrom, bind_of_ok (getBit_setPos h), hacc]
  cases findLeaf codes (j + 1) (bitsAt s 0 (j + 1)) <;> rfl

/-- The leaf `l` is that of the code ahead of the reader, and `r` is the answer that has read it. -/
def EndsAtLeaf (s : State) (codes : List (Nat × Nat)) (r : EStateM.Result Stop State (BitVec 4)) : Prop :=
  ∃ (l : BitVec 4) (c : Nat × Nat), codes[l.toNat]? = some c ∧ r = .ok l (s.setPos (s.bitPos + c.1)) ∧ bitsAt s 0 c.1 = c.2

/-- With a code ahead that the loop has not passed and has the rounds to reach, it ends at a leaf: at this code's, or at one
before it. -/
theorem decodeSymbolFrom_endsAtLeaf {s : State} {codes : List (Nat × Nat)} {c : Nat × Nat} (hlen : codes.length ≤ 16)
    (hc : c ∈ codes) (hbits : bitsAt s 0 c.1 = c.2) (hleft : BitsLeft s c.1) (fuel j : Nat) (hj : j < c.1)
    (hfuel : c.1 ≤ j + fuel) :
    EndsAtLeaf s codes (decodeSymbolFrom codes fuel (j + 1) (bitsAt s 0 j) (s.setPos (s.bitPos + j))) := by
  induction fuel generalizing j with
  | zero => omega
  | succ fuel ih =>
    have hnext : BitsLeft s (j + 1) := by unfold BitsLeft at *; omega
    rw [decodeSymbolFrom_succ codes fuel hnext]
    cases hleaf : findLeaf codes (j + 1) (bitsAt s 0 (j + 1)) with
    | some l => exact ⟨l, _, getElem?_of_findLeaf hlen hleaf, rfl, rfl⟩
    | none =>
      have hne : j + 1 ≠ c.1 := fun heq => by
        refine not_mem_of_findLeaf_eq_none hleaf ?_
        rwa [heq, hbits]
      exact ih (j + 1) (by omega) (by omega)

/-- `GetBits(4)` ends at a leaf of the identity code (R312). -/
theorem decodeSymbol_zero_endsAtLeaf {s : State} (h : s.params.codes 0 = identityCode) (hleft : BitsLeft s 4) :
    EndsAtLeaf s identityCode (decodeSymbol 0 s) := by
  have hv : bitsAt s 0 4 < 16 := bitsAt_lt s 0 4
  refine ⟨BitVec.ofNat 4 (bitsAt s 0 4), (4, bitsAt s 0 4), ?_, ?_, rfl⟩
  · rw [BitVec.toNat_ofNat, Nat.mod_eq_of_lt hv, identityCode, List.getElem?_map, List.getElem?_range hv]
    rfl
  · rw [decodeSymbol_zero h, bind_of_ok (getBits_of_fits (by decide) (by decide) hleft)]
    rfl

/-- A shape that passes R11 (a) has a code ahead of the reader when the longest one fits. -/
theorem exists_code_ahead {s : State} {t : List (Nat × Nat)} (h : isCompletePrefixCode t = true) :
    ∃ c ∈ t, bitsAt s 0 c.1 = c.2 := by
  obtain ⟨c, hc, hv⟩ := exists_code_of_pattern h (bitsAt_lt s 0 (longestCode t))
  exact ⟨c, hc, by rw [← hv, bitsAt_mod (length_le_longestCode hc)]⟩

/-- Settles O6: a complete code has a code ahead of the reader, and the loop of R310 ends there at the latest; shape 0 with
its code of P3 reads the nibble. -/
theorem decodeSymbolFindsLeaf : Obligations.DecodeSymbolFindsLeaf := by
  intro sh s hcomplete hleft
  by_cases hzero : sh = 0 ∧ s.params.codes 0 = identityCode
  · obtain ⟨rfl, hid⟩ := hzero
    rw [hid] at hleft ⊢
    exact decodeSymbol_zero_endsAtLeaf hid hleft
  · obtain ⟨hlen, hcode, -, -⟩ := isCompletePrefixCode_inv hcomplete
    obtain ⟨c, hc, hbits⟩ := exists_code_ahead (s := s) hcomplete
    have hfits : c.1 ≤ longestCode (s.params.codes sh) := length_le_longestCode hc
    have hcodeLeft : BitsLeft s c.1 := Nat.le_trans (Nat.add_le_add_left hfits _) hleft
    have hend := decodeSymbolFrom_endsAtLeaf (Nat.le_of_eq hlen) hc hbits hcodeLeft (longestCode (s.params.codes sh)) 0
      (hcode c hc).1 (by omega)
    have hstart : s.setPos (s.bitPos + 0) = s := s.setPos_bitPos
    rw [hstart, bitsAt_zero] at hend
    rwa [decodeSymbol_loop hzero]

end Sys2Proof.Machine
end

/-! # Registers and reset

What a host access does between commands, and the state right after reset. -/

section
namespace Sys2Proof.Machine

/-! ## Register accesses -/

theorem hostRead_of_idle {s : State} (f : State → Word) (h : Idle s) :
    run (hostRead f) s = .next (s.setReadData (some (f s))) := by
  refine run_of_ok ?_
  rw [hostRead, bind_of_ok (whileIdle_of_idle h), modify_apply]

theorem hostWrite_of_idle {s : State} (f : State → State) (h : Idle s) :
    run (whileIdle >>= fun _ => modify f) s = .next (f s) := by
  refine run_of_ok ?_
  rw [bind_of_ok (whileIdle_of_idle h), modify_apply]

/-- STATUS as the sum of its bits (R60, R61). -/
theorem statusWord_eq (s : State) :
    statusWord s = BitVec.ofNat 32 (s.regs.isOpen.toNat + 2 * s.regs.err.toNat + 4 * s.regs.audioTrunc.toNat
      + 8 * (s.regs.isOpen && s.session.hasAlpha).toNat + 16 * s.regs.frameValid.toNat
      + 32 * (s.regs.isOpen && s.session.curFrame == s.session.frameCount).toNat) := by
  have hbits : ∀ b0 b1 b2 b3 b4 b5 : Bool,
      bitAt b0 0 ||| bitAt b1 1 ||| bitAt b2 2 ||| bitAt b3 3 ||| bitAt b4 4 ||| bitAt b5 5
        = BitVec.ofNat 32 (b0.toNat + 2 * b1.toNat + 4 * b2.toNat + 8 * b3.toNat + 16 * b4.toNat + 32 * b5.toNat) := by
    decide
  exact hbits _ _ _ _ _ _

theorem frameKeyWord_eq (s : State) : frameKeyWord s = BitVec.ofNat 32 s.regs.frameKey.toNat := by
  rw [frameKeyWord]
  cases s.regs.frameKey <;> rfl

/-- Settles O50: a read returns its register's word, and STATUS and FRAME_KEY are the sums of their bits. -/
theorem registerAccesses : Obligations.RegisterAccesses := by
  intro s hidle
  have hread := fun f => hostRead_of_idle (s := s) f hidle
  refine ⟨?_, fun v => ⟨hostWrite_of_idle _ hidle, hostWrite_of_idle _ hidle⟩⟩
  rw [← statusWord_eq, ← frameKeyWord_eq]
  simp only [List.forall_mem_cons]
  exact ⟨hread _, hread _, hread _, hread statusWord, hread causeWord, hread _, hread _, hread _, hread _, hread _, hread _,
    hread _, hread _, hread _, hread _, hread _, hread versionWord, hread _, hread frameKeyWord, fun _ h => nomatch h⟩

/-! ## Reset -/

/-- A table over the versions that changes once (R367, R430). -/
theorem getD_replicate_append {α : Type} (a b d : α) {n m i : Nat} (h : i < n + m) :
    (List.replicate n a ++ List.replicate m b).getD i d = if i < n then a else b := by
  split
  next hi =>
    rw [List.getD_append _ _ _ _ (by simpa using hi), List.getD_replicate _ hi]
  next hi =>
    rw [List.getD_append_right _ _ _ _ (by simpa using hi), List.getD_replicate _ (by simp; omega)]

theorem sourceParams_byVersion (ver : Byte) :
    sourceParams.foldsColor ver = decide (ver.toNat < 0x69) ∧ sourceParams.swapsChroma ver = decide (0x68 ≤ ver.toNat)
      ∧ sourceParams.prefixSkip ver = if 0x69 ≤ ver.toNat then 32 else 0 := by
  have hver : ver.toNat < 256 := ver.isLt
  refine ⟨(getD_replicate_append true false _ (by omega)).trans ?_, (getD_replicate_append false true _ (by omega)).trans ?_,
    (getD_replicate_append 0 32 _ (by omega)).trans ?_⟩
  · split <;> simp <;> omega
  · split <;> simp <;> omega
  · split <;> split <;> omega

/-- P27 gives each frame length as its own scale. -/
theorem sourceParams_postScale (n : Nat) : sourceParams.postScale n = n := by
  have hown : ∀ e ∈ sourceParams.dctPostScale, e.2 = e.1 := by
    intro e he
    have hlist : sourceParams.dctPostScale = [(512, 512), (1024, 1024), (2048, 2048)] := rfl
    rw [hlist] at he
    fin_cases he <;> rfl
  rw [Params.postScale]
  cases hf : sourceParams.dctPostScale.find? fun e => e.1 == n with
  | none => rfl
  | some e => exact (hown e (List.mem_of_find?_eq_some hf)).trans (eq_of_beq (List.find?_some (p := fun e : Nat × Nat => e.1 == n) hf))

/-- R72 holds where no bundle holds a value and no symbol loop runs. -/
theorem bundleInv_of_empty {s : State} (h : ∀ b, (s.bundle b).rd = 0 ∧ (s.bundle b).wr = 0) (hp : s.ctl.phase ≠ .btSym) :
    BundleInv s :=
  ⟨fun b => by simp [h b], fun he => absurd he hp⟩

theorem Bundles.get_reset (b : BundleId) : Bundles.reset.get b = Bundle.reset := by cases b <;> rfl

theorem bundleInv_of_reset {s : State} (h : s.bundles = Bundles.reset) (hp : s.ctl.phase = .idle) : BundleInv s :=
  bundleInv_of_empty (fun b => by simp [State.bundle, h, Bundles.get_reset, Bundle.reset]) (by simp [hp])

theorem sessionInv_of_reset {s : State} (hs : s.session = Session.reset) (hp : s.planes = Planes.reset) (ht : s.tracks = [])
    (hv : s.regs.frameValid = false) (hi : s.ctl.phase = .idle) : SessionInv s := by
  refine ⟨?_, ?_, ?_, fun _ => ⟨hs, hp, hv, hi⟩⟩ <;> simp [hs, ht, Session.reset]

theorem planeInv_of_reset {s : State} (h : s.planes = Planes.reset) : PlaneInv s := by
  intro p x hx
  have hnone : s.plane p = none := by rw [State.plane, h]; cases p <;> rfl
  rw [hnone] at hx
  cases hx

/-- Settles O54: the fields are those of the definition; the tables by version change once, and the invariants hold of empty
bundles and no session. -/
theorem resetState : Obligations.ResetState := by
  unfold Obligations.ResetState
  exact ⟨rfl, by decide, rfl, fun p => by cases p <;> rfl, rfl, rfl, Bundles.get_reset, fun i => List.getD_replicate _ i.isLt,
    rfl, rfl, rfl, rfl, rfl, rfl, rfl, rfl, rfl, sourceParams_byVersion, rfl, rfl, rfl, rfl, rfl, rfl, rfl, rfl, rfl,
    sourceParams_postScale, rfl, rfl, rfl, rfl, rfl, rfl, rfl, rfl, rfl, State.accepted _, rfl, rfl, Nat.le_refl 0,
    bundleInv_of_reset rfl rfl, sessionInv_of_reset rfl rfl rfl rfl rfl, planeInv_of_reset rfl⟩

end Sys2Proof.Machine
end

/-! # The checks of R11 and R12, spelled out -/

section
namespace Sys2Proof.Machine

theorem isPerm64_iff {l : List Nat} : isPerm64 l = true ↔ l.Perm (List.range 64) := by
  refine ⟨perm_of_isPerm64, fun h => ?_⟩
  simp only [isPerm64, Bool.and_eq_true, beq_iff_eq, List.all_eq_true, List.contains_iff_mem]
  exact ⟨by simpa using h.length_eq, fun a ha => h.mem_iff.mpr ha⟩

theorem isQuantiser_iff {m : List (List Nat)} :
    isQuantiser m = true ↔ m.length = 16 ∧ ∀ l ∈ m, l.length = 64 ∧ ∀ v ∈ l, v < 2 ^ 31 := by
  simp [isQuantiser]

/-- No two of the sixteen codes share a pattern: no code begins another (R11 (a)). -/
def PrefixFree (t : List (Nat × Nat)) : Prop :=
  ∀ (i j : Nat) (c d : Nat × Nat), i ≠ j → t[i]? = some c → t[j]? = some d → ¬ (c.1 ≤ d.1 ∧ d.2 % 2 ^ c.1 = c.2)

theorem isCodePrefix_iff {c d : Nat × Nat} : isCodePrefix c d = true ↔ c.1 ≤ d.1 ∧ d.2 % 2 ^ c.1 = c.2 := by
  simp [isCodePrefix]

theorem prefixFree_iff {t : List (Nat × Nat)} (hlen : t.length = 16) :
    ((List.range 16).all fun i => (List.range 16).all fun j =>
      i == j || !isCodePrefix (t.getD i (0, 0)) (t.getD j (0, 0))) = true ↔ PrefixFree t := by
  simp only [List.all_eq_true, List.mem_range, Bool.or_eq_true, beq_iff_eq, Bool.not_eq_true', ← Bool.not_eq_true,
    isCodePrefix_iff]
  constructor
  · intro h i j c d hij hc hd
    have hi : i < 16 := hlen ▸ (List.getElem?_eq_some_iff.mp hc).1
    have hj : j < 16 := hlen ▸ (List.getElem?_eq_some_iff.mp hd).1
    have hne := (h i hi j hj).resolve_left hij
    rwa [List.getD_eq_getElem?_getD, List.getD_eq_getElem?_getD, hc, hd] at hne
  · intro h i hi j hj
    refine or_iff_not_imp_left.mpr fun hij => ?_
    rw [List.getD_eq_getElem _ _ (hlen ▸ hi), List.getD_eq_getElem _ _ (hlen ▸ hj)]
    exact h i j _ _ hij (List.getElem?_eq_getElem _) (List.getElem?_eq_getElem _)

/-- R12's sum over a common denominator `2 ^ n`. -/
theorem sum_code_shares {n : Nat} (t : List (Nat × Nat)) (h : ∀ c ∈ t, c.1 ≤ n) :
    (((t.map fun c => 2 ^ (n - c.1)).sum : Nat) : ℚ) = 2 ^ n * (t.map fun c => (1 / 2 ^ c.1 : ℚ)).sum := by
  induction t with
  | nil => simp
  | cons c t ih =>
    have hc : (2 : ℚ) ^ (n - c.1) = 2 ^ n * (1 / 2 ^ c.1) := by
      rw [pow_sub₀ _ (by norm_num) (h c List.mem_cons_self), one_div]
    simp only [List.map_cons, List.sum_cons, Nat.cast_add, mul_add, Nat.cast_pow, Nat.cast_ofNat, hc,
      ih fun d hd => h d (List.mem_cons_of_mem c hd)]

theorem complete_iff (t : List (Nat × Nat)) :
    (t.map fun c => 2 ^ (longestCode t - c.1)).sum = 2 ^ longestCode t ↔ (t.map fun c => (1 / 2 ^ c.1 : ℚ)).sum = 1 := by
  rw [← Nat.cast_inj (R := ℚ), sum_code_shares t fun c => length_le_longestCode, Nat.cast_pow, Nat.cast_ofNat,
    mul_eq_left₀ (by positivity)]

theorem isCompletePrefixCode_iff {t : List (Nat × Nat)} :
    isCompletePrefixCode t = true ↔ t.length = 16 ∧ (∀ c ∈ t, 1 ≤ c.1 ∧ c.2 < 2 ^ c.1) ∧ PrefixFree t
      ∧ (t.map fun c => (1 / 2 ^ c.1 : ℚ)).sum = 1 := by
  rw [← complete_iff, isCompletePrefixCode]
  simp only [Bool.and_eq_true, and_assoc]
  refine Iff.trans (and_congr_left fun _ => beq_iff_eq) (and_congr_right fun hlen => ?_)
  rw [prefixFree_iff hlen]
  simp

/-- The checks of R11 and R12 in the words of the rules. -/
theorem wellFormed_iff (p : Params) :
    p.wellFormed = true ↔
      p.numShapes = 16 ∧ p.vlc.length = 16
        ∧ (∀ t ∈ p.vlc, t.length = 16 ∧ (∀ c ∈ t, 1 ≤ c.1 ∧ c.2 < 2 ^ c.1) ∧ PrefixFree t
          ∧ (t.map fun c => (1 / 2 ^ c.1 : ℚ)).sum = 1)
        ∧ p.runPatterns.length = 16 ∧ (∀ l ∈ p.runPatterns, l.Perm (List.range 64))
        ∧ p.scan.Perm (List.range 64) ∧ p.scan[0]? = some 0
        ∧ ∀ m ∈ [p.quantIntra, p.quantInter], m.length = 16 ∧ ∀ l ∈ m, l.length = 64 ∧ ∀ v ∈ l, v < 2 ^ 31 := by
  simp only [Params.wellFormed, Bool.and_eq_true, beq_iff_eq, List.all_eq_true, isPerm64_iff, isQuantiser_iff,
    isCompletePrefixCode_iff, List.forall_mem_cons, List.head?_eq_getElem?, and_assoc]
  refine and_congr_right fun hn => ?_
  simp [hn]

end Sys2Proof.Machine
end

/-! # What a frame's steps keep

A step inside a frame is a sequence of a few kinds of update: the reader moves inside its packet, a bundle's cursors move in
order, a pixel is written inside its buffer, the scratch, the track in hand or the sequencer's locals change. A relation that
each of these keeps (`FrameSteps`) is kept by every element and every action of the sequencer, so an invariant, or that
something stays unchanged, is proved for the updates alone. -/

section
namespace Sys2Proof.Machine

variable {α β : Type} {R : State → State → Prop}

/-! ## Sequences that only read -/

/-- `R` is kept by what reading a value does: the reader moves inside its packet, and a color leaves its high nibble. -/
structure ReadSteps (R : State → State → Prop) : Prop where
  refl : ∀ s, R s s
  trans : ∀ s t u, R s t → R t u → R s u
  pos : ∀ s n, s.bitPos + n ≤ s.bitSize → R s (s.setPos (s.bitPos + n))
  colLast : ∀ s x, R s (s.setColLast x)

/-- The sequence does no more than read values. -/
def ReadsOnly (m : M α) : Prop := ∀ R, ReadSteps R → Keeps R m

theorem ReadsOnly.bind {m : M α} {f : α → M β} (hm : ReadsOnly m) (hf : ∀ a, ReadsOnly (f a)) : ReadsOnly (m >>= f) :=
  fun R h => Keeps.bind h.trans (hm R h) fun a => hf a R h

theorem ReadsOnly.pure (a : α) : ReadsOnly (Pure.pure a : M α) := fun _ h => Keeps.pure h.refl a
theorem ReadsOnly.get : ReadsOnly (MonadState.get : M State) := fun _ h => Keeps.get h.refl
theorem ReadsOnly.raise (c : Cause) : ReadsOnly (Machine.raise c : M α) := fun _ h => Keeps.raise h.refl c
theorem ReadsOnly.refuse (r : Refusal) : ReadsOnly (Machine.refuse r : M α) := fun _ _ => Keeps.refuse r
theorem ReadsOnly.check (ok : Bool) (c : Cause) : ReadsOnly (Machine.check ok c) := fun _ h => Keeps.check h.refl ok c
theorem ReadsOnly.demand (ok : Bool) (r : Refusal) : ReadsOnly (Machine.demand ok r) := fun _ h => Keeps.demand h.refl ok r
theorem ReadsOnly.getOr (x : Option α) (r : Refusal) : ReadsOnly (Machine.getOr x r) := fun _ h => Keeps.getOr h.refl x r
theorem ReadsOnly.atPhase (x : Phase) : ReadsOnly (Machine.atPhase x) := fun _ h => Keeps.atPhase h.refl x
theorem ReadsOnly.getBits (n : Nat) : ReadsOnly (Machine.getBits n) := fun _ h => Keeps.getBits h.refl h.pos n
theorem ReadsOnly.getBit : ReadsOnly Machine.getBit := ReadsOnly.getBits 1
theorem ReadsOnly.huff (r : TreeRef) : ReadsOnly (Machine.huff r) := fun _ h => Keeps.huff h.refl h.trans h.pos r
theorem ReadsOnly.readLast (p : PlaneId) (a : Nat) : ReadsOnly (Machine.readLast p a) := fun _ h => Keeps.readLast h.refl p a

theorem ReadsOnly.readMany {f : M α} (hf : ReadsOnly f) (n : Nat) : ReadsOnly (Machine.readMany f n) :=
  fun R h => Keeps.readMany h.refl h.trans (hf R h) n

theorem ReadsOnly.ite {p : Prop} [Decidable p] {m m' : M α} (hm : ReadsOnly m) (hm' : ReadsOnly m') :
    ReadsOnly (if p then m else m') := by
  split
  · exact hm
  · exact hm'

theorem readsOnly_planeOf (p : PlaneId) : ReadsOnly (planeOf p) := .bind .get fun _ => .getOr _ _

theorem readsOnly_writtenPixel (v : Option Byte) : ReadsOnly (writtenPixel v) := by
  cases v
  · exact .raise _
  · exact .pure _

theorem readsOnly_readCur (p : PlaneId) (a : Nat) : ReadsOnly (readCur p a) :=
  .bind (readsOnly_planeOf p) fun _ => .bind (.demand _ _) fun _ => readsOnly_writtenPixel _

/-! ### Operands -/

theorem readsOnly_readSigned (m : Nat) : ReadsOnly (readSigned m) := .ite (.pure _) (.bind .getBit fun _ => .pure _)

theorem readsOnly_decodeColor : ReadsOnly decodeColor :=
  .bind .get fun _ => .bind (.huff _) fun hi =>
    .bind (fun _ h => Keeps.modify fun s => h.colLast s hi) fun _ => .bind (.huff _) fun _ => .pure _

theorem readsOnly_patternByte : ReadsOnly patternByte := .bind (.huff _) fun _ => .bind (.huff _) fun _ => .pure _

theorem readsOnly_motionConst : ReadsOnly motionConst := .bind (.getBits 4) readsOnly_readSigned

theorem readsOnly_motionCoded (b : BundleId) : ReadsOnly (motionCoded b) := .bind (.huff _) fun _ => readsOnly_readSigned _

theorem readsOnly_runConst : ReadsOnly runConst :=
  .bind (.getBits 4) fun _ => .bind .get fun _ => .ite (readsOnly_readSigned _) (.pure _)

theorem readsOnly_runCoded : ReadsOnly runCoded :=
  .bind (.huff _) fun _ => .bind .get fun _ => .ite (readsOnly_readSigned _) (.pure _)

theorem readsOnly_dcFirst (b : BundleId) : ReadsOnly (dcFirst b) :=
  .ite (.bind (.getBits 11) fun _ => .pure _) (.bind (.getBits 10) readsOnly_readSigned)

theorem readsOnly_dcNext (w : Nat) (v : Int) : ReadsOnly (dcNext w v) :=
  .ite (.pure v) (.bind (.getBits w) fun _ => .bind (readsOnly_readSigned _) fun _ => .bind (.check _ _) fun _ => .pure _)

theorem readsOnly_coefficientValue (bits : Nat) : ReadsOnly (coefficientValue bits) :=
  .ite (.bind .getBit fun _ => .pure _) (.bind (.getBits bits) fun _ => .bind .getBit fun _ => .pure _)

theorem readsOnly_blockTypeConst : ReadsOnly blockTypeConst := .bind (.getBits 4) fun _ => .pure _

/-! ### Trees and places -/

theorem readsOnly_mergeRuns (fuel : Nat) (a b : List (BitVec 4)) : ReadsOnly (mergeRuns fuel a b) := by
  fun_induction mergeRuns fuel a b with
  | case1 => exact .pure _
  | case2 => exact .pure _
  | case3 => exact .pure _
  | case4 fuel x a y b ih1 ih2 => exact .bind .getBit fun _ => .ite (.bind ih1 fun _ => .pure _) (.bind ih2 fun _ => .pure _)

theorem readsOnly_mergePass (size n : Nat) (l : List (BitVec 4)) : ReadsOnly (mergePass size n l) := by
  induction n generalizing l with
  | zero => exact .pure _
  | succ n ih => exact .bind (readsOnly_mergeRuns _ _ _) fun _ => .bind (ih _) fun _ => .pure _

theorem readsOnly_mergePasses (is : List Nat) (l : List (BitVec 4)) : ReadsOnly (mergePasses is l) := by
  induction is generalizing l with
  | nil => exact .pure _
  | cons i is ih => exact .bind (readsOnly_mergePass _ _ _) ih

theorem readsOnly_currentTree : ReadsOnly currentTree :=
  .bind .get fun _ => .bind (.atPhase _) fun _ => by split; exacts [.pure _, .refuse _]

theorem readsOnly_currentRefill : ReadsOnly currentRefill :=
  .bind .get fun _ => .bind (.atPhase _) fun _ => by split; exacts [.pure _, .refuse _]

theorem readsOnly_currentSymbols : ReadsOnly currentSymbols :=
  .bind .get fun _ => .bind (.atPhase _) fun _ => by split; exacts [.bind (.demand _ _) fun _ => .pure _, .refuse _]

theorem readsOnly_beginRefill (b : BundleId) (t : Nat) : ReadsOnly (beginRefill b t) :=
  .bind readsOnly_currentRefill fun _ => .bind (.demand _ _) fun _ => .bind .get fun _ => .check _ _

theorem readsOnly_currentBlock (ph : Phase) : ReadsOnly (currentBlock ph) :=
  .bind (.atPhase ph) fun _ => .bind .get fun _ => .bind (readsOnly_planeOf _) fun _ => .bind (.demand _ _) fun _ => .pure _

theorem readsOnly_fetched (sp : CodeSpace) (w : Nat) : ReadsOnly (fetched sp w) := by
  rw [fetched]
  split
  · exact .pure _
  · exact .refuse _

/-! ### Audio -/

theorem readsOnly_currentTrack : ReadsOnly currentTrack := .bind .get fun _ => .getOr _ _

theorem readsOnly_readFloat : ReadsOnly readFloat :=
  .bind (.getBits 5) fun _ => .bind (.getBits 23) fun _ => .bind .getBit fun _ => .pure _

theorem readsOnly_audioCoefValue (w : Nat) (q : F32) : ReadsOnly (audioCoefValue w q) :=
  .bind (.getBits w) fun _ => .ite (.pure _) (.bind .getBit fun _ => .pure _)

theorem readsOnly_audioQuantiser (qtab : List F32) : ReadsOnly (audioQuantiser qtab) := .bind (.getBits 8) fun _ => .getOr _ _

theorem readsOnly_bandEdge : ReadsOnly bandEdge := .bind .get fun _ => .bind readsOnly_currentTrack fun _ => .getOr _ _

theorem readsOnly_pcmSamples (x : Track) (n i : Nat) : ReadsOnly (pcmSamples x n i) := by
  induction n generalizing i with
  | zero => exact .pure _
  | succ n ih =>
    have hsample : ReadsOnly (pcmSample x i) := .bind (.getOr _ _) fun _ => .bind (.demand _ _) fun _ => .pure _
    exact .bind hsample fun _ => .bind (ih _) fun _ => .pure _

theorem readsOnly_crossFade (x : Track) (cnt : Nat) (pcm : List Int) : ReadsOnly (crossFade x cnt pcm) :=
  .ite (.pure _) (.bind (.getOr _ _) fun _ => .pure _)

/-! ### What reading leaves -/

/-- The bundles and the sequencer stand as they were. -/
def SameBuffers (s t : State) : Prop := t.bundles = s.bundles ∧ t.ctl = s.ctl

theorem readSteps_sameBuffers : ReadSteps SameBuffers where
  refl _ := ⟨rfl, rfl⟩
  trans _ _ _ h h' := ⟨h'.1.trans h.1, h'.2.trans h.2⟩
  pos _ _ _ := ⟨rfl, rfl⟩
  colLast _ _ := ⟨rfl, rfl⟩

theorem ReadsOnly.sameBuffers {m : M α} (hm : ReadsOnly m) {s t : State} {a : α} (h : m s = .ok a t) : SameBuffers s t :=
  (hm _ readSteps_sameBuffers s).of_ok h

theorem SameBuffers.bundle {s t : State} (h : SameBuffers s t) (b : BundleId) : t.bundle b = s.bundle b := by
  rw [State.bundle, h.1]; rfl

/-! ## The updates of a frame -/

/-- A symbol loop that runs with the locals `c'` ran with `c` before, on the same bundle to the same end. -/
def Ctl.KeepsLoop (c c' : Ctl) : Prop := c'.phase = .btSym → c.phase = .btSym ∧ c'.refills = c.refills ∧ c'.stop = c.stop

/-- `R` is kept by each kind of update that an element or the sequencer makes inside a frame, but for opening a packet and the
swap. A change of a bundle, or of the locals that name one, need keep `R` only if it keeps the cursors in order. -/
structure FrameSteps (R : State → State → Prop) : Prop extends ReadSteps R where
  align : ∀ s, R s (s.setPos (alignedPos s.br))
  bundle : ∀ s b x, (BundleInv s → BundleInv (s.setBundle b x)) → R s (s.setBundle b x)
  colHigh : ∀ s x, R s (s.setColHigh x)
  pixel : ∀ s p x a v, s.plane p = some x → x.inRange a = true → R s (s.setPlane p { x with cur := Cells.set x.cur a v })
  coef : ∀ s x, R s (s.setCoef x)
  dct : ∀ s x, R s (s.setDct x)
  track : ∀ s t x, R s (s.setTrack t x)
  trunc : ∀ s b, R s (s.setRegs { s.regs with audioTrunc := b })
  ctl : ∀ s c, (BundleInv s → BundleInv (s.setCtl c)) → R s (s.setCtl c)

theorem BundleInv.setBundle {s : State} {b : BundleId} {x : Bundle} (h : BundleInv s) (hrd : x.rd ≤ x.wr) (hwr : x.wr ≤ x.cap)
    (hcap : x.cap = (s.bundle b).cap) : BundleInv (s.setBundle b x) := by
  have hsame : ∀ b', ((s.setBundle b x).bundle b').cap = (s.bundle b').cap := by
    intro b'
    by_cases hb : b' = b
    · rw [hb, State.bundle_setBundle_same, hcap]
    · rw [State.bundle_setBundle_other s x hb]
  refine ⟨fun b' => ?_, fun hp b' rest hr => ?_⟩
  · by_cases hb : b' = b
    · rw [hb, State.bundle_setBundle_same]; exact ⟨hrd, hwr⟩
    · rw [State.bundle_setBundle_other s x hb]; exact h.1 b'
  · rw [hsame]; exact h.2 hp b' rest hr

theorem BundleInv.setCtl {s : State} {c : Ctl} (hc : s.ctl.KeepsLoop c) (h : BundleInv s) : BundleInv (s.setCtl c) := by
  refine ⟨h.1, fun hp b rest hr => ?_⟩
  obtain ⟨hp', hr', hstop⟩ := hc hp
  exact Nat.le_trans (Nat.le_of_eq hstop) (h.2 hp' b rest (hr'.symm.trans hr))

theorem KeepsAt.get_bind {f : State → M β} {s : State} (h : KeepsAt R (f s) s) : KeepsAt R (MonadState.get >>= f) s := by
  rwa [KeepsAt, bind_of_ok (get_apply s)]

/-! ## Where refills and symbols stand -/

theorem demand_ok_inv {ok : Bool} {r : Refusal} {s t : State} {a : Unit} (h : demand ok r s = .ok a t) : ok = true ∧ t = s := by
  cases ok <;> cases h
  exact ⟨rfl, rfl⟩

theorem check_ok_inv {ok : Bool} {c : Cause} {s t : State} {a : Unit} (h : check ok c s = .ok a t) : ok = true ∧ t = s := by
  cases ok <;> cases h
  exact ⟨rfl, rfl⟩

theorem getOr_ok_inv {x : Option α} {r : Refusal} {s t : State} {a : α} (h : getOr x r s = .ok a t) : t = s := by
  cases x <;> cases h
  rfl

theorem planeOf_ok_inv {p : PlaneId} {x : Plane} {s t : State} (h : planeOf p s = .ok x t) : t = s ∧ s.plane p = some x := by
  cases hp : s.plane p with
  | none => rw [planeOf_of_absent hp] at h; cases h
  | some y => rw [planeOf_of_present hp] at h; cases h; exact ⟨rfl, rfl⟩

theorem atPhase_ok_inv {x : Phase} {s t : State} {a : Unit} (h : atPhase x s = .ok a t) : s.ctl.phase = x ∧ t = s := by
  rw [atPhase, bind_of_ok (get_apply s)] at h
  obtain ⟨hx, rfl⟩ := demand_ok_inv h
  exact ⟨by simpa using hx, rfl⟩

theorem currentRefill_ok_inv {b : BundleId} {s t : State} (h : currentRefill s = .ok b t) :
    t = s ∧ s.ctl.phase = .refill ∧ ∃ rest, s.ctl.refills = b :: rest := by
  rw [currentRefill, bind_of_ok (get_apply s)] at h
  obtain ⟨_, u, hp, hrest⟩ := bind_ok_inv h
  obtain ⟨hphase, rfl⟩ := atPhase_ok_inv hp
  cases hr : u.ctl.refills with
  | nil => rw [hr] at hrest; cases hrest
  | cons b' rest => rw [hr] at hrest; cases hrest; exact ⟨rfl, hphase, rest, rfl⟩

theorem beginRefill_ok_inv {b : BundleId} {n : Nat} {s t : State} {a : Unit} (h : beginRefill b n s = .ok a t) :
    t = s ∧ ∃ rest, RefillAt s b rest n := by
  obtain ⟨b', _, hcur, hrest⟩ := bind_ok_inv h
  obtain ⟨rfl, hphase, rest, hr⟩ := currentRefill_ok_inv hcur
  obtain ⟨_, _, hd, hcheck⟩ := bind_ok_inv hrest
  obtain ⟨hb, rfl⟩ := demand_ok_inv hd
  rw [bind_of_ok (get_apply _)] at hcheck
  obtain ⟨hroom, rfl⟩ := check_ok_inv hcheck
  exact ⟨rfl, rest, hphase, by rw [hr, eq_of_beq hb], of_decide_eq_true hroom⟩

theorem currentSymbols_ok_inv {b : BundleId} {s t : State} (h : currentSymbols s = .ok b t) :
    t = s ∧ s.ctl.phase = .btSym ∧ ∃ rest, s.ctl.refills = b :: rest ∧ (s.bundle b).wr < s.ctl.stop := by
  rw [currentSymbols, bind_of_ok (get_apply s)] at h
  obtain ⟨_, u, hp, hrest⟩ := bind_ok_inv h
  obtain ⟨hphase, rfl⟩ := atPhase_ok_inv hp
  cases hr : u.ctl.refills with
  | nil => rw [hr] at hrest; cases hrest
  | cons b' rest =>
    rw [hr] at hrest
    obtain ⟨_, _, hd, hpure⟩ := bind_ok_inv hrest
    obtain ⟨hlt, rfl⟩ := demand_ok_inv hd
    cases hpure
    exact ⟨rfl, hphase, rest, rfl, of_decide_eq_true hlt⟩

/-- A DC group stores its count of values (R380). -/
theorem dcGroup_ok_cursors {b : BundleId} {w n : Nat} {v v' : Int} {s t : State} (h : dcGroup b w n v s = .ok v' t) :
    (t.bundle b).wr = (s.bundle b).wr + n ∧ (t.bundle b).cap = (s.bundle b).cap := by
  induction n generalizing v s with
  | zero => cases h; exact ⟨rfl, rfl⟩
  | succ n ih =>
    obtain ⟨x, u, hu, h⟩ := bind_ok_inv h
    obtain ⟨_, y, hy, h⟩ := bind_ok_inv h
    cases hy
    obtain ⟨hwr, hcap⟩ := ih h
    rw [State.bundle_setBundle_same, Bundle.push_wr] at hwr
    rw [State.bundle_setBundle_same, Bundle.push_cap] at hcap
    rw [((readsOnly_dcNext w v).sameBuffers hu).bundle] at hwr hcap
    exact ⟨by omega, hcap⟩

namespace FrameSteps

theorem bind (h : FrameSteps R) {m : M α} {f : α → M β} (hm : Keeps R m) (hf : ∀ a, Keeps R (f a)) : Keeps R (m >>= f) :=
  Keeps.bind h.trans hm hf

theorem reads (h : FrameSteps R) {m : M α} (hm : ReadsOnly m) : Keeps R m := hm R h.toReadSteps

theorem pure (h : FrameSteps R) (a : α) : Keeps R (Pure.pure a : M α) := Keeps.pure h.refl a
theorem get (h : FrameSteps R) : Keeps R (MonadState.get : M State) := Keeps.get h.refl
theorem getOr (h : FrameSteps R) (x : Option α) (r : Refusal) : Keeps R (Machine.getOr x r) := Keeps.getOr h.refl x r
theorem check (h : FrameSteps R) (ok : Bool) (c : Cause) : Keeps R (Machine.check ok c) := Keeps.check h.refl ok c
theorem getBits (h : FrameSteps R) (n : Nat) : Keeps R (Machine.getBits n) := h.reads (.getBits n)
theorem getBit (h : FrameSteps R) : Keeps R Machine.getBit := h.getBits 1
theorem planeOf (h : FrameSteps R) (p : PlaneId) : Keeps R (Machine.planeOf p) := h.reads (readsOnly_planeOf p)

theorem forEach (h : FrameSteps R) {f : α → M Unit} (hf : ∀ a, Keeps R (f a)) (l : List α) : Keeps R (Machine.forEach l f) :=
  Keeps.forEach h.refl h.trans hf l

theorem ite {p : Prop} [Decidable p] {m m' : M α} (hm : Keeps R m) (hm' : Keeps R m') : Keeps R (if p then m else m') := by
  split
  · exact hm
  · exact hm'

theorem skipBits (h : FrameSteps R) (n : Nat) : Keeps R (Machine.skipBits n) := by
  intro s
  by_cases hn : s.bitPos + n ≤ s.bitSize
  · rw [KeepsAt, skipBits_of_fits hn]
    exact h.pos s n hn
  · rw [KeepsAt, skipBits_of_underrun (by omega)]
    exact h.refl s

theorem alignTo32 (h : FrameSteps R) : Keeps R Machine.alignTo32 := Keeps.modify h.align

/-! ### Bundles -/

/-- A change of a bundle that leaves its cursors and its capacity. -/
theorem bundleFields (h : FrameSteps R) {s : State} {b : BundleId} {x : Bundle} (hrd : x.rd = (s.bundle b).rd)
    (hwr : x.wr = (s.bundle b).wr) (hcap : x.cap = (s.bundle b).cap) : R s (s.setBundle b x) :=
  h.bundle s b x fun hb => hb.setBundle (by rw [hrd, hwr]; exact (hb.1 b).1) (by rw [hwr, hcap]; exact (hb.1 b).2) hcap

theorem setTree (h : FrameSteps R) (s : State) (r : TreeRef) (x : Tree) : R s (s.setTree r x) := by
  cases r with
  | bundle b => exact h.bundleFields rfl rfl rfl
  | colHigh i => exact h.colHigh s _

theorem getValue (h : FrameSteps R) (b : BundleId) : Keeps R (Machine.getValue b) :=
  Keeps.getValue h.refl (fun s b hrd => h.bundle s b _ fun hb => hb.setBundle hrd (hb.1 b).2 rfl) b

theorem fillAt (h : FrameSteps R) {s : State} {b : BundleId} (v : Int) {n : Nat}
    (hroom : BundleInv s → (s.bundle b).wr + n ≤ (s.bundle b).cap) : KeepsAt R (fillValue b v n) s := by
  rw [KeepsAt, fillValue_apply, Bundle.fill_eq]
  exact h.bundle s b _ fun hb => hb.setBundle (Nat.le_trans (hb.1 b).1 (Nat.le_add_right _ _)) (hroom hb) rfl

theorem pushAt (h : FrameSteps R) {s : State} {b : BundleId} (v : Int)
    (hroom : BundleInv s → (s.bundle b).wr + 1 ≤ (s.bundle b).cap) : KeepsAt R (pushValue b v) s :=
  h.fillAt (n := 1) v hroom

/-! ### Pixels -/

theorem writeCur (h : FrameSteps R) (p : PlaneId) (a : Nat) (v : Byte) : Keeps R (Machine.writeCur p a v) :=
  Keeps.writeCur h.pixel p a v

theorem store (h : FrameSteps R) (p : PlaneId) (a : Nat) (v : Int) : Keeps R (Machine.store p a v) :=
  h.bind h.get fun _ => h.writeCur p a _

theorem copy8 (h : FrameSteps R) (p : PlaneId) (src dst : Nat) : Keeps R (Machine.copy8 p src dst) :=
  h.bind (h.planeOf p) fun _ => h.forEach (fun _ => h.bind (h.reads (.readLast _ _)) fun _ => h.writeCur _ _ _) _

theorem put (h : FrameSteps R) (d : PixelDest) (i : Nat) (c : Byte) : Keeps R (Machine.put d i c) := by
  cases d with
  | cur p dst => exact h.bind (h.planeOf p) fun _ => h.writeCur p _ c
  | ublk => exact Keeps.modify fun s => h.dct s _

/-! ### Locals of the sequencer -/

/-- A change of the locals that starts no symbol loop. -/
theorem locals (h : FrameSteps R) {s : State} {c : Ctl} (hc : s.ctl.KeepsLoop c) : R s (s.setCtl c) :=
  h.ctl s c (BundleInv.setCtl hc)

theorem modifyCtl (h : FrameSteps R) {f : Ctl → Ctl} (hf : ∀ c : Ctl, c.KeepsLoop (f c)) : Keeps R (Machine.modifyCtl f) :=
  Keeps.modify fun s => h.locals (hf s.ctl)

theorem setPhase (h : FrameSteps R) {x : Phase} (hx : x ≠ .btSym) : Keeps R (modify fun s => s.setPhase x) :=
  Keeps.modify fun _ => h.locals fun hp => absurd hp hx

theorem goto (h : FrameSteps R) {x : Phase} (hx : x ≠ .btSym) : Keeps R (Machine.goto x) :=
  h.bind (h.setPhase hx) fun _ => h.pure _

theorem nextAgendaItem (h : FrameSteps R) : Keeps R Machine.nextAgendaItem :=
  Keeps.modify fun _ => h.locals fun hp => ⟨hp, rfl, rfl⟩

theorem nextRefill (h : FrameSteps R) : Keeps R Machine.nextRefill := Keeps.modify fun _ => h.locals fun hp => nomatch hp

theorem nextBlock (h : FrameSteps R) (n : Nat) : Keeps R (Machine.nextBlock n) :=
  Keeps.modify fun _ => h.locals fun hp => nomatch hp

/-! ## Trees -/

theorem writeShape (h : FrameSteps R) (r : TreeRef) (shape : BitVec 4) : Keeps R (Machine.writeShape r shape) :=
  Keeps.modify fun s => h.setTree s r _

theorem writeSyms (h : FrameSteps R) (r : TreeRef) (i : Nat) (vs : List (BitVec 4)) : Keeps R (Machine.writeSyms r i vs) :=
  Keeps.modify fun s => h.setTree s r _

theorem readLeaves (h : FrameSteps R) (r : TreeRef) (n i : Nat) (used : List (BitVec 4)) :
    Keeps R (Machine.readLeaves r n i used) := by
  induction n generalizing i used with
  | zero => exact h.pure _
  | succ n ih => exact h.bind (h.getBits 4) fun _ => h.bind (h.check _ _) fun _ => h.bind (h.writeSyms r i _) fun _ => ih _ _

/-! ## Refills -/

/-- `h.bind` for a part that needs the state it starts in. -/
theorem bindAt (h : FrameSteps R) {m : M α} {f : α → M β} {s : State} (hm : KeepsAt R m s)
    (hf : ∀ a t, m s = .ok a t → KeepsAt R (f a) t) : KeepsAt R (m >>= f) s := KeepsAt.bind h.trans hm hf

/-- A refill that begins has room for its values, and what follows starts where it began (R357). -/
theorem refill (h : FrameSteps R) {b : BundleId} {t : Nat} {f : Unit → M Unit} {s : State}
    (hf : ∀ rest, RefillAt s b rest t → KeepsAt R (f ()) s) : KeepsAt R (beginRefill b t >>= f) s :=
  h.bindAt (h.reads (readsOnly_beginRefill b t) s) fun _ u hu => by
    obtain ⟨rfl, rest, hat⟩ := beginRefill_ok_inv hu
    exact hf rest hat

theorem refillConstant (h : FrameSteps R) (b : BundleId) (t : BitVec 32) {value : M Int} (hv : ReadsOnly value) :
    Keeps R (Machine.refillConstant b t value) := fun s =>
  h.refill fun _ hat => h.bindAt (h.reads hv s) fun v u hu =>
    have hroom : (u.bundle b).wr + t.toNat ≤ (u.bundle b).cap := by rw [(hv.sameBuffers hu).bundle]; exact hat.2.2
    h.bindAt (h.fillAt v fun _ => hroom) fun _ _ _ => h.nextRefill _

/-- Values read one by one keep `R` where the bundle has room for them. -/
theorem pushMany (h : FrameSteps R) {b : BundleId} {value : M Int} (hv : ReadsOnly value) {n : Nat} {s : State}
    (hroom : (s.bundle b).wr + n ≤ (s.bundle b).cap) : KeepsAt R (Machine.pushMany b value n) s := by
  induction n generalizing s with
  | zero => exact h.refl s
  | succ n ih =>
    refine h.bindAt (h.reads hv s) fun v u hu => ?_
    rw [← (hv.sameBuffers hu).bundle] at hroom
    refine h.bindAt (h.pushAt v fun _ => by omega) fun _ w hw => ?_
    cases hw
    refine ih ?_
    rw [State.bundle_setBundle_same, Bundle.push_wr, Bundle.push_cap]
    omega

theorem refillEach (h : FrameSteps R) (b : BundleId) (t : BitVec 32) {value : M Int} (hv : ReadsOnly value) :
    Keeps R (Machine.refillEach b t value) := fun _ =>
  h.refill fun _ hat => h.bindAt (h.pushMany hv hat.2.2) fun _ _ _ => h.nextRefill _

/-- The symbol loop of a refill ends where its values do, inside the buffer (R360). -/
theorem refillSymbols (h : FrameSteps R) (b : BundleId) (t : BitVec 32) : Keeps R (Machine.refillSymbols b t) := fun s =>
  h.refill fun rest ⟨_, hrefills, hroom⟩ => h.ctl s _ fun hb =>
    ⟨hb.1, fun _ b' rest' hr => by
      obtain rfl : b = b' := (List.cons.inj (hrefills.symm.trans hr)).1
      exact hroom⟩

theorem dcGroup (h : FrameSteps R) {b : BundleId} {w n : Nat} {v : Int} {s : State}
    (hroom : (s.bundle b).wr + n ≤ (s.bundle b).cap) : KeepsAt R (Machine.dcGroup b w n v) s := by
  induction n generalizing v s with
  | zero => exact h.refl s
  | succ n ih =>
    have hv := readsOnly_dcNext w v
    refine h.bindAt (h.reads hv s) fun v' u hu => ?_
    rw [← (hv.sameBuffers hu).bundle] at hroom
    refine h.bindAt (h.pushAt v' fun _ => by omega) fun _ w hw => ?_
    cases hw
    refine ih ?_
    rw [State.bundle_setBundle_same, Bundle.push_wr, Bundle.push_cap]
    omega

theorem dcGroups (h : FrameSteps R) {b : BundleId} {fuel rem : Nat} {v : Int} {s : State}
    (hroom : (s.bundle b).wr + rem ≤ (s.bundle b).cap) : KeepsAt R (Machine.dcGroups b fuel rem v) s := by
  induction fuel generalizing rem v s with
  | zero => exact h.refl s
  | succ fuel ih =>
    rw [Machine.dcGroups]
    split
    · exact h.refl s
    · refine h.bindAt (h.getBits 4 s) fun w u hu => ?_
      rw [← ((ReadsOnly.getBits 4).sameBuffers hu).bundle] at hroom
      refine h.bindAt (h.dcGroup (by omega)) fun v' x hx => ih ?_
      obtain ⟨hwr, hcap⟩ := dcGroup_ok_cursors hx
      omega

/-- A DC refill stores one value and then the rest of its count, which is not 0 (R380). -/
theorem refillDc (h : FrameSteps R) (b : BundleId) {t : BitVec 32} (ht : t ≠ 0) : Keeps R (Machine.refillDc b t) := fun s =>
  h.refill fun _ hat => h.bindAt (h.reads (readsOnly_dcFirst b) s) fun v u hu => by
    have hpos : t.toNat ≠ 0 := fun he => ht (BitVec.eq_of_toNat_eq he)
    have hroom : (u.bundle b).wr + t.toNat ≤ (u.bundle b).cap := by
      rw [((readsOnly_dcFirst b).sameBuffers hu).bundle]; exact hat.2.2
    refine h.bindAt (h.pushAt v fun _ => by omega) fun _ w hw => ?_
    cases hw
    refine h.bindAt (h.dcGroups ?_) fun _ _ _ => h.nextRefill _
    rw [State.bundle_setBundle_same, Bundle.push_wr, Bundle.push_cap]
    omega

/-! ## Block-type symbols -/

theorem symbols (h : FrameSteps R) {f : BundleId → M Unit} {s : State}
    (hf : ∀ b, (BundleInv s → s.ctl.stop ≤ (s.bundle b).cap) → (s.bundle b).wr < s.ctl.stop → KeepsAt R (f b) s) :
    KeepsAt R (currentSymbols >>= f) s :=
  h.bindAt (h.reads readsOnly_currentSymbols s) fun b u hu => by
    obtain ⟨rfl, hp, rest, hr, hlt⟩ := currentSymbols_ok_inv hu
    exact hf b (fun hb => hb.2 hp b rest hr) hlt

theorem symbolLiteral (h : FrameSteps R) (v : Nat) : Keeps R (Machine.symbolLiteral v) := fun s =>
  h.symbols fun b hstop hlt => h.bindAt (h.locals fun hp => ⟨hp, rfl, rfl⟩) fun _ u hu => by
    cases hu
    exact h.pushAt _ fun hb => Nat.le_trans hlt (hstop hb)

theorem symbolRun (h : FrameSteps R) (i : Nat) : Keeps R (Machine.symbolRun i) := fun s =>
  h.symbols fun b hstop _ => KeepsAt.get_bind (h.bindAt (h.check _ _ s) fun _ u hu => by
    obtain ⟨hn, rfl⟩ := check_ok_inv hu
    exact h.fillAt _ fun hb => Nat.le_trans (of_decide_eq_true hn) (hstop hb))

/-! ## Audio -/

theorem modifyTrack (h : FrameSteps R) (f : Track → Track) : Keeps R (Machine.modifyTrack f) :=
  h.bind (h.reads readsOnly_currentTrack) fun _ => Keeps.modify fun s => h.track s _ _

theorem setSample (h : FrameSteps R) (c i : Nat) (v : F32) : Keeps R (Machine.setSample c i v) := h.modifyTrack _

theorem nextBand (h : FrameSteps R) : Keeps R Machine.nextBand :=
  h.bind h.get fun _ => h.bind (h.getOr _ _) fun _ => h.modifyCtl fun _ hp => ⟨hp, rfl, rfl⟩

theorem skipBands (h : FrameSteps R) (fuel : Nat) : Keeps R (Machine.skipBands fuel) := by
  induction fuel with
  | zero => exact h.reads (.refuse _)
  | succ fuel ih =>
    exact h.bind (h.reads readsOnly_bandEdge) fun _ => h.bind h.get fun _ => ite (h.bind h.nextBand fun _ => ih) (h.pure _)

theorem codedRun (h : FrameSteps R) (w n : Nat) : Keeps R (Machine.codedRun w n) := by
  induction n with
  | zero => exact h.pure _
  | succ n ih =>
    have hvalue := h.bind h.get fun s => h.bind (h.reads (readsOnly_audioCoefValue w s.ctl.bandQ)) fun v =>
      h.bind (h.setSample s.ctl.chan s.ctl.coefPos v) fun _ =>
        h.bind (h.modifyCtl (f := fun x => { x with coefPos := x.coefPos + 1 }) fun _ hp => ⟨hp, rfl, rfl⟩) fun _ => ih
    exact h.bind (h.reads readsOnly_bandEdge) fun _ => h.bind h.get fun _ => ite (h.bind h.nextBand fun _ => hvalue) hvalue

theorem audioRun (h : FrameSteps R) (len : Nat) (width : BitVec 4) : Keeps R (Machine.audioRun len width) :=
  h.bind (h.reads (.atPhase _)) fun _ => h.bind (h.reads readsOnly_currentTrack) fun _ => h.bind h.get fun _ =>
    h.bind (h.reads (.demand _ _)) fun _ =>
      ite (h.bind (h.modifyTrack _) fun _ => h.bind (h.modifyCtl fun _ hp => ⟨hp, rfl, rfl⟩) fun _ => h.skipBands _)
        (h.codedRun _ _)

theorem endTrack (h : FrameSteps R) : Keeps R Machine.endTrack :=
  h.bind (h.reads readsOnly_currentTrack) fun _ => Keeps.modify fun s =>
    h.trans _ _ _ (h.trunc s _) (h.locals fun hp => nomatch hp)

theorem openAudioPacket (h : FrameSteps R) (hopen : ∀ s x, x.pos = 0 → R s (s.setBr x)) :
    Keeps R Machine.openAudioPacket :=
  h.bind h.get fun _ => h.bind (h.getOr _ _) fun _ => h.bind (h.modifyTrack _) fun _ =>
    ite h.endTrack (h.bind (Keeps.modify fun s => hopen s _ rfl) fun _ => h.setPhase (by decide))

theorem audioLoopHead (h : FrameSteps R) : Keeps R Machine.audioLoopHead :=
  have hstart : Keeps R (Machine.modifyCtl fun c => { c with phase := .audioHead, chan := 0 }) := h.modifyCtl fun _ hp => nomatch hp
  h.bind h.get fun _ => h.bind (h.getOr _ _) fun _ => h.bind (h.reads readsOnly_currentTrack) fun _ =>
    ite
      (ite (h.bind (h.modifyTrack _) fun _ => h.endTrack)
        (ite (h.bind (h.skipBits _) fun _ => hstart) hstart))
      h.endTrack

theorem audioHead (h : FrameSteps R) : Keeps R Machine.audioHead :=
  h.bind h.get fun _ => h.bind (h.reads readsOnly_currentTrack) fun _ =>
    h.bind (h.reads readsOnly_readFloat) fun _ => h.bind (h.setSample _ _ _) fun _ =>
    h.bind (h.reads readsOnly_readFloat) fun _ => h.bind (h.setSample _ _ _) fun _ =>
    h.bind (h.reads (.readMany (readsOnly_audioQuantiser _) _)) fun _ => h.bind (h.getOr _ _) fun _ =>
      h.modifyCtl fun _ hp => nomatch hp

theorem audioTransform (h : FrameSteps R) : Keeps R Machine.audioTransform :=
  h.bind h.get fun s => h.bind (h.reads readsOnly_currentTrack) fun x => h.bind (h.getOr _ _) fun _ =>
    h.bind (h.modifyTrack _) fun _ => h.modifyCtl fun _ hp => by
      dsimp only at hp
      split at hp <;> cases hp

theorem audioEmit (h : FrameSteps R) : Keeps R Machine.audioEmit :=
  h.bind (h.reads readsOnly_currentTrack) fun _ => h.bind (h.reads (readsOnly_pcmSamples _ _ _)) fun _ =>
    h.bind (h.reads (readsOnly_crossFade _ _ _)) fun _ => h.bind (h.modifyTrack _) fun _ =>
      h.bind h.alignTo32 fun _ => h.setPhase (by decide)

/-! ## The coefficient unit -/

theorem modifyCoef (h : FrameSteps R) (f : CoefScratch → CoefScratch) : Keeps R (Machine.modifyCoef f) :=
  Keeps.modify fun s => h.coef s _

theorem pushBack (h : FrameSteps R) (c m : Nat) : Keeps R (Machine.pushBack c m) := h.modifyCoef _

theorem startLists (h : FrameSteps R) : Keeps R Machine.startLists :=
  h.bind (h.modifyCoef _) fun _ => h.bind (h.pushBack _ _) fun _ => h.bind (h.pushBack _ _) fun _ => h.pushBack _ _

section
variable {emit : Nat → M Unit} {spend : M Bool}

/-- A stop of the decode ends the sequence; else it goes on. -/
theorem unlessStopped (h : FrameSteps R) (hspend : Keeps R spend) {m : M Bool} (hm : Keeps R m) :
    Keeps R (spend >>= fun stopped => if stopped then Pure.pure true else m) :=
  h.bind hspend fun _ => ite (h.pure _) hm

theorem walkGroup (h : FrameSteps R) (hemit : ∀ c, Keeps R (emit c)) (hspend : Keeps R spend) (n c : Nat) :
    Keeps R (Machine.walkGroup emit spend n c) := by
  induction n generalizing c with
  | zero => exact h.pure _
  | succ n ih =>
    exact h.bind h.getBit fun _ => ite (h.bind (h.modifyCoef _) fun _ => ih _)
      (h.bind (hemit c) fun _ => h.unlessStopped hspend (ih _))

theorem walk (h : FrameSteps R) (hemit : ∀ c, Keeps R (emit c)) (hspend : Keeps R spend) (fuel pos : Nat) :
    Keeps R (Machine.walk emit spend fuel pos) := by
  induction fuel generalizing pos with
  | zero => exact h.reads (.refuse _)
  | succ fuel ih =>
    refine h.bind h.get fun _ => ite (h.pure _) (h.bind (h.getOr _ _) fun c => h.bind (h.getOr _ _) fun m =>
      ite (ih _) (h.bind h.getBit fun _ => ite (ih _) ?_))
    have hset : ∀ c m, Keeps R (setEntry pos c m) := fun _ _ => h.modifyCoef _
    split
    · exact h.bind (hset _ _) fun _ => h.unlessStopped (h.walkGroup hemit hspend _ _) (ih _)
    · exact h.bind (hset _ _) fun _ => h.bind (h.pushBack _ _) fun _ => h.bind (h.pushBack _ _) fun _ =>
        h.bind (h.pushBack _ _) fun _ => ih _
    · exact h.bind (hset _ _) fun _ => h.unlessStopped (h.walkGroup hemit hspend _ _) (ih _)
    · exact h.bind (hemit c) fun _ => h.bind (hset _ _) fun _ => h.unlessStopped hspend (ih _)

theorem pass (h : FrameSteps R) (hemit : ∀ c, Keeps R (emit c)) (hspend : Keeps R spend) : Keeps R (Machine.pass emit spend) :=
  h.bind h.get fun _ => h.walk hemit hspend _ _

end

theorem emitCoefficient (h : FrameSteps R) (bits c : Nat) : Keeps R (Machine.emitCoefficient bits c) :=
  h.bind (h.reads (readsOnly_coefficientValue bits)) fun _ => h.bind h.get fun _ => h.modifyCoef _

theorem bitPlanes (h : FrameSteps R) (n : Nat) : Keeps R (Machine.bitPlanes n) := by
  induction n with
  | zero => exact h.pure _
  | succ bits ih => exact h.bind (h.pass (h.emitCoefficient bits) (h.pure _)) fun _ => ih

theorem coefDecode (h : FrameSteps R) (src : QSource) : Keeps R (Machine.coefDecode src) := by
  refine h.bind (h.modifyCoef _) fun _ => h.bind h.startLists fun _ => h.bind (h.pushBack _ _) fun _ =>
    h.bind (h.pushBack _ _) fun _ => h.bind (h.pushBack _ _) fun _ => h.bind (h.getBits 4) fun _ =>
      h.bind (h.bitPlanes _) fun _ => ?_
  cases src with
  | stream => exact h.bind (h.getBits 4) fun _ => h.pure _
  | external q => exact h.pure _

theorem dequantiseAt (h : FrameSteps R) (a q : Nat) : Keeps R (Machine.dequantiseAt a q) :=
  h.bind h.get fun _ => h.bind (h.getOr _ _) fun _ => h.modifyCoef _

theorem dequantise (h : FrameSteps R) (matrix : Nat → Nat) : Keeps R (Machine.dequantise matrix) :=
  h.bind (h.dequantiseAt _ _) fun _ => h.bind h.get fun _ =>
    h.forEach (fun _ => h.bind (h.getOr _ _) fun _ => h.dequantiseAt _ _) _

theorem spendBudget (h : FrameSteps R) : Keeps R Machine.spendBudget :=
  h.bind (h.modifyCoef _) fun _ => h.bind h.get fun _ => h.pure _

theorem emitResidual (h : FrameSteps R) (mask c : Nat) : Keeps R (Machine.emitResidual mask c) :=
  h.bind h.get fun _ => h.bind (h.modifyCoef _) fun _ => h.bind h.getBit fun _ => h.modifyCoef _

theorem refine (h : FrameSteps R) (mask : Nat) (is : List Nat) : Keeps R (Machine.refine mask is) := by
  induction is with
  | nil => exact h.pure _
  | cons i is ih =>
    exact h.bind h.getBit fun _ => ite
      (h.bind h.get fun _ => h.bind (h.getOr _ _) fun _ => h.bind (h.getOr _ _) fun _ => h.bind (h.modifyCoef _) fun _ =>
        h.unlessStopped h.spendBudget ih)
      ih

theorem residualPlanes (h : FrameSteps R) (n : Nat) : Keeps R (Machine.residualPlanes n) := by
  induction n with
  | zero => exact h.pure _
  | succ k ih =>
    exact h.bind h.get fun _ => h.bind (h.refine _ _) fun _ => ite (h.pure _)
      (h.bind (h.pass (h.emitResidual _) h.spendBudget) fun _ => ite (h.pure _) ih)

theorem residualDecode (h : FrameSteps R) (n : Nat) : Keeps R (Machine.residualDecode n) :=
  h.bind (h.modifyCoef _) fun _ => h.bind h.startLists fun _ => h.bind (h.pushBack _ _) fun _ =>
    h.bind (h.getBits 3) fun _ => h.residualPlanes _

/-! ## The inverse transform -/

theorem idct (h : FrameSteps R) : Keeps R Machine.idct := fun s =>
  KeepsAt.get_bind (h.bindAt (h.getOr _ _ s) fun _ u hu => by
    obtain rfl := getOr_ok_inv hu
    exact h.bindAt (h.dct _ _) fun _ _ _ => h.refl _)

theorem idctPut (h : FrameSteps R) (d : PixelDest) : Keeps R (Machine.idctPut d) :=
  h.bind h.idct fun _ => h.bind h.get fun _ => h.forEach (fun _ => h.put _ _ _) _

theorem addPixels (h : FrameSteps R) (p : PlaneId) (dst : Nat) {f : Nat → M Int} (hf : ∀ i, Keeps R (f i)) :
    Keeps R (Machine.addPixels p dst f) :=
  h.bind (h.planeOf p) fun _ => h.forEach
    (fun i => h.bind (h.reads (readsOnly_readCur _ _)) fun _ => h.bind (hf i) fun _ => h.store _ _ _) _

theorem idctAdd (h : FrameSteps R) (p : PlaneId) (dst : Nat) : Keeps R (Machine.idctAdd p dst) :=
  h.bind h.idct fun _ => h.addPixels p dst fun _ => h.pure _

/-! ## Blocks -/

theorem block (h : FrameSteps R) {body : PlaneId → Nat → M Unit} (hbody : ∀ p dst, Keeps R (body p dst)) :
    Keeps R (Machine.block body) :=
  h.bind (h.reads (readsOnly_currentBlock _)) fun _ => h.bind (hbody _ _) fun _ => h.nextBlock 1

theorem motionCopy (h : FrameSteps R) (p : PlaneId) (dst : Nat) : Keeps R (Machine.motionCopy p dst) :=
  have hsource : Keeps R (motionSource p dst) :=
    h.bind (h.planeOf p) fun _ => h.bind (h.getValue _) fun _ => h.bind (h.getValue _) fun _ => h.bind (h.check _ _) fun _ =>
      h.pure _
  h.bind hsource fun _ => h.copy8 p _ dst

theorem nextColor (h : FrameSteps R) : Keeps R Machine.nextColor := h.bind (h.getValue _) fun _ => h.pure _

theorem fillRun (h : FrameSteps R) (d : PixelDest) (order : List Nat) {color : M Byte} (hcolor : Keeps R color) (n i : Nat) :
    Keeps R (Machine.fillRun d order color n i) := by
  induction n generalizing i with
  | zero => exact h.pure _
  | succ n ih => exact h.bind hcolor fun _ => h.bind (h.put _ _ _) fun _ => ih _

theorem runLoop (h : FrameSteps R) (d : PixelDest) (order : List Nat) (fuel i : Nat) :
    Keeps R (Machine.runLoop d order fuel i) := by
  induction fuel generalizing i with
  | zero => exact h.reads (.refuse _)
  | succ fuel ih =>
    have hrest : ∀ n, Keeps R (if 64 ≤ i + n then Pure.pure ()
        else if i + n = 63 then Machine.fillRun d order Machine.nextColor 1 63
        else Machine.runLoop d order fuel (i + n)) :=
      fun n => ite (h.pure _) (ite (h.fillRun d order h.nextColor _ _) (ih _))
    exact h.bind (h.getValue _) fun _ => h.bind (h.check _ _) fun _ => h.bind (h.check _ _) fun _ => h.bind h.getBit fun _ =>
      ite (h.bind h.nextColor fun _ => h.bind (h.fillRun d order (h.pure _) _ _) fun _ => hrest _)
        (h.bind (h.fillRun d order h.nextColor _ _) fun _ => hrest _)

theorem runBlock (h : FrameSteps R) (d : PixelDest) : Keeps R (Machine.runBlock d) :=
  h.bind (h.getBits 4) fun _ => h.bind h.get fun _ => h.runLoop d _ _ _

theorem intraBlock (h : FrameSteps R) (d : PixelDest) (src : QSource) : Keeps R (Machine.intraBlock d src) :=
  h.bind (h.modifyCoef _) fun _ => h.bind (h.getValue _) fun _ => h.bind (h.modifyCoef _) fun _ =>
    h.bind (h.coefDecode src) fun _ => h.bind h.get fun _ => h.bind (h.dequantise _) fun _ => h.idctPut d

theorem residueBlock (h : FrameSteps R) (p : PlaneId) (dst : Nat) : Keeps R (do
    Machine.motionCopy p dst
    let n ← Machine.getBits 7
    Machine.residualDecode n
    let s ← MonadState.get
    Machine.addPixels p dst fun i => Machine.getOr (Cells.get s.coef.res i) .unwrittenField) :=
  h.bind (h.motionCopy p dst) fun _ => h.bind (h.getBits 7) fun _ => h.bind (h.residualDecode _) fun _ => h.bind h.get fun _ =>
    h.addPixels p dst fun _ => h.getOr _ _

theorem interBlock (h : FrameSteps R) (p : PlaneId) (dst : Nat) : Keeps R (do
    Machine.motionCopy p dst
    Machine.clearBlock
    let dc ← Machine.getValue .interDc
    Machine.placeDc dc
    let q ← Machine.coefDecode .stream
    let s ← MonadState.get
    Machine.dequantise (s.params.quantInterAt q)
    Machine.idctAdd p dst) :=
  h.bind (h.motionCopy p dst) fun _ => h.bind (h.modifyCoef _) fun _ => h.bind (h.getValue _) fun _ =>
    h.bind (h.modifyCoef _) fun _ => h.bind (h.coefDecode _) fun _ => h.bind h.get fun _ => h.bind (h.dequantise _) fun _ =>
      h.idctAdd p dst

theorem patternBlock (h : FrameSteps R) (d : PixelDest) : Keeps R (Machine.patternBlock d) :=
  have hrow : ∀ c0 c1 y, Keeps R (patternRow d c0 c1 y) := fun _ _ _ =>
    h.bind (h.getValue _) fun _ => h.forEach (fun _ => h.put _ _ _) _
  h.bind h.nextColor fun _ => h.bind h.nextColor fun _ => h.forEach (hrow _ _) _

theorem rawBlock (h : FrameSteps R) (d : PixelDest) : Keeps R (Machine.rawBlock d) :=
  h.forEach (fun _ => h.bind h.nextColor fun _ => h.put _ _ _) _

theorem illegalBlock (h : FrameSteps R) : Keeps R Machine.illegalBlock :=
  h.bind (h.reads (readsOnly_currentBlock _)) fun _ => h.reads (.raise _)

theorem illegalSubBlock (h : FrameSteps R) : Keeps R Machine.illegalSubBlock :=
  h.bind (h.reads (readsOnly_currentBlock _)) fun _ => h.reads (.raise _)

theorem scaledBlock (h : FrameSteps R) {body : M Unit} (hbody : Keeps R body) : Keeps R (Machine.scaledBlock body) :=
  have hup : ∀ p dst, Keeps R (upsample p dst) := fun p _ =>
    h.bind (h.planeOf p) fun _ => h.forEach (fun _ => h.bind h.get fun _ => h.bind (h.getOr _ _) fun _ => h.writeCur _ _ _) _
  h.bind (h.reads (readsOnly_currentBlock _)) fun _ => h.bind hbody fun _ => h.bind (hup _ _) fun _ => h.nextBlock 2

end FrameSteps
end Sys2Proof.Machine
end

/-! # One step inside a frame -/

section
namespace Sys2Proof.Machine

variable {α β : Type} {R : State → State → Prop}

/-! ## What an element leads to -/

/-- `t` is reached from `s` with `R` kept, or by taking an error in a state that is. -/
def KeptOrRaised (R : State → State → Prop) (s t : State) : Prop := R s t ∨ ∃ c u, R s u ∧ t = takeError c u

theorem KeptOrRaised.of_run {m : M Unit} {s t : State} (hx : run m s = .next t) (hm : Keeps R m) : KeptOrRaised R s t := by
  rcases run_next_inv hx with hok | ⟨c, u, hraised, rfl⟩
  · exact Or.inl ((hm s).of_ok hok)
  · exact Or.inr ⟨c, u, (hm s).of_raised hraised, rfl⟩

theorem KeptOrRaised.prepend (htrans : ∀ s t u, R s t → R t u → R s u) {s u t : State} (hsu : R s u) (h : KeptOrRaised R u t) :
    KeptOrRaised R s t := by
  rcases h with h | ⟨c, v, h, rfl⟩
  · exact Or.inl (htrans _ _ _ hsu h)
  · exact Or.inr ⟨c, v, htrans _ _ _ hsu h, rfl⟩

/-- The code spaces of the bitstream, as against the host's (R4). -/
def InFrame : CodeSpace → Prop
  | .cmd | .regWrite | .regRead => False
  | _ => True

/-- A decoded refill is REFILL_DONE or carries a count that is not 0 (R357). -/
theorem decodeRefill_inv {b : BundleId} {len w : Nat} {i : Instr} (hd : decodeRefill b len w = .ok i) :
    i = .refillDone ∨ ∃ n : BitVec 32, n ≠ 0 ∧ (i = refillConst b n ∨ i = refillCoded b n) := by
  unfold decodeRefill at hd
  split at hd
  next => cases hd
  next hlen =>
    have hlt : w % 2 ^ len < 2 ^ 32 :=
      Nat.lt_of_lt_of_le (Nat.mod_lt w (by positivity)) (Nat.pow_le_pow_right (by decide) (by omega))
    split at hd
    next => split at hd <;> cases hd; exact Or.inl rfl
    next hw =>
      have hn : BitVec.ofNat 32 (w % 2 ^ len) ≠ 0 := fun he => hw (by
        have := congrArg BitVec.toNat he
        rwa [BitVec.toNat_ofNat, Nat.mod_eq_of_lt hlt] at this)
      split at hd
      next =>
        split at hd
        next => cases hd; exact Or.inr ⟨_, hn, Or.inr rfl⟩
        next => split at hd <;> cases hd; exact Or.inr ⟨_, hn, Or.inl rfl⟩
      next =>
        split at hd <;> cases hd
        next hlt' => rw [Nat.mod_eq_of_lt hlt'] at hn; exact Or.inr ⟨_, hn, Or.inr rfl⟩

namespace FrameSteps

theorem execBt4 (h : FrameSteps R) {w : Nat} {i : Instr} {s t : State} (hd : decodeBt4 w = .ok i) (hx : exec i s = .next t) :
    KeptOrRaised R s t := by
  unfold decodeBt4 at hd
  split at hd <;> cases hd
  case h_1 => exact .of_run hx (h.block fun p dst => h.copy8 p dst dst)
  case h_2 =>
    exact .of_run hx (h.bind (h.reads (readsOnly_currentBlock _)) fun _ => h.bind h.get fun _ => h.bind (h.check _ _) fun _ =>
      ite (h.nextBlock 2) (h.setPhase (by decide)))
  case h_3 => exact .of_run hx (h.block h.motionCopy)
  case h_4 => exact .of_run hx (h.block fun _ _ => h.runBlock _)
  case h_5 => exact .of_run hx (h.block h.residueBlock)
  case h_6 => exact .of_run hx (h.block fun _ _ => h.intraBlock _ _)
  case h_7 => exact .of_run hx (h.block fun _ _ => h.bind h.nextColor fun _ => h.forEach (fun _ => h.put _ _ _) _)
  case h_8 => exact .of_run hx (h.block h.interBlock)
  case h_9 => exact .of_run hx (h.block fun _ _ => h.patternBlock _)
  case h_10 => exact .of_run hx (h.block fun _ _ => h.rawBlock _)
  all_goals exact .of_run hx h.illegalBlock

theorem execSt4 (h : FrameSteps R) {w : Nat} {i : Instr} {s t : State} (hd : decodeSt4 w = .ok i) (hx : exec i s = .next t) :
    KeptOrRaised R s t := by
  unfold decodeSt4 at hd
  split at hd <;> cases hd
  case h_4 => exact .of_run hx (h.scaledBlock (h.runBlock _))
  case h_6 => exact .of_run hx (h.scaledBlock (h.intraBlock _ _))
  case h_7 =>
    exact .of_run hx (h.bind (h.reads (readsOnly_currentBlock _)) fun _ => h.bind h.nextColor fun _ =>
      h.bind (h.planeOf _) fun _ => h.bind (h.forEach (fun _ => h.writeCur _ _ _) _) fun _ => h.nextBlock 2)
  case h_9 => exact .of_run hx (h.scaledBlock (h.patternBlock _))
  case h_10 => exact .of_run hx (h.scaledBlock (h.rawBlock _))
  all_goals exact .of_run hx h.illegalSubBlock

theorem execBtsym (h : FrameSteps R) {w : Nat} {i : Instr} {s t : State} (hd : decodeBtsym w = .ok i)
    (hx : exec i s = .next t) : KeptOrRaised R s t := by
  unfold decodeBtsym at hd
  split at hd <;> cases hd
  case h_13 | h_14 | h_15 | h_16 => exact .of_run hx (h.symbolRun _)
  all_goals exact .of_run hx (h.symbolLiteral _)

theorem execTree (h : FrameSteps R) {w : Nat} {i : Instr} {s t : State} (hd : decodeTree w = .ok i) (hx : exec i s = .next t) :
    KeptOrRaised R s t := by
  unfold decodeTree at hd
  split at hd
  next =>
    split at hd <;> cases hd
    exact .of_run hx (h.bind (h.reads readsOnly_currentTree) fun r => h.bind (h.writeShape r 0) fun _ =>
      h.bind (h.writeSyms r _ _) fun _ => h.nextAgendaItem)
  next =>
    split at hd
    next =>
      split at hd <;> cases hd
      exact .of_run hx (h.bind (h.reads readsOnly_currentTree) fun r => h.bind (h.writeShape r _) fun _ => h.bind h.get fun _ =>
        h.bind (h.readLeaves r _ _ _) fun _ => h.bind (h.writeSyms r _ _) fun _ => h.nextAgendaItem)
    next =>
      split at hd <;> cases hd
      exact .of_run hx (h.bind (h.reads readsOnly_currentTree) fun r => h.bind (h.writeShape r _) fun _ =>
        h.bind (h.reads (readsOnly_mergePasses _ _)) fun _ => h.bind (h.writeSyms r _ _) fun _ => h.nextAgendaItem)

theorem execRefillConst (h : FrameSteps R) {b : BundleId} {n : BitVec 32} {s t : State} (hn : n ≠ 0)
    (hx : exec (refillConst b n) s = .next t) : KeptOrRaised R s t := by
  cases b
  case blockTypes | subBlockTypes => exact .of_run hx (h.refillConstant _ n readsOnly_blockTypeConst)
  case colors => exact .of_run hx (h.refillConstant _ n readsOnly_decodeColor)
  case pattern => exact .of_run hx (h.refillConstant _ n readsOnly_patternByte)
  case xOff | yOff => exact .of_run hx (h.refillConstant _ n readsOnly_motionConst)
  case intraDc | interDc => exact .of_run hx (h.refillDc _ hn)
  case run => exact .of_run hx (h.refillConstant _ n readsOnly_runConst)

theorem execRefillCoded (h : FrameSteps R) {b : BundleId} {n : BitVec 32} {s t : State} (hn : n ≠ 0)
    (hx : exec (refillCoded b n) s = .next t) : KeptOrRaised R s t := by
  cases b
  case blockTypes | subBlockTypes => exact .of_run hx (h.refillSymbols _ n)
  case colors => exact .of_run hx (h.refillEach _ n readsOnly_decodeColor)
  case pattern => exact .of_run hx (h.refillEach _ n readsOnly_patternByte)
  case xOff | yOff => exact .of_run hx (h.refillEach _ n (readsOnly_motionCoded _))
  case intraDc | interDc => exact .of_run hx (h.refillDc _ hn)
  case run => exact .of_run hx (h.refillEach _ n readsOnly_runCoded)

theorem execRefillDone (h : FrameSteps R) {s t : State} (hx : exec .refillDone s = .next t) : KeptOrRaised R s t :=
  .of_run hx (h.bind (h.reads readsOnly_currentRefill) fun _ => h.bind (Keeps.modify fun _ => h.bundleFields rfl rfl rfl) fun _ =>
    h.nextRefill)

theorem execAudioRun (h : FrameSteps R) {w : Nat} {i : Instr} {s t : State} (hd : decodeAudioRun w = .ok i)
    (hx : exec i s = .next t) : KeptOrRaised R s t := by
  unfold decodeAudioRun at hd
  split at hd <;> split at hd <;> cases hd <;> exact .of_run hx (h.audioRun _ _)

end FrameSteps

theorem FrameSteps.execElement (h : FrameSteps R) {sp : CodeSpace} (hsp : InFrame sp) {w : Nat} {i : Instr} {s t : State}
    (hd : decode sp w = .ok i) (hx : exec i s = .next t) : KeptOrRaised R s t := by
  cases sp with
  | bt4 => exact h.execBt4 hd hx
  | st4 => exact h.execSt4 hd hx
  | btsym => exact h.execBtsym hd hx
  | tree => exact h.execTree hd hx
  | refill b len =>
    obtain rfl | ⟨n, hn, rfl | rfl⟩ := decodeRefill_inv hd
    · exact h.execRefillDone hx
    · exact h.execRefillConst hn hx
    · exact h.execRefillCoded hn hx
  | audioRun => exact h.execAudioRun hd hx
  | cmd | regWrite | regRead => exact hsp.elim

/-! ## The sequencer inside a frame -/

/-- The state the swap leaves: the planes exchanged, those not decoded emptied, and the frame's result (R432, R460, R637). -/
def State.afterFrame (s : State) : State :=
  ((s.setPlanes (s.planes.map fun p x => (dropUndecoded s.ctl.decoded p x).swap)).setRegs
    (okRegs { s.regs with frameValid := true, bitpos := s.br.pos } (BitVec.ofNat 32 s.ctl.frame) 0 0)).setPhase .idle

theorem videoEndStep_apply (s : State) : videoEndStep s = .ok none s.afterFrame := rfl

namespace FrameSteps

theorem audioTrackStep (h : FrameSteps R) (hopen : ∀ s x, x.pos = 0 → R s (s.setBr x)) :
    Keeps R Machine.audioTrackStep :=
  h.bind h.get fun _ => ite (h.bind (h.openAudioPacket hopen) fun _ => h.pure _) (h.goto (by decide))

theorem videoStartStep (h : FrameSteps R) (hopen : ∀ s x, x.pos = 0 → R s (s.setBr x)) :
    Keeps R Machine.videoStartStep :=
  h.bind h.get fun _ => h.bind (Keeps.modify fun s => hopen s _ rfl) fun _ =>
    h.bind (h.modifyCtl fun _ hp => ⟨hp, rfl, rfl⟩) fun _ => h.goto (by decide)

theorem setLengths (h : FrameSteps R) (lw bw : Nat) : Keeps R (Machine.setLengths lw bw) :=
  h.forEach (fun b => Keeps.modify fun s =>
    h.bundleFields (x := { s.bundle b with len := bundleLenBits (s.params.bundle b) lw bw }) rfl rfl rfl) _

theorem planeNextStep (h : FrameSteps R) : Keeps R Machine.planeNextStep := by
  refine h.bind h.get fun s => ?_
  split
  next => exact h.goto (by decide)
  next p ps _ =>
    have hplane := h.bind (h.planeOf p) fun x => h.bind (h.setLengths (lengthWidth p s.session.width.toNat) x.bw) fun _ =>
      h.bind (h.modifyCtl (f := fun c => { c with order := ps, plane := p, agenda := bundleOrder.flatMap bundleAgenda })
        fun _ hp => ⟨hp, rfl, rfl⟩) fun _ => h.goto (x := .trees) (by decide)
    exact ite (h.bind (h.skipBits _) fun _ => hplane) hplane

theorem fetchTree (h : FrameSteps R) (r : TreeRef) : Keeps R (Machine.fetchTree r) :=
  h.bind (h.getBits 4) fun _ => h.bind (h.writeShape r _) fun _ => ite (h.reads (readsOnly_fetched _ _))
    (h.bind h.getBit fun _ => ite (h.bind (h.getBits 3) fun _ => h.reads (readsOnly_fetched _ _))
      (h.bind (h.getBits 2) fun _ => h.reads (readsOnly_fetched _ _)))

theorem treesStep (h : FrameSteps R) : Keeps R Machine.treesStep := by
  refine h.bind h.get fun s => ?_
  split
  next => exact h.bind (h.modifyCtl fun _ hp => ⟨hp, rfl, rfl⟩) fun _ => h.goto (by decide)
  next r _ _ => exact h.fetchTree r
  next => exact h.bind (Keeps.modify fun s => h.colLast s 0) fun _ => h.bind h.nextAgendaItem fun _ => h.pure _
  next b _ _ =>
    exact h.bind (Keeps.modify fun s => h.bundle s b _ fun hb => hb.setBundle (Nat.le_refl 0) (Nat.zero_le _) rfl) fun _ =>
      h.bind h.nextAgendaItem fun _ => h.pure _

/-- The bundles to serve are set before the refills begin: no symbol loop runs here. -/
theorem rowStartStep (h : FrameSteps R) {s : State} (hs : s.ctl.phase = .rowStart) : KeepsAt R Machine.rowStartStep s :=
  KeepsAt.get_bind (h.bindAt (h.planeOf _ s) fun x u hu => by
    obtain ⟨rfl, _⟩ := planeOf_ok_inv hu
    split
    · exact h.bindAt (h.locals fun hp => nomatch hs.symm.trans hp) fun _ _ _ => h.goto (by decide) _
    · exact h.goto (by decide) _)

theorem fetchRefill (h : FrameSteps R) (b : BundleId) : Keeps R (Machine.fetchRefill b) :=
  h.bind h.get fun _ => h.bind (h.getBits _) fun _ => ite (h.reads (readsOnly_fetched _ _))
    (h.bind (h.check _ _) fun _ => ite (h.bind h.getBit fun _ => h.reads (readsOnly_fetched _ _)) (h.reads (readsOnly_fetched _ _)))

theorem refillStep (h : FrameSteps R) : Keeps R Machine.refillStep := by
  refine h.bind h.get fun s => ?_
  split
  next => exact h.bind (h.modifyCtl fun _ hp => ⟨hp, rfl, rfl⟩) fun _ => h.goto (by decide)
  next b _ _ => exact ite (h.bind h.nextRefill fun _ => h.pure _) (h.fetchRefill b)

theorem btSymStep (h : FrameSteps R) : Keeps R Machine.btSymStep := by
  refine h.bind h.get fun s => ?_
  split
  next => exact h.reads (.refuse _)
  next => exact ite (h.bind (h.reads (.huff _)) fun _ => h.reads (readsOnly_fetched _ _)) (h.bind h.nextRefill fun _ => h.pure _)

theorem blockStep (h : FrameSteps R) : Keeps R Machine.blockStep :=
  h.bind h.get fun _ => h.bind (h.planeOf _) fun _ =>
    ite (h.bind (h.getValue _) fun _ => h.reads (readsOnly_fetched _ _))
      (h.bind (h.modifyCtl fun _ hp => ⟨hp, rfl, rfl⟩) fun _ => h.goto (by decide))

theorem subBlockStep (h : FrameSteps R) : Keeps R Machine.subBlockStep :=
  h.bind (h.getValue _) fun _ => h.reads (readsOnly_fetched _ _)

theorem planeEndStep (h : FrameSteps R) : Keeps R Machine.planeEndStep :=
  h.bind h.alignTo32 fun _ => h.bind h.get fun _ => h.bind (h.modifyCtl fun _ hp => ⟨hp, rfl, rfl⟩) fun _ =>
    h.goto (by split <;> decide)

theorem audioCoefStep (h : FrameSteps R) : Keeps R Machine.audioCoefStep :=
  h.bind h.get fun _ => h.bind (h.reads readsOnly_currentTrack) fun _ =>
    ite
      (h.bind h.getBit fun _ =>
        ite (h.bind (h.getBits 4) fun _ => h.bind (h.getBits 4) fun _ => h.reads (readsOnly_fetched _ _))
          (h.bind (h.getBits 4) fun _ => h.reads (readsOnly_fetched _ _)))
      (h.goto (by decide))

theorem noElement (h : FrameSteps R) {m : M Unit} (hm : Keeps R m) : Keeps R (Machine.noElement m) :=
  h.bind hm fun _ => h.pure _

/-- Inside a frame the sequencer keeps `R`, where opening a packet and the swap do. -/
theorem sequence (h : FrameSteps R) {s : State} (hs : ¬ Idle s)
    (hopen : s.ctl.phase = .audioTrack ∨ s.ctl.phase = .videoStart → ∀ u x, x.pos = 0 → R u (u.setBr x))
    (hend : s.ctl.phase = .videoEnd → R s s.afterFrame) : KeepsAt R Machine.sequence s := by
  refine KeepsAt.get_bind ?_
  split
  next hp => exact absurd hp hs
  next hp => exact h.audioTrackStep (hopen (Or.inl hp)) s
  next => exact h.noElement h.audioLoopHead s
  next => exact h.noElement h.audioHead s
  next => exact h.audioCoefStep s
  next => exact h.noElement h.audioTransform s
  next => exact h.noElement h.audioEmit s
  next hp => exact h.videoStartStep (hopen (Or.inr hp)) s
  next => exact h.planeNextStep s
  next => exact h.treesStep s
  next hp => exact h.rowStartStep hp
  next => exact h.refillStep s
  next => exact h.btSymStep s
  next => exact h.blockStep s
  next => exact h.subBlockStep s
  next => exact h.planeEndStep s
  next hp => exact hend hp

end FrameSteps

/-! ## The elements a frame fetches -/

/-- What the sequence answers with is a decoded element of the bitstream, if it is one at all. -/
def FetchesElement (m : M (Option Instr)) : Prop :=
  ∀ s t i, m s = .ok (some i) t → ∃ sp w, InFrame sp ∧ decode sp w = .ok i

namespace FetchesElement

theorem bind {m : M α} {f : α → M (Option Instr)} (hf : ∀ a, FetchesElement (f a)) : FetchesElement (m >>= f) := by
  intro s t i h
  obtain ⟨a, u, -, hfa⟩ := bind_ok_inv h
  exact hf a u t i hfa

theorem ite {p : Prop} [Decidable p] {m m' : M (Option Instr)} (hm : FetchesElement m) (hm' : FetchesElement m') :
    FetchesElement (if p then m else m') := by
  split
  · exact hm
  · exact hm'

theorem none : FetchesElement (pure Option.none) := fun _ _ _ h => nomatch h
theorem refuse (r : Refusal) : FetchesElement (Machine.refuse r) := fun _ _ _ h => nomatch h
theorem goto (x : Phase) : FetchesElement (Machine.goto x) := bind fun _ => none
theorem noElement (m : M Unit) : FetchesElement (Machine.noElement m) := bind fun _ => none

theorem fetched {sp : CodeSpace} (hsp : InFrame sp) (w : Nat) : FetchesElement (Machine.fetched sp w) := by
  intro s t i h
  rw [Machine.fetched] at h
  cases hd : decode sp w with
  | ok j => rw [hd] at h; cases h; exact ⟨sp, w, hsp, hd⟩
  | error e => rw [hd] at h; cases h

theorem planeNextStep : FetchesElement Machine.planeNextStep := by
  refine bind fun s => ?_
  split
  · exact goto _
  · exact ite (bind fun _ => bind fun _ => bind fun _ => bind fun _ => goto _)
      (bind fun _ => bind fun _ => bind fun _ => goto _)

theorem fetchTree (r : TreeRef) : FetchesElement (Machine.fetchTree r) :=
  have hword : ∀ w, FetchesElement (Machine.fetched .tree w) := fetched trivial
  bind fun _ => bind fun _ => ite (hword _) (bind fun _ => ite (bind fun _ => hword _) (bind fun _ => hword _))

theorem treesStep : FetchesElement Machine.treesStep := by
  refine bind fun s => ?_
  split
  · exact bind fun _ => goto _
  · exact fetchTree _
  · exact bind fun _ => bind fun _ => none
  · exact bind fun _ => bind fun _ => none

theorem fetchRefill (b : BundleId) : FetchesElement (Machine.fetchRefill b) :=
  have hword : ∀ len w, FetchesElement (Machine.fetched (.refill b len) w) := fun _ => fetched trivial
  bind fun _ => bind fun _ => ite (hword _ _) (bind fun _ => ite (bind fun _ => hword _ _) (hword _ _))

theorem refillStep : FetchesElement Machine.refillStep := by
  refine bind fun s => ?_
  split
  · exact bind fun _ => goto _
  · exact ite (bind fun _ => none) (fetchRefill _)

theorem btSymStep : FetchesElement Machine.btSymStep := by
  refine bind fun s => ?_
  split
  · exact refuse _
  · exact ite (bind fun _ => fetched (sp := .btsym) trivial _) (bind fun _ => none)

theorem blockStep : FetchesElement Machine.blockStep :=
  bind fun _ => bind fun _ => ite (bind fun _ => fetched (sp := .bt4) trivial _) (bind fun _ => goto _)

theorem subBlockStep : FetchesElement Machine.subBlockStep := bind fun _ => fetched (sp := .st4) trivial _

theorem planeEndStep : FetchesElement Machine.planeEndStep := bind fun _ => bind fun _ => bind fun _ => goto _

theorem audioCoefStep : FetchesElement Machine.audioCoefStep :=
  have hword : ∀ w, FetchesElement (Machine.fetched .audioRun w) := fetched trivial
  bind fun _ => bind fun _ => ite (bind fun _ => ite (bind fun _ => bind fun _ => hword _) (bind fun _ => hword _)) (goto _)

/-- Inside a frame the sequencer fetches elements of the bitstream alone. -/
theorem sequence {s t : State} {i : Instr} (hs : ¬ Idle s) (h : Machine.sequence s = .ok (some i) t) :
    ∃ sp w, InFrame sp ∧ decode sp w = .ok i := by
  rw [Machine.sequence, bind_of_ok (get_apply s)] at h
  cases hp : s.ctl.phase <;> rw [hp] at h
  case idle => exact absurd hp hs
  case audioTrack => exact bind (fun _ => ite (bind fun _ => none) (goto _)) s t i h
  case audioLoop | audioHead | audioXform | audioEmit => exact noElement _ s t i h
  case audioCoef => exact audioCoefStep s t i h
  case videoStart => exact bind (fun _ => bind fun _ => bind fun _ => goto _) s t i h
  case planeNext => exact planeNextStep s t i h
  case trees => exact treesStep s t i h
  case rowStart => exact bind (fun _ => bind fun _ => ite (bind fun _ => goto _) (goto _)) s t i h
  case refill => exact refillStep s t i h
  case btSym => exact btSymStep s t i h
  case block => exact blockStep s t i h
  case subBlock => exact subBlockStep s t i h
  case planeEnd => exact planeEndStep s t i h
  case videoEnd => exact nomatch (videoEndStep_apply s).symm.trans h

end FetchesElement

/-- What a step inside a frame does to a relation that the updates of a frame keep, and opening a packet and the swap where it
makes them: the relation is kept, or an error is taken where it is. -/
theorem frame_step_inv (h : FrameSteps R) {s t : State} (hs : ¬ Idle s)
    (hopen : s.ctl.phase = .audioTrack ∨ s.ctl.phase = .videoStart → ∀ u x, x.pos = 0 → R u (u.setBr x))
    (hend : s.ctl.phase = .videoEnd → R s s.afterFrame) (hstep : step s = .next t) : KeptOrRaised R s t := by
  have hseq := h.sequence hs hopen hend
  rcases step_next_inv hstep with halone | ⟨i, u, hfetch, hexec⟩ | ⟨c, u, hraised, rfl⟩
  · exact Or.inl (hseq.of_ok halone)
  · obtain ⟨sp, w, hsp, hd⟩ := FetchesElement.sequence hs hfetch
    exact (h.execElement hsp hd hexec).prepend h.trans (hseq.of_ok hfetch)
  · exact Or.inr ⟨c, u, hseq.of_raised hraised, rfl⟩

end Sys2Proof.Machine
end

/-! # One step between commands -/

section
namespace Sys2Proof.Machine

variable {α β : Type}

/-! ## Checks -/

/-- The sequence leaves the state as it is, whether it answers or raises an error. -/
def LeavesState (m : M α) : Prop := Keeps Eq m

namespace LeavesState

theorem bind {m : M α} {f : α → M β} (hm : LeavesState m) (hf : ∀ a, LeavesState (f a)) : LeavesState (m >>= f) :=
  Keeps.bind (R := Eq) (fun _ _ _ => Eq.trans) hm hf

theorem pure (a : α) : LeavesState (Pure.pure a : M α) := Keeps.pure Eq.refl a
theorem get : LeavesState (MonadState.get : M State) := Keeps.get Eq.refl
theorem check (ok : Bool) (c : Cause) : LeavesState (Machine.check ok c) := Keeps.check Eq.refl ok c
theorem getOr (x : Option α) (r : Refusal) : LeavesState (Machine.getOr x r) := Keeps.getOr Eq.refl x r
theorem whileIdle : LeavesState Machine.whileIdle := Keeps.whileIdle Eq.refl
theorem requireOpen : LeavesState Machine.requireOpen := bind whileIdle fun _ => bind get fun _ => check _ _

theorem argTrack : LeavesState Machine.argTrack :=
  bind requireOpen fun _ => bind get fun _ => bind (check _ _) fun _ => getOr _ _

theorem trackChecks (p : Params) (m : List Host.Cell) (n fsize : Nat) : LeavesState (Machine.trackChecks p m n fsize) :=
  bind (check _ _) fun _ => bind (check _ _) fun _ =>
    Keeps.forEach Eq.refl (fun _ _ _ => Eq.trans) (fun _ => check _ _) _

theorem openChecks : LeavesState Machine.openChecks :=
  bind get fun _ => bind (check _ _) fun _ => bind (check _ _) fun _ => bind (check _ _) fun _ => bind (check _ _) fun _ =>
    bind (check _ _) fun _ => bind (check _ _) fun _ => bind (check _ _) fun _ => bind (check _ _) fun _ =>
      bind (check _ _) fun _ => bind (trackChecks _ _ _ _) fun _ => bind (check _ _) fun _ => check _ _

theorem packetLayout (m : List Host.Cell) (stop n a : Nat) : LeavesState (Machine.packetLayout m stop n a) := by
  induction n generalizing a with
  | zero => exact pure _
  | succ n ih => exact bind (check _ _) fun _ => bind (check _ _) fun _ => bind (ih _) fun _ => pure _

/-- A command goes on from the state its checks were made in, or ends there in an error. -/
theorem run_inv {m : M α} {f : α → M Unit} {s t : State} (hm : LeavesState m) (h : run (m >>= f) s = .next t) :
    (∃ a, m s = .ok a s ∧ run (f a) s = .next t) ∨ ∃ c, t = takeError c s := by
  have hs := hm s
  cases hr : m s with
  | ok a u =>
    obtain rfl : s = u := hs.of_ok hr
    exact Or.inl ⟨a, rfl, by rwa [run, bind_of_ok hr] at h⟩
  | error e u =>
    rw [run, bind_of_error hr] at h
    cases e with
    | raised c =>
      obtain rfl : s = u := hs.of_raised hr
      cases h
      exact Or.inr ⟨c, rfl⟩
    | refused r => cases h
    | faulted f => cases h

end LeavesState

theorem requireOpen_ok_inv {s t : State} {a : Unit} (h : requireOpen s = .ok a t) : s.regs.isOpen = true := by
  obtain ⟨_, u, hidle, hopen⟩ := bind_ok_inv h
  obtain rfl : s = u := (LeavesState.whileIdle s).of_ok hidle
  rw [bind_of_ok (get_apply s)] at hopen
  exact (check_ok_inv hopen).1

theorem run_bind_of_ok {m : M α} {f : α → M Unit} {s u : State} {a : α} (h : m s = .ok a u) : run (m >>= f) s = run (f a) u := by
  rw [run, bind_of_ok h, run]

/-! ## Commands (R630 to R656) -/

/-- The state after a command that succeeds with the given results (R655). -/
def State.answered (s : State) (r0 r1 r2 : Word) : State := (s.setRegs (okRegs s.regs r0 r1 r2)).setPhase .idle

/-- The state in which the packets of frame `f` are laid out: the cursor past it, its flag shown, every output empty (R637). -/
def State.frameStarted (s : State) (f : Frame) : State :=
  (((s.setSession { s.session with curFrame := s.session.curFrame + 1 }).setRegs
    { s.regs with frameKey := f.isKeyframe, bitpos := 0, audioTrunc := false }).setTracks
    (s.tracks.map fun x => { x with outLen := 0, trunc := false })).setCtl
    { s.ctl with video := false, frame := s.session.curFrame.toNat, track := 0 }

/-- What a command can lead to. -/
inductive CommandEnd (s : State) : State → Prop
  | failed (c : Cause) : CommandEnd s (takeError c s)
  | opened (r0 : Word) : CommandEnd s ((openedState s).answered r0 0 0)
  | closed : CommandEnd s (s.coreReset.answered 0 0 0)
  | sought (hopen : s.regs.isOpen = true) (hle : s.regs.arg0 ≤ s.session.frameCount) :
      CommandEnd s ((s.setSession { s.session with curFrame := s.regs.arg0 }).answered 0 0 0)
  | audioRead (pcm : Cells Byte) (x : Track) (r0 : Word) :
      CommandEnd s (((s.setPcmOut pcm).setTrack s.regs.arg0.toNat x).answered r0 0 0)
  | reported (r0 r1 r2 : Word) : CommandEnd s (s.answered r0 r1 r2)
  | started (f : Frame) (ks : List Packet) (v n : Nat) (hopen : s.regs.isOpen = true)
      (hmore : s.session.curFrame ≠ s.session.frameCount) :
      CommandEnd s ((s.frameStarted f).setCtl
        { (s.frameStarted f).ctl with phase := .audioTrack, packets := ks, vbase := v, vlen := n })
  | cutOff (f : Frame) (c : Cause) (hopen : s.regs.isOpen = true) (hmore : s.session.curFrame ≠ s.session.frameCount) :
      CommandEnd s (takeError c (s.frameStarted f))

theorem execCmdOpen_inv {s t : State} (h : execCmdOpen s = .next t) : CommandEnd s t := by
  obtain ⟨_, -, h⟩ | ⟨c, rfl⟩ := LeavesState.whileIdle.run_inv h
  · obtain ⟨_, -, h⟩ | ⟨c, rfl⟩ := LeavesState.openChecks.run_inv h
    · cases h
      exact .opened _
    · exact .failed c
  · exact .failed c

theorem execCmdClose_inv {s t : State} (h : execCmdClose s = .next t) : CommandEnd s t := by
  obtain ⟨_, -, h⟩ | ⟨c, rfl⟩ := LeavesState.requireOpen.run_inv h
  · cases h
    exact .closed
  · exact .failed c

theorem execCmdSeek_inv {s t : State} (h : execCmdSeek s = .next t) : CommandEnd s t := by
  obtain ⟨_, hopen, h⟩ | ⟨c, rfl⟩ := LeavesState.requireOpen.run_inv h
  · rw [run_bind_of_ok (get_apply s)] at h
    obtain ⟨_, hle, h⟩ | ⟨c, rfl⟩ := (LeavesState.check _ _).run_inv h
    · cases h
      exact .sought (requireOpen_ok_inv hopen) (of_decide_eq_true (check_ok_inv hle).1)
    · exact .failed c
  · exact .failed c

theorem execCmdReadAudio_inv {s t : State} (h : execCmdReadAudio s = .next t) : CommandEnd s t := by
  obtain ⟨x, -, h⟩ | ⟨c, rfl⟩ := LeavesState.argTrack.run_inv h
  · rw [run_bind_of_ok (get_apply s)] at h
    obtain ⟨bytes, -, h⟩ | ⟨c, rfl⟩ := (LeavesState.getOr _ _).run_inv h
    · cases h
      exact .audioRead _ _ _
    · exact .failed c
  · exact .failed c

theorem execCmdAudioTrackInfo_inv {s t : State} (h : execCmdAudioTrackInfo s = .next t) : CommandEnd s t := by
  obtain ⟨x, -, h⟩ | ⟨c, rfl⟩ := LeavesState.argTrack.run_inv h
  · cases h
    exact .reported _ _ _
  · exact .failed c

theorem execCmdDecodeNextFrame_inv {s t : State} (h : execCmdDecodeNextFrame s = .next t) : CommandEnd s t := by
  obtain ⟨_, hopen, h⟩ | ⟨c, rfl⟩ := LeavesState.requireOpen.run_inv h
  · rw [run_bind_of_ok (get_apply s)] at h
    obtain ⟨_, hmore, h⟩ | ⟨c, rfl⟩ := (LeavesState.check _ _).run_inv h
    · obtain ⟨f, -, h⟩ | ⟨c, rfl⟩ := (LeavesState.getOr _ _).run_inv h
      · have hne : s.session.curFrame ≠ s.session.frameCount := by simpa using (check_ok_inv hmore).1
        rw [run_bind_of_ok (set_apply _ _)] at h
        obtain ⟨x, -, h⟩ | ⟨c, rfl⟩ := (LeavesState.packetLayout _ _ _ _).run_inv h
        · cases h
          exact .started f _ _ _ (requireOpen_ok_inv hopen) hne
        · exact .cutOff f c (requireOpen_ok_inv hopen) hne
      · exact .failed c
    · exact .failed c
  · exact .failed c

theorem badCommand_inv {s t : State} (h : run badCommand s = .next t) : CommandEnd s t := by
  obtain ⟨_, -, h⟩ | ⟨c, rfl⟩ := LeavesState.whileIdle.run_inv h
  · cases h
    exact .failed _
  · exact .failed c

/-- A word written to CMD is a command. -/
theorem exec_cmd_inv {w : Nat} {i : Instr} {s t : State} (hd : decode .cmd w = .ok i) (h : exec i s = .next t) :
    CommandEnd s t := by
  simp only [decode, decodeCmd] at hd
  split at hd
  next => cases hd
  next =>
    split at hd
    case h_2 => cases hd; exact execCmdOpen_inv h
    case h_3 => cases hd; exact execCmdClose_inv h
    case h_4 => cases hd; exact execCmdDecodeNextFrame_inv h
    case h_5 => cases hd; exact execCmdSeek_inv h
    case h_6 => cases hd; exact execCmdReadAudio_inv h
    case h_7 => cases hd; exact execCmdAudioTrackInfo_inv h
    case h_1 | h_8 => cases hd; exact badCommand_inv h
    case h_9 =>
      repeat' split at hd
      all_goals cases hd; exact badCommand_inv h

/-! ## Host moves -/

/-- What a step between commands can lead to (R154 to R156, R166, R717). -/
inductive IdleStep (s : State) : State → Prop
  | held : IdleStep s s
  | command (v : Word) (ms : List HostMove) {t : State} (hm : s.hostMoves = .regWrite 0 v :: ms)
      (hc : CommandEnd (s.setHostMoves ms) t) : IdleStep s t
  | wroteArg0 (v : Word) (ms : List HostMove) (hm : s.hostMoves = .regWrite 4 v :: ms) :
      IdleStep s ((s.setHostMoves ms).setRegs { s.regs with arg0 := v })
  | wroteArg1 (v : Word) (ms : List HostMove) (hm : s.hostMoves = .regWrite 8 v :: ms) :
      IdleStep s ((s.setHostMoves ms).setRegs { s.regs with arg1 := v })
  | ignored (ms : List HostMove) : IdleStep s (s.setHostMoves ms)
  | read (ms : List HostMove) (w : Option Word) : IdleStep s ((s.setHostMoves ms).setReadData w)
  | placed (a : Nat) (v : Byte) (ms : List HostMove) (hm : s.hostMoves = .containerWrite a v :: ms)
      (hclosed : s.regs.isOpen = false) :
      IdleStep s ((s.setHostMoves ms).setContainer (Memory.setByte s.container a v))

theorem step_of_idle {s : State} (hs : Idle s) : step s = finish exec (idleStep s) := by
  rw [step, sequence, bind_of_ok (get_apply s), show s.ctl.phase = .idle from hs]

theorem step_of_move {s : State} (hs : Idle s) {m : HostMove} {ms : List HostMove} (hm : s.hostMoves = m :: ms) :
    step s = finish exec (hostMove m (s.setHostMoves ms)) := by
  rw [step_of_idle hs, idleStep, bind_of_ok (get_apply s), hm]
  rfl

/-- A REG access that is answered is made inside the 256 bytes (R155). -/
theorem regOffset_inv {a : Nat} {f : Unit → M (Option Instr)} {s t : State}
    (h : finish exec ((regOffset a >>= f) s) = .next t) : a < 256 ∧ finish exec (f () s) = .next t := by
  by_cases ha : 256 ≤ a
  · have he : regOffset a s = .error (.faulted .addressOutsideSpace) s := by rw [regOffset, if_pos ha]; rfl
    rw [bind_of_error he] at h
    cases h
  · by_cases h4 : (a % 4 == 0) = true
    · have hok : regOffset a s = .ok () s := by rw [regOffset, if_neg ha]; exact demand_of_true _ s h4
      rw [bind_of_ok hok] at h
      exact ⟨by omega, h⟩
    · have he : regOffset a s = .error (.refused .unalignedRegAccess) s := by
        rw [regOffset, if_neg ha]
        simp only [Bool.not_eq_true] at h4
        simp only [h4]
        rfl
      rw [bind_of_error he] at h
      cases h

theorem fetched_of_reject {sp : CodeSpace} {w : Nat} {e : Reject} (s : State) (h : decode sp w = .error e) :
    fetched sp w s = .error (.refused .elementOutOfPlace) s := by
  simp only [fetched, h]
  rfl

/-- A register that takes a write is ARG0 or ARG1 (R60). -/
theorem decodeRegWrite_inv {a : Nat} (ha : a < 256) {v : Word} {i : Instr}
    (hd : decode .regWrite (a + 2 ^ 8 * v.toNat) = .ok i) : (a = 4 ∧ i = .wrArg0 v) ∨ (a = 8 ∧ i = .wrArg1 v) := by
  have hv : v.toNat < 2 ^ 32 := v.isLt
  have hoffset : field (a + 2 ^ 8 * v.toNat) 7 0 = a := by simp only [field]; omega
  have hvalue : field (a + 2 ^ 8 * v.toNat) 39 8 = v.toNat := by simp only [field]; omega
  simp only [decode, decodeRegWrite, hoffset, hvalue, BitVec.ofNat_toNat, BitVec.setWidth_eq] at hd
  split at hd
  next => cases hd
  next => split at hd <;> cases hd <;> simp

theorem hostRead_inv {f : State → Word} {s t : State} (hs : Idle s) (h : run (hostRead f) s = .next t) :
    ∃ w, t = s.setReadData w :=
  ⟨_, (Host.Outcome.next.inj ((hostRead_of_idle f hs).symm.trans h)).symm⟩

theorem exec_regRead_inv {a : Nat} {i : Instr} {s t : State} (hs : Idle s) (hd : decode .regRead a = .ok i)
    (h : exec i s = .next t) : ∃ w, t = s.setReadData w := by
  simp only [decode, decodeRegRead] at hd
  split at hd <;> cases hd <;> exact hostRead_inv hs h

theorem hostMove_regWrite_inv {a : Nat} {v : Word} {u t : State} (hu : Idle u)
    (h : finish exec (hostMove (.regWrite a v) u) = .next t) :
    (a = 0 ∧ CommandEnd u t) ∨ (a = 4 ∧ t = u.setRegs { u.regs with arg0 := v })
      ∨ (a = 8 ∧ t = u.setRegs { u.regs with arg1 := v }) ∨ t = u := by
  obtain ⟨ha, hw⟩ := regOffset_inv h
  by_cases h0 : a = 0
  · rw [if_pos h0] at hw
    cases hd : decode .cmd v.toNat with
    | ok i =>
      rw [fetched_of_decode u hd] at hw
      exact Or.inl ⟨h0, exec_cmd_inv hd hw⟩
    | error e => rw [fetched_of_reject u hd] at hw; cases hw
  · rw [if_neg h0] at hw
    cases hd : decode .regWrite (a + 2 ^ 8 * v.toNat) with
    | ok i =>
      rw [hd] at hw
      obtain ⟨h4, rfl⟩ | ⟨h8, rfl⟩ := decodeRegWrite_inv ha hd
      · exact Or.inr (Or.inl ⟨h4, Host.Outcome.next.inj (hw.symm.trans (hostWrite_of_idle _ hu))⟩)
      · exact Or.inr (Or.inr (Or.inl ⟨h8, Host.Outcome.next.inj (hw.symm.trans (hostWrite_of_idle _ hu))⟩))
    | error e =>
      rw [hd] at hw
      exact Or.inr (Or.inr (Or.inr (Host.Outcome.next.inj hw).symm))

theorem hostMove_regRead_inv {a : Nat} {u t : State} (hu : Idle u) (h : finish exec (hostMove (.regRead a) u) = .next t) :
    ∃ w, t = u.setReadData w := by
  obtain ⟨-, hr⟩ := regOffset_inv h
  cases hd : decode .regRead a with
  | ok i =>
    rw [hd] at hr
    exact exec_regRead_inv hu hd hr
  | error e =>
    rw [hd] at hr
    exact ⟨_, (Host.Outcome.next.inj hr).symm⟩

theorem hostMove_containerWrite_inv {a : Nat} {v : Byte} {u t : State}
    (h : finish exec (hostMove (.containerWrite a v) u) = .next t) :
    u.regs.isOpen = false ∧ t = u.setContainer (Memory.setByte u.container a v) := by
  rw [hostMove] at h
  by_cases ha : 2 ^ 32 ≤ a
  · rw [if_pos ha] at h; cases h
  · rw [if_neg ha] at h
    simp only [bind_of_ok (get_apply u)] at h
    cases ho : u.regs.isOpen with
    | true => rw [ho] at h; cases h
    | false =>
      rw [ho] at h
      exact ⟨rfl, (Host.Outcome.next.inj h).symm⟩

theorem hostMove_planeRead_inv {p : PlaneId} {a : Nat} {u t : State}
    (h : finish exec (hostMove (.planeRead p a) u) = .next t) : ∃ w, t = u.setReadData w := by
  rw [hostMove, bind_of_ok (get_apply u)] at h
  cases hp : u.plane p with
  | none => rw [hp] at h; cases h
  | some x =>
    rw [hp] at h
    by_cases hr : x.inRange a = true
    · simp only [if_pos hr] at h
      exact ⟨_, (Host.Outcome.next.inj h).symm⟩
    · simp only [if_neg hr] at h
      cases h

/-- All that a step between commands can do. -/
theorem idle_step_inv {s t : State} (hs : Idle s) (h : step s = .next t) : IdleStep s t := by
  cases hm : s.hostMoves with
  | nil =>
    rw [step_of_idle hs, idleStep, bind_of_ok (get_apply s), hm] at h
    cases h
    exact .held
  | cons m ms =>
    rw [step_of_move hs hm] at h
    have hu : Idle (s.setHostMoves ms) := hs
    cases m with
    | regWrite a v =>
      obtain ⟨rfl, hc⟩ | ⟨rfl, rfl⟩ | ⟨rfl, rfl⟩ | rfl := hostMove_regWrite_inv hu h
      · exact .command v ms hm hc
      · exact .wroteArg0 v ms hm
      · exact .wroteArg1 v ms hm
      · exact .ignored ms
    | regRead a =>
      obtain ⟨w, rfl⟩ := hostMove_regRead_inv hu h
      exact .read ms w
    | containerWrite a v =>
      obtain ⟨hclosed, rfl⟩ := hostMove_containerWrite_inv h
      exact .placed a v ms hm hclosed
    | planeRead p a =>
      obtain ⟨w, rfl⟩ := hostMove_planeRead_inv h
      exact .read ms w

end Sys2Proof.Machine
end

/-! # Invariants of every step -/

section
namespace Sys2Proof.Machine

/-! ## The host's side (R62, R154, R166) -/

/-- What no step inside a frame changes: the host's side, the instantiation, and the session with its number of tracks. -/
structure Outside where
  container : List Host.Cell
  hostMoves : List HostMove
  arg0 : Word
  arg1 : Word
  isOpen : Bool
  inst : Instantiation
  session : Session
  tracks : Nat

def State.outside (s : State) : Outside :=
  { container := s.container, hostMoves := s.hostMoves, arg0 := s.regs.arg0, arg1 := s.regs.arg1, isOpen := s.regs.isOpen,
    inst := s.inst, session := s.session, tracks := s.tracks.length }

theorem frameSteps_outside : FrameSteps fun s t => t.outside = s.outside where
  refl _ := rfl
  trans _ _ _ h h' := h'.trans h
  pos _ _ _ := rfl
  colLast _ _ := rfl
  align _ := rfl
  bundle _ _ _ _ := rfl
  colHigh _ _ := rfl
  pixel _ _ _ _ _ _ _ := rfl
  coef _ _ := rfl
  dct _ _ := rfl
  track s t x := by simp [State.outside]
  trunc _ _ := rfl
  ctl _ _ _ := rfl

/-- Inside a frame a step leaves the host's side and the session, but for an error it takes. -/
theorem frame_step_outside {s t : State} (hs : ¬ Idle s) (h : step s = .next t) :
    KeptOrRaised (fun s t => t.outside = s.outside) s t :=
  frame_step_inv frameSteps_outside hs (fun _ _ _ _ => rfl) (fun _ => rfl) h

/-- CONTAINER, the moves to come and the arguments stand as they were. -/
structure SameHost (s t : State) : Prop where
  container : t.container = s.container
  hostMoves : t.hostMoves = s.hostMoves
  arg0 : t.regs.arg0 = s.regs.arg0
  arg1 : t.regs.arg1 = s.regs.arg1

theorem SameHost.of_outside {s t : State} (h : t.outside = s.outside) : SameHost s t where
  container := congrArg Outside.container h
  hostMoves := congrArg Outside.hostMoves h
  arg0 := congrArg Outside.arg0 h
  arg1 := congrArg Outside.arg1 h

theorem SameHost.trans {s t u : State} (h : SameHost s t) (h' : SameHost t u) : SameHost s u where
  container := h'.container.trans h.container
  hostMoves := h'.hostMoves.trans h.hostMoves
  arg0 := h'.arg0.trans h.arg0
  arg1 := h'.arg1.trans h.arg1

theorem takeError_sameHost (c : Cause) (s : State) : SameHost s (takeError c s) := by
  obtain ⟨hcontainer, -, hmoves, -⟩ := takeError_host c s
  refine ⟨hcontainer, hmoves, ?_, ?_⟩ <;> (unfold takeError; split <;> rfl)

theorem answered_sameHost (s : State) (r0 r1 r2 : Word) : SameHost s (s.answered r0 r1 r2) := ⟨rfl, rfl, rfl, rfl⟩

theorem openedState_sameHost (s : State) : SameHost s (openedState s) := by
  constructor <;> simp [openedState]

theorem openedState_inst (s : State) : (openedState s).inst = s.inst := by simp [openedState]

theorem CommandEnd.sameHost {s t : State} (h : CommandEnd s t) : SameHost s t := by
  cases h with
  | failed c => exact takeError_sameHost c s
  | cutOff f c _ _ => exact SameHost.trans (t := s.frameStarted f) ⟨rfl, rfl, rfl, rfl⟩ (takeError_sameHost c _)
  | opened r0 => exact (openedState_sameHost s).trans (answered_sameHost _ r0 0 0)
  | closed | sought | audioRead | reported | started => exact ⟨rfl, rfl, rfl, rfl⟩

/-- Settles O59: inside a frame no update touches the host's side, and between commands only the host's moves do. -/
theorem hostOwnsItsState : Obligations.HostOwnsItsState := by
  intro s t h
  by_cases hs : Idle s
  · have hmoves : ¬ Idle s → t.hostMoves = s.hostMoves := fun hn => absurd hs hn
    cases idle_step_inv hs h with
    | command v ms _ hc =>
      have hsame := hc.sameHost
      exact ⟨Or.inl hsame.container, Or.inl hsame.arg0, Or.inl hsame.arg1, hmoves⟩
    | wroteArg0 v ms hm => exact ⟨Or.inl rfl, Or.inr ⟨hs, v, ms, hm, rfl⟩, Or.inl rfl, hmoves⟩
    | wroteArg1 v ms hm => exact ⟨Or.inl rfl, Or.inl rfl, Or.inr ⟨hs, v, ms, hm, rfl⟩, hmoves⟩
    | placed a v ms hm hclosed => exact ⟨Or.inr ⟨hs, hclosed, a, v, ms, hm, rfl⟩, Or.inl rfl, Or.inl rfl, hmoves⟩
    | held | ignored | read => exact ⟨Or.inl rfl, Or.inl rfl, Or.inl rfl, hmoves⟩
  · have hsame : SameHost s t := by
      obtain hkept | ⟨c, u, hkept, rfl⟩ := frame_step_outside hs h
      · exact .of_outside hkept
      · exact (SameHost.of_outside hkept).trans (takeError_sameHost c u)
    exact ⟨Or.inl hsame.container, Or.inl hsame.arg0, Or.inl hsame.arg1, fun _ => hsame.hostMoves⟩

/-! ## The session (R56, R61, R81, R110) -/

theorem coreReset_sessionInv (s : State) : SessionInv s.coreReset := sessionInv_of_reset rfl rfl rfl rfl rfl

theorem SessionInv.answered {s : State} (h : SessionInv s) (r0 r1 r2 : Word) : SessionInv (s.answered r0 r1 r2) := by
  obtain ⟨hcur, hframes, htracks, hclosed⟩ := h
  refine ⟨hcur, hframes, htracks, fun ho => ?_⟩
  obtain ⟨hs, hp, hv, -⟩ := hclosed ho
  exact ⟨hs, hp, hv, rfl⟩

theorem SessionInv.takeError {s : State} (h : SessionInv s) (c : Cause) : SessionInv (takeError c s) := by
  cases hk : causeKind c with
  | openError => rw [takeError_openError s hk]; exact coreReset_sessionInv s
  | decodeError =>
    rw [takeError_decodeError s hk]
    obtain ⟨hcur, hframes, htracks, hclosed⟩ := h
    refine ⟨hcur, hframes, htracks, fun ho => ?_⟩
    obtain ⟨hs, hp, hv, -⟩ := hclosed ho
    exact ⟨hs, hp, hv, rfl⟩
  | commandError => rw [takeError_commandError s hk]; exact h

/-- With a session open only the counts matter. -/
theorem sessionInv_of_outside {s u : State} (h : SessionInv s) (ho : s.regs.isOpen = true) (hu : u.outside = s.outside) :
    SessionInv u := by
  obtain ⟨hcur, hframes, htracks, -⟩ := h
  have hsession : u.session = s.session := congrArg Outside.session hu
  have hlength : u.tracks.length = s.tracks.length := congrArg Outside.tracks hu
  have hopen : u.regs.isOpen = s.regs.isOpen := congrArg Outside.isOpen hu
  refine ⟨by rwa [hsession], by rwa [hsession], by rwa [hsession, hlength], fun hc => ?_⟩
  rw [hopen, ho] at hc
  cases hc

theorem Memory.u32_lt (m : List Host.Cell) (a : Nat) : Memory.u32 m a < 2 ^ 32 := by
  have h0 := (Memory.byte m a).isLt
  have h1 := (Memory.byte m (a + 1)).isLt
  have h2 := (Memory.byte m (a + 2)).isLt
  have h3 := (Memory.byte m (a + 3)).isLt
  unfold Memory.u32
  omega

/-- The index and the tracks are read for the header's counts (R630). -/
theorem openedState_sessionInv (s : State) : SessionInv (openedState s) := by
  have hcount : ∀ a, (BitVec.ofNat 32 (Memory.u32 s.container a)).toNat = Memory.u32 s.container a := fun a =>
    (BitVec.toNat_ofNat _ _).trans (Nat.mod_eq_of_lt (Memory.u32_lt _ a))
  refine ⟨Nat.zero_le _, ?_, ?_, fun h => nomatch h⟩
  · exact (by simp [readFrames] : (readFrames _ _ _ _).length = _).trans (hcount 8).symm
  · exact (by simp [readTracks] : (readTracks _ _ _).length = _).trans (hcount 40).symm

theorem frameStarted_sessionInv {s : State} (h : SessionInv s) (ho : s.regs.isOpen = true)
    (hmore : s.session.curFrame ≠ s.session.frameCount) (f : Frame) : SessionInv (s.frameStarted f) := by
  obtain ⟨hcur, hframes, htracks, -⟩ := h
  refine ⟨?_, hframes, (List.length_map _).trans htracks, fun hc => nomatch ho.symm.trans hc⟩
  show (s.session.curFrame + 1).toNat ≤ s.session.frameCount.toNat
  bv_omega

theorem CommandEnd.sessionInv {s t : State} (h : CommandEnd s t) (hinv : SessionInv s) : SessionInv t := by
  cases h with
  | failed c => exact hinv.takeError c
  | opened r0 => exact (openedState_sessionInv s).answered r0 0 0
  | closed => exact (coreReset_sessionInv s).answered 0 0 0
  | sought hopen hle =>
    obtain ⟨-, hframes, htracks, -⟩ := hinv
    exact ⟨hle, hframes, htracks, fun hc => nomatch hopen.symm.trans hc⟩
  | audioRead pcm x r0 =>
    obtain ⟨hcur, hframes, htracks, hclosed⟩ := hinv
    have hread : SessionInv ((s.setPcmOut pcm).setTrack s.regs.arg0.toNat x) :=
      ⟨hcur, hframes, List.length_set.trans htracks, hclosed⟩
    exact hread.answered r0 0 0
  | reported r0 r1 r2 => exact hinv.answered r0 r1 r2
  | started f ks v n hopen hmore =>
    obtain ⟨hcur, hframes, htracks, -⟩ := frameStarted_sessionInv hinv hopen hmore f
    exact ⟨hcur, hframes, htracks, fun hc => nomatch hopen.symm.trans hc⟩
  | cutOff f c hopen hmore => exact (frameStarted_sessionInv hinv hopen hmore f).takeError c

theorem CommandEnd.inst {s t : State} (h : CommandEnd s t) : t.inst = s.inst := by
  cases h with
  | failed c => exact takeError_inst c s
  | cutOff f c _ _ => exact takeError_inst c _
  | opened r0 => exact openedState_inst s
  | closed | sought | audioRead | reported | started => rfl

theorem step_inst {s t : State} (h : step s = .next t) : t.inst = s.inst := by
  by_cases hs : Idle s
  · cases idle_step_inv hs h with
    | command v ms _ hc => exact hc.inst
    | held | wroteArg0 | wroteArg1 | ignored | read | placed => rfl
  · obtain hkept | ⟨c, u, hkept, rfl⟩ := frame_step_outside hs h
    · exact congrArg Outside.inst hkept
    · exact (takeError_inst c u).trans (congrArg Outside.inst hkept)

theorem step_sessionInv {s t : State} (h : step s = .next t) (hinv : SessionInv s) : SessionInv t := by
  by_cases hs : Idle s
  · cases idle_step_inv hs h with
    | command v ms _ hc => exact hc.sessionInv hinv
    | held | wroteArg0 | wroteArg1 | ignored | read | placed => exact hinv
  · have hopen : s.regs.isOpen = true := by
      obtain ⟨-, -, -, hclosed⟩ := hinv
      by_contra hc
      exact hs (hclosed (Bool.not_eq_true _ ▸ hc)).2.2.2
    obtain hkept | ⟨c, u, hkept, rfl⟩ := frame_step_outside hs h
    · exact sessionInv_of_outside hinv hopen hkept
    · exact (sessionInv_of_outside hinv hopen hkept).takeError c

/-- Settles O57: inside a frame the session stands and is open, and each command keeps its counts; the checks of R11 and R12 are
those of `Params.wellFormed`. -/
theorem stepKeepsSession : Obligations.StepKeepsSession :=
  ⟨fun _ _ h => ⟨step_sessionInv h, step_inst h⟩, State.accepted,
    fun p => ⟨instantiate_of_wellFormed, instantiate_of_illFormed, wellFormed_iff p⟩⟩

/-! ## The cursors (R66, R72) -/

/-- The reader stays inside its packet and the cursors in order. -/
def KeepsCursors (s t : State) : Prop := (ReaderInv s → ReaderInv t) ∧ (BundleInv s → BundleInv t)

theorem readerInv_setPos {s : State} {x : Nat} (h : x ≤ s.bitSize) : ReaderInv (s.setPos x) := by
  rw [ReaderInv, s.bitPos_setPos_of_le h]
  exact h

theorem frameSteps_keepsCursors : FrameSteps KeepsCursors where
  refl _ := ⟨id, id⟩
  trans _ _ _ h h' := ⟨h'.1 ∘ h.1, h'.2 ∘ h.2⟩
  pos _ _ h := ⟨fun _ => readerInv_setPos h, id⟩
  colLast _ _ := ⟨id, id⟩
  align _ := ⟨fun _ => readerInv_setPos (Nat.min_le_right _ _), id⟩
  bundle _ _ _ h := ⟨id, h⟩
  colHigh _ _ := ⟨id, id⟩
  pixel _ _ _ _ _ _ _ := ⟨id, id⟩
  coef _ _ := ⟨id, id⟩
  dct _ _ := ⟨id, id⟩
  track _ _ _ := ⟨id, id⟩
  trunc _ _ := ⟨id, id⟩
  ctl _ _ h := ⟨id, h⟩

theorem BundleInv.answered {s : State} (h : BundleInv s) (r0 r1 r2 : Word) : BundleInv (s.answered r0 r1 r2) :=
  ⟨h.1, fun hp => nomatch hp⟩

theorem coreReset_bundleInv (s : State) : BundleInv s.coreReset := bundleInv_of_reset rfl rfl

theorem takeError_keepsCursors (c : Cause) (s : State) : KeepsCursors s (takeError c s) := by
  cases hk : causeKind c with
  | openError => rw [takeError_openError s hk]; exact ⟨fun _ => Nat.le_refl 0, fun _ => coreReset_bundleInv s⟩
  | decodeError => rw [takeError_decodeError s hk]; exact ⟨id, fun h => ⟨h.1, fun hp => nomatch hp⟩⟩
  | commandError => rw [takeError_commandError s hk]; exact ⟨id, id⟩

theorem openedState_answered_bundleInv (s : State) (r0 : Word) : BundleInv ((openedState s).answered r0 0 0) :=
  bundleInv_of_empty (fun b => by cases b <;> exact ⟨rfl, rfl⟩) (fun hp => nomatch hp)

theorem CommandEnd.keepsCursors {s t : State} (h : CommandEnd s t) : KeepsCursors s t := by
  cases h with
  | failed c => exact takeError_keepsCursors c s
  | opened r0 => exact ⟨fun _ => Nat.le_refl 0, fun _ => openedState_answered_bundleInv s r0⟩
  | closed => exact ⟨fun _ => Nat.le_refl 0, fun _ => (coreReset_bundleInv s).answered 0 0 0⟩
  | sought | audioRead | reported | started => exact ⟨id, fun h => ⟨h.1, fun hp => nomatch hp⟩⟩
  | cutOff f c _ _ =>
    have hstart : KeepsCursors s (s.frameStarted f) := ⟨id, id⟩
    exact frameSteps_keepsCursors.trans _ _ _ hstart (takeError_keepsCursors c _)

theorem step_keepsCursors {s t : State} (h : step s = .next t) : KeepsCursors s t := by
  by_cases hs : Idle s
  · cases idle_step_inv hs h with
    | command v ms _ hc => exact hc.keepsCursors
    | held | wroteArg0 | wroteArg1 | ignored | read | placed => exact ⟨id, id⟩
  · have hopen : ∀ u x, x.pos = 0 → KeepsCursors u (u.setBr x) := fun u x hx =>
      ⟨fun _ => by rw [ReaderInv, State.bitPos, State.setBr_br, hx]; exact Nat.zero_le _, id⟩
    have hend : KeepsCursors s s.afterFrame := ⟨id, fun h => ⟨h.1, fun hp => nomatch hp⟩⟩
    obtain hkept | ⟨c, u, hkept, rfl⟩ := frame_step_inv frameSteps_keepsCursors hs (fun _ => hopen) (fun _ => hend) h
    · exact hkept
    · exact frameSteps_keepsCursors.trans _ _ _ hkept (takeError_keepsCursors c u)

/-- Settles O56: each update of a frame and each command keeps the cursors in order; the two faults are the checks of `GetBits`
and `GetValue`. -/
theorem stepKeepsCursors : Obligations.StepKeepsCursors :=
  ⟨fun _ _ h => step_keepsCursors h, fun _ _ h1 h2 h3 => getBits_of_underrun h1 h2 h3,
    fun _ _ h => getValue_of_empty (Nat.le_of_eq h.symm),
    fun s => ⟨takeError_decodeError s rfl, takeError_decodeError s rfl⟩⟩

end Sys2Proof.Machine
end

/-! # A host move as one step -/

section
namespace Sys2Proof.Machine

/-! ## Register accesses (R60, R155) -/

theorem regOffset_of_aligned {a : Nat} (s : State) (ha : a < 256) (h4 : a % 4 = 0) : regOffset a s = .ok () s := by
  rw [regOffset, if_neg (by omega)]
  exact demand_of_true _ s (by simp [h4])

theorem hostMove_regWrite_cmd {v : Word} {i : Instr} (s : State) (hd : decode .cmd v.toNat = .ok i) :
    hostMove (.regWrite 0 v) s = .ok (some i) s := by
  rw [hostMove, bind_of_ok (regOffset_of_aligned s (by decide) rfl), if_pos rfl, fetched_of_decode s hd]

theorem hostMove_regWrite_ne_cmd {a : Nat} (v : Word) (s : State) (ha : a < 256) (h4 : a % 4 = 0) (h0 : a ≠ 0) :
    hostMove (.regWrite a v) s = .ok (decoded? (decode .regWrite (a + 2 ^ 8 * v.toNat))) s := by
  rw [hostMove, bind_of_ok (regOffset_of_aligned s ha h4), if_neg h0]
  rfl

/-- The header of a register write: 40 bits, its offset in the low byte and its value above. -/
theorem fields_of_regWrite {a : Nat} (ha : a < 256) (v : Word) :
    ¬ 2 ^ 40 ≤ a + 2 ^ 8 * v.toNat ∧ field (a + 2 ^ 8 * v.toNat) 7 0 = a ∧ field (a + 2 ^ 8 * v.toNat) 39 8 = v.toNat := by
  have hv : v.toNat < 2 ^ 32 := v.isLt
  refine ⟨by omega, ?_, ?_⟩ <;> simp only [field] <;> omega

theorem decode_regWrite_arg0 (v : Word) : decode .regWrite (4 + 2 ^ 8 * v.toNat) = .ok (.wrArg0 v) := by
  obtain ⟨hbits, hoffset, hvalue⟩ := fields_of_regWrite (a := 4) (by decide) v
  rw [decode, decodeRegWrite, if_neg hbits, hoffset, hvalue, BitVec.ofNat_toNat, BitVec.setWidth_eq]
  rfl

theorem decode_regWrite_arg1 (v : Word) : decode .regWrite (8 + 2 ^ 8 * v.toNat) = .ok (.wrArg1 v) := by
  obtain ⟨hbits, hoffset, hvalue⟩ := fields_of_regWrite (a := 8) (by decide) v
  rw [decode, decodeRegWrite, if_neg hbits, hoffset, hvalue, BitVec.ofNat_toNat, BitVec.setWidth_eq]
  rfl

theorem hostMove_regWrite_mapped {a : Nat} {v : Word} {i : Instr} (s : State) (ha : a < 256)
    (hd : decode .regWrite (a + 2 ^ 8 * v.toNat) = .ok i) : hostMove (.regWrite a v) s = .ok (some i) s := by
  have hargs : a = 4 ∨ a = 8 := (decodeRegWrite_inv ha hd).imp And.left And.left
  rw [hostMove_regWrite_ne_cmd v s ha (by omega) (by omega), hd, decoded?]

/-- No register above ARG1 takes a write. -/
theorem decoded?_regWrite_above {a : Nat} (ha : a < 256) (h12 : 12 ≤ a) (v : Word) :
    decoded? (decode .regWrite (a + 2 ^ 8 * v.toNat)) = none := by
  cases hd : decode .regWrite (a + 2 ^ 8 * v.toNat) with
  | error e => rfl
  | ok i => obtain ⟨rfl, -⟩ | ⟨rfl, -⟩ := decodeRegWrite_inv ha hd <;> omega

/-- The registers that can be read are the words up to 0x48 (R60). -/
theorem decode_regRead_inv {a : Nat} {i : Instr} (hd : decode .regRead a = .ok i) : a ≤ 0x48 ∧ a % 4 = 0 := by
  simp only [decode, decodeRegRead] at hd
  split at hd <;> cases hd <;> decide

theorem decoded?_regRead_above {a : Nat} (h : 0x4C ≤ a) : decoded? (decode .regRead a) = none := by
  cases hd : decode .regRead a with
  | error e => rfl
  | ok i =>
    have hle := (decode_regRead_inv hd).1
    omega

theorem hostMove_regRead_mapped {a : Nat} {i : Instr} (s : State) (hd : decode .regRead a = .ok i) :
    hostMove (.regRead a) s = .ok (some i) s := by
  obtain ⟨hle, h4⟩ := decode_regRead_inv hd
  rw [hostMove, bind_of_ok (regOffset_of_aligned s (by omega) h4), hd]
  rfl

theorem hostMove_regRead_unmapped {a : Nat} (s : State) (ha : a < 256) (h4 : a % 4 = 0) (h : 0x4C ≤ a) :
    hostMove (.regRead a) s = .ok none (s.setReadData (some 0)) := by
  rw [hostMove, bind_of_ok (regOffset_of_aligned s ha h4), decoded?_regRead_above h]
  rfl

section
variable {s : State} {ms : List HostMove}

theorem step_of_no_moves (hs : Idle s) (hm : s.hostMoves = []) : step s = .next s := by
  rw [step_of_idle hs, idleStep, bind_of_ok (get_apply s), hm]
  rfl

/-- A move that fetches an instruction runs it, the move taken off the list. -/
theorem step_of_move_fetched {m : HostMove} {i : Instr} (hs : Idle s) (hm : s.hostMoves = m :: ms)
    (h : hostMove m (s.setHostMoves ms) = .ok (some i) (s.setHostMoves ms)) : step s = exec i (s.setHostMoves ms) := by
  rw [step_of_move hs hm, h, finish]

/-- A move that the sequencer answers alone. -/
theorem step_of_move_answered {m : HostMove} {t : State} (hs : Idle s) (hm : s.hostMoves = m :: ms)
    (h : hostMove m (s.setHostMoves ms) = .ok none t) : step s = .next t := by
  rw [step_of_move hs hm, h, finish]

theorem step_of_ignoredWrite {a : Nat} {v : Word} (hs : Idle s) (hm : s.hostMoves = .regWrite a v :: ms) (ha : a < 256)
    (h4 : a % 4 = 0) (h12 : 12 ≤ a) : step s = .next (s.setHostMoves ms) :=
  step_of_move_answered hs hm (by rw [hostMove_regWrite_ne_cmd v _ ha h4 (by omega), decoded?_regWrite_above ha h12])

/-! ## CONTAINER and the planes (R151, R154, R156) -/

theorem step_of_containerWrite {a : Nat} {v : Byte} (hs : Idle s) (hm : s.hostMoves = .containerWrite a v :: ms) :
    step s = if 2 ^ 32 ≤ a then .fault .addressOutsideSpace
      else if s.regs.isOpen then .refused .containerWriteWhileOpen
      else .next ((s.setHostMoves ms).setContainer (Memory.setByte s.container a v)) := by
  rw [step_of_move hs hm, hostMove]
  by_cases ha : 2 ^ 32 ≤ a
  · rw [if_pos ha, if_pos ha]
    rfl
  · rw [if_neg ha, if_neg ha]
    simp only [bind_of_ok (get_apply (s.setHostMoves ms)), State.setHostMoves_regs]
    cases s.regs.isOpen <;> rfl

theorem step_of_planeRead_absent {p : PlaneId} {a : Nat} (hs : Idle s) (hm : s.hostMoves = .planeRead p a :: ms)
    (hp : s.plane p = none) : step s = .fault .addressOutsideSpace := by
  rw [step_of_move hs hm, hostMove, bind_of_ok (get_apply _), show (s.setHostMoves ms).plane p = none from hp]
  rfl

theorem step_of_planeRead_present {p : PlaneId} {a : Nat} {x : Plane} (hs : Idle s) (hm : s.hostMoves = .planeRead p a :: ms)
    (hp : s.plane p = some x) :
    step s = if a < x.pitch * x.rows then
        .next ((s.setHostMoves ms).setReadData ((Cells.get x.last a).map (BitVec.setWidth 32)))
      else .fault .addressOutsideSpace := by
  rw [step_of_move hs hm, hostMove, bind_of_ok (get_apply _), show (s.setHostMoves ms).plane p = some x from hp]
  by_cases ha : a < x.pitch * x.rows
  · simp only [Plane.inRange, ha, decide_true, if_true]
    rfl
  · simp only [Plane.inRange, ha, decide_false, if_false]
    rfl

end

/-- Settles O51: each move decodes to its instruction, or is answered by the sequencer alone. -/
theorem stepRunsHostMove : Obligations.StepRunsHostMove := by
  intro s hs
  refine ⟨step_of_no_moves hs, fun v ms i hm hd => step_of_move_fetched hs hm (hostMove_regWrite_cmd _ hd),
    fun v ms hm => step_of_move_fetched hs hm (hostMove_regWrite_mapped _ (by decide) (decode_regWrite_arg0 v)),
    fun v ms hm => step_of_move_fetched hs hm (hostMove_regWrite_mapped _ (by decide) (decode_regWrite_arg1 v)),
    fun a v ms => step_of_ignoredWrite hs,
    fun a ms i hm hd => step_of_move_fetched hs hm (hostMove_regRead_mapped _ hd),
    fun a ms hm h4C ha h4 => step_of_move_answered hs hm (hostMove_regRead_unmapped _ ha h4 h4C),
    fun a v ms => step_of_containerWrite hs, fun p a ms hm => ?_⟩
  cases hp : s.plane p with
  | none => exact step_of_planeRead_absent hs hm hp
  | some x => exact step_of_planeRead_present hs hm hp

end Sys2Proof.Machine
end

/-! # CONTAINER and the planes keep their form -/

section
namespace Sys2Proof

variable {α : Type}

/-! ## Sparse arrays -/

theorem Cells.below_iff {m : Cells α} {n : Nat} : Cells.below m n = true ↔ ∀ c ∈ m, c.1 < n := by
  simp [Cells.below]

theorem Cells.below_set {m : Cells α} {n i : Nat} (v : α) (hi : i < n) (h : Cells.below m n = true) :
    Cells.below (Cells.set m i v) n = true := by
  rw [Cells.below_iff] at h ⊢
  intro c hc
  obtain rfl | hc := Cells.mem_set hc
  · exact hi
  · exact h c hc

/-- Filling the indices of a rising list gives a canonical array. -/
theorem Cells.sorted_map_of_pairwise {l : List Nat} (v : α) (h : l.Pairwise (· < ·)) :
    Cells.sorted (l.map fun i => (i, v)) = true := by
  induction l with
  | nil => rfl
  | cons i l ih =>
    obtain ⟨hlt, hl⟩ := List.pairwise_cons.mp h
    refine Cells.sorted_cons.mpr ⟨fun c hc => ?_, ih hl⟩
    obtain ⟨j, hj, rfl⟩ := List.mem_map.mp hc
    exact hlt j hj

end Sys2Proof

namespace Sys2Proof.Machine

/-! ## Planes -/

/-- The pixels of one plane lie inside its buffers, in canonical form: what `PlaneInv` asks of each plane. -/
def Plane.Canonical (x : Plane) : Prop :=
  Cells.sorted x.cur = true ∧ Cells.below x.cur (x.pitch * x.rows) = true
    ∧ Cells.sorted x.last = true ∧ Cells.below x.last (x.pitch * x.rows) = true

theorem planeInv_iff {s : State} : PlaneInv s ↔ ∀ p x, s.plane p = some x → x.Canonical := Iff.rfl

theorem Plane.Canonical.writeCur {x : Plane} (h : x.Canonical) {a : Nat} (v : Byte) (ha : x.inRange a = true) :
    Plane.Canonical { x with cur := Cells.set x.cur a v } := by
  obtain ⟨hcur, hin, hlast⟩ := h
  exact ⟨Cells.sorted_set a v hcur, Cells.below_set v (of_decide_eq_true ha) hin, hlast⟩

theorem Plane.Canonical.swap {x : Plane} (h : x.Canonical) : x.swap.Canonical := by
  obtain ⟨hcur, hcurIn, hlast, hlastIn⟩ := h
  exact ⟨hlast, hlastIn, hcur, hcurIn⟩

theorem Plane.Canonical.dropUndecoded {x : Plane} (h : x.Canonical) (done : List PlaneId) (p : PlaneId) :
    (dropUndecoded done p x).Canonical := by
  obtain ⟨hcur, hin, hlast⟩ := h
  rw [Machine.dropUndecoded]
  split
  · exact ⟨hcur, hin, hlast⟩
  · exact ⟨rfl, rfl, hlast⟩

/-- A new buffer is empty, or filled from end to end (P33, R631). -/
theorem newPixels_canonical (r : PlaneReset) (n : Nat) :
    Cells.sorted (newPixels r n) = true ∧ Cells.below (newPixels r n) n = true := by
  cases r with
  | poison => exact ⟨rfl, rfl⟩
  | fill v => exact ⟨Cells.sorted_map_of_pairwise v List.pairwise_lt_range, Cells.below_iff.mpr (by simp [newPixels])⟩

theorem newPlane_canonical (r : PlaneReset) (w h bw bh : Nat) : (newPlane r w h bw bh).Canonical := by
  obtain ⟨hsorted, hin⟩ := newPixels_canonical r ((newPlane r w h bw bh).pitch * (newPlane r w h bw bh).rows)
  exact ⟨hsorted, hin, hsorted, hin⟩

theorem newPlanes_canonical {r : PlaneReset} {w h : Nat} {alpha : Bool} {p : PlaneId} {x : Plane}
    (hx : (newPlanes r w h alpha).get p = some x) : x.Canonical := by
  cases p
  case y | u | v => cases hx; exact newPlane_canonical _ _ _ _ _
  case a =>
    cases alpha <;> cases hx
    exact newPlane_canonical _ _ _ _ _

theorem PlaneInv.setPlane {s : State} {p : PlaneId} {x : Plane} (h : PlaneInv s) (hx : x.Canonical) :
    PlaneInv (s.setPlane p x) := by
  refine planeInv_iff.mpr fun q y hy => ?_
  by_cases hq : q = p
  · rw [hq, State.plane_setPlane_same] at hy
    cases hy
    exact hx
  · rw [State.plane_setPlane_other s x hq] at hy
    exact h q y hy

/-! ## Inside a frame -/

/-- Of a frame's updates only a pixel write touches a plane, and it lies inside the buffer (R158). -/
theorem frameSteps_planeInv : FrameSteps fun s t => PlaneInv s → PlaneInv t where
  refl _ := id
  trans _ _ _ h h' := h' ∘ h
  pos _ _ _ := id
  colLast _ _ := id
  align _ := id
  bundle _ _ _ _ := id
  colHigh _ _ := id
  pixel _ _ _ _ v hx ha h := h.setPlane ((planeInv_iff.mp h _ _ hx).writeCur v ha)
  coef _ _ := id
  dct _ _ := id
  track _ _ _ := id
  trunc _ _ := id
  ctl _ _ _ := id

theorem PlaneInv.afterFrame {s : State} (h : PlaneInv s) : PlaneInv s.afterFrame := by
  refine planeInv_iff.mpr fun p x hx => ?_
  have hmap : (s.plane p).map (fun x => (dropUndecoded s.ctl.decoded p x).swap) = some x := (Planes.get_map _ _ p).symm.trans hx
  obtain ⟨y, hy, rfl⟩ := Option.map_eq_some_iff.mp hmap
  exact ((planeInv_iff.mp h p y hy).dropUndecoded _ p).swap

/-! ## Commands -/

theorem coreReset_planeInv (s : State) : PlaneInv s.coreReset := planeInv_of_reset rfl

theorem openedState_planeInv (s : State) : PlaneInv (openedState s) := fun _ _ => newPlanes_canonical

theorem PlaneInv.takeError {s : State} (h : PlaneInv s) (c : Cause) : PlaneInv (takeError c s) := by
  cases hk : causeKind c with
  | openError => rw [takeError_openError s hk]; exact coreReset_planeInv s
  | decodeError => rw [takeError_decodeError s hk]; exact h
  | commandError => rw [takeError_commandError s hk]; exact h

theorem CommandEnd.planeInv {s t : State} (hc : CommandEnd s t) (h : PlaneInv s) : PlaneInv t := by
  cases hc with
  | failed c => exact h.takeError c
  | opened => exact openedState_planeInv s
  | closed => exact coreReset_planeInv s
  | sought | audioRead | reported | started => exact h
  | cutOff f c =>
    have hstart : PlaneInv (s.frameStarted f) := h
    exact hstart.takeError c

/-! ## Every step -/

theorem step_planeInv {s t : State} (hstep : step s = .next t) (h : PlaneInv s) : PlaneInv t := by
  by_cases hs : Idle s
  · cases idle_step_inv hs hstep with
    | command v ms _ hc => exact hc.planeInv h
    | held | wroteArg0 | wroteArg1 | ignored | read | placed => exact h
  · obtain hkept | ⟨c, u, hkept, rfl⟩ :=
      frame_step_inv frameSteps_planeInv hs (fun _ _ _ _ => id) (fun _ => PlaneInv.afterFrame) hstep
    · exact hkept h
    · exact (hkept h).takeError c

/-- A byte that the host places lies inside the address space (R151). -/
theorem containerWrite_lt {s t : State} {a : Nat} {v : Byte} {ms : List HostMove} (hs : Idle s)
    (hm : s.hostMoves = .containerWrite a v :: ms) (hstep : step s = .next t) : a < 2 ^ 32 := by
  by_contra ha
  rw [step_of_containerWrite hs hm, if_pos (Nat.not_lt.mp ha)] at hstep
  cases hstep

theorem step_wf_container {s t : State} (hstep : step s = .next t) (h : Memory.wf s.container = true) :
    Memory.wf t.container = true := by
  obtain ⟨hsame | ⟨hs, -, a, v, ms, hm, hplaced⟩, -⟩ := hostOwnsItsState s t hstep
  · rwa [hsame]
  · rw [hplaced]
    exact Memory.wf_setByte v (containerWrite_lt hs hm hstep) h

/-- Settles O55: CONTAINER changes only where the host places a byte below 2^32; a plane changes only by a pixel write inside its
buffer, the swap, OPEN and a reset. -/
theorem stepKeepsMemory : Obligations.StepKeepsMemory := fun _ _ hstep => ⟨step_wf_container hstep, step_planeInv hstep⟩

end Sys2Proof.Machine
end

/-! # Headers and their instructions

Encoding and decoding undo each other in each of the nine code spaces (R210 to R260, R60). In the four spaces that are lists of
codes a row answers for itself; in the others a header is a sum of fields, and the fields are read back from the sum. -/

section
namespace Sys2Proof.Machine

variable {i : Instr} {n w : Nat}

/-! ## The spaces that are lists of codes: BT4, ST4, BTSYM, REG_READ -/

theorem decodeBt4_of_encode (h : encodeBt4 i = some (n, w)) : w < 2 ^ n ∧ decodeBt4 w = .ok i := by
  unfold encodeBt4 at h
  split at h <;> cases h <;> exact ⟨by decide, rfl⟩

theorem encodeBt4_of_decode (h : decodeBt4 w = .ok i) : i.wellFormed = true ∧ encodeBt4 i = some (4, w) := by
  unfold decodeBt4 at h
  split at h <;> cases h <;> exact ⟨rfl, rfl⟩

theorem decodeSt4_of_encode (h : encodeSt4 i = some (n, w)) : w < 2 ^ n ∧ decodeSt4 w = .ok i := by
  unfold encodeSt4 at h
  split at h <;> cases h <;> exact ⟨by decide, rfl⟩

theorem encodeSt4_of_decode (h : decodeSt4 w = .ok i) : i.wellFormed = true ∧ encodeSt4 i = some (4, w) := by
  unfold decodeSt4 at h
  split at h <;> cases h <;> exact ⟨rfl, rfl⟩

theorem decodeBtsym_of_encode (h : encodeBtsym i = some (n, w)) : w < 2 ^ n ∧ decodeBtsym w = .ok i := by
  unfold encodeBtsym at h
  split at h <;> cases h <;> exact ⟨by decide, rfl⟩

theorem encodeBtsym_of_decode (h : decodeBtsym w = .ok i) : i.wellFormed = true ∧ encodeBtsym i = some (4, w) := by
  unfold decodeBtsym at h
  split at h <;> cases h <;> exact ⟨rfl, rfl⟩

theorem decodeRegRead_of_encode (h : encodeRegRead i = some (n, w)) : w < 2 ^ n ∧ decodeRegRead w = .ok i := by
  unfold encodeRegRead at h
  split at h <;> cases h <;> exact ⟨by decide, rfl⟩

theorem encodeRegRead_of_decode (h : decodeRegRead w = .ok i) : i.wellFormed = true ∧ encodeRegRead i = some (8, w) := by
  unfold decodeRegRead at h
  split at h <;> cases h <;> exact ⟨rfl, rfl⟩

/-! ## Fields of a word (R210) -/

/-- The low bits of a word are its lowest field. -/
theorem field_zero (w hi : Nat) : field w hi 0 = w % 2 ^ (hi + 1) := by rw [field, Nat.pow_zero, Nat.div_one, Nat.sub_zero]

/-- A number whose low bits are those of a bit vector gives the vector. -/
theorem ofNat_eq_of_mod_eq {k a : Nat} {x : BitVec k} (h : a % 2 ^ k = x.toNat) : BitVec.ofNat k a = x :=
  BitVec.eq_of_toNat_eq (by rw [BitVec.toNat_ofNat, h])

/-! ## Trees (R220) -/

theorem decodeTree_list {shape : BitVec 4} (count : BitVec 3) (h0 : shape.toNat ≠ 0) :
    decodeTree (shape.toNat + 2 ^ 4 + 2 ^ 5 * count.toNat) = .ok (.treeList shape count) := by
  have hs : shape.toNat < 2 ^ 4 := shape.isLt
  have hc : count.toNat < 2 ^ 3 := count.isLt
  have hcount : field (shape.toNat + 2 ^ 4 + 2 ^ 5 * count.toNat) 7 5 = count.toNat := by simp only [field]; omega
  rw [decodeTree, if_neg (by simp only [field]; omega), if_pos (by simp only [field]; omega), if_pos (by omega), hcount,
    ofNat_eq_of_mod_eq (x := shape) (by omega), ofNat_eq_of_mod_eq (x := count) (by omega)]

theorem decodeTree_merge {shape : BitVec 4} (k : BitVec 2) (h0 : shape.toNat ≠ 0) :
    decodeTree (shape.toNat + 2 ^ 5 * k.toNat) = .ok (.treeMerge shape k) := by
  have hs : shape.toNat < 2 ^ 4 := shape.isLt
  have hk : k.toNat < 2 ^ 2 := k.isLt
  have hfield : field (shape.toNat + 2 ^ 5 * k.toNat) 6 5 = k.toNat := by simp only [field]; omega
  rw [decodeTree, if_neg (by simp only [field]; omega), if_neg (by simp only [field]; omega), if_pos (by omega), hfield,
    ofNat_eq_of_mod_eq (x := shape) (by omega), ofNat_eq_of_mod_eq (x := k) (by omega)]

theorem wellFormed_treeList {shape : BitVec 4} {count : BitVec 3} :
    (Instr.treeList shape count).wellFormed = true ↔ shape.toNat ≠ 0 := by
  simp [Instr.wellFormed, Instr.refillCount, Instr.formShape, ← BitVec.toNat_inj]

theorem wellFormed_treeMerge {shape : BitVec 4} {k : BitVec 2} :
    (Instr.treeMerge shape k).wellFormed = true ↔ shape.toNat ≠ 0 := by
  simp [Instr.wellFormed, Instr.refillCount, Instr.formShape, ← BitVec.toNat_inj]

theorem decodeTree_of_encode (hwf : i.wellFormed = true) (h : encodeTree i = some (n, w)) :
    w < 2 ^ n ∧ decodeTree w = .ok i := by
  unfold encodeTree at h
  split at h <;> cases h
  case h_1 => exact ⟨by decide, rfl⟩
  case h_2 shape count =>
    have hs : shape.toNat < 2 ^ 4 := shape.isLt
    have hc : count.toNat < 2 ^ 3 := count.isLt
    exact ⟨by omega, decodeTree_list count (wellFormed_treeList.mp hwf)⟩
  case h_3 shape k =>
    have hs : shape.toNat < 2 ^ 4 := shape.isLt
    have hk : k.toNat < 2 ^ 2 := k.isLt
    exact ⟨by omega, decodeTree_merge k (wellFormed_treeMerge.mp hwf)⟩

theorem encodeTree_of_decode (h : decodeTree w = .ok i) : i.wellFormed = true ∧ ∃ n, encodeTree i = some (n, w) := by
  have hshape : (BitVec.ofNat 4 w).toNat = field w 3 0 := by rw [field_zero, BitVec.toNat_ofNat]
  unfold decodeTree at h
  split at h
  next h0 =>
    split at h <;> cases h
    next hlt =>
      obtain rfl : w = 0 := by rw [field_zero] at h0; omega
      exact ⟨rfl, 4, rfl⟩
  next h0 =>
    split at h
    next h1 =>
      split at h <;> cases h
      refine ⟨wellFormed_treeList.mpr (by rwa [hshape]), 8, ?_⟩
      simp only [field] at h1
      simp only [encodeTree, field, BitVec.toNat_ofNat, Option.some.injEq, Prod.mk.injEq, true_and]
      omega
    next h1 =>
      split at h <;> cases h
      refine ⟨wellFormed_treeMerge.mpr (by rwa [hshape]), 7, ?_⟩
      simp only [field] at h1
      simp only [encodeTree, field, BitVec.toNat_ofNat, Option.some.injEq, Prod.mk.injEq, true_and]
      omega

/-! ## Refills (R222) -/

section
variable (b : BundleId) (t : BitVec 32)

@[simp] theorem refillCount_refillCoded : (refillCoded b t).refillCount = some t := by cases b <;> rfl
@[simp] theorem refillCount_refillConst : (refillConst b t).refillCount = some t := by cases b <;> rfl
@[simp] theorem formShape_refillCoded : (refillCoded b t).formShape = none := by cases b <;> rfl
@[simp] theorem formShape_refillConst : (refillConst b t).formShape = none := by cases b <;> rfl

@[simp] theorem refillForm_refillCoded :
    refillForm (refillCoded b t) = some (b, if hasEscape b then some false else none) := by cases b <;> rfl

@[simp] theorem refillForm_refillConst :
    refillForm (refillConst b t) = some (b, if hasEscape b then some true else none) := by cases b <;> rfl

theorem refillCoded_ne_refillDone : refillCoded b t ≠ .refillDone := by cases b <;> exact nofun
theorem refillConst_ne_refillDone : refillConst b t ≠ .refillDone := by cases b <;> exact nofun

end

/-- The headers of bundle `b` with a length field of `len` bits: each instruction with the number of its header's bits and its
word. The escape bit stands above the count (R222). -/
inductive RefillHeader (b : BundleId) (len : Nat) : Instr → Nat → Nat → Prop
  | done : RefillHeader b len .refillDone len 0
  | coded (t : BitVec 32) (hesc : hasEscape b = true) (ht : t.toNat < 2 ^ len) :
      RefillHeader b len (refillCoded b t) (len + 1) t.toNat
  | const (t : BitVec 32) (hesc : hasEscape b = true) (ht : t.toNat < 2 ^ len) :
      RefillHeader b len (refillConst b t) (len + 1) (t.toNat + 2 ^ len)
  | dc (t : BitVec 32) (hesc : hasEscape b = false) (ht : t.toNat < 2 ^ len) :
      RefillHeader b len (refillCoded b t) len t.toNat

/-- A refill form that carries a count is one of its bundle's two. -/
theorem refillForm_inv {b : BundleId} {esc : Option Bool} {t : BitVec 32} (hf : refillForm i = some (b, esc))
    (ht : i.refillCount = some t) :
    (hasEscape b = true ∧ esc = some false ∧ i = refillCoded b t)
      ∨ (hasEscape b = true ∧ esc = some true ∧ i = refillConst b t)
      ∨ (hasEscape b = false ∧ esc = none ∧ i = refillCoded b t) := by
  unfold refillForm at hf
  split at hf <;> cases hf <;> cases ht <;> simp [hasEscape, refillCoded, refillConst]

theorem encodeRefill_of_header {b : BundleId} {len : Nat} (h1 : 1 ≤ len) (h32 : len ≤ 32) (h : RefillHeader b len i n w) :
    encodeRefill b len i = some (n, w) := by
  have hlen : ¬ (len = 0 ∨ 32 < len) := by omega
  rw [encodeRefill, if_neg hlen]
  cases h with
  | done => rw [if_pos rfl]
  | coded t hesc ht => simp [refillCoded_ne_refillDone, hesc, ht]
  | const t hesc ht => simp [refillConst_ne_refillDone, hesc, ht]
  | dc t hesc ht => simp [refillCoded_ne_refillDone, hesc, ht]

theorem header_of_encodeRefill {b : BundleId} {len : Nat} (h : encodeRefill b len i = some (n, w)) :
    1 ≤ len ∧ len ≤ 32 ∧ RefillHeader b len i n w := by
  unfold encodeRefill at h
  split at h
  next => cases h
  next hlen =>
    refine ⟨by omega, by omega, ?_⟩
    split at h
    next hdone => cases h; rw [hdone]; exact .done
    next =>
      split at h
      next b' esc t hf ht =>
        split at h
        next => cases h
        next hfits =>
          obtain ⟨rfl, hlt⟩ : b' = b ∧ t.toNat < 2 ^ len := by simpa using hfits
          obtain ⟨hesc, rfl, rfl⟩ | ⟨hesc, rfl, rfl⟩ | ⟨hesc, rfl, rfl⟩ := refillForm_inv hf ht <;> rw [hesc] at h <;> cases h
          · exact .coded t hesc hlt
          · exact .const t hesc hlt
          · exact .dc t hesc hlt
      next => cases h

theorem wellFormed_refillCoded {b : BundleId} {t : BitVec 32} : (refillCoded b t).wellFormed = true ↔ t.toNat ≠ 0 := by
  simp [Instr.wellFormed, ← BitVec.toNat_inj]

theorem wellFormed_refillConst {b : BundleId} {t : BitVec 32} : (refillConst b t).wellFormed = true ↔ t.toNat ≠ 0 := by
  simp [Instr.wellFormed, ← BitVec.toNat_inj]

theorem RefillHeader.lt {b : BundleId} {len : Nat} (h : RefillHeader b len i n w) : w < 2 ^ n := by
  cases h with
  | done => positivity
  | coded t _ ht | const t _ ht => rw [Nat.pow_succ]; omega
  | dc t _ ht => exact ht

theorem decodeRefill_of_header {b : BundleId} {len : Nat} (h1 : 1 ≤ len) (h32 : len ≤ 32) (hwf : i.wellFormed = true)
    (h : RefillHeader b len i n w) : decodeRefill b len w = .ok i := by
  rw [decodeRefill, if_neg (by omega)]
  cases h with
  | done => simp
  | coded t hesc ht =>
    rw [Nat.mod_eq_of_lt ht, if_neg (wellFormed_refillCoded.mp hwf), if_pos hesc, if_pos (Nat.div_eq_of_lt ht)]
    simp
  | const t hesc ht =>
    have hdiv : (t.toNat + 2 ^ len) / 2 ^ len = 1 := by
      rw [Nat.add_div_right _ (by positivity), Nat.div_eq_of_lt ht]
    rw [Nat.add_mod_right, Nat.mod_eq_of_lt ht, if_neg (wellFormed_refillConst.mp hwf), if_pos hesc, hdiv]
    simp
  | dc t hesc ht =>
    rw [Nat.mod_eq_of_lt ht, if_neg (wellFormed_refillCoded.mp hwf), if_neg (by simp [hesc]), if_pos ht]
    simp

theorem header_of_decodeRefill {b : BundleId} {len : Nat} (h : decodeRefill b len w = .ok i) :
    1 ≤ len ∧ len ≤ 32 ∧ i.wellFormed = true ∧ ∃ n, RefillHeader b len i n w := by
  unfold decodeRefill at h
  split at h
  next => cases h
  next hlen =>
    have hmod : w % 2 ^ len < 2 ^ len := Nat.mod_lt _ (by positivity)
    have hword : (BitVec.ofNat 32 (w % 2 ^ len)).toNat = w % 2 ^ len := by
      rw [BitVec.toNat_ofNat, Nat.mod_eq_of_lt (Nat.lt_of_lt_of_le hmod (Nat.pow_le_pow_right (by decide) (by omega)))]
    have hsplit := Nat.mod_add_div w (2 ^ len)
    refine ⟨by omega, by omega, ?_⟩
    split at h
    next => split at h <;> cases h; next hw => exact ⟨rfl, len, hw ▸ .done⟩
    next hne =>
      split at h
      next hesc =>
        split at h
        next hdiv =>
          cases h
          have hw : (BitVec.ofNat 32 (w % 2 ^ len)).toNat = w := by rw [hword]; simpa [hdiv] using hsplit
          refine ⟨wellFormed_refillCoded.mpr (by rwa [hword]), len + 1, ?_⟩
          simpa only [hw] using RefillHeader.coded (BitVec.ofNat 32 (w % 2 ^ len)) hesc (by rwa [hword])
        next =>
          split at h <;> cases h
          next hdiv =>
            have hw : (BitVec.ofNat 32 (w % 2 ^ len)).toNat + 2 ^ len = w := by rw [hword]; simpa [hdiv] using hsplit
            refine ⟨wellFormed_refillConst.mpr (by rwa [hword]), len + 1, ?_⟩
            have hconst := RefillHeader.const (b := b) (BitVec.ofNat 32 (w % 2 ^ len)) hesc (by rwa [hword])
            rwa [hw] at hconst
      next hesc =>
        split at h <;> cases h
        next hlt =>
          rw [Nat.mod_eq_of_lt hlt] at hword hne
          refine ⟨wellFormed_refillCoded.mpr (by rwa [hword]), len, ?_⟩
          simpa only [hword] using RefillHeader.dc (BitVec.ofNat 32 w) (Bool.eq_false_iff.mpr hesc) (by rwa [hword])

theorem decodeRefill_of_encode {b : BundleId} {len : Nat} (hwf : i.wellFormed = true) (h : encodeRefill b len i = some (n, w)) :
    w < 2 ^ n ∧ decodeRefill b len w = .ok i := by
  obtain ⟨h1, h32, hheader⟩ := header_of_encodeRefill h
  exact ⟨hheader.lt, decodeRefill_of_header h1 h32 hwf hheader⟩

theorem encodeRefill_of_decode {b : BundleId} {len : Nat} (h : decodeRefill b len w = .ok i) :
    i.wellFormed = true ∧ ∃ n, encodeRefill b len i = some (n, w) := by
  obtain ⟨h1, h32, hwf, n, hheader⟩ := header_of_decodeRefill h
  exact ⟨hwf, n, encodeRefill_of_header h1 h32 hheader⟩

/-! ## Audio runs (R230) -/

theorem decodeAudioRun_of_encode (h : encodeAudioRun i = some (n, w)) : w < 2 ^ n ∧ decodeAudioRun w = .ok i := by
  unfold encodeAudioRun at h
  split at h <;> cases h
  case h_1 width =>
    have hwidth : width.toNat < 2 ^ 4 := width.isLt
    have hfield : field (2 * width.toNat) 4 1 = width.toNat := by simp only [field]; omega
    refine ⟨by omega, ?_⟩
    rw [decodeAudioRun, if_pos (by simp only [field]; omega), if_pos (by omega), hfield, BitVec.ofNat_toNat, BitVec.setWidth_eq]
  case h_2 idx width =>
    have hidx : idx.toNat < 2 ^ 4 := idx.isLt
    have hwidth : width.toNat < 2 ^ 4 := width.isLt
    have hfield : field (1 + 2 * idx.toNat + 2 ^ 5 * width.toNat) 4 1 = idx.toNat
        ∧ field (1 + 2 * idx.toNat + 2 ^ 5 * width.toNat) 8 5 = width.toNat := by simp only [field]; omega
    refine ⟨by omega, ?_⟩
    rw [decodeAudioRun, if_neg (by simp only [field]; omega), if_pos (by omega), hfield.1, hfield.2, BitVec.ofNat_toNat,
      BitVec.setWidth_eq, BitVec.ofNat_toNat, BitVec.setWidth_eq]

theorem encodeAudioRun_of_decode (h : decodeAudioRun w = .ok i) :
    i.wellFormed = true ∧ ∃ n, encodeAudioRun i = some (n, w) := by
  unfold decodeAudioRun at h
  split at h
  next h0 =>
    split at h <;> cases h
    refine ⟨rfl, 5, ?_⟩
    simp only [field] at h0
    simp only [encodeAudioRun, field, BitVec.toNat_ofNat, Option.some.injEq, Prod.mk.injEq, true_and]
    omega
  next h0 =>
    split at h <;> cases h
    refine ⟨rfl, 9, ?_⟩
    simp only [field] at h0
    simp only [encodeAudioRun, field, BitVec.toNat_ofNat, Option.some.injEq, Prod.mk.injEq, true_and]
    omega

/-! ## Commands (R260, R652) -/

/-- The instruction of an OP from 8 on: the range it lies in, with the bits below the range's leading one (R652). -/
def illegalCmd (op : Nat) : Instr :=
  if op < 0x10 then .cmdIllegal08 (.ofNat 3 op)
  else if op < 0x20 then .cmdIllegal10 (.ofNat 4 op)
  else if op < 0x40 then .cmdIllegal20 (.ofNat 5 op)
  else if op < 0x80 then .cmdIllegal40 (.ofNat 6 op)
  else .cmdIllegal80 (.ofNat 7 op)

theorem encodeCmd_illegalCmd {op : Nat} (h8 : 8 ≤ op) (h : op < 256) :
    (illegalCmd op).wellFormed = true ∧ encodeCmd (illegalCmd op) = some (32, op) := by
  unfold illegalCmd
  split_ifs <;> refine ⟨rfl, ?_⟩ <;>
    simp only [encodeCmd, BitVec.toNat_ofNat, Option.some.injEq, Prod.mk.injEq, true_and] <;> omega

theorem decodeCmd_illegal (h : w < 2 ^ 32) (h8 : 8 ≤ w % 256) : decodeCmd w = .ok (illegalCmd (w % 256)) := by
  have hop : field w 7 0 = w % 256 := field_zero w 7
  rw [decodeCmd, if_neg (by omega), hop]
  split
  case h_9 => simp only [illegalCmd, apply_ite Except.ok]
  all_goals omega

theorem decodeCmd_of_encode (h : encodeCmd i = some (n, w)) : w < 2 ^ n ∧ decodeCmd w = .ok i := by
  have hillegal : ∀ {op : Nat}, 8 ≤ op → op < 256 → illegalCmd op = i → op < 2 ^ 32 ∧ decodeCmd op = .ok i := by
    rintro op h8 h256 rfl
    have hmod : op % 256 = op := Nat.mod_eq_of_lt h256
    have hdec := decodeCmd_illegal (w := op) (by omega) (by omega)
    exact ⟨by omega, by rwa [hmod] at hdec⟩
  unfold encodeCmd at h
  split at h <;> cases h
  case h_9 lo | h_10 lo | h_11 lo | h_12 lo | h_13 lo =>
    have hlo := lo.isLt
    refine hillegal (by omega) (by omega) ?_
    simp (disch := omega) only [illegalCmd, if_pos, if_neg]
    rw [ofNat_eq_of_mod_eq (x := lo) (by omega)]
  all_goals exact ⟨by decide, rfl⟩

theorem decodeCmd_lt (h : decodeCmd w = .ok i) : w < 2 ^ 32 := by
  unfold decodeCmd at h
  split at h
  next => cases h
  next hw => omega

theorem encodeCmd_of_decode (h : decodeCmd w = .ok i) : i.wellFormed = true ∧ encodeCmd i = some (32, w % 256) := by
  have hlt := decodeCmd_lt h
  by_cases h8 : 8 ≤ w % 256
  · rw [decodeCmd_illegal hlt h8] at h
    cases h
    exact encodeCmd_illegalCmd h8 (by omega)
  · have hop : field w 7 0 = w % 256 := field_zero w 7
    rw [decodeCmd, if_neg (by omega), hop] at h
    generalize w % 256 = op at h h8 ⊢
    interval_cases op <;> cases h <;> exact ⟨rfl, rfl⟩

/-! ## Register writes (R60) -/

theorem decodeRegWrite_of_encode (h : encodeRegWrite i = some (n, w)) : w < 2 ^ n ∧ decodeRegWrite w = .ok i := by
  unfold encodeRegWrite at h
  split at h <;> cases h
  case h_1 v =>
    have hv : v.toNat < 2 ^ 32 := v.isLt
    exact ⟨by omega, decode_regWrite_arg0 v⟩
  case h_2 v =>
    have hv : v.toNat < 2 ^ 32 := v.isLt
    exact ⟨by omega, decode_regWrite_arg1 v⟩

theorem encodeRegWrite_of_decode (h : decodeRegWrite w = .ok i) : i.wellFormed = true ∧ encodeRegWrite i = some (40, w) := by
  unfold decodeRegWrite at h
  split at h
  next => cases h
  next hlt =>
    have hword : field w 7 0 + 2 ^ 8 * (BitVec.ofNat 32 (field w 39 8)).toNat = w := by
      simp only [field, BitVec.toNat_ofNat]; omega
    split at h
    case h_3 => cases h
    all_goals
      next he =>
        cases h
        rw [he] at hword
        exact ⟨rfl, congrArg (fun x => some (40, x)) hword⟩

/-! ## The round trips -/

/-- Decoding any header of a well-formed instruction gives it back. -/
theorem decode_of_encode (sp : CodeSpace) (hwf : i.wellFormed = true) (h : encode sp i = some (n, w)) :
    w < 2 ^ n ∧ decode sp w = .ok i := by
  cases sp with
  | bt4 => exact decodeBt4_of_encode h
  | st4 => exact decodeSt4_of_encode h
  | btsym => exact decodeBtsym_of_encode h
  | tree => exact decodeTree_of_encode hwf h
  | refill b len => exact decodeRefill_of_encode hwf h
  | audioRun => exact decodeAudioRun_of_encode h
  | cmd => exact decodeCmd_of_encode h
  | regWrite => exact decodeRegWrite_of_encode h
  | regRead => exact decodeRegRead_of_encode h

theorem exists_encode_refillCoded (b : BundleId) (t : BitVec 32) : ∃ sp, (encode sp (refillCoded b t)).isSome = true := by
  refine ⟨.refill b 32, ?_⟩
  cases hesc : hasEscape b with
  | true => rw [encode, encodeRefill_of_header (by decide) (by decide) (.coded t hesc t.isLt)]; rfl
  | false => rw [encode, encodeRefill_of_header (by decide) (by decide) (.dc t hesc t.isLt)]; rfl

theorem exists_encode_refillConst {b : BundleId} (hesc : hasEscape b = true) (t : BitVec 32) :
    ∃ sp, (encode sp (refillConst b t)).isSome = true := by
  refine ⟨.refill b 32, ?_⟩
  rw [encode, encodeRefill_of_header (by decide) (by decide) (.const t hesc t.isLt)]
  rfl

/-- Every instruction has a header in the code space of its family (R4). -/
theorem exists_encode (i : Instr) : ∃ sp, (encode sp i).isSome = true := by
  cases i
  case refillDone => exact ⟨.refill .colors 32, rfl⟩
  case refillBlockTypesCoded t => exact exists_encode_refillCoded .blockTypes t
  case refillSubBlockTypesCoded t => exact exists_encode_refillCoded .subBlockTypes t
  case refillColorsCoded t => exact exists_encode_refillCoded .colors t
  case refillPatternCoded t => exact exists_encode_refillCoded .pattern t
  case refillXOffCoded t => exact exists_encode_refillCoded .xOff t
  case refillYOffCoded t => exact exists_encode_refillCoded .yOff t
  case refillRunCoded t => exact exists_encode_refillCoded .run t
  case refillIntraDc t => exact exists_encode_refillCoded .intraDc t
  case refillInterDc t => exact exists_encode_refillCoded .interDc t
  case refillBlockTypesConst t => exact exists_encode_refillConst (b := .blockTypes) rfl t
  case refillSubBlockTypesConst t => exact exists_encode_refillConst (b := .subBlockTypes) rfl t
  case refillColorsConst t => exact exists_encode_refillConst (b := .colors) rfl t
  case refillPatternConst t => exact exists_encode_refillConst (b := .pattern) rfl t
  case refillXOffConst t => exact exists_encode_refillConst (b := .xOff) rfl t
  case refillYOffConst t => exact exists_encode_refillConst (b := .yOff) rfl t
  case refillRunConst t => exact exists_encode_refillConst (b := .run) rfl t
  case btSkip | btScaled | btMotion | btRun | btResidue | btIntra | btFill | btInter | btPattern | btRaw | btIllegal10
      | btIllegal11 | btIllegal12 | btIllegal13 | btIllegal14 | btIllegal15 => exact ⟨.bt4, rfl⟩
  case scaledRun | scaledIntra | scaledFill | scaledPattern | scaledRaw | scaledIllegal0 | scaledIllegal1 | scaledIllegal2
      | scaledIllegal4 | scaledIllegal7 | scaledIllegal10 | scaledIllegal11 | scaledIllegal12 | scaledIllegal13
      | scaledIllegal14 | scaledIllegal15 => exact ⟨.st4, rfl⟩
  case btsymLiteral0 | btsymLiteral1 | btsymLiteral2 | btsymLiteral3 | btsymLiteral4 | btsymLiteral5 | btsymLiteral6
      | btsymLiteral7 | btsymLiteral8 | btsymLiteral9 | btsymLiteral10 | btsymLiteral11 | btsymRun4 | btsymRun8 | btsymRun12
      | btsymRun32 => exact ⟨.btsym, rfl⟩
  case treeIdentity | treeList | treeMerge => exact ⟨.tree, rfl⟩
  case audioRun8 | audioRunRle => exact ⟨.audioRun, rfl⟩
  case cmdOpen | cmdClose | cmdDecodeNextFrame | cmdSeek | cmdReadAudio | cmdAudioTrackInfo | cmdIllegal00 | cmdIllegal07
      | cmdIllegal08 | cmdIllegal10 | cmdIllegal20 | cmdIllegal40 | cmdIllegal80 => exact ⟨.cmd, rfl⟩
  case wrArg0 | wrArg1 => exact ⟨.regWrite, rfl⟩
  all_goals exact ⟨.regRead, rfl⟩

/-- Settles O1: space by space, with the fields of a header read back from their sum. -/
theorem decodeOfEncode : Obligations.DecodeOfEncode :=
  ⟨fun sp _ _ _ hwf h => decode_of_encode sp hwf h, fun i _ => exists_encode i⟩

/-- Settles O2: space by space; a decoder that accepts a word took every bit of it into a field, but for CMD. -/
theorem encodeOfDecode : Obligations.EncodeOfDecode := by
  intro sp w i h
  cases sp with
  | bt4 => exact (encodeBt4_of_decode h).imp_right fun he => ⟨4, he⟩
  | st4 => exact (encodeSt4_of_decode h).imp_right fun he => ⟨4, he⟩
  | btsym => exact (encodeBtsym_of_decode h).imp_right fun he => ⟨4, he⟩
  | tree => exact encodeTree_of_decode h
  | refill b len => exact encodeRefill_of_decode h
  | audioRun => exact encodeAudioRun_of_decode h
  | cmd => exact encodeCmd_of_decode h
  | regWrite => exact (encodeRegWrite_of_decode h).imp_right fun he => ⟨40, he⟩
  | regRead => exact (encodeRegRead_of_decode h).imp_right fun he => ⟨8, he⟩

/-- Settles O3: the decoder on each word. -/
theorem wordsOfTheSpec : Obligations.WordsOfTheSpec :=
  ⟨rfl, rfl, rfl, rfl, rfl, rfl, rfl, rfl, rfl, rfl, rfl⟩

end Sys2Proof.Machine
end

/-! # An element of a frame as one step

Each phase that fetches an element reads its header, or takes its bundle value, and hands the word to the decoder; that the
decoder answers with the encoded instruction is `decode_of_encode`. -/

section
namespace Sys2Proof.Machine

variable {s : State} {i : Instr} {n w : Nat}

/-! ## Reading a header field by field -/

/-- A longer read is its first bits and, above them, the bits that follow (R302). -/
theorem bitsAt_add (s : State) (off m k : Nat) : bitsAt s off (m + k) = bitsAt s off m + 2 ^ m * bitsAt s (off + m) k := by
  induction k with
  | zero => rw [Nat.add_zero, bitsAt_zero, Nat.mul_zero, Nat.add_zero]
  | succ k ih =>
    rw [← Nat.add_assoc m k 1, bitsAt_succ, ih, bitsAt_succ s (off + m) k, Nat.add_assoc off m k]
    ring

theorem getBits_apply (h1 : 1 ≤ n) (h32 : n ≤ 32) (h : BitsLeft s n) :
    getBits n s = .ok (bitsAt s 0 n) (s.setPos (s.bitPos + n)) := getBits_of_fits h1 h32 h

theorem getBit_apply (h : BitsLeft s 1) : getBit s = .ok (bitsAt s 0 1) (s.setPos (s.bitPos + 1)) := getBit_of_fits h

/-- Reading a field, `j` bits past the position of `s`. -/
theorem getBits_setPos {j : Nat} (h1 : 1 ≤ n) (h32 : n ≤ 32) (h : BitsLeft s (j + n)) :
    getBits n (s.setPos (s.bitPos + j)) = .ok (bitsAt s j n) (s.setPos (s.bitPos + (j + n))) := by
  unfold BitsLeft at h
  have hpos : (s.setPos (s.bitPos + j)).bitPos = s.bitPos + j := s.bitPos_setPos_of_le (by omega)
  rw [getBits_of_fits h1 h32 (by rw [hpos, State.setPos_bitSize]; omega), hpos, State.setPos_setPos, Nat.add_assoc]
  rfl

/-! ## Tree headers (R220, R320) -/

/-- The state in which the tree `r` has taken its shape. -/
def State.withShape (s : State) (r : TreeRef) (shape : BitVec 4) : State := s.setTree r { s.tree r with shape := shape }

section
variable (s : State) (r : TreeRef) (shape : BitVec 4) (x off k : Nat)

@[simp] theorem State.withShape_bitPos : (s.withShape r shape).bitPos = s.bitPos := by cases r <;> rfl
@[simp] theorem State.withShape_bitSize : (s.withShape r shape).bitSize = s.bitSize := by cases r <;> rfl
@[simp] theorem bitsAt_withShape : bitsAt (s.withShape r shape) off k = bitsAt s off k := by cases r <;> rfl

theorem writeShape_setPos : writeShape r shape (s.setPos x) = .ok () ((s.withShape r shape).setPos x) := by
  rw [writeShape_apply]
  cases r <;> rfl

end

theorem BitsLeft.withShape (h : BitsLeft s n) (r : TreeRef) (shape : BitVec 4) : BitsLeft (s.withShape r shape) n := by
  rwa [BitsLeft, State.withShape_bitPos, State.withShape_bitSize]

theorem getBits_withShape {j : Nat} (r : TreeRef) (shape : BitVec 4) (h1 : 1 ≤ n) (h32 : n ≤ 32) (h : BitsLeft s (j + n)) :
    getBits n ((s.withShape r shape).setPos (s.bitPos + j))
      = .ok (bitsAt s j n) ((s.withShape r shape).setPos (s.bitPos + (j + n))) := by
  simpa using getBits_setPos h1 h32 (h.withShape r shape)

/-- A tree header is the shape, the form bit and the count or k (R220). -/
theorem bitsAt_treeHeader (s : State) (k : Nat) :
    bitsAt s 0 (5 + k) = bitsAt s 0 4 + 2 ^ 4 * bitsAt s 4 1 + 2 ^ 5 * bitsAt s 5 k := by
  rw [bitsAt_add s 0 5 k, bitsAt_add s 0 4 1]

theorem fetchTree_of_encode (r : TreeRef) (hwf : i.wellFormed = true) (he : encode .tree i = some (n, w)) (hleft : BitsLeft s n)
    (hw : bitsAt s 0 n = w) :
    fetchTree r s = .ok (some i) ((s.withShape r (BitVec.ofNat 4 w)).setPos (s.bitPos + n)) := by
  have hdec := (decode_of_encode .tree hwf he).2
  have h4 : 4 ≤ n := by
    simp only [encode, encodeTree] at he
    split at he <;> cases he <;> decide
  have hshape : bitsAt s 0 4 = w % 2 ^ 4 := by rw [← hw, bitsAt_mod h4]
  have htake : BitVec.ofNat 4 (bitsAt s 0 4) = BitVec.ofNat 4 w :=
    BitVec.eq_of_toNat_eq (by rw [BitVec.toNat_ofNat, BitVec.toNat_ofNat, hshape, Nat.mod_mod])
  rw [fetchTree, bind_of_ok (getBits_apply (by decide) (by decide) (hleft.mono h4)), htake,
    bind_of_ok (writeShape_setPos s r _ _)]
  simp only [encode, encodeTree] at he
  split at he <;> cases he
  case h_1 => rw [hw, if_pos rfl, fetched_of_decode _ hdec]
  case h_2 shape count =>
    have hne : shape.toNat ≠ 0 := wellFormed_treeList.mp hwf
    have hlt : shape.toNat < 2 ^ 4 := shape.isLt
    have hsplit : bitsAt s 0 8 = _ := bitsAt_treeHeader s 3
    have hform := bitsAt_lt s 4 1
    obtain ⟨hs, hf, hc⟩ : bitsAt s 0 4 = shape.toNat ∧ bitsAt s 4 1 = 1 ∧ bitsAt s 5 3 = count.toNat := by omega
    rw [if_neg (by omega), getBit, bind_of_ok (getBits_withShape r _ (by decide) (by decide) (hleft.mono (by decide))), if_pos hf,
      bind_of_ok (getBits_withShape r _ (by decide) (by decide) hleft), hs, hc, fetched_of_decode _ hdec]
  case h_3 shape k =>
    have hne : shape.toNat ≠ 0 := wellFormed_treeMerge.mp hwf
    have hlt : shape.toNat < 2 ^ 4 := shape.isLt
    have hsplit : bitsAt s 0 7 = _ := bitsAt_treeHeader s 2
    have hform := bitsAt_lt s 4 1
    obtain ⟨hs, hf, hk⟩ : bitsAt s 0 4 = shape.toNat ∧ bitsAt s 4 1 = 0 ∧ bitsAt s 5 2 = k.toNat := by omega
    rw [if_neg (by omega), getBit, bind_of_ok (getBits_withShape r _ (by decide) (by decide) (hleft.mono (by decide))),
      if_neg (by omega), bind_of_ok (getBits_withShape r _ (by decide) (by decide) hleft), hs, hk, fetched_of_decode _ hdec]

theorem sequence_of_treeAt {r : TreeRef} {rest : List AgendaItem} (h : TreeAt s r rest) : sequence s = fetchTree r s := by
  obtain ⟨hphase, hagenda⟩ := h
  simp only [sequence, treesStep, bind_of_ok (get_apply s), hphase, hagenda]

/-! ## Refill headers (R222, R357, R358, R370) -/

section
variable {b : BundleId}

/-- A header that is a count of 0 (R357). -/
theorem fetchRefill_zero (h1 : 1 ≤ (s.bundle b).len) (h32 : (s.bundle b).len ≤ 32) (hleft : BitsLeft s (s.bundle b).len)
    (ht : bitsAt s 0 (s.bundle b).len = 0) :
    fetchRefill b s = fetched (.refill b (s.bundle b).len) 0 (s.setPos (s.bitPos + (s.bundle b).len)) := by
  rw [fetchRefill, bind_of_ok (get_apply s), bind_of_ok (getBits_apply h1 h32 hleft), if_pos ht]

/-- A header whose escape bit is read (R358). -/
theorem fetchRefill_escape (h1 : 1 ≤ (s.bundle b).len) (h32 : (s.bundle b).len ≤ 32) (hleft : BitsLeft s ((s.bundle b).len + 1))
    (ht : bitsAt s 0 (s.bundle b).len ≠ 0) (hroom : (s.bundle b).wr + bitsAt s 0 (s.bundle b).len ≤ (s.bundle b).cap)
    (hesc : hasEscape b = true) (hpattern : b = .pattern → s.params.patternEscape = true) :
    fetchRefill b s = fetched (.refill b (s.bundle b).len) (bitsAt s 0 ((s.bundle b).len + 1))
      (s.setPos (s.bitPos + ((s.bundle b).len + 1))) := by
  have hreads : (hasEscape b && (b != .pattern || s.params.patternEscape)) = true := by
    simpa [hesc, imp_iff_not_or] using hpattern
  have hword : bitsAt s 0 ((s.bundle b).len + 1)
      = bitsAt s 0 (s.bundle b).len + 2 ^ (s.bundle b).len * bitsAt s (s.bundle b).len 1 := by
    rw [bitsAt_add, Nat.zero_add]
  rw [fetchRefill, bind_of_ok (get_apply s), bind_of_ok (getBits_apply h1 h32 (hleft.mono (Nat.le_succ _))), if_neg ht,
    bind_of_ok (check_of_true _ _ (decide_eq_true hroom)), if_pos hreads, bind_of_ok (getBit_setPos hleft), hword]

/-- A header that is the count alone (R358, R370). -/
theorem fetchRefill_plain (h1 : 1 ≤ (s.bundle b).len) (h32 : (s.bundle b).len ≤ 32) (hleft : BitsLeft s (s.bundle b).len)
    (ht : bitsAt s 0 (s.bundle b).len ≠ 0) (hroom : (s.bundle b).wr + bitsAt s 0 (s.bundle b).len ≤ (s.bundle b).cap)
    (hplain : hasEscape b = false ∨ b = .pattern ∧ s.params.patternEscape = false) :
    fetchRefill b s = fetched (.refill b (s.bundle b).len) (bitsAt s 0 (s.bundle b).len)
      (s.setPos (s.bitPos + (s.bundle b).len)) := by
  have hreads : ¬ (hasEscape b && (b != .pattern || s.params.patternEscape)) = true := by
    obtain hesc | ⟨rfl, hescape⟩ := hplain <;> simp [*]
  rw [fetchRefill, bind_of_ok (get_apply s), bind_of_ok (getBits_apply h1 h32 hleft), if_neg ht,
    bind_of_ok (check_of_true _ _ (decide_eq_true hroom)), if_neg hreads]

theorem fetchRefill_of_encode (hwf : i.wellFormed = true) (he : encode (.refill b (s.bundle b).len) i = some (n, w))
    (hroom : (s.bundle b).wr + w % 2 ^ (s.bundle b).len ≤ (s.bundle b).cap)
    (hpattern : b = .pattern → s.params.patternEscape = true) (hleft : BitsLeft s n) (hw : bitsAt s 0 n = w) :
    fetchRefill b s = .ok (some i) (s.setPos (s.bitPos + n)) := by
  have hdec := (decode_of_encode _ hwf he).2
  obtain ⟨h1, h32, hheader⟩ := header_of_encodeRefill he
  have hn : (s.bundle b).len ≤ n := by cases hheader <;> omega
  have hcount : bitsAt s 0 (s.bundle b).len = w % 2 ^ (s.bundle b).len := by rw [← hw, bitsAt_mod hn]
  have hfetched := fun x => fetched_of_decode x hdec
  rw [← hcount] at hroom
  cases hheader with
  | done => rw [fetchRefill_zero h1 h32 hleft hw, hfetched]
  | coded t hesc ht =>
    have hne : bitsAt s 0 (s.bundle b).len ≠ 0 := by
      rw [hcount, Nat.mod_eq_of_lt ht]; exact wellFormed_refillCoded.mp hwf
    rw [fetchRefill_escape h1 h32 hleft hne hroom hesc hpattern, hw, hfetched]
  | const t hesc ht =>
    have hne : bitsAt s 0 (s.bundle b).len ≠ 0 := by
      rw [hcount, Nat.add_mod_right, Nat.mod_eq_of_lt ht]; exact wellFormed_refillConst.mp hwf
    rw [fetchRefill_escape h1 h32 hleft hne hroom hesc hpattern, hw, hfetched]
  | dc t hesc ht =>
    have hne : bitsAt s 0 (s.bundle b).len ≠ 0 := by rw [hw]; exact wellFormed_refillCoded.mp hwf
    rw [fetchRefill_plain h1 h32 hleft hne hroom (Or.inl hesc), hw, hfetched]

/-- A count that the length field holds, with no escape bit above it, is the coded form (R370). -/
theorem decode_refill_count {len t : Nat} (hesc : hasEscape b = true) (h1 : 1 ≤ len) (h32 : len ≤ 32) (hlt : t < 2 ^ len)
    (ht : t ≠ 0) : decode (.refill b len) t = .ok (refillCoded b (BitVec.ofNat 32 t)) := by
  have htoNat : (BitVec.ofNat 32 t).toNat = t :=
    Nat.mod_eq_of_lt (Nat.lt_of_lt_of_le hlt (Nat.pow_le_pow_right (by decide) h32))
  have hheader := RefillHeader.coded (b := b) (BitVec.ofNat 32 t) hesc (by rwa [htoNat])
  rw [htoNat] at hheader
  exact decodeRefill_of_header h1 h32 (wellFormed_refillCoded.mpr (by rwa [htoNat])) hheader

/-- Without PATTERN_ESCAPE a PATTERN header is its count alone (P18, R370). -/
theorem fetchRefill_pattern_count {t : Nat} (h1 : 1 ≤ (s.bundle .pattern).len) (h32 : (s.bundle .pattern).len ≤ 32)
    (hroom : (s.bundle .pattern).wr + t ≤ (s.bundle .pattern).cap) (hescape : s.params.patternEscape = false)
    (hleft : BitsLeft s (s.bundle .pattern).len) (hw : bitsAt s 0 (s.bundle .pattern).len = t) (ht : t ≠ 0) :
    fetchRefill .pattern s
      = .ok (some (.refillPatternCoded (BitVec.ofNat 32 t))) (s.setPos (s.bitPos + (s.bundle .pattern).len)) := by
  subst hw
  rw [fetchRefill_plain h1 h32 hleft ht hroom (Or.inr ⟨rfl, hescape⟩),
    fetched_of_decode _ (decode_refill_count rfl h1 h32 (bitsAt_lt s 0 _) ht)]
  rfl

theorem sequence_of_refillAt {rest : List BundleId} {t : Nat} (h : RefillAt s b rest t) (hdone : (s.bundle b).done = false)
    (hempty : (s.bundle b).wr ≤ (s.bundle b).rd) : sequence s = fetchRefill b s := by
  obtain ⟨hphase, hrefills, -⟩ := h
  have hskip : ¬ ((s.bundle b).done || decide ((s.bundle b).rd < (s.bundle b).wr)) = true := by simp [hdone, hempty]
  simp only [sequence, refillStep, bind_of_ok (get_apply s), hphase, hrefills, if_neg hskip]

/-! ## Audio run headers (R230) -/

theorem audioCoefStep_of_encode {x : Track} (hx : s.tracks[s.ctl.track]? = some x) (hpos : s.ctl.coefPos < x.n)
    (he : encode .audioRun i = some (n, w)) (hleft : BitsLeft s n) (hw : bitsAt s 0 n = w) :
    audioCoefStep s = .ok (some i) (s.setPos (s.bitPos + n)) := by
  have hdec : decode .audioRun w = .ok i := (decodeAudioRun_of_encode he).2
  simp only [encode, encodeAudioRun] at he
  have h1 : 1 ≤ n := by split at he <;> cases he <;> decide
  rw [audioCoefStep, bind_of_ok (get_apply s), bind_of_ok (currentTrack_of_present hx), if_pos hpos,
    bind_of_ok (getBit_apply (hleft.mono h1))]
  have hrle := bitsAt_lt s 0 1
  split at he <;> cases he
  case h_1 width =>
    have hsplit : bitsAt s 0 5 = bitsAt s 0 1 + 2 ^ 1 * bitsAt s 1 4 := bitsAt_add s 0 1 4
    obtain ⟨hr, hwidth⟩ : bitsAt s 0 1 = 0 ∧ bitsAt s 1 4 = width.toNat := by omega
    rw [if_neg (by omega), bind_of_ok (getBits_setPos (by decide) (by decide) hleft), hwidth, fetched_of_decode _ hdec]
  case h_2 idx width =>
    have hidx : idx.toNat < 2 ^ 4 := idx.isLt
    have hlow := bitsAt_lt s 1 4
    have hsplit : bitsAt s 0 9 = bitsAt s 0 5 + 2 ^ 5 * bitsAt s 5 4 := bitsAt_add s 0 5 4
    have hsplit' : bitsAt s 0 5 = bitsAt s 0 1 + 2 ^ 1 * bitsAt s 1 4 := bitsAt_add s 0 1 4
    obtain ⟨hr, hi, hwidth⟩ : bitsAt s 0 1 = 1 ∧ bitsAt s 1 4 = idx.toNat ∧ bitsAt s 5 4 = width.toNat := by omega
    rw [if_pos hr, bind_of_ok (getBits_setPos (by decide) (by decide) (hleft.mono (by decide))),
      bind_of_ok (getBits_setPos (by decide) (by decide) hleft), hi, hwidth, fetched_of_decode _ hdec]

theorem sequence_of_audioCoef (h : s.ctl.phase = .audioCoef) : sequence s = audioCoefStep s := by
  simp only [sequence, bind_of_ok (get_apply s), h]

/-! ## Symbols and bundle values (R360, R402, R420) -/

theorem sequence_of_btSym {rest : List BundleId} {v : BitVec 4} {u : State} (hphase : s.ctl.phase = .btSym)
    (hrefills : s.ctl.refills = b :: rest) (hwr : (s.bundle b).wr < s.ctl.stop) (hv : huff (.bundle b) s = .ok v u)
    (hd : decode .btsym v.toNat = .ok i) : sequence s = .ok (some i) u := by
  simp only [sequence, btSymStep, bind_of_ok (get_apply s), hphase, hrefills, if_pos hwr]
  rw [bind_of_ok hv, fetched_of_decode u hd]

/-- A value below 256 is its own byte (R71). -/
theorem elementByte_toNat (h : w < 256) : (elementByte (w : Int)).toNat = w := by
  rw [elementByte, BitVec.ofInt_natCast, BitVec.toNat_ofNat, Nat.mod_eq_of_lt h]

theorem sequence_of_block {p : PlaneId} {x : Plane} (h : BlockAt s .block p x) (hv : Holds (s.bundle .blockTypes) [(w : Int)])
    (hlt : w < 16) (hd : decode .bt4 w = .ok i) : sequence s = .ok (some i) (afterTake s .blockTypes 1) := by
  obtain ⟨hphase, rfl, hplane, hbx⟩ := h
  simp only [sequence, bind_of_ok (get_apply s), hphase]
  rw [blockStep, bind_of_ok (get_apply s), bind_of_ok (planeOf_of_present hplane), if_pos hbx, bind_of_ok (getValue_of_holds hv),
    elementByte_toNat (by omega), fetched_of_decode _ hd]

theorem sequence_of_subBlock (h : s.ctl.phase = .subBlock) (hv : Holds (s.bundle .subBlockTypes) [(w : Int)]) (hlt : w < 16)
    (hd : decode .st4 w = .ok i) : sequence s = .ok (some i) (afterTake s .subBlockTypes 1) := by
  simp only [sequence, bind_of_ok (get_apply s), h]
  rw [subBlockStep, bind_of_ok (getValue_of_holds hv), elementByte_toNat (by omega), fetched_of_decode _ hd]

end

/-- Settles O52: in each phase the sequencer reads the header or takes the value, and the decoder gives the instruction it
encodes. -/
theorem stepRunsElement : Obligations.StepRunsElement := by
  intro s i
  refine ⟨fun r rest n w hat hwf he hleft hw => ?_, fun b rest n w t hat hwf hdone hempty hpattern he ht hleft hw => ?_,
    fun rest t hat hdone hempty hescape h1 h32 hleft hw ht hi => ?_, fun x n w hphase hx hpos he hleft hw => ?_,
    fun b rest v u hphase hrefills hwr hv hd => step_of_fetched (sequence_of_btSym hphase hrefills hwr hv hd),
    fun p x w hat hv hlt hd => step_of_fetched (sequence_of_block hat hv hlt hd),
    fun w hphase hv hlt hd => step_of_fetched (sequence_of_subBlock hphase hv hlt hd)⟩
  · exact step_of_fetched ((sequence_of_treeAt hat).trans (fetchTree_of_encode r hwf he hleft hw))
  · have ⟨_, _, hroom⟩ := hat
    rw [ht] at hroom
    exact step_of_fetched ((sequence_of_refillAt hat hdone hempty).trans (fetchRefill_of_encode hwf he hroom hpattern hleft hw))
  · have ⟨_, _, hroom⟩ := hat
    rw [hi]
    exact step_of_fetched ((sequence_of_refillAt hat hdone hempty).trans
      (fetchRefill_pattern_count h1 h32 hroom hescape hleft hw ht))
  · exact step_of_fetched ((sequence_of_audioCoef hphase).trans (audioCoefStep_of_encode hx hpos he hleft hw))

end Sys2Proof.Machine
end

/-! # The bit reader and VLC decode (R302, R306, R312) -/

section
namespace Sys2Proof.Machine

/-! ## GetBits and AlignTo32 -/

/-- Bit `j` of a value read is the packet bit `j` places on: the first bit read is bit 0 (R302). -/
theorem Memory.testBit_packetBits (m : List Host.Cell) (base pos : Nat) {n j : Nat} (hj : j < n) :
    (Memory.packetBits m base pos n).testBit j = true ↔ Memory.packetBit m base (pos + j) = 1 := by
  induction n generalizing pos j with
  | zero => omega
  | succ n ih =>
    have hbit : Memory.packetBit m base pos < 2 := Nat.mod_lt _ (by decide)
    rw [Memory.packetBits]
    cases j with
    | zero => rw [Nat.testBit_zero, decide_eq_true_iff, Nat.add_zero pos]; omega
    | succ j =>
      have hhalf : (Memory.packetBit m base pos + 2 * Memory.packetBits m base (pos + 1) n) / 2
          = Memory.packetBits m base (pos + 1) n := by omega
      rw [Nat.testBit_succ, hhalf, ih (pos + 1) (by omega), Nat.add_assoc, Nat.add_comm 1 j]

theorem demand_of_false {ok : Bool} (r : Refusal) (s : State) (h : ok = false) : demand ok r s = .error (.refused r) s := by
  subst h; rfl

/-- A width outside 1..32 is refused (R302). -/
theorem getBits_of_width {n : Nat} (s : State) (h : ¬ (1 ≤ n ∧ n ≤ 32)) : getBits n s = .error (.refused .bitFieldWidth) s :=
  bind_of_error (demand_of_false _ s (by simpa using h))

/-- Settles O4: the value is that of the packet bits ahead, which `testBit_packetBits` reads bit by bit. -/
theorem getBitsReads : Obligations.GetBitsReads := by
  intro n s
  split
  next hwidth =>
    obtain ⟨h1, h32⟩ := hwidth
    split
    next hfits =>
      exact ⟨_, getBits_of_fits h1 h32 hfits, Memory.packetBits_lt _ _ _ _, fun _ hj => Memory.testBit_packetBits _ _ _ hj⟩
    next hfits => exact getBits_of_underrun h1 h32 (by omega)
  next hwidth => exact getBits_of_width s hwidth

/-- The next multiple of 32 bits, or the packet's end (R306). -/
theorem alignedPos_eq (br : BitReader) : alignedPos br = min (32 * ((br.pos.toNat + 31) / 32)) br.sizeBits.toNat := by
  unfold alignedPos; omega

/-- Settles O5: `alignedPos` is the next multiple of 32 or the packet's end. -/
theorem alignTo32Moves : Obligations.AlignTo32Moves := fun s => by
  rw [alignTo32_apply, alignedPos_eq]; rfl

/-! ## Shape 0 (R312) -/

/-- A decode error is taken by keeping all but the result registers (R690). -/
theorem takeError_eq_afterDecodeError {c : Cause} (s : State) (h : causeKind c = .decodeError) :
    takeError c s = afterDecodeError s (causeCode c) := takeError_decodeError s h

theorem decodeSymbol_zero_fits {s : State} (h : s.params.codes 0 = identityCode) (hleft : BitsLeft s 4) :
    decodeSymbol 0 s = .ok (BitVec.ofNat 4 (bitsAt s 0 4)) (s.setPos (s.bitPos + 4)) := by
  rw [decodeSymbol_zero h, bind_of_ok (getBits_apply (by decide) (by decide) hleft), pure_apply]

theorem huff_of_decode_error {s u : State} {r : TreeRef} {e : Stop} (h : decodeSymbol (s.tree r).shape s = .error e u) :
    huff r s = .error e u := by
  rw [huff, bind_of_ok (get_apply s), bind_of_error h]

/-- A symbol whose code does not read ends the symbol loop's step (R360). -/
theorem sequence_of_btSym_error {s u : State} {b : BundleId} {rest : List BundleId} {e : Stop} (hphase : s.ctl.phase = .btSym)
    (hrefills : s.ctl.refills = b :: rest) (hwr : (s.bundle b).wr < s.ctl.stop) (hv : huff (.bundle b) s = .error e u) :
    sequence s = .error e u := by
  simp only [sequence, btSymStep, bind_of_ok (get_apply s), hphase, hrefills, if_pos hwr]
  exact bind_of_error hv

/-- Settles O7: shape 0 is read by one `GetBits(4)`, so a cut code takes no bit, and the step that meets one ends the frame
where it stood. -/
theorem shapeZeroReadsNibble : Obligations.ShapeZeroReadsNibble := by
  refine ⟨rfl, fun s hcode => ?_⟩
  have hcut : ¬ BitsLeft s 4 → decodeSymbol 0 s = .error (.raised .readerUnderrun) s := fun hleft =>
    decodeSymbol_zero_underrun hcode (Nat.lt_of_not_le hleft)
  refine ⟨decodeSymbol_zero_fits hcode, hcut, fun b rest hphase hrefills hwr hshape hleft => ?_⟩
  have hhuff : huff (.bundle b) s = .error (.raised .readerUnderrun) s := huff_of_decode_error (by
    rw [State.tree, hshape]; exact hcut hleft)
  rw [step_of_raised (sequence_of_btSym_error hphase hrefills hwr hhuff)]
  exact congrArg _ (takeError_eq_afterDecodeError s rfl)

end Sys2Proof.Machine
end

/-! # Trees (R320 to R323) -/

section
namespace Sys2Proof

/-- Values written one list after the other are those of the joined list. -/
theorem Cells.setFrom_append {α : Type} (m : Cells α) (i : Nat) (vs ws : List α) :
    Cells.setFrom m i (vs ++ ws) = Cells.setFrom (Cells.setFrom m i vs) (i + vs.length) ws := by
  induction vs generalizing m i with
  | nil => rfl
  | cons v vs ih =>
    rw [List.cons_append, Cells.setFrom, ih, List.length_cons, Nat.add_right_comm, Nat.add_assoc]
    rfl

end Sys2Proof

namespace Sys2Proof.Machine

/-! ## A reader that stands ahead -/

/-- The reader of `t` stands `off` bits past that of `s`, over the same packet. -/
structure ReadsAhead (s t : State) (off : Nat) : Prop where
  container : t.container = s.container
  base : t.bitBase = s.bitBase
  size : t.bitSize = s.bitSize
  pos : t.bitPos = s.bitPos + off

namespace ReadsAhead

variable {s t : State} {off n : Nat}

theorem refl (s : State) : ReadsAhead s s 0 := ⟨rfl, rfl, rfl, rfl⟩

theorem bitsAt (h : ReadsAhead s t off) (x n : Nat) : bitsAt t x n = Machine.bitsAt s (off + x) n := by
  rw [Machine.bitsAt, h.container, h.base, h.pos, Nat.add_assoc]
  rfl

theorem bitsLeft (h : ReadsAhead s t off) : BitsLeft t n ↔ BitsLeft s (off + n) := by
  rw [BitsLeft, BitsLeft, h.pos, h.size, Nat.add_assoc]

/-- The reader moves to any place inside the packet. -/
theorem setPos (h : ReadsAhead s t off) (hleft : BitsLeft s n) : ReadsAhead s (t.setPos (s.bitPos + n)) n :=
  ⟨h.container, h.base, h.size, t.bitPos_setPos_of_le (by rw [h.size]; exact hleft)⟩

theorem setPos_self (h : ReadsAhead s t off) : t.setPos (s.bitPos + off) = t := by rw [← h.pos, State.setPos_bitPos]

theorem setTree (h : ReadsAhead s t off) (r : TreeRef) (x : Tree) : ReadsAhead s (t.setTree r x) off := by
  cases r <;> exact ⟨h.container, h.base, h.size, h.pos⟩

theorem getBits (h : ReadsAhead s t off) (h1 : 1 ≤ n) (h32 : n ≤ 32) (hleft : BitsLeft s (off + n)) :
    getBits n t = .ok (Machine.bitsAt s off n) (t.setPos (s.bitPos + (off + n))) := by
  rw [getBits_apply h1 h32 (h.bitsLeft.mpr hleft), h.bitsAt, h.pos, Nat.add_zero, Nat.add_assoc]

theorem getBit (h : ReadsAhead s t off) (hleft : BitsLeft s (off + 1)) :
    getBit t = .ok (Machine.bitsAt s off 1) (t.setPos (s.bitPos + (off + 1))) := h.getBits (Nat.le_refl 1) (by decide) hleft

end ReadsAhead

/-! ## Writing a tree in parts -/

/-- Of two writes of a tree the second stands, also where it was made from what the first one left: a tree the state does not
have is not written at all. -/
theorem State.setTree_setTree (s : State) (r : TreeRef) (x : Tree) (f : Tree → Tree) :
    (s.setTree r x).setTree r (f ((s.setTree r x).tree r)) = s.setTree r (f x) := by
  cases r with
  | bundle b =>
    cases b <;> rfl
  | colHigh i =>
    by_cases hi : i.toNat < s.colHigh.length
    · simp [State.setTree, State.tree, State.setColHigh, hi]
    · simp [State.setTree, State.tree, State.setColHigh, List.set_eq_of_length_le (Nat.le_of_not_lt hi)]

theorem State.setTree_setPos (s : State) (r : TreeRef) (x : Tree) (p : Nat) :
    (s.setPos p).setTree r x = (s.setTree r x).setPos p := by cases r <;> rfl

theorem State.tree_setPos (s : State) (r : TreeRef) (p : Nat) : (s.setPos p).tree r = s.tree r := by cases r <;> rfl

/-- The state of `s` with `off` bits taken and the tree `r` of this shape and these symbols. -/
def State.loading (s : State) (r : TreeRef) (shape : BitVec 4) (syms : Cells (BitVec 4)) (off : Nat) : State :=
  (s.setTree r { shape := shape, syms := syms }).setPos (s.bitPos + off)

section
variable (s : State) (r : TreeRef) (shape : BitVec 4) (syms : Cells (BitVec 4)) (off : Nat)

@[simp] theorem State.loading_params : (s.loading r shape syms off).params = s.params := by cases r <;> rfl
@[simp] theorem State.loading_ctl : (s.loading r shape syms off).ctl = s.ctl := by cases r <;> rfl

theorem State.loading_setPos (n : Nat) :
    (s.loading r shape syms off).setPos (s.bitPos + n) = s.loading r shape syms n := rfl

theorem writeShape_loading : writeShape r shape s = .ok () (s.loading r shape (s.tree r).syms 0) := by
  have hpos : (s.setTree r { shape := shape, syms := (s.tree r).syms }).bitPos = s.bitPos := by cases r <;> rfl
  rw [writeShape_apply, State.loading, Nat.add_zero, ← hpos, State.setPos_bitPos]

theorem writeSyms_loading (i : Nat) (vs : List (BitVec 4)) :
    writeSyms r i vs (s.loading r shape syms off) = .ok () (s.loading r shape (Cells.setFrom syms i vs) off) := by
  rw [writeSyms_apply, State.loading, State.setTree_setPos, State.tree_setPos,
    State.setTree_setTree s r _ fun x => { x with syms := Cells.setFrom x.syms i vs }]
  rfl

end

theorem ReadsAhead.loading {s : State} {off : Nat} (r : TreeRef) (shape : BitVec 4) (syms : Cells (BitVec 4))
    (hleft : BitsLeft s off) : ReadsAhead s (s.loading r shape syms off) off := ((refl s).setTree r _).setPos hleft

/-- A tree form at its place begins with its shape (R320). -/
theorem treeForm_begin {s : State} {r : TreeRef} {rest : List AgendaItem} (h : TreeAt s r rest) (shape : BitVec 4)
    (f : TreeRef → M Unit) :
    (currentTree >>= fun r => writeShape r shape >>= fun _ => f r) s = f r (s.loading r shape (s.tree r).syms 0) := by
  rw [bind_of_ok (currentTree_of_treeAt h), bind_of_ok (writeShape_loading s r shape)]

/-- After the tree the next item of PlaneStart is in hand (R353). -/
theorem treeForm_end {s : State} {r : TreeRef} {rest : List AgendaItem} (h : TreeAt s r rest) (shape : BitVec 4)
    (syms : Cells (BitVec 4)) (off : Nat) :
    nextAgendaItem (s.loading r shape syms off) = .ok () ((s.loading r shape syms off).setCtl { s.ctl with agenda := rest }) := by
  rw [nextAgendaItem_apply, State.loading_ctl, h.2, List.tail_cons]

/-! ## TREE_IDENTITY (R320) -/

/-- Settles O8: shape 0 and the identity are written, no bit is read. -/
theorem treeIdentityCompletes : Obligations.TreeIdentityCompletes := by
  intro s r rest hat
  have hstart : s.loading r 0 (Cells.setFrom (s.tree r).syms 0 leaves) 0
      = s.setTree r { shape := 0, syms := Cells.setFrom (s.tree r).syms 0 leaves } :=
    ((ReadsAhead.refl s).setTree r _).setPos_self
  show run _ s = _
  refine run_of_ok ?_
  rw [treeForm_begin hat, bind_of_ok (writeSyms_loading s r 0 _ 0 0 identityNibbles), treeForm_end hat, identityNibbles, hstart]

/-! ## TREE_LIST (R321) -/

/-- The `n` leaves from `off` on, four bits each. -/
def leavesAt (s : State) (off n : Nat) : List (BitVec 4) := (List.range n).map fun i => BitVec.ofNat 4 (bitsAt s (off + 4 * i) 4)

@[simp] theorem length_leavesAt (s : State) (off n : Nat) : (leavesAt s off n).length = n := by simp [leavesAt]

theorem leavesAt_succ (s : State) (off n : Nat) :
    leavesAt s off (n + 1) = BitVec.ofNat 4 (bitsAt s off 4) :: leavesAt s (off + 4) n := by
  rw [leavesAt, List.range_succ_eq_map, List.map_cons, List.map_map]
  refine congrArg (List.cons _) (List.map_congr_left fun i _ => ?_)
  rw [Function.comp_apply, Nat.mul_succ, Nat.add_comm (4 * i), ← Nat.add_assoc]

theorem eq_leavesAt {s : State} {vs : List (BitVec 4)}
    (h : ∀ i, i < vs.length → vs[i]? = some (BitVec.ofNat 4 (bitsAt s (4 * i) 4))) : vs = leavesAt s 0 vs.length := by
  refine List.ext_getElem? fun i => ?_
  by_cases hi : i < vs.length
  · rw [h i hi, leavesAt, List.getElem?_map, List.getElem?_range hi, Option.map_some, Nat.zero_add]
  · rw [List.getElem?_eq_none (Nat.le_of_not_lt hi), List.getElem?_eq_none (by rw [length_leavesAt]; omega)]

/-- One leaf: the frame goes on with it, unless it was used before. -/
theorem readLeaves_succ {s : State} {off : Nat} (r : TreeRef) (shape : BitVec 4) (syms : Cells (BitVec 4)) (n i : Nat)
    (used : List (BitVec 4)) (hleft : BitsLeft s (off + 4)) :
    readLeaves r (n + 1) i used (s.loading r shape syms off)
      = if BitVec.ofNat 4 (bitsAt s off 4) ∈ used then .error (.raised .treeDuplicate) (s.loading r shape syms (off + 4))
        else readLeaves r n (i + 1) (BitVec.ofNat 4 (bitsAt s off 4) :: used)
          (s.loading r shape (Cells.set syms i (BitVec.ofNat 4 (bitsAt s off 4))) (off + 4)) := by
  have hread := (ReadsAhead.loading r shape syms (hleft.mono (Nat.le_add_right off 4))).getBits (by decide) (by decide) hleft
  rw [readLeaves, bind_of_ok hread, State.loading_setPos]
  split
  next hused => exact bind_of_error (check_of_false _ _ (by simpa using hused))
  next hused =>
    rw [bind_of_ok (check_of_true _ _ (by simpa using hused)), bind_of_ok (writeSyms_loading s r shape syms _ i _)]
    rfl

/-- Distinct leaves are written one after the other, and the list goes on after them. -/
theorem readLeaves_distinct {s : State} (r : TreeRef) (shape : BitVec 4) (m n : Nat) {off : Nat} (syms : Cells (BitVec 4)) (i : Nat)
    {used : List (BitVec 4)} (hleft : BitsLeft s (off + 4 * n)) (hnodup : (leavesAt s off n).Nodup)
    (hfresh : ∀ v ∈ leavesAt s off n, v ∉ used) :
    readLeaves r (n + m) i used (s.loading r shape syms off)
      = readLeaves r m (i + n) ((leavesAt s off n).reverse ++ used)
          (s.loading r shape (Cells.setFrom syms i (leavesAt s off n)) (off + 4 * n)) := by
  induction n generalizing off syms i used with
  | zero => rw [Nat.zero_add]; rfl
  | succ n ih =>
    rw [leavesAt_succ] at hnodup hfresh ⊢
    obtain ⟨hnot, hnodup⟩ := List.nodup_cons.mp hnodup
    obtain ⟨hhead, htail⟩ := List.forall_mem_cons.mp hfresh
    rw [Nat.add_right_comm, readLeaves_succ r shape syms _ i used (hleft.mono (by omega)), if_neg hhead,
      ih _ (i + 1) (hleft.mono (by omega)) hnodup fun v hv => by
        rintro (_ | ⟨_, hmem⟩)
        · exact hnot hv
        · exact htail v hv hmem,
      List.reverse_cons, List.append_assoc, Nat.add_assoc i 1 n, Nat.add_comm 1 n, Nat.add_assoc off 4, Nat.mul_succ,
      Nat.add_comm 4]
    rfl

theorem mem_leaves (v : BitVec 4) : v ∈ leaves := by revert v; decide

/-- The unused nibbles complete distinct leaves to a permutation (R321). -/
theorem perm_leaves_of_nodup {vs : List (BitVec 4)} (h : vs.Nodup) : (vs ++ leaves.filter fun v => !vs.contains v).Perm leaves := by
  have hleaves : leaves.Nodup := by decide
  refine (List.perm_ext_iff_of_nodup (h.append (hleaves.filter _) ?_) hleaves).mpr fun v => ?_
  · exact fun v hv hv' => by simp [hv] at hv'
  · by_cases hv : v ∈ vs <;> simp [hv, mem_leaves]

/-- Settles O9: the leaves are read as `leavesAt`, and what they leave unused completes the permutation. -/
theorem treeListCompletes : Obligations.TreeListCompletes := by
  intro shape count s r rest vs hat hleft hlen hvs hnodup
  refine ⟨perm_leaves_of_nodup hnodup, ?_⟩
  have hread := eq_leavesAt hvs
  have hloop := readLeaves_distinct r shape 0 vs.length (s.tree r).syms 0 (used := []) (by rwa [Nat.zero_add]) (hread ▸ hnodup)
    (fun _ _ => List.not_mem_nil)
  rw [← hread, Nat.add_zero, Nat.zero_add, Nat.zero_add, readLeaves, pure_apply] at hloop
  show run _ s = _
  refine run_of_ok ?_
  rw [treeForm_begin hat, bind_of_ok (get_apply _), State.loading_params, ← hlen, bind_of_ok hloop,
    bind_of_ok (writeSyms_loading s r shape _ _ _ _), treeForm_end hat]
  simp only [identityNibbles, List.append_nil, List.contains_reverse, Cells.setFrom_append, Nat.zero_add]
  rfl

theorem ofNat_bitsAt_inj {s : State} {x y : Nat} :
    BitVec.ofNat 4 (bitsAt s x 4) = BitVec.ofNat 4 (bitsAt s y 4) ↔ bitsAt s x 4 = bitsAt s y 4 := by
  rw [← BitVec.toNat_inj, BitVec.toNat_ofNat, BitVec.toNat_ofNat, Nat.mod_eq_of_lt (bitsAt_lt s x 4),
    Nat.mod_eq_of_lt (bitsAt_lt s y 4)]

theorem nodup_leavesAt {s : State} {n : Nat} (h : ∀ i j, i < j → j < n → bitsAt s (4 * i) 4 ≠ bitsAt s (4 * j) 4) :
    (leavesAt s 0 n).Nodup := by
  refine List.pairwise_map.mpr (List.pairwise_lt_range.imp_of_mem fun {i j} _ hj hij => ?_)
  rw [Nat.zero_add, Nat.zero_add, Ne, ofNat_bitsAt_inj]
  exact h i j hij (List.mem_range.mp hj)

/-- Settles O10: the distinct leaves before the repeated one are written, and it is in the list of those used. -/
theorem treeListDuplicate : Obligations.TreeListDuplicate := by
  intro shape count s r rest n hat hn hleft hdistinct hrepeat
  obtain ⟨i, hi, heq⟩ := hrepeat
  have hcount : count.toNat + s.params.listCountBias = n + (count.toNat + s.params.listCountBias - n - 1 + 1) := by omega
  have hbits : BitsLeft s (4 * n + 4) := hleft
  have hused : BitVec.ofNat 4 (bitsAt s (4 * n) 4) ∈ (leavesAt s 0 n).reverse ++ [] := by
    rw [List.append_nil, List.mem_reverse, ← heq, leavesAt]
    exact List.mem_map.mpr ⟨i, List.mem_range.mpr hi, by rw [Nat.zero_add]⟩
  have hloop := readLeaves_distinct r shape (count.toNat + s.params.listCountBias - n - 1 + 1) n (s.tree r).syms 0 (used := [])
    (hbits.mono (by omega)) (nodup_leavesAt hdistinct) (fun _ _ => List.not_mem_nil)
  rw [← hcount, Nat.zero_add, Nat.zero_add, readLeaves_succ r shape _ _ _ _ hbits, if_pos hused] at hloop
  refine ⟨{ shape := shape, syms := Cells.setFrom (s.tree r).syms 0 (leavesAt s 0 n) }, ?_⟩
  show run _ s = _
  refine (run_of_raised (c := .treeDuplicate) ?_).trans (congrArg _ (takeError_eq_afterDecodeError _ rfl))
  rw [treeForm_begin hat, bind_of_ok (get_apply _), State.loading_params]
  exact bind_of_error hloop

end Sys2Proof.Machine
end

/-! # TREE_MERGE (R322, R323) -/

section
namespace Sys2Proof.Machine

variable {s t : State}

/-! ## Merge(A, Bl) (R323) -/

section
variable {n off : Nat} {a b : List (BitVec 4)}

/-- Nothing is left to choose: the two lists are joined, and no bit is read. -/
theorem mergeAt_stop (s : State) (off : Nat) (h : n = 0 ∨ a = [] ∨ b = []) : mergeAt s n a b off = (a ++ b, off) := by
  obtain rfl | rfl | rfl := h
  · cases a <;> cases b <;> rfl
  · cases n <;> rfl
  · cases n <;> cases a <;> rfl

theorem mergeRuns_stop (h : n = 0 ∨ a = [] ∨ b = []) : mergeRuns n a b = pure (a ++ b) := by
  obtain rfl | rfl | rfl := h
  · cases a <;> cases b <;> rfl
  · cases n <;> rfl
  · cases n <;> cases a <;> simp [mergeRuns]

/-- A bit 0 takes from the left list. -/
theorem mergeAt_left (x y : BitVec 4) (h : bitsAt s off 1 = 0) :
    mergeAt s (n + 1) (x :: a) (y :: b) off
      = (x :: (mergeAt s n a (y :: b) (off + 1)).1, (mergeAt s n a (y :: b) (off + 1)).2) := by rw [mergeAt, if_pos h]

/-- A bit 1 takes from the right list. -/
theorem mergeAt_right (x y : BitVec 4) (h : bitsAt s off 1 ≠ 0) :
    mergeAt s (n + 1) (x :: a) (y :: b) off
      = (y :: (mergeAt s n (x :: a) b (off + 1)).1, (mergeAt s n (x :: a) b (off + 1)).2) := by rw [mergeAt, if_neg h]

end

/-- The recursion of a merge: nothing left to choose, or one element taken by the next bit. -/
theorem mergeAt_induction {P : (n : Nat) → (a b : List (BitVec 4)) → (off : Nat) → Prop}
    (stop : ∀ n a b off, n = 0 ∨ a = [] ∨ b = [] → P n a b off)
    (left : ∀ n x a y b off, bitsAt s off 1 = 0 → P n a (y :: b) (off + 1) → P (n + 1) (x :: a) (y :: b) off)
    (right : ∀ n x a y b off, bitsAt s off 1 ≠ 0 → P n (x :: a) b (off + 1) → P (n + 1) (x :: a) (y :: b) off)
    (n : Nat) (a b : List (BitVec 4)) (off : Nat) : P n a b off := by
  induction n generalizing a b off with
  | zero => exact stop 0 a b off (Or.inl rfl)
  | succ n ih =>
    match a, b with
    | [], b => exact stop _ _ _ _ (Or.inr (Or.inl rfl))
    | _ :: _, [] => exact stop _ _ _ _ (Or.inr (Or.inr rfl))
    | x :: a, y :: b =>
      by_cases hbit : bitsAt s off 1 = 0
      · exact left n x a y b off hbit (ih _ _ _)
      · exact right n x a y b off hbit (ih _ _ _)

/-- The elements a merge may take are as many as the lists have. -/
theorem mergeAt_fuel {m n : Nat} {a b : List (BitVec 4)} {off : Nat} (hm : a.length + b.length ≤ m) (hn : a.length + b.length ≤ n) :
    mergeAt s m a b off = mergeAt s n a b off := by
  induction m, a, b, off using mergeAt_induction (s := s) generalizing n with
  | stop m a b off h =>
    have h' : n = 0 ∨ a = [] ∨ b = [] := by
      rcases h with rfl | h
      · exact Or.inr (Or.inl (List.length_eq_zero_iff.mp (by omega)))
      · exact Or.inr h
    rw [mergeAt_stop s off h, mergeAt_stop s off h']
  | left m x a y b off hbit ih =>
    obtain ⟨n, rfl⟩ : ∃ k, n = k + 1 := ⟨n - 1, by rw [List.length_cons] at hn; omega⟩
    rw [List.length_cons] at hm hn
    rw [mergeAt_left x y hbit, mergeAt_left x y hbit, ih (n := n) (by omega) (by omega)]
  | right m x a y b off hbit ih =>
    obtain ⟨n, rfl⟩ : ∃ k, n = k + 1 := ⟨n - 1, by rw [List.length_cons] at hn; omega⟩
    rw [List.length_cons (as := b)] at hm hn
    rw [mergeAt_right x y hbit, mergeAt_right x y hbit, ih (n := n) (by omega) (by omega)]

theorem mergeAt_perm (s : State) (n : Nat) (a b : List (BitVec 4)) (off : Nat) : (mergeAt s n a b off).1.Perm (a ++ b) := by
  induction n, a, b, off using mergeAt_induction (s := s) with
  | stop n a b off h => rw [mergeAt_stop s off h]
  | left n x a y b off hbit ih => rw [mergeAt_left x y hbit]; exact ih.cons x
  | right n x a y b off hbit ih => rw [mergeAt_right x y hbit]; exact (ih.cons y).trans List.perm_middle.symm

/-- A merge reads at most one bit less than it has elements. -/
theorem mergeAt_off_le (s : State) (n : Nat) (a b : List (BitVec 4)) (off : Nat) :
    (mergeAt s n a b off).2 ≤ off + (a.length + b.length - 1) := by
  induction n, a, b, off using mergeAt_induction (s := s) with
  | stop n a b off h => rw [mergeAt_stop s off h]; exact Nat.le_add_right _ _
  | left n x a y b off hbit ih => rw [mergeAt_left x y hbit]; simp only [List.length_cons] at ih ⊢; omega
  | right n x a y b off hbit ih => rw [mergeAt_right x y hbit]; simp only [List.length_cons] at ih ⊢; omega

theorem le_mergeAt_off (s : State) (n : Nat) (a b : List (BitVec 4)) (off : Nat) : off ≤ (mergeAt s n a b off).2 := by
  induction n, a, b, off using mergeAt_induction (s := s) with
  | stop n a b off h => rw [mergeAt_stop s off h]
  | left n x a y b off hbit ih => rw [mergeAt_left x y hbit]; exact Nat.le_of_succ_le ih
  | right n x a y b off hbit ih => rw [mergeAt_right x y hbit]; exact Nat.le_of_succ_le ih

/-- The merge of the pseudocode is `mergeAt`. -/
theorem mergeRuns_ahead {n : Nat} {a b : List (BitVec 4)} {off : Nat} (h : ReadsAhead s t off)
    (hleft : BitsLeft s (mergeAt s n a b off).2) :
    mergeRuns n a b t = .ok (mergeAt s n a b off).1 (t.setPos (s.bitPos + (mergeAt s n a b off).2)) := by
  induction n, a, b, off using mergeAt_induction (s := s) generalizing t with
  | stop n a b off hstop => rw [mergeRuns_stop hstop, mergeAt_stop s off hstop, pure_apply, h.setPos_self]
  | left n x a y b off hbit ih =>
    have hnext : BitsLeft s (off + 1) := hleft.mono (by rw [mergeAt_left x y hbit]; exact le_mergeAt_off s n _ _ _)
    rw [mergeAt_left x y hbit] at hleft ⊢
    rw [mergeRuns, bind_of_ok (h.getBit hnext), if_pos hbit, bind_of_ok (ih (h.setPos hnext) hleft)]
    rfl
  | right n x a y b off hbit ih =>
    have hnext : BitsLeft s (off + 1) := hleft.mono (by rw [mergeAt_right x y hbit]; exact le_mergeAt_off s n _ _ _)
    rw [mergeAt_right x y hbit] at hleft ⊢
    rw [mergeRuns, bind_of_ok (h.getBit hnext), if_neg hbit, bind_of_ok (ih (h.setPos hnext) hleft)]
    rfl

/-! ## Which side each bit takes (R323) -/

/-- The zeros among the bits are those of the first bit and those behind it. -/
theorem zerosAhead_succ (s : State) (off j : Nat) :
    zerosAhead s off (j + 1) = (if bitsAt s off 1 = 0 then 1 else 0) + zerosAhead s (off + 1) j := by
  induction j with
  | zero => simp [zerosAhead]
  | succ j ih =>
    rw [zerosAhead, ih, zerosAhead, Nat.add_right_comm off 1 j, Nat.add_assoc off j 1, Nat.add_assoc]

theorem zerosAhead_le (s : State) (off j : Nat) : zerosAhead s off j ≤ j := by
  induction j with
  | zero => exact Nat.le_refl 0
  | succ j ih => rw [zerosAhead]; split <;> omega

/-- `out` merges `a` and `b` by the `n` bits from `off` on: each takes its element from its side, neither list being empty, and
the rest of the list that is not empty then follows. -/
structure MergesBy (s : State) (a b : List (BitVec 4)) (off n : Nat) (out : List (BitVec 4)) : Prop where
  bits_le : n ≤ a.length + b.length
  taken : ∀ j, j < n → out[j]? = if bitsAt s (off + j) 1 = 0 then a[zerosAhead s off j]? else b[j - zerosAhead s off j]?
  ended : zerosAhead s off n = a.length ∨ n - zerosAhead s off n = b.length
  nonempty : ∀ j, j < n → zerosAhead s off j < a.length ∧ j - zerosAhead s off j < b.length
  rest : out.drop n = a.drop (zerosAhead s off n) ++ b.drop (n - zerosAhead s off n)
  length : out.length = a.length + b.length

namespace MergesBy

variable {a b out : List (BitVec 4)} {x y : BitVec 4} {off n : Nat}

theorem stop (s : State) (off : Nat) (h : a = [] ∨ b = []) : MergesBy s a b off 0 (a ++ b) where
  bits_le := Nat.zero_le _
  taken := fun _ hj => absurd hj (Nat.not_lt_zero _)
  ended := by rcases h with rfl | rfl <;> simp [zerosAhead]
  nonempty := fun _ hj => absurd hj (Nat.not_lt_zero _)
  rest := rfl
  length := List.length_append

theorem left (hbit : bitsAt s off 1 = 0) (h : MergesBy s a (y :: b) (off + 1) n out) :
    MergesBy s (x :: a) (y :: b) off (n + 1) (x :: out) := by
  have hzeros : ∀ j, zerosAhead s off (j + 1) = zerosAhead s (off + 1) j + 1 := fun j => by
    rw [zerosAhead_succ, if_pos hbit, Nat.add_comm]
  refine ⟨?_, ?_, ?_, ?_, ?_, ?_⟩
  · have := h.bits_le
    rw [List.length_cons]; omega
  · rintro (_ | j) hj
    · simp [zerosAhead, hbit]
    · rw [List.getElem?_cons_succ, h.taken j (by omega), hzeros, List.getElem?_cons_succ, Nat.add_sub_add_right,
        Nat.add_assoc off 1 j, Nat.add_comm 1 j]
  · rw [hzeros, List.length_cons, Nat.add_sub_add_right, Nat.add_right_cancel_iff]; exact h.ended
  · rintro (_ | j) hj
    · simp [zerosAhead]
    · rw [hzeros, List.length_cons, Nat.add_sub_add_right, Nat.add_lt_add_iff_right]; exact h.nonempty j (by omega)
  · rw [hzeros, List.drop_succ_cons, List.drop_succ_cons, Nat.add_sub_add_right]; exact h.rest
  · rw [List.length_cons, List.length_cons, h.length, Nat.add_right_comm]

theorem right (hbit : bitsAt s off 1 ≠ 0) (h : MergesBy s (x :: a) b (off + 1) n out) :
    MergesBy s (x :: a) (y :: b) off (n + 1) (y :: out) := by
  have hzeros : ∀ j, zerosAhead s off (j + 1) = zerosAhead s (off + 1) j := fun j => by
    rw [zerosAhead_succ, if_neg hbit, Nat.zero_add]
  have hones : ∀ j, j + 1 - zerosAhead s (off + 1) j = j - zerosAhead s (off + 1) j + 1 := fun j =>
    Nat.sub_add_comm (zerosAhead_le s (off + 1) j)
  refine ⟨?_, ?_, ?_, ?_, ?_, ?_⟩
  · have := h.bits_le
    rw [List.length_cons (as := b)]; omega
  · rintro (_ | j) hj
    · simp [zerosAhead, hbit]
    · rw [List.getElem?_cons_succ, h.taken j (by omega), hzeros, hones, List.getElem?_cons_succ, Nat.add_assoc off 1 j,
        Nat.add_comm 1 j]
  · rw [hzeros, hones, List.length_cons (as := b), Nat.add_right_cancel_iff]; exact h.ended
  · rintro (_ | j) hj
    · simp [zerosAhead]
    · rw [hzeros, hones, List.length_cons (as := b), Nat.add_lt_add_iff_right]; exact h.nonempty j (by omega)
  · rw [hzeros, hones, List.drop_succ_cons, List.drop_succ_cons]; exact h.rest
  · rw [List.length_cons, h.length, List.length_cons (as := b), Nat.add_assoc]

end MergesBy

theorem mergeAt_mergesBy {n : Nat} {a b : List (BitVec 4)} (off : Nat) (hn : a.length + b.length ≤ n) :
    ∃ k, (mergeAt s n a b off).2 = off + k ∧ MergesBy s a b off k (mergeAt s n a b off).1 := by
  induction n, a, b, off using mergeAt_induction (s := s) with
  | stop n a b off h =>
    have hempty : a = [] ∨ b = [] := by
      rcases h with rfl | h
      · exact Or.inl (List.length_eq_zero_iff.mp (by omega))
      · exact h
    rw [mergeAt_stop s off h]
    exact ⟨0, rfl, .stop s off hempty⟩
  | left n x a y b off hbit ih =>
    rw [List.length_cons (as := a)] at hn
    obtain ⟨k, hk, h⟩ := ih (by omega)
    rw [mergeAt_left x y hbit, hk]
    exact ⟨k + 1, by omega, .left hbit h⟩
  | right n x a y b off hbit ih =>
    rw [List.length_cons (as := b)] at hn
    obtain ⟨k, hk, h⟩ := ih (by omega)
    rw [mergeAt_right x y hbit, hk]
    exact ⟨k + 1, by omega, .right hbit h⟩

/-! ## The passes (R322) -/

theorem mergePassAt_perm (s : State) (size n : Nat) (l : List (BitVec 4)) (off : Nat) : (mergePassAt s size n l off).1.Perm l := by
  induction n generalizing l off with
  | zero => exact .refl l
  | succ n ih =>
    have hblocks : l.take size ++ (l.drop size).take size ++ l.drop (2 * size) = l := by
      rw [List.append_assoc, Nat.two_mul, ← List.drop_drop, List.take_append_drop, List.take_append_drop]
    rw [mergePassAt]
    conv_rhs => rw [← hblocks]
    exact (mergeAt_perm s _ _ _ _).append (ih _ _)

theorem mergePassesAt_perm (s : State) (n : Nat) : (mergePassesAt s n).1.Perm leaves := by
  induction n with
  | zero => exact .refl leaves
  | succ n ih => exact (mergePassAt_perm s _ _ _ _).trans ih

/-- The two blocks of a merge hold at most `size` elements each. -/
theorem length_blocks_le (size : Nat) (l : List (BitVec 4)) :
    (l.take size).length + ((l.drop size).take size).length ≤ 2 * size := by
  have h1 := List.length_take_le size l
  have h2 := List.length_take_le size (l.drop size)
  omega

theorem mergePassAt_off_le (s : State) (size n : Nat) (l : List (BitVec 4)) (off : Nat) :
    (mergePassAt s size n l off).2 ≤ off + n * (2 * size - 1) := by
  induction n generalizing l off with
  | zero => exact Nat.le_add_right _ _
  | succ n ih =>
    have hpair := mergeAt_off_le s (2 * size) (l.take size) ((l.drop size).take size) off
    have hblocks := length_blocks_le size l
    have hrest := ih (l.drop (2 * size)) (mergeAt s (2 * size) (l.take size) ((l.drop size).take size) off).2
    rw [mergePassAt, Nat.succ_mul n]
    omega

theorem le_mergePassAt_off (s : State) (size n : Nat) (l : List (BitVec 4)) (off : Nat) : off ≤ (mergePassAt s size n l off).2 := by
  induction n generalizing l off with
  | zero => exact Nat.le_refl _
  | succ n ih => exact Nat.le_trans (le_mergeAt_off s _ _ _ _) (ih _ _)

/-- Four passes read 8, 12, 14 and 15 bits at most. -/
theorem mergePassesAt_off_le (s : State) {n : Nat} (h : n ≤ 4) : (mergePassesAt s n).2 ≤ 49 := by
  have h1 : (mergePassesAt s 1).2 ≤ 8 := mergePassAt_off_le s 1 8 _ 0
  have h2 : (mergePassesAt s 2).2 ≤ (mergePassesAt s 1).2 + 12 := mergePassAt_off_le s 2 4 _ _
  have h3 : (mergePassesAt s 3).2 ≤ (mergePassesAt s 2).2 + 14 := mergePassAt_off_le s 4 2 _ _
  have h4 : (mergePassesAt s 4).2 ≤ (mergePassesAt s 3).2 + 15 := mergePassAt_off_le s 8 1 _ _
  match n with
  | 0 => exact Nat.zero_le _
  | 1 | 2 | 3 | 4 => omega

/-- With blocks of one element each pair of neighbours takes its bit and stands in the order it says. -/
theorem mergePassAt_singles (s : State) (n : Nat) {l : List (BitVec 4)} (off : Nat) (h : l.length = 2 * n) :
    (mergePassAt s 1 n l off).2 = off + n
      ∧ ∀ j, j < n →
        (mergePassAt s 1 n l off).1[2 * j]? = l[2 * j + bitsAt s (off + j) 1]?
          ∧ (mergePassAt s 1 n l off).1[2 * j + 1]? = l[2 * j + 1 - bitsAt s (off + j) 1]? := by
  induction n generalizing l off with
  | zero => exact ⟨rfl, fun _ hj => absurd hj (Nat.not_lt_zero _)⟩
  | succ n ih =>
    obtain ⟨x, y, l, rfl⟩ : ∃ x y l', l = x :: y :: l' := by
      match l, h with
      | x :: y :: l, _ => exact ⟨x, y, l, rfl⟩
    obtain ⟨hoff, hpairs⟩ := ih (off + 1) (l := l) (by simp only [List.length_cons] at h; omega)
    obtain ⟨p, q, hmerge, hpair⟩ : ∃ p q, mergeAt s (2 * 1) [x] [y] off = ([p, q], off + 1)
        ∧ some p = (x :: y :: l)[bitsAt s off 1]? ∧ some q = (x :: y :: l)[1 - bitsAt s off 1]? := by
      rcases bitsAt_one s off with hbit | hbit
      · exact ⟨x, y, by rw [mergeAt_left x y hbit, mergeAt_stop s _ (by simp)]; rfl, by rw [hbit]; simp⟩
      · exact ⟨y, x, by rw [mergeAt_right x y (by omega), mergeAt_stop s _ (by simp)]; rfl, by rw [hbit]; simp⟩
    have hpass : mergePassAt s 1 (n + 1) (x :: y :: l) off
        = (p :: q :: (mergePassAt s 1 n l (off + 1)).1, (mergePassAt s 1 n l (off + 1)).2) := by
      show (_, _) = _
      simp only [List.take_succ_cons, List.take_zero, List.drop_succ_cons, List.drop_zero, hmerge]
      rfl
    rw [hpass]
    refine ⟨by rw [hoff]; omega, fun j hj => ?_⟩
    match j with
    | 0 => simpa using hpair
    | j + 1 =>
      obtain ⟨heven, hodd⟩ := hpairs j (by omega)
      have hbit := bitsAt_lt s (off + 1 + j) 1
      have hplace : 2 * (j + 1) + bitsAt s (off + 1 + j) 1 = 2 * j + bitsAt s (off + 1 + j) 1 + 1 + 1 := by omega
      have hplace' : 2 * (j + 1) + 1 - bitsAt s (off + 1 + j) 1 = 2 * j + 1 - bitsAt s (off + 1 + j) 1 + 1 + 1 := by omega
      rw [← Nat.add_assoc off j 1, Nat.add_right_comm off j 1, hplace, hplace']
      exact ⟨heven, hodd⟩

/-- A pass of the pseudocode over blocks of at most 8 elements is `mergePassAt`. -/
theorem mergePass_ahead {size n : Nat} {l : List (BitVec 4)} {off : Nat} (hsize : size ≤ 8) (h : ReadsAhead s t off)
    (hleft : BitsLeft s (mergePassAt s size n l off).2) :
    mergePass size n l t = .ok (mergePassAt s size n l off).1 (t.setPos (s.bitPos + (mergePassAt s size n l off).2)) := by
  induction n generalizing l off t with
  | zero => rw [mergePass, mergePassAt, pure_apply, h.setPos_self]
  | succ n ih =>
    have hblocks := length_blocks_le size l
    have hfuel : mergeAt s 16 (l.take size) ((l.drop size).take size) off
        = mergeAt s (2 * size) (l.take size) ((l.drop size).take size) off := mergeAt_fuel (by omega) hblocks
    have hpair := hleft.mono (le_mergePassAt_off s size n (l.drop (2 * size)) _)
    rw [mergePass, bind_of_ok (mergeRuns_ahead h (by rwa [hfuel])), hfuel, bind_of_ok (ih (h.setPos hpair) hleft)]
    rfl

theorem mergePasses_append (is js : List Nat) (l : List (BitVec 4)) :
    mergePasses (is ++ js) l = mergePasses is l >>= mergePasses js := by
  induction is generalizing l with
  | nil => exact (pure_bind l _).symm
  | cons i is ih =>
    rw [List.cons_append, mergePasses, mergePasses, bind_assoc]
    exact congrArg _ (funext ih)

theorem mergePasses_ahead {n : Nat} (hn : n ≤ 4) (h : ReadsAhead s t 0) (hleft : BitsLeft s (mergePassesAt s n).2) :
    mergePasses (List.range n) leaves t = .ok (mergePassesAt s n).1 (t.setPos (s.bitPos + (mergePassesAt s n).2)) := by
  induction n with
  | zero => rw [List.range_zero, mergePasses, mergePassesAt, pure_apply, h.setPos_self]
  | succ n ih =>
    have hsize : 2 ^ n ≤ 2 ^ 3 := Nat.pow_le_pow_right (by decide) (by omega)
    have hbefore : BitsLeft s (mergePassesAt s n).2 := hleft.mono (le_mergePassAt_off s _ _ _ _)
    rw [List.range_succ, mergePasses_append, bind_of_ok (ih (by omega) hbefore), mergePasses,
      bind_of_ok (mergePass_ahead hsize (h.setPos hbefore) hleft)]
    rfl

theorem leaves_getElem? {i : Nat} (h : i < 16) : leaves[i]? = some (BitVec.ofNat 4 i) := by
  rw [leaves, List.getElem?_map, List.getElem?_range h, Option.map_some]

/-- Settles O11: each pass permutes by `mergeAt_perm` and reads what `mergeAt_off_le` allows, the pseudocode's passes are
`mergePassesAt`, and a single merge is `MergesBy`. -/
theorem treeMergePermutes : Obligations.TreeMergePermutes := by
  refine ⟨fun shape k s r rest => ?_, fun a b s off => ?_⟩
  · have hk : k.toNat + 1 ≤ 4 := k.isLt
    refine ⟨mergePassesAt_perm s _, mergePassesAt_off_le s hk, ?_, fun hat hleft => ?_⟩
    · rintro rfl
      obtain ⟨hoff, hpairs⟩ := mergePassAt_singles s 8 (l := leaves) 0 rfl
      refine ⟨hoff, fun j hj => ?_⟩
      obtain ⟨heven, hodd⟩ := hpairs j hj
      have hbit := bitsAt_lt s j 1
      rw [Nat.zero_add] at heven hodd
      exact ⟨heven.trans (leaves_getElem? (by omega)), hodd.trans (leaves_getElem? (by omega))⟩
    · have hstart : ReadsAhead s (s.loading r shape (s.tree r).syms 0) 0 :=
        .loading r shape _ (hleft.mono (Nat.zero_le _))
      show run _ s = _
      refine run_of_ok ?_
      rw [treeForm_begin hat, identityNibbles, bind_of_ok (mergePasses_ahead hk hstart hleft), State.loading_setPos,
        bind_of_ok (writeSyms_loading s r shape _ _ _ _), treeForm_end hat]
      rfl
  · obtain ⟨n, hn, h⟩ := mergeAt_mergesBy (s := s) (a := a) (b := b) off (Nat.le_refl _)
    refine ⟨?_, n, hn, h.bits_le, h.taken, h.ended, h.nonempty, h.rest, h.length⟩
    rintro rfl hleft
    exact mergeRuns_ahead (.refl s) hleft

end Sys2Proof.Machine
end

/-! # Huffman-coded refills (R310, R311, R358 to R376) -/

section
namespace Sys2Proof.Machine

variable {s t : State} {off : Nat}

/-! ## The leaf ahead (R310) -/

theorem codes_mem_vlc (s : State) (sh : BitVec 4) : s.params.codes sh ∈ s.params.vlc := by
  obtain ⟨-, hlen, -⟩ := (wellFormed_iff s.params).mp s.accepted
  have hsh : sh.toNat < s.params.vlc.length := hlen ▸ sh.isLt
  rw [Params.codes, List.getD_eq_getElem _ _ hsh]
  exact List.getElem_mem hsh

/-- Every shape passes R11 (a) and R12: no state runs on another. -/
theorem codes_complete (s : State) (sh : BitVec 4) : isCompletePrefixCode (s.params.codes sh) = true := by
  obtain ⟨-, -, hcodes, -⟩ := (wellFormed_iff s.params).mp s.accepted
  exact isCompletePrefixCode_iff.mpr (hcodes _ (codes_mem_vlc s sh))

/-- The `n` bits from `off` on are the code of leaf `l`. -/
def CodeAhead (s : State) (sh : BitVec 4) (off l n : Nat) : Prop := (s.params.codes sh)[l]? = some (n, bitsAt s off n)

namespace CodeAhead

variable {sh : BitVec 4} {l l' n n' : Nat}

/-- Of two codes ahead the shorter one begins the other, which R11 (a) excludes for two leaves. -/
theorem leaf_eq (h : CodeAhead s sh off l n) (h' : CodeAhead s sh off l' n') (hle : n ≤ n') : l = l' := by
  obtain ⟨-, -, hfree, -⟩ := isCompletePrefixCode_iff.mp (codes_complete s sh)
  by_contra hne
  exact hfree _ _ _ _ hne h h' ⟨hle, bitsAt_mod hle s off⟩

theorem unique (h : CodeAhead s sh off l n) (h' : CodeAhead s sh off l' n') : l = l' ∧ n = n' := by
  have hl : l = l' := by
    rcases Nat.le_total n n' with hle | hle
    · exact h.leaf_eq h' hle
    · exact (h'.leaf_eq h hle).symm
  subst hl
  exact ⟨rfl, congrArg Prod.fst (Option.some.inj (h.symm.trans h'))⟩

theorem mem (h : CodeAhead s sh off l n) : (n, bitsAt s off n) ∈ s.params.codes sh := List.mem_of_getElem? h

theorem pos (h : CodeAhead s sh off l n) : 1 ≤ n := ((isCompletePrefixCode_inv (codes_complete s sh)).2.1 _ h.mem).1

theorem le_vlcMaxLen (h : CodeAhead s sh off l n) : n ≤ s.params.vlcMaxLen :=
  length_le_longestCode (List.mem_flatten_of_mem (codes_mem_vlc s sh) h.mem)

end CodeAhead

theorem exists_codeAhead (s : State) (sh : BitVec 4) (off : Nat) : ∃ l n, CodeAhead s sh off l n := by
  obtain ⟨c, hc, hbits⟩ := exists_code_of_pattern (codes_complete s sh) (bitsAt_lt s off (longestCode (s.params.codes sh)))
  obtain ⟨l, hl⟩ := List.mem_iff_getElem?.mp hc
  rw [bitsAt_mod (length_le_longestCode hc)] at hbits
  exact ⟨l, c.1, by rw [CodeAhead, hl, hbits]⟩

theorem codeAhead_leafAt (s : State) (sh : BitVec 4) (off : Nat) :
    CodeAhead s sh off (leafAt s sh off).1 (leafAt s sh off).2 := by
  obtain ⟨l, n, h⟩ := exists_codeAhead s sh off
  have hmem : ((n, bitsAt s off n), l) ∈ (s.params.codes sh).zipIdx := List.mk_mem_zipIdx_iff_getElem?.mpr h
  have hfound : ((s.params.codes sh).zipIdx.find? fun c => bitsAt s off c.1.1 == c.1.2).isSome :=
    List.find?_isSome.mpr ⟨_, hmem, beq_self_eq_true _⟩
  obtain ⟨⟨⟨m, v⟩, k⟩, hk⟩ := Option.isSome_iff_exists.mp hfound
  have hcode := List.mk_mem_zipIdx_iff_getElem?.mp (List.mem_of_find?_eq_some hk)
  have hbits : bitsAt s off m = v := by simpa using List.find?_some hk
  rw [leafAt, hk, CodeAhead]
  exact hcode.trans (by rw [← hbits]; rfl)

/-- With the code ahead inside the packet, DecodeSymbol ends at a leaf. -/
theorem decodeSymbol_endsAtLeaf {sh : BitVec 4} {l n : Nat} (h : CodeAhead s sh 0 l n) (hleft : BitsLeft s n) :
    EndsAtLeaf s (s.params.codes sh) (decodeSymbol sh s) := by
  by_cases hzero : sh = 0 ∧ s.params.codes 0 = identityCode
  · obtain ⟨rfl, hid⟩ := hzero
    have hmem := h.mem
    rw [hid] at hmem ⊢
    obtain ⟨_, _, hcode⟩ := List.mem_map.mp hmem
    have hn : n = 4 := (congrArg Prod.fst hcode).symm
    exact decodeSymbol_zero_endsAtLeaf hid (by rwa [← hn])
  · obtain ⟨hlen, -, -, -⟩ := isCompletePrefixCode_inv (codes_complete s sh)
    have hend := decodeSymbolFrom_endsAtLeaf (Nat.le_of_eq hlen) h.mem rfl hleft (longestCode (s.params.codes sh)) 0 h.pos
      (by have := length_le_longestCode h.mem; omega)
    have hstart : s.setPos (s.bitPos + 0) = s := s.setPos_bitPos
    rw [hstart, bitsAt_zero] at hend
    rwa [decodeSymbol_loop hzero]

/-- DecodeSymbol ends at the leaf whose code is ahead. -/
theorem decodeSymbol_codeAhead {sh : BitVec 4} {l n : Nat} (h : CodeAhead s sh 0 l n) (hleft : BitsLeft s n) :
    ∃ leaf : BitVec 4, leaf.toNat = l ∧ decodeSymbol sh s = .ok leaf (s.setPos (s.bitPos + n)) := by
  obtain ⟨leaf, c, hleaf, hread, hbits⟩ := decodeSymbol_endsAtLeaf h hleft
  have hc : CodeAhead s sh 0 leaf.toNat c.1 := by rw [CodeAhead, hleaf, hbits]
  obtain ⟨hl, hn⟩ := hc.unique h
  exact ⟨leaf, hl, by rw [hread, hn]⟩

/-! ## Reading a value, some bits ahead -/

/-- The reader of `t` stands `off` bits past that of `s`, and `t` has the trees, the shapes and the session of `s`. -/
structure DecodesAhead (s t : State) (off : Nat) : Prop extends ReadsAhead s t off where
  params : t.params = s.params
  session : t.session = s.session
  tree : ∀ r, t.tree r = s.tree r

namespace DecodesAhead

theorem refl (s : State) : DecodesAhead s s 0 := ⟨.refl s, rfl, rfl, fun _ => rfl⟩

theorem setPos {n : Nat} (h : DecodesAhead s t off) (hleft : BitsLeft s n) : DecodesAhead s (t.setPos (s.bitPos + n)) n :=
  ⟨h.toReadsAhead.setPos hleft, h.params, h.session, fun r => (State.tree_setPos t r _).trans (h.tree r)⟩

theorem setColLast (h : DecodesAhead s t off) (x : BitVec 4) : DecodesAhead s (t.setColLast x) off :=
  ⟨⟨h.container, h.base, h.size, h.pos⟩, h.params, h.session, fun r => Eq.trans (by cases r <;> rfl) (h.tree r)⟩

/-- A bundle changes, but its tree does not. -/
theorem setBundle {b : BundleId} {x : Bundle} (h : DecodesAhead s t off) (hx : x.tree = (t.bundle b).tree) :
    DecodesAhead s (t.setBundle b x) off := by
  refine ⟨⟨h.container, h.base, h.size, h.pos⟩, h.params, h.session, fun r => Eq.trans ?_ (h.tree r)⟩
  cases r with
  | colHigh i => rfl
  | bundle b' =>
    by_cases hb : b' = b
    · rw [hb, State.tree, State.tree, State.bundle_setBundle_same, hx]
    · rw [State.tree, State.tree, State.bundle_setBundle_other t x hb]

theorem leafAt (h : DecodesAhead s t off) (sh : BitVec 4) : leafAt t sh 0 = Machine.leafAt s sh off := by
  simp only [Machine.leafAt, h.params, h.bitsAt, Nat.add_zero]

end DecodesAhead

theorem huffAt_lt (s : State) (r : TreeRef) (off : Nat) : (huffAt s r off).1 < 16 := BitVec.isLt _

@[simp] theorem toNat_huffAt (s : State) (r : TreeRef) (off : Nat) :
    (BitVec.ofNat 4 (huffAt s r off).1).toNat = (huffAt s r off).1 := by
  rw [BitVec.toNat_ofNat, Nat.mod_eq_of_lt (huffAt_lt s r off)]

theorem huffAt_bits (s : State) (r : TreeRef) (off : Nat) : 1 ≤ (huffAt s r off).2 ∧ (huffAt s r off).2 ≤ s.params.vlcMaxLen :=
  ⟨(codeAhead_leafAt s _ off).pos, (codeAhead_leafAt s _ off).le_vlcMaxLen⟩

/-- `Huff(T)` reads the nibble of `huffAt` (R311). -/
theorem huff_ahead {r : TreeRef} (h : DecodesAhead s t off) (hw : (s.tree r).Written)
    (hleft : BitsLeft s (off + (huffAt s r off).2)) :
    huff r t = .ok (BitVec.ofNat 4 (huffAt s r off).1) (t.setPos (s.bitPos + (off + (huffAt s r off).2))) := by
  have hcode := codeAhead_leafAt t (t.tree r).shape 0
  rw [h.leafAt, h.tree] at hcode
  obtain ⟨leaf, hleaf, hread⟩ := decodeSymbol_codeAhead hcode (h.bitsLeft.mpr hleft)
  obtain ⟨v, hv⟩ := Option.isSome_iff_exists.mp (hw _ leaf.isLt)
  have hsym : (huffAt s r off).1 = v.toNat := by rw [huffAt, ← hleaf, hv]; rfl
  rw [hsym, BitVec.ofNat_toNat, BitVec.setWidth_eq, huff, bind_of_ok (get_apply t), h.tree, bind_of_ok hread, hv, getOr_some,
    h.pos, Nat.add_assoc]
  rfl

theorem signedAt_bits_le (s : State) (m off : Nat) : (signedAt s m off).2 ≤ 1 := by
  unfold signedAt
  split
  · exact Nat.zero_le 1
  · exact Nat.le_refl 1

theorem signedAt_bounds (s : State) {m : Nat} (hm : m < 16) (off : Nat) : -15 ≤ (signedAt s m off).1 ∧ (signedAt s m off).1 ≤ 15 := by
  unfold signedAt
  split
  · decide
  · dsimp only
    split <;> omega

/-- `ReadSigned(m)` reads the value of `signedAt` (R23). -/
theorem readSigned_ahead {m : Nat} (h : ReadsAhead s t off) (hleft : BitsLeft s (off + (signedAt s m off).2)) :
    readSigned m t = .ok (signedAt s m off).1 (t.setPos (s.bitPos + (off + (signedAt s m off).2))) := by
  by_cases hm : m = 0
  · rw [readSigned, if_pos hm, signedAt, if_pos hm, pure_apply]
    exact congrArg _ h.setPos_self.symm
  · rw [signedAt, if_neg hm] at hleft ⊢
    rw [readSigned, if_neg hm, bind_of_ok (h.getBit hleft), pure_apply]

/-! ## The values of each bundle -/

section
variable (s : State) (last : BitVec 4) (off : Nat)

theorem codedAt_signed {b : BundleId} (hb : b = .xOff ∨ b = .yOff ∨ b = .run) (h : ¬ (b = .run ∧ s.params.runSigned = false)) :
    codedAt s b last off
      = { value := (signedAt s (huffAt s (.bundle b) off).1 (off + (huffAt s (.bundle b) off).2)).1
          bits := (huffAt s (.bundle b) off).2
            + (signedAt s (huffAt s (.bundle b) off).1 (off + (huffAt s (.bundle b) off).2)).2
          last := last } := by
  obtain rfl | rfl | rfl := hb
  · rfl
  · rfl
  · have hsigned : s.params.runSigned = true := by simpa using h
    simp [codedAt, hsigned]

/-- Without RUN_SIGNED a run value is its nibble (P17, R376). -/
theorem codedAt_unsigned (h : s.params.runSigned = false) :
    codedAt s .run last off
      = { value := (huffAt s (.bundle .run) off).1, bits := (huffAt s (.bundle .run) off).2, last := last } := by
  simp [codedAt, h]

end

/-- A value of bundle `b` lies in its range (R71). -/
def InBundleRange (b : BundleId) (v : Int) : Prop := if b = .colors ∨ b = .pattern then 0 ≤ v ∧ v ≤ 255 else -15 ≤ v ∧ v ≤ 15

/-- The bundles whose coded values are Huffman-coded (R358). -/
def HuffmanCoded (b : BundleId) : Prop := b = .colors ∨ b = .pattern ∨ b = .xOff ∨ b = .yOff ∨ b = .run

theorem inBundleRange_signed {b : BundleId} (hb : b = .xOff ∨ b = .yOff ∨ b = .run) {v : Int} :
    InBundleRange b v ↔ -15 ≤ v ∧ v ≤ 15 := by
  obtain rfl | rfl | rfl := hb <;> exact Iff.rfl

theorem codedAt_inRange {b : BundleId} (hb : HuffmanCoded b) (s : State) (last : BitVec 4) (off : Nat) :
    InBundleRange b (codedAt s b last off).value := by
  obtain rfl | rfl | hb := hb
  · have hhi := huffAt_lt s (.colHigh last) off
    have hlo := huffAt_lt s (.bundle .colors) (off + (huffAt s (.colHigh last) off).2)
    simp only [InBundleRange, codedAt, true_or, if_true]
    split <;> omega
  · have hlo := huffAt_lt s (.bundle .pattern) off
    have hhi := huffAt_lt s (.bundle .pattern) (off + (huffAt s (.bundle .pattern) off).2)
    simp only [InBundleRange, codedAt, or_true, if_true]
    omega
  · have hm := huffAt_lt s (.bundle b) off
    rw [inBundleRange_signed hb]
    by_cases hsigned : b = .run ∧ s.params.runSigned = false
    · obtain ⟨rfl, hsigned⟩ := hsigned
      rw [codedAt_unsigned s last off hsigned]
      dsimp only
      omega
    · rw [codedAt_signed s last off hb hsigned]
      exact signedAt_bounds s hm _

/-- A value takes at most two codes, or a code and a sign bit. -/
theorem codedAt_bits_le {b : BundleId} (hb : HuffmanCoded b) (s : State) (last : BitVec 4) (off : Nat) :
    (codedAt s b last off).bits ≤ 2 * s.params.vlcMaxLen := by
  obtain rfl | rfl | hb := hb
  · have hhi := huffAt_bits s (.colHigh last) off
    have hlo := huffAt_bits s (.bundle .colors) (off + (huffAt s (.colHigh last) off).2)
    simp only [codedAt]
    omega
  · have hlo := huffAt_bits s (.bundle .pattern) off
    have hhi := huffAt_bits s (.bundle .pattern) (off + (huffAt s (.bundle .pattern) off).2)
    simp only [codedAt]
    omega
  · have hm := huffAt_bits s (.bundle b) off
    by_cases hsigned : b = .run ∧ s.params.runSigned = false
    · obtain ⟨rfl, hsigned⟩ := hsigned
      rw [codedAt_unsigned s last off hsigned]
      dsimp only
      omega
    · have hsign := signedAt_bits_le s (huffAt s (.bundle b) off).1 (off + (huffAt s (.bundle b) off).2)
      rw [codedAt_signed s last off hb hsigned]
      dsimp only
      omega

/-- Only a color changes `colLast` (R366). -/
theorem codedAt_last {b : BundleId} (hb : b ≠ .colors) (s : State) (last : BitVec 4) (off : Nat) :
    (codedAt s b last off).last = last := by
  cases b with
  | colors => exact absurd rfl hb
  | _ => rfl

/-- From wherever a refill stands, `value` reads the coded value of bundle `b`. -/
def ReadsValues (s : State) (b : BundleId) (value : M Int) : Prop :=
  ∀ (t : State) (off : Nat), DecodesAhead s t off → BitsLeft s (off + (codedAt s b t.colLast off).bits) →
    value t = .ok (codedAt s b t.colLast off).value
      ((t.setPos (s.bitPos + (off + (codedAt s b t.colLast off).bits))).setColLast (codedAt s b t.colLast off).last)

/-- `Fold(v)` of a color byte (R367). -/
theorem fold_eq {v : Nat} (h : v < 256) : (fold v : Int) = ((if 128 ≤ (v : Int) then -((v : Int) - 128) else v) + 128) % 256 := by
  unfold fold
  split <;> split <;> omega

theorem decodeColor_readsValues (hw : (s.tree (.bundle .colors)).Written) (hhigh : ∀ i, (s.tree (.colHigh i)).Written) :
    ReadsValues s .colors decodeColor := by
  intro t off h hleft
  simp only [codedAt] at hleft ⊢
  rw [← Nat.add_assoc] at hleft
  have hhi : BitsLeft s (off + (huffAt s (.colHigh t.colLast) off).2) := hleft.mono (Nat.le_add_right _ _)
  have hcolor : (huffAt s (.colHigh t.colLast) off).1 * 16
      + (huffAt s (.bundle .colors) (off + (huffAt s (.colHigh t.colLast) off).2)).1 < 256 := by
    have := huffAt_lt s (.colHigh t.colLast) off
    have := huffAt_lt s (.bundle .colors) (off + (huffAt s (.colHigh t.colLast) off).2)
    omega
  rw [decodeColor, bind_of_ok (get_apply t), bind_of_ok (huff_ahead h (hhigh _) hhi), bind_of_ok (modify_apply _ _),
    bind_of_ok (huff_ahead ((h.setPos hhi).setColLast _) hw hleft), pure_apply, h.params, h.session,
    toNat_huffAt, toNat_huffAt, fold_eq hcolor, Nat.add_assoc off]
  push_cast
  rfl

theorem patternByte_readsValues (hw : (s.tree (.bundle .pattern)).Written) : ReadsValues s .pattern patternByte := by
  intro t off h hleft
  simp only [codedAt] at hleft ⊢
  rw [← Nat.add_assoc] at hleft
  have hlo : BitsLeft s (off + (huffAt s (.bundle .pattern) off).2) := hleft.mono (Nat.le_add_right _ _)
  rw [patternByte, bind_of_ok (huff_ahead h hw hlo), bind_of_ok (huff_ahead (h.setPos hlo) hw hleft), pure_apply,
    toNat_huffAt, toNat_huffAt, Nat.add_assoc off]
  push_cast
  rfl

theorem motionCoded_readsValues {b : BundleId} (hb : b = .xOff ∨ b = .yOff ∨ b = .run)
    (hsigned : ¬ (b = .run ∧ s.params.runSigned = false)) (hw : (s.tree (.bundle b)).Written) :
    ReadsValues s b (motionCoded b) := by
  intro t off h hleft
  rw [codedAt_signed s _ off hb hsigned] at hleft ⊢
  rw [← Nat.add_assoc] at hleft
  have hm : BitsLeft s (off + (huffAt s (.bundle b) off).2) := hleft.mono (Nat.le_add_right _ _)
  rw [motionCoded, bind_of_ok (huff_ahead h hw hm), toNat_huffAt,
    readSigned_ahead (h.setPos hm).toReadsAhead hleft, Nat.add_assoc off]
  rfl

/-- A run value is read as a motion value is, or, without RUN_SIGNED, as its nibble alone (P17, R376). -/
theorem runCoded_readsValues (hw : (s.tree (.bundle .run)).Written) : ReadsValues s .run runCoded := by
  intro t off h hleft
  have hm : BitsLeft s (off + (huffAt s (.bundle .run) off).2) := hleft.mono (by simp only [codedAt]; omega)
  rw [runCoded, bind_of_ok (huff_ahead h hw hm), bind_of_ok (get_apply _), State.setPos_params, h.params]
  cases hsigned : s.params.runSigned with
  | true =>
    have hmotion := motionCoded_readsValues (Or.inr (Or.inr rfl)) (by simp [hsigned]) hw t off h hleft
    rw [motionCoded, bind_of_ok (huff_ahead h hw hm)] at hmotion
    rwa [if_pos rfl]
  | false =>
    rw [if_neg Bool.false_ne_true, codedAt_unsigned s _ off hsigned, pure_apply, toNat_huffAt]
    rfl

/-! ## Many values -/

section
variable (s : State) (b : BundleId)

/-- One value more: the coded value where the run so far ends. -/
def CodedRun.next (x : CodedRun) : CodedRun :=
  { values := x.values ++ [(codedAt s b x.last x.off).value], off := x.off + (codedAt s b x.last x.off).bits
    last := (codedAt s b x.last x.off).last }

theorem codedMany_succ (n : Nat) (x : CodedRun) : codedMany s b (n + 1) x = codedMany s b n (x.next s b) := rfl

theorem codedMany_length (n : Nat) (x : CodedRun) : (codedMany s b n x).values.length = x.values.length + n := by
  induction n generalizing x with
  | zero => rfl
  | succ n ih => rw [codedMany_succ, ih, CodedRun.next, List.length_append, List.length_singleton, Nat.add_assoc, Nat.add_comm 1]

theorem le_codedMany_off (n : Nat) (x : CodedRun) : x.off ≤ (codedMany s b n x).off := by
  induction n generalizing x with
  | zero => exact Nat.le_refl _
  | succ n ih => exact Nat.le_trans (Nat.le_add_right _ _) (ih (x.next s b))

variable {b}

theorem codedMany_off_le (hb : HuffmanCoded b) (n : Nat) (x : CodedRun) :
    (codedMany s b n x).off ≤ x.off + 2 * s.params.vlcMaxLen * n := by
  induction n generalizing x with
  | zero => exact Nat.le_refl _
  | succ n ih =>
    have hnext := ih (x.next s b)
    have hbits := codedAt_bits_le hb s x.last x.off
    rw [codedMany_succ, Nat.mul_succ]
    simp only [CodedRun.next] at hnext ⊢
    omega

theorem codedMany_last (hb : b ≠ .colors) (n : Nat) (x : CodedRun) : (codedMany s b n x).last = x.last := by
  induction n generalizing x with
  | zero => rfl
  | succ n ih => rw [codedMany_succ, ih, CodedRun.next, codedAt_last hb]

theorem codedMany_inRange (hb : HuffmanCoded b) (n : Nat) {x : CodedRun} (hx : ∀ v ∈ x.values, InBundleRange b v) :
    ∀ v ∈ (codedMany s b n x).values, InBundleRange b v := by
  induction n generalizing x with
  | zero => exact hx
  | succ n ih =>
    refine ih (x := x.next s b) (List.forall_mem_append.mpr ⟨hx, ?_⟩)
    exact List.forall_mem_singleton.mpr (codedAt_inRange hb s x.last x.off)

end

/-! ## Refills (R357, R358) -/

@[simp] theorem Bundle.store_nil (x : Bundle) : x.store [] = x := rfl

theorem Bundle.push_store (x : Bundle) (vs : List Int) (v : Int) : (x.store vs).push v = x.store (vs ++ [v]) := by
  simp only [Bundle.store, Bundle.push, Cells.setFrom_append, List.length_append, List.length_singleton, Nat.add_assoc]
  rfl

theorem Bundle.fill_eq_store (x : Bundle) (v : Int) (n : Nat) : x.fill v n = x.store (List.replicate n v) := by
  rw [Bundle.fill_eq, Bundle.store, List.length_replicate]

@[simp] theorem State.setBundle_self (s : State) (b : BundleId) : s.setBundle b (s.bundle b) = s := by cases b <;> rfl

/-- The state of `s` in which the refill of bundle `b` has read and stored the run `x`. -/
def State.refilling (s : State) (b : BundleId) (x : CodedRun) : State :=
  ((s.setBundle b ((s.bundle b).store x.values)).setPos (s.bitPos + x.off)).setColLast x.last

theorem State.refilling_start (s : State) (b : BundleId) : s.refilling b { values := [], off := 0, last := s.colLast } = s := by
  rw [State.refilling, Bundle.store_nil, State.setBundle_self, Nat.add_zero, State.setPos_bitPos]
  rfl

theorem State.refilling_bundle (s : State) (b : BundleId) (x : CodedRun) :
    (s.refilling b x).bundle b = (s.bundle b).store x.values := s.bundle_setBundle_same b _

theorem DecodesAhead.refilling (b : BundleId) {x : CodedRun} (hleft : BitsLeft s x.off) :
    DecodesAhead s (s.refilling b x) x.off := (((refl s).setBundle (x := (s.bundle b).store x.values) rfl).setPos hleft).setColLast _

/-- Setting the same bundle again replaces it. -/
theorem State.setBundle_setBundle (s : State) (b : BundleId) (x y : Bundle) : (s.setBundle b x).setBundle b y = s.setBundle b y := by
  cases b <;> rfl

/-- Storing the value read is one value more of the run. -/
theorem pushValue_refilling (s : State) (b : BundleId) (x : CodedRun) :
    pushValue b (codedAt s b x.last x.off).value
        (((s.refilling b x).setPos (s.bitPos + (x.next s b).off)).setColLast (x.next s b).last)
      = .ok () (s.refilling b (x.next s b)) := by
  have hbundle : (((s.refilling b x).setPos (s.bitPos + (x.next s b).off)).setColLast (x.next s b).last).bundle b
      = (s.bundle b).store x.values := s.refilling_bundle b x
  have hset : ∀ y, (((s.refilling b x).setPos (s.bitPos + (x.next s b).off)).setColLast (x.next s b).last).setBundle b y
      = (((s.setBundle b ((s.bundle b).store x.values)).setBundle b y).setPos (s.bitPos + (x.next s b).off)).setColLast
          (x.next s b).last := fun _ => rfl
  rw [pushValue_apply, hbundle, Bundle.push_store, hset, State.setBundle_setBundle]
  rfl

theorem pushMany_refilling {b : BundleId} {value : M Int} (hv : ReadsValues s b value) (n : Nat) (x : CodedRun)
    (hleft : BitsLeft s (codedMany s b n x).off) :
    pushMany b value n (s.refilling b x) = .ok () (s.refilling b (codedMany s b n x)) := by
  induction n generalizing x with
  | zero => rfl
  | succ n ih =>
    have hnext : BitsLeft s (x.next s b).off := hleft.mono (le_codedMany_off s b n (x.next s b))
    have hread : value (s.refilling b x) = .ok (codedAt s b x.last x.off).value
        (((s.refilling b x).setPos (s.bitPos + (x.next s b).off)).setColLast (x.next s b).last) :=
      hv _ _ (.refilling b (hnext.mono (Nat.le_add_right _ _))) hnext
    rw [pushMany, bind_of_ok hread, bind_of_ok (pushValue_refilling s b x)]
    exact ih _ hleft

/-- The next bundle is in hand after a refill (R356). -/
theorem nextRefill_of_refillAt {u : State} {b : BundleId} {rest : List BundleId} {n : Nat} (h : RefillAt s b rest n)
    (hctl : u.ctl = s.ctl) : nextRefill u = .ok () (u.setCtl { s.ctl with refills := rest }) := by
  obtain ⟨hphase, hrefills, -⟩ := h
  rw [nextRefill_apply, hctl, hrefills, List.tail_cons, ← hphase]

/-- A refill whose values are coded one by one stores them (R358). -/
theorem refillEach_completes {b : BundleId} {rest : List BundleId} {n : BitVec 32} {value : M Int} (hat : RefillAt s b rest n.toNat)
    (hv : ReadsValues s b value) (hleft : BitsLeft s (codedValues s b n.toNat).off) :
    refillEach b n value s
      = .ok () ((s.refilling b (codedValues s b n.toNat)).setCtl { s.ctl with refills := rest }) := by
  have hmany := pushMany_refilling hv n.toNat { values := [], off := 0, last := s.colLast } hleft
  rw [State.refilling_start] at hmany
  rw [refillEach, bind_of_ok (beginRefill_of_refillAt hat), bind_of_ok hmany]
  exact nextRefill_of_refillAt hat rfl

/-- A refill whose values are one constant stores its copies (R358). -/
theorem refillConstant_completes {b : BundleId} {rest : List BundleId} {n : BitVec 32} {value : M Int}
    (hat : RefillAt s b rest n.toNat) (hv : ReadsValues s b value) (hleft : BitsLeft s (codedAt s b s.colLast 0).bits) :
    refillConstant b n value s
      = .ok () ((s.refilling b { values := List.replicate n.toNat (codedAt s b s.colLast 0).value
                                 off := (codedAt s b s.colLast 0).bits, last := (codedAt s b s.colLast 0).last }).setCtl
          { s.ctl with refills := rest }) := by
  have hread := hv s 0 (.refl s) (by rwa [Nat.zero_add])
  rw [Nat.zero_add] at hread
  rw [refillConstant, bind_of_ok (beginRefill_of_refillAt hat), bind_of_ok hread, bind_of_ok (fillValue_apply _ _ _ _),
    Bundle.fill_eq_store]
  exact nextRefill_of_refillAt hat rfl

/-- How a value of a Huffman-coded bundle is read (R366, R370, R373, R376). -/
def huffmanReader : BundleId → M Int
  | .colors => decodeColor
  | .pattern => patternByte
  | .run => runCoded
  | b => motionCoded b

theorem exec_refillCoded {b : BundleId} (hb : HuffmanCoded b) (n : BitVec 32) (s : State) :
    exec (refillCoded b n) s = run (refillEach b n (huffmanReader b)) s := by
  obtain rfl | rfl | rfl | rfl | rfl := hb <;> rfl

theorem exec_refillConst {b : BundleId} (hb : b = .colors ∨ b = .pattern) (n : BitVec 32) (s : State) :
    exec (refillConst b n) s = run (refillConstant b n (huffmanReader b)) s := by
  obtain rfl | rfl := hb <;> rfl

theorem huffmanReader_readsValues {b : BundleId} (hb : HuffmanCoded b) (hw : (s.bundle b).tree.Written)
    (hhigh : b = .colors → ∀ i, (s.tree (.colHigh i)).Written) : ReadsValues s b (huffmanReader b) := by
  obtain rfl | rfl | rfl | rfl | rfl := hb
  · exact decodeColor_readsValues hw (hhigh rfl)
  · exact patternByte_readsValues hw
  · exact motionCoded_readsValues (Or.inl rfl) nofun hw
  · exact motionCoded_readsValues (Or.inr (Or.inl rfl)) nofun hw
  · exact runCoded_readsValues hw

/-- Settles O15: each value is read from where the one before ends (`pushMany_refilling`), its codes being those ahead
(`codeAhead_leafAt`). -/
theorem refillHuffmanComplete : Obligations.RefillHuffmanComplete := by
  intro b n s hb
  have hrange : ∀ v ∈ (codedValues s b n.toNat).values, InBundleRange b v := codedMany_inRange s hb _ (fun _ h => nomatch h)
  refine ⟨(codedMany_length s b _ _).trans (Nat.zero_add _), (codedMany_off_le s hb _ _).trans (Nat.le_of_eq (Nat.zero_add _)),
    fun hne => ⟨codedMany_last s hne _ _, codedAt_last hne s _ _⟩,
    List.forall_mem_cons.mpr ⟨codedAt_inRange hb s _ _, hrange⟩, fun rest hat hw hhigh => ?_⟩
  have hv := huffmanReader_readsValues hb hw hhigh
  refine ⟨fun hleft => ?_, fun hconst hleft => ?_⟩
  · rw [exec_refillCoded hb]
    exact run_of_ok (refillEach_completes hat hv hleft)
  · rw [exec_refillConst hconst]
    exact run_of_ok (refillConstant_completes hat hv hleft)

end Sys2Proof.Machine
end

/-! # Refills without a Huffman code, and the refill test (R357 to R362, R373, R376) -/

section
namespace Sys2Proof.Machine

variable {s t : State} {b : BundleId} {rest : List BundleId}

/-! ## A signed magnitude (R23) -/

/-- The sign bit does not move a magnitude of 0. -/
theorem signedAt_value (s : State) (m off : Nat) : (signedAt s m off).1 = if bitsAt s off 1 = 1 then -(m : Int) else m := by
  unfold signedAt
  split
  next hm => simp [hm]
  next => rfl

/-- A sign bit follows a magnitude that is not 0. -/
theorem signedAt_bits (s : State) (m off : Nat) : (signedAt s m off).2 = if m = 0 then 0 else 1 := by
  unfold signedAt
  split <;> rfl

/-- The bits of a magnitude and of its sign. -/
theorem add_signedAt_bits (s : State) (m off n : Nat) : n + (signedAt s m off).2 = if m = 0 then n else n + 1 := by
  rw [signedAt_bits]
  split <;> rfl

/-- A raw magnitude of `n` bits, with its sign behind it. -/
theorem getBits_readSigned {n : Nat} (h1 : 1 ≤ n) (h32 : n ≤ 32) (hleft : BitsLeft s (n + (signedAt s (bitsAt s 0 n) n).2)) :
    (getBits n >>= readSigned) s
      = .ok (signedAt s (bitsAt s 0 n) n).1 (s.setPos (s.bitPos + (n + (signedAt s (bitsAt s 0 n) n).2))) := by
  have hmag : BitsLeft s n := hleft.mono (Nat.le_add_right _ _)
  rw [bind_of_ok (getBits_apply h1 h32 hmag), readSigned_ahead ((ReadsAhead.refl s).setPos hmag) hleft]
  rfl

/-! ## REFILL_DONE and the refill test (R357) -/

/-- RowRefill goes on with the next bundle, whatever the one at hand holds (R356). -/
theorem nextRefill_of_refill {u : State} (hphase : s.ctl.phase = .refill) (hrefills : s.ctl.refills = b :: rest)
    (hctl : u.ctl = s.ctl) : nextRefill u = .ok () (u.setCtl { s.ctl with refills := rest }) := by
  rw [nextRefill_apply, hctl, hrefills, List.tail_cons, ← hphase]

/-- Settles O12: the bundle at hand is marked and RowRefill goes on. -/
theorem refillDoneCompletes : Obligations.RefillDoneCompletes := by
  intro s b rest hphase hrefills
  show run _ s = _
  refine run_of_ok ?_
  rw [bind_of_ok (currentRefill_of_refill hphase hrefills), bind_of_ok (modify_apply _ _)]
  exact nextRefill_of_refill hphase hrefills rfl

theorem sequence_of_refill (hphase : s.ctl.phase = .refill) : sequence s = refillStep s := by
  simp only [sequence, bind_of_ok (get_apply s), hphase]

/-- A bundle that is done or still holds values is skipped (R357). -/
theorem refillStep_skip (hphase : s.ctl.phase = .refill) (hrefills : s.ctl.refills = b :: rest)
    (h : (s.bundle b).done = true ∨ (s.bundle b).rd < (s.bundle b).wr) :
    refillStep s = .ok none (s.setCtl { s.ctl with refills := rest }) := by
  have hskip : ((s.bundle b).done || decide ((s.bundle b).rd < (s.bundle b).wr)) = true := by simpa using h
  simp only [refillStep, bind_of_ok (get_apply s), hrefills, if_pos hskip]
  rw [bind_of_ok (nextRefill_of_refill hphase hrefills rfl), pure_apply]

theorem refillStep_fetch (hrefills : s.ctl.refills = b :: rest) (hdone : (s.bundle b).done = false)
    (hempty : (s.bundle b).wr ≤ (s.bundle b).rd) : refillStep s = fetchRefill b s := by
  have hskip : ¬ ((s.bundle b).done || decide ((s.bundle b).rd < (s.bundle b).wr)) = true := by simp [hdone, hempty]
  simp only [refillStep, bind_of_ok (get_apply s), hrefills, if_neg hskip]

/-- A count above the room raises before an escape bit is read (R72, R357). -/
theorem fetchRefill_overflow (h1 : 1 ≤ (s.bundle b).len) (h32 : (s.bundle b).len ≤ 32) (hleft : BitsLeft s (s.bundle b).len)
    (ht : bitsAt s 0 (s.bundle b).len ≠ 0) (hroom : (s.bundle b).cap < (s.bundle b).wr + bitsAt s 0 (s.bundle b).len) :
    fetchRefill b s = .error (.raised .bundleOverflow) (s.setPos (s.bitPos + (s.bundle b).len)) := by
  rw [fetchRefill, bind_of_ok (get_apply s), bind_of_ok (getBits_apply h1 h32 hleft), if_neg ht]
  exact bind_of_error (check_of_false _ _ (decide_eq_false (Nat.not_le_of_lt hroom)))

/-- Settles O19: the test skips the bundle before any bit is read, and the capacity check ends the frame after the count. -/
theorem refillTest : Obligations.RefillTest := by
  intro s b rest hphase hrefills
  refine ⟨fun hskip => step_of_alone ((sequence_of_refill hphase).trans (refillStep_skip hphase hrefills hskip)),
    fun hdone hempty h1 h32 hleft ht hroom => ?_⟩
  have hraise := fetchRefill_overflow h1 h32 hleft ht hroom
  rw [← refillStep_fetch hrefills hdone hempty, ← sequence_of_refill hphase] at hraise
  exact (step_of_raised hraise).trans (congrArg _ (takeError_eq_afterDecodeError _ rfl))

/-! ## Raw constants (R361, R373, R376) -/

/-- A constant read from `n` bits is stored in all its copies (R358). -/
theorem refillConstant_stores {count : BitVec 32} {value : M Int} {v : Int} {n : Nat} (hat : RefillAt s b rest count.toNat)
    (hread : value s = .ok v (s.setPos (s.bitPos + n))) :
    run (refillConstant b count value) s
      = .next (((s.setBundle b ((s.bundle b).store (List.replicate count.toNat v))).setPos (s.bitPos + n)).setCtl
          { s.ctl with refills := rest }) := by
  refine run_of_ok ?_
  rw [refillConstant, bind_of_ok (beginRefill_of_refillAt hat), bind_of_ok hread, bind_of_ok (fillValue_apply _ _ _ _),
    Bundle.fill_eq_store]
  exact nextRefill_of_refillAt hat rfl

theorem blockTypeConst_apply (hleft : BitsLeft s 4) :
    blockTypeConst s = .ok (bitsAt s 0 4 : Int) (s.setPos (s.bitPos + 4)) := by
  rw [blockTypeConst, bind_of_ok (getBits_apply (by decide) (by decide) hleft), pure_apply]

/-- The symbol loop is opened (R360). -/
theorem refillSymbols_opens {count : BitVec 32} (hat : RefillAt s b rest count.toNat) :
    run (refillSymbols b count) s
      = .next (s.setCtl { s.ctl with phase := .btSym, stop := (s.bundle b).wr + count.toNat, lastLit := 0 }) := by
  refine run_of_ok ?_
  rw [refillSymbols, bind_of_ok (beginRefill_of_refillAt hat)]
  rfl

/-- Settles O13: both block-type bundles read the raw nibble and open the same loop. -/
theorem refillBlockTypesComplete : Obligations.RefillBlockTypesComplete := by
  intro b count s rest hb hat
  have hconst : exec (refillConst b count) s = run (refillConstant b count blockTypeConst) s := by
    obtain rfl | rfl := hb <;> rfl
  have hcoded : exec (refillCoded b count) s = run (refillSymbols b count) s := by
    obtain rfl | rfl := hb <;> rfl
  exact ⟨fun hleft => hconst.trans (refillConstant_stores hat (blockTypeConst_apply hleft)),
    hcoded.trans (refillSymbols_opens hat)⟩

theorem motionConst_apply (hleft : BitsLeft s 5) :
    motionConst s = .ok (if bitsAt s 4 1 = 1 then -(bitsAt s 0 4 : Int) else bitsAt s 0 4)
      (s.setPos (s.bitPos + if bitsAt s 0 4 = 0 then 4 else 5)) := by
  have hbits : 4 + (signedAt s (bitsAt s 0 4) 4).2 = if bitsAt s 0 4 = 0 then 4 else 5 := add_signedAt_bits s _ 4 4
  rw [← signedAt_value, ← hbits]
  exact getBits_readSigned (by decide) (by decide) (hleft.mono (by rw [hbits]; split <;> decide))

/-- With RUN_SIGNED a run constant is read as a motion constant is (P17, R376). -/
theorem runConst_signed (h : s.params.runSigned = true) (hleft : BitsLeft s 5) : runConst s = motionConst s := by
  have hread := getBits_apply (by decide) (by decide) (hleft.mono (n := 4) (by decide))
  rw [runConst, motionConst, bind_of_ok hread, bind_of_ok hread, bind_of_ok (get_apply _), State.setPos_params, h, if_pos rfl]

/-- Without RUN_SIGNED a run constant is its nibble (P17, R376). -/
theorem runConst_unsigned (h : s.params.runSigned = false) (hleft : BitsLeft s 4) :
    runConst s = .ok (bitsAt s 0 4 : Int) (s.setPos (s.bitPos + 4)) := by
  rw [runConst, bind_of_ok (getBits_apply (by decide) (by decide) hleft), bind_of_ok (get_apply _), State.setPos_params, h]
  rfl

/-- How the signed constant of a bundle is read (R373, R376). -/
def constReader : BundleId → M Int
  | .run => runConst
  | _ => motionConst

theorem exec_refillConst_signed (hb : b = .xOff ∨ b = .yOff ∨ b = .run) (n : BitVec 32) (s : State) :
    exec (refillConst b n) s = run (refillConstant b n (constReader b)) s := by
  obtain rfl | rfl | rfl := hb <;> rfl

theorem constReader_signed (h : ¬ (b = .run ∧ s.params.runSigned = false)) (hleft : BitsLeft s 5) :
    constReader b s = motionConst s := by
  cases b with
  | run => exact runConst_signed (by simpa using h) hleft
  | _ => rfl

/-- Settles O14: every constant but an unsigned run is a motion constant. -/
theorem refillSignedConstComplete : Obligations.RefillSignedConstComplete := by
  intro b count s rest hb hat hleft
  dsimp only
  rw [exec_refillConst_signed hb]
  refine refillConstant_stores hat ?_
  by_cases hunsigned : b = .run ∧ s.params.runSigned = false
  · rw [if_neg fun h => h.2 hunsigned, if_pos (Or.inr hunsigned)]
    obtain ⟨rfl, hunsigned⟩ := hunsigned
    exact runConst_unsigned hunsigned (hleft.mono (by decide))
  · rw [constReader_signed hunsigned hleft, motionConst_apply hleft]
    simp only [hunsigned, not_false_eq_true, and_true, or_false]

end Sys2Proof.Machine
end

/-! # Block-type symbols (R360, R362) -/

section
namespace Sys2Proof.Machine

variable {s : State} {b : BundleId} {rest : List BundleId}

theorem currentSymbols_of_btSym (hphase : s.ctl.phase = .btSym) (hrefills : s.ctl.refills = b :: rest)
    (hroom : (s.bundle b).wr < s.ctl.stop) : currentSymbols s = .ok b s := by
  rw [currentSymbols, bind_of_ok (get_apply s), bind_of_ok (atPhase_of_eq hphase), hrefills]
  exact bind_of_ok (demand_of_true _ s (decide_eq_true hroom))

theorem exec_btsymLiteral {v : Nat} {i : Instr} (hv : v < 12) (hd : decode .btsym v = .ok i) (s : State) :
    exec i s = run (symbolLiteral v) s := by
  change decodeBtsym v = .ok i at hd
  unfold decodeBtsym at hd
  split at hd <;> cases hd
  case h_13 | h_14 | h_15 | h_16 => exact absurd hv (by decide)
  all_goals rfl

/-- Settles O20: a literal is remembered and stored at the write cursor. -/
theorem btsymLiteralsComplete : Obligations.BtsymLiteralsComplete := by
  intro v i s b rest hv hd hphase hrefills hroom
  rw [exec_btsymLiteral hv hd]
  refine run_of_ok ?_
  rw [symbolLiteral, bind_of_ok (currentSymbols_of_btSym hphase hrefills hroom), bind_of_ok (modify_apply _ _)]
  rfl

theorem exec_btsymRun {i : Instr} {k : Nat}
    (h : (i, k) ∈ [(Instr.btsymRun4, 0), (.btsymRun8, 1), (.btsymRun12, 2), (.btsymRun32, 3)]) (s : State) :
    exec i s = run (symbolRun k) s := by
  simp only [List.mem_cons, List.not_mem_nil, or_false, Prod.mk.injEq] at h
  obtain ⟨rfl, rfl⟩ | ⟨rfl, rfl⟩ | ⟨rfl, rfl⟩ | ⟨rfl, rfl⟩ := h <;> rfl

/-- Settles O21: the run is checked against the refill's end before any copy is stored. -/
theorem btsymRunsComplete : Obligations.BtsymRunsComplete := by
  refine ⟨rfl, fun i k s b rest hik => ?_⟩
  intro n hphase hrefills hroom
  rw [exec_btsymRun hik]
  split
  next hfits =>
    refine run_of_ok ?_
    rw [symbolRun, bind_of_ok (currentSymbols_of_btSym hphase hrefills hroom), bind_of_ok (get_apply s),
      bind_of_ok (check_of_true _ s (decide_eq_true hfits)), fillValue_apply, Bundle.fill_eq_store]
  next hfits =>
    refine (run_of_raised (c := .blocktypeRunOverrun) ?_).trans (congrArg _ (takeError_eq_afterDecodeError s rfl))
    rw [symbolRun, bind_of_ok (currentSymbols_of_btSym hphase hrefills hroom), bind_of_ok (get_apply s)]
    exact bind_of_error (check_of_false _ s (decide_eq_false hfits))

end Sys2Proof.Machine
end

/-! # DecodeColor under shape 0 (R312, R366, R367) -/

section
namespace Sys2Proof.Machine

/-- Under shape 0 with its code of P3 the leaf is the nibble ahead (R311, R312). -/
theorem huff_shapeZero {s t : State} {r : TreeRef} {off : Nat} {v : BitVec 4} (h : DecodesAhead s t off)
    (hcode : s.params.codes 0 = identityCode) (hshape : (s.tree r).shape = 0) (hleft : BitsLeft s (off + 4))
    (hsym : Cells.get (s.tree r).syms (bitsAt s off 4) = some v) : huff r t = .ok v (t.setPos (s.bitPos + (off + 4))) := by
  have hread := decodeSymbol_zero_fits (h.params.symm ▸ hcode) (h.bitsLeft.mpr hleft)
  rw [h.bitsAt, h.pos, Nat.add_zero, Nat.add_assoc] at hread
  rw [huff, bind_of_ok (get_apply t), h.tree, hshape, bind_of_ok hread, BitVec.toNat_ofNat, Nat.mod_eq_of_lt (bitsAt_lt s off 4),
    hsym, getOr_some]

/-- Settles O18: two nibbles are read, the second 4 bits on, and `fold` is R367's. -/
theorem decodeColorShapeZero : Obligations.DecodeColorShapeZero := by
  refine ⟨fun ver => (sourceParams_byVersion ver).1, fun s hi lo hcode hhigh hlow hleft hhi hlo => ?_⟩
  have hfirst : BitsLeft s 4 := hleft.mono (by decide)
  have hcolor : hi.toNat * 16 + lo.toNat < 256 := by omega
  rw [decodeColor, bind_of_ok (get_apply s), bind_of_ok (huff_shapeZero (.refl s) hcode hhigh hfirst hhi),
    bind_of_ok (modify_apply _ _),
    bind_of_ok (huff_shapeZero (r := .bundle .colors) (((DecodesAhead.refl s).setPos hfirst).setColLast hi) hcode hlow hleft hlo),
    pure_apply, fold_eq hcolor]
  push_cast
  rfl

end Sys2Proof.Machine
end

/-! # DC refills (R380 to R382)

A DC refill follows `dcValues` value by value: at each place the state is `s` with the values so far stored and their bits taken
(`State.dcRefilling`), and it ends there or, where the running value leaves its range, in the error (`State.dcResult`). -/

section
namespace Sys2Proof.Machine

variable {s : State} {b : BundleId} {w n : Nat} {x : DcRun}

/-! ## One value (R380 to R382) -/

/-- The delta of width `w` ahead of a DC refill, and the bits it takes. -/
def DcRun.delta (x : DcRun) (s : State) (w : Nat) : Int × Nat :=
  ((signedAt s (bitsAt s x.off w) (x.off + w)).1, w + (signedAt s (bitsAt s x.off w) (x.off + w)).2)

/-- One value more of a group of width `w`: the running value, for width 0, else the running value moved by the delta ahead, in
its range. -/
def DcRun.next (x : DcRun) (s : State) (w : Nat) : DcRun :=
  if w = 0 then { x with values := x.values ++ [x.value] }
  else if -32768 ≤ x.value + (x.delta s w).1 ∧ x.value + (x.delta s w).1 ≤ 32767 then
    { values := x.values ++ [x.value + (x.delta s w).1], value := x.value + (x.delta s w).1, off := x.off + (x.delta s w).2
      inRange := true }
  else { x with off := x.off + (x.delta s w).2, inRange := false }

theorem DcRun.next_zero (x : DcRun) (s : State) : x.next s 0 = { x with values := x.values ++ [x.value] } := rfl

theorem DcRun.le_next_off (x : DcRun) (s : State) (w : Nat) : x.off ≤ (x.next s w).off := by
  unfold DcRun.next
  split
  · exact Nat.le_refl _
  · split <;> exact Nat.le_add_right _ _

theorem DcRun.length_next_values (x : DcRun) (s : State) (w : Nat) (h : (x.next s w).inRange = true) :
    (x.next s w).values.length = x.values.length + 1 := by
  unfold DcRun.next at h ⊢
  split
  next => exact List.length_append
  next hzero =>
    split
    next => exact List.length_append
    next hin => rw [if_neg hzero, if_neg hin] at h; cases h

/-- The values stored and the running one are s16 (R71, R381). -/
def DcRun.Bounded (x : DcRun) : Prop := ∀ v ∈ x.value :: x.values, -32768 ≤ v ∧ v ≤ 32767

theorem DcRun.Bounded.next (h : x.Bounded) (s : State) (w : Nat) : (x.next s w).Bounded := by
  obtain ⟨hvalue, hvalues⟩ := List.forall_mem_cons.mp h
  unfold DcRun.next
  split
  · exact List.forall_mem_cons.mpr ⟨hvalue, List.forall_mem_append.mpr ⟨hvalues, List.forall_mem_singleton.mpr hvalue⟩⟩
  · split
    next hin =>
      exact List.forall_mem_cons.mpr ⟨hin, List.forall_mem_append.mpr ⟨hvalues, List.forall_mem_singleton.mpr hin⟩⟩
    next => exact h

/-! ## Groups -/

/-- Out of range nothing more is read. -/
theorem dcGroupAt_outOfRange (s : State) (w n : Nat) (h : x.inRange = false) : dcGroupAt s w n x = x := by
  cases n with
  | zero => rfl
  | succ n => rw [dcGroupAt, if_pos h]

theorem inRange_of_dcGroupAt (h : (dcGroupAt s w n x).inRange = true) : x.inRange = true := by
  cases hx : x.inRange with
  | false => rwa [dcGroupAt_outOfRange s w n hx, hx] at h
  | true => rfl

theorem dcGroupAt_succ (h : x.inRange = true) : dcGroupAt s w (n + 1) x = dcGroupAt s w n (x.next s w) := by
  rw [dcGroupAt, if_neg (by simp [h]), DcRun.next]
  split
  next => rfl
  next =>
    have hoff : x.off + (x.delta s w).2 = x.off + w + (signedAt s (bitsAt s x.off w) (x.off + w)).2 :=
      (Nat.add_assoc _ _ _).symm
    rw [hoff]
    by_cases hin : -32768 ≤ x.value + (x.delta s w).1 ∧ x.value + (x.delta s w).1 ≤ 32767
    · rw [if_pos hin]
      exact if_pos hin
    · rw [if_neg hin, dcGroupAt_outOfRange s w n (by rfl)]
      exact if_neg hin

theorem dcGroupsAt_outOfRange (s : State) (g rem : Nat) (h : x.inRange = false) : dcGroupsAt s g rem x = x := by
  cases g with
  | zero => rfl
  | succ g => rw [dcGroupsAt, if_pos h]

theorem inRange_of_dcGroupsAt {g rem : Nat} (h : (dcGroupsAt s g rem x).inRange = true) : x.inRange = true := by
  cases hx : x.inRange with
  | false => rwa [dcGroupsAt_outOfRange s g rem hx, hx] at h
  | true => rfl

/-- The run after the width of its next group was read. -/
def DcRun.header (x : DcRun) : DcRun := { x with off := x.off + 4 }

theorem dcGroupsAt_succ {g rem : Nat} (h : x.inRange = true) :
    dcGroupsAt s (g + 1) rem x = dcGroupsAt s g (rem - 8) (dcGroupAt s (bitsAt s x.off 4) (min rem 8) x.header) := by
  rw [dcGroupsAt, if_neg (by simp [h])]
  rfl

/-- What every value keeps, a group keeps. -/
theorem dcGroupAt_keeps {P : DcRun → Prop} (hnext : ∀ x : DcRun, P x → P (x.next s w)) (h : P x) : P (dcGroupAt s w n x) := by
  induction n generalizing x with
  | zero => exact h
  | succ n ih =>
    cases hx : x.inRange with
    | false => rwa [dcGroupAt_outOfRange s w _ hx]
    | true => rw [dcGroupAt_succ hx]; exact ih (hnext x h)

/-- What every value and every header keeps, the groups keep. -/
theorem dcGroupsAt_keeps {P : DcRun → Prop} (hnext : ∀ (w : Nat) (x : DcRun), P x → P (x.next s w))
    (hheader : ∀ x : DcRun, P x → P x.header) (g rem : Nat) (h : P x) : P (dcGroupsAt s g rem x) := by
  induction g generalizing rem x with
  | zero => exact h
  | succ g ih =>
    cases hx : x.inRange with
    | false => rwa [dcGroupsAt_outOfRange s _ rem hx]
    | true => rw [dcGroupsAt_succ hx]; exact ih _ (dcGroupAt_keeps (hnext _) (hheader x h))

theorem le_dcGroupAt_off (s : State) (w n : Nat) (x : DcRun) : x.off ≤ (dcGroupAt s w n x).off :=
  dcGroupAt_keeps (P := fun y => x.off ≤ y.off) (fun y h => Nat.le_trans h (y.le_next_off s w)) (Nat.le_refl _)

theorem le_dcGroupsAt_off (s : State) (g rem : Nat) (x : DcRun) : x.off ≤ (dcGroupsAt s g rem x).off :=
  dcGroupsAt_keeps (P := fun y => x.off ≤ y.off) (fun w y h => Nat.le_trans h (y.le_next_off s w))
    (fun _ h => Nat.le_trans h (Nat.le_add_right _ 4)) g rem (Nat.le_refl _)

theorem length_dcGroupAt_values (h : (dcGroupAt s w n x).inRange = true) :
    (dcGroupAt s w n x).values.length = x.values.length + n := by
  induction n generalizing x with
  | zero => rfl
  | succ n ih =>
    have hx := inRange_of_dcGroupAt h
    rw [dcGroupAt_succ hx] at h ⊢
    rw [ih h, x.length_next_values s w (inRange_of_dcGroupAt h), Nat.add_assoc, Nat.add_comm 1]

/-- Groups of 8 that are enough for the values left store all of them, or leave the range. -/
theorem length_dcGroupsAt_values {g rem : Nat} (hg : rem ≤ 8 * g) (h : (dcGroupsAt s g rem x).inRange = true) :
    (dcGroupsAt s g rem x).values.length = x.values.length + rem := by
  induction g generalizing rem x with
  | zero => rw [Nat.le_zero.mp hg]; rfl
  | succ g ih =>
    have hx := inRange_of_dcGroupsAt h
    rw [dcGroupsAt_succ hx] at h ⊢
    rw [ih (by omega) h, length_dcGroupAt_values (inRange_of_dcGroupsAt h)]
    show x.values.length + min rem 8 + (rem - 8) = _
    omega

/-- A group of width 0 repeats the running value (R380). -/
theorem dcGroupAt_zero (h : x.inRange = true) :
    dcGroupAt s 0 n x = { x with values := x.values ++ List.replicate n x.value } := by
  induction n generalizing x with
  | zero => rw [List.replicate_zero, List.append_nil]; rfl
  | succ n ih => rw [dcGroupAt_succ h, DcRun.next_zero, ih (by exact h), List.append_assoc]; rfl

theorem dcGroupsAt_zero {g rem : Nat} (hx : x.inRange = true) (hg : rem ≤ 8 * g)
    (hw : ∀ i, i < g → bitsAt s (x.off + 4 * i) 4 = 0) :
    dcGroupsAt s g rem x = { x with values := x.values ++ List.replicate rem x.value, off := x.off + 4 * g } := by
  induction g generalizing rem x with
  | zero => rw [Nat.le_zero.mp hg, List.replicate_zero, List.append_nil]; rfl
  | succ g ih =>
    have hfirst : bitsAt s x.off 4 = 0 := hw 0 (Nat.succ_pos g)
    rw [dcGroupsAt_succ hx, hfirst, dcGroupAt_zero (x := x.header) hx, ih (by exact hx) (by omega) fun i hi => by
      have := hw (i + 1) (by omega)
      rwa [Nat.mul_succ, Nat.add_comm (4 * i), ← Nat.add_assoc] at this]
    have hcount : min rem 8 + (rem - 8) = rem := by omega
    simp only [DcRun.header, List.append_assoc, List.replicate_append_replicate, hcount, Nat.mul_succ,
      Nat.add_assoc, Nat.add_comm 4]

/-! ## The start (R380) -/

/-- The start of a DC refill and the bits it takes. -/
def dcFirstAt (s : State) (b : BundleId) : Int × Nat :=
  if b = .intraDc then ((bitsAt s 0 11 : Int), 11)
  else ((signedAt s (bitsAt s 0 10) 10).1, 10 + (signedAt s (bitsAt s 0 10) 10).2)

/-- A DC refill after its start. -/
def dcStart (s : State) (b : BundleId) : DcRun :=
  { values := [(dcFirstAt s b).1], value := (dcFirstAt s b).1, off := (dcFirstAt s b).2, inRange := true }

theorem dcValues_eq (s : State) (b : BundleId) (n : Nat) :
    dcValues s b n = dcGroupsAt s ((n - 1 + 7) / 8) (n - 1) (dcStart s b) := rfl

theorem dcFirstAt_intra (s : State) : dcFirstAt s .intraDc = ((bitsAt s 0 11 : Int), 11) := if_pos rfl

theorem dcFirstAt_inter (s : State) :
    dcFirstAt s .interDc
      = (if bitsAt s 10 1 = 1 then -(bitsAt s 0 10 : Int) else bitsAt s 0 10, if bitsAt s 0 10 = 0 then 10 else 11) := by
  have hbits : 10 + (signedAt s (bitsAt s 0 10) 10).2 = if bitsAt s 0 10 = 0 then 10 else 11 := add_signedAt_bits s _ 10 10
  rw [← signedAt_value, ← hbits]
  rfl

theorem dcFirst_apply (hleft : BitsLeft s (dcFirstAt s b).2) :
    dcFirst b s = .ok (dcFirstAt s b).1 (s.setPos (s.bitPos + (dcFirstAt s b).2)) := by
  unfold dcFirst
  split
  next hb =>
    have hfirst : dcFirstAt s b = ((bitsAt s 0 11 : Int), 11) := if_pos hb
    rw [hfirst] at hleft ⊢
    rw [bind_of_ok (getBits_apply (n := 11) (by decide) (by decide) hleft), pure_apply]
  next hb =>
    have hfirst : dcFirstAt s b = ((signedAt s (bitsAt s 0 10) 10).1, 10 + (signedAt s (bitsAt s 0 10) 10).2) := if_neg hb
    rw [hfirst] at hleft ⊢
    dsimp only at hleft ⊢
    exact getBits_readSigned (n := 10) (by decide) (by decide) hleft

/-- A start of 11 bits, or of 10 bits and a sign, is in range. -/
theorem dcStart_bounded (hb : b = .intraDc ∨ b = .interDc) (s : State) : (dcStart s b).Bounded := by
  have hfirst : -32768 ≤ (dcFirstAt s b).1 ∧ (dcFirstAt s b).1 ≤ 32767 := by
    obtain rfl | rfl := hb
    · have hmag : bitsAt s 0 11 < 2 ^ 11 := bitsAt_lt s 0 11
      show -32768 ≤ (bitsAt s 0 11 : Int) ∧ (bitsAt s 0 11 : Int) ≤ 32767
      omega
    · have hmag : bitsAt s 0 10 < 2 ^ 10 := bitsAt_lt s 0 10
      rw [dcFirstAt_inter]
      dsimp only
      split <;> omega
  exact List.forall_mem_cons.mpr ⟨hfirst, List.forall_mem_singleton.mpr hfirst⟩

/-! ## The pseudocode (R380) -/

/-- The state of `s` in which the refill of bundle `b` has come to `x`. -/
def State.dcRefilling (s : State) (b : BundleId) (x : DcRun) : State :=
  (s.setBundle b ((s.bundle b).store x.values)).setPos (s.bitPos + x.off)

/-- The answer `a` of a refill of bundle `b` that has come to `x`, or the error where the running value left its range (R382). -/
def State.dcResult {α : Type} (s : State) (b : BundleId) (x : DcRun) (a : α) : EStateM.Result Stop State α :=
  if x.inRange then .ok a (s.dcRefilling b x) else .error (.raised .dcOutOfRange) (s.dcRefilling b x)

theorem State.dcResult_inRange {α : Type} (a : α) (h : x.inRange = true) :
    s.dcResult b x a = .ok a (s.dcRefilling b x) := if_pos h

theorem State.dcResult_outOfRange {α : Type} (a : α) (h : x.inRange = false) :
    s.dcResult b x a = .error (.raised .dcOutOfRange) (s.dcRefilling b x) := if_neg (by simp [h])

theorem ReadsAhead.dcRefilling (b : BundleId) (hleft : BitsLeft s x.off) : ReadsAhead s (s.dcRefilling b x) x.off :=
  (((DecodesAhead.refl s).setBundle (x := (s.bundle b).store x.values) rfl).setPos hleft).toReadsAhead

/-- Storing a value is one value more of the refill. -/
theorem pushValue_dcRefilling (s : State) (b : BundleId) (x : DcRun) (v : Int) :
    pushValue b v (s.dcRefilling b x) = .ok () (s.dcRefilling b { x with values := x.values ++ [v] }) := by
  have hbundle : (s.dcRefilling b x).bundle b = (s.bundle b).store x.values := s.bundle_setBundle_same b _
  have hset : ∀ y, (s.dcRefilling b x).setBundle b y
      = ((s.setBundle b ((s.bundle b).store x.values)).setBundle b y).setPos (s.bitPos + x.off) := fun _ => rfl
  rw [pushValue_apply, hbundle, Bundle.push_store, hset, State.setBundle_setBundle]
  rfl

/-- The next value is read and stored, or the range is left (R380 to R382). -/
theorem dcNext_ahead {α : Type} (f : Int → M α) (hw : w ≤ 32) (hx : x.inRange = true) (hleft : BitsLeft s (x.next s w).off) :
    (dcNext w x.value >>= fun v => pushValue b v >>= fun _ => f v) (s.dcRefilling b x)
      = if (x.next s w).inRange then f (x.next s w).value (s.dcRefilling b (x.next s w))
        else .error (.raised .dcOutOfRange) (s.dcRefilling b (x.next s w)) := by
  by_cases hzero : w = 0
  · subst hzero
    rw [DcRun.next_zero, if_pos (by exact hx), dcNext, if_pos rfl, bind_of_ok (pure_apply _ _),
      bind_of_ok (pushValue_dcRefilling s b x x.value)]
  · have hahead := ReadsAhead.dcRefilling b (hleft.mono (x.le_next_off s w))
    have hoff : (x.next s w).off = x.off + (x.delta s w).2 := by
      rw [DcRun.next, if_neg hzero]; split <;> rfl
    have hsign : BitsLeft s (x.off + w + (signedAt s (bitsAt s x.off w) (x.off + w)).2) := by
      rwa [hoff, DcRun.delta, ← Nat.add_assoc] at hleft
    have hmag : BitsLeft s (x.off + w) := hsign.mono (Nat.le_add_right _ _)
    have hdelta : (getBits w >>= readSigned) (s.dcRefilling b x)
        = .ok (x.delta s w).1 (s.dcRefilling b { x with off := x.off + (x.delta s w).2 }) := by
      rw [bind_of_ok (hahead.getBits (Nat.pos_of_ne_zero hzero) hw hmag), readSigned_ahead (hahead.setPos hmag) hsign,
        Nat.add_assoc x.off]
      rfl
    have hread : dcNext w x.value = ((getBits w >>= readSigned) >>= fun d => check
        (-32768 ≤ x.value + d && x.value + d ≤ 32767) .dcOutOfRange >>= fun _ => pure (x.value + d)) := by
      rw [dcNext, if_neg hzero, bind_assoc]
    rw [hread, DcRun.next, if_neg hzero, bind_assoc, bind_of_ok hdelta]
    split
    next hin =>
      rw [bind_assoc, bind_of_ok (check_of_true _ _ (by simpa using hin)), bind_of_ok (pure_apply _ _),
        bind_of_ok (pushValue_dcRefilling s b _ _)]
      rfl
    next hin => exact bind_of_error (bind_of_error (check_of_false _ _ (by simpa using hin)))

theorem dcGroup_ahead (hw : w ≤ 32) (hx : x.inRange = true) (hleft : BitsLeft s (dcGroupAt s w n x).off) :
    dcGroup b w n x.value (s.dcRefilling b x) = s.dcResult b (dcGroupAt s w n x) (dcGroupAt s w n x).value := by
  induction n generalizing x with
  | zero => exact (State.dcResult_inRange _ hx).symm
  | succ n ih =>
    rw [dcGroupAt_succ hx] at hleft ⊢
    rw [dcGroup, dcNext_ahead _ hw hx (hleft.mono (le_dcGroupAt_off s w n _))]
    cases hnext : (x.next s w).inRange with
    | true => exact ih hnext hleft
    | false => rw [dcGroupAt_outOfRange s w n hnext, State.dcResult_outOfRange _ hnext, if_neg Bool.false_ne_true]

theorem dcGroups_ahead {fuel rem : Nat} (hfuel : rem ≤ fuel) (hx : x.inRange = true)
    (hleft : BitsLeft s (dcGroupsAt s ((rem + 7) / 8) rem x).off) :
    dcGroups b fuel rem x.value (s.dcRefilling b x) = s.dcResult b (dcGroupsAt s ((rem + 7) / 8) rem x) () := by
  induction fuel generalizing rem x with
  | zero =>
    obtain rfl := Nat.le_zero.mp hfuel
    exact (State.dcResult_inRange _ hx).symm
  | succ fuel ih =>
    by_cases hrem : rem = 0
    · subst hrem
      exact (State.dcResult_inRange _ hx).symm
    · have hgroups : (rem + 7) / 8 = (rem - 8 + 7) / 8 + 1 := by omega
      rw [hgroups, dcGroupsAt_succ hx] at hleft ⊢
      have hgroup := hleft.mono (le_dcGroupsAt_off s _ (rem - 8) _)
      have hheader : BitsLeft s (x.off + 4) := hgroup.mono (le_dcGroupAt_off s _ _ x.header)
      have hwidth : bitsAt s x.off 4 < 2 ^ 4 := bitsAt_lt s x.off 4
      have hread : getBits 4 (s.dcRefilling b x) = .ok (bitsAt s x.off 4) (s.dcRefilling b x.header) :=
        (ReadsAhead.dcRefilling b (hheader.mono (Nat.le_add_right _ 4))).getBits (by decide) (by decide) hheader
      have hvalues : dcGroup b (bitsAt s x.off 4) (min rem 8) x.value (s.dcRefilling b x.header) = _ :=
        dcGroup_ahead (x := x.header) (w := bitsAt s x.off 4) (by omega) hx hgroup
      have hleftover : rem - min rem 8 = rem - 8 := by omega
      rw [dcGroups, if_neg hrem, bind_of_ok hread]
      cases hin : (dcGroupAt s (bitsAt s x.off 4) (min rem 8) x.header).inRange with
      | true =>
        rw [State.dcResult_inRange _ hin] at hvalues
        rw [bind_of_ok hvalues, hleftover]
        exact ih (by omega) hin hleft
      | false =>
        rw [State.dcResult_outOfRange _ hin] at hvalues
        rw [bind_of_error hvalues, dcGroupsAt_outOfRange s _ _ hin, State.dcResult_outOfRange _ hin]

/-- The start is stored, and the groups follow it. -/
theorem dcBegin_ahead (f : Int → M Unit) (hleft : BitsLeft s (dcFirstAt s b).2) :
    (dcFirst b >>= fun v => pushValue b v >>= fun _ => f v) s = f (dcFirstAt s b).1 (s.dcRefilling b (dcStart s b)) := by
  rw [bind_of_ok (dcFirst_apply hleft), bind_of_ok (pushValue_apply _ _ _)]
  rfl

theorem exec_refillDc (hb : b = .intraDc ∨ b = .interDc) (n : BitVec 32) (s : State) :
    exec (refillCoded b n) s = run (refillDc b n) s := by
  obtain rfl | rfl := hb <;> rfl

/-- A DC refill ends with all its values, or in the error (R380 to R382, R690). -/
theorem refillDc_ends {rest : List BundleId} {count : BitVec 32} (hb : b = .intraDc ∨ b = .interDc)
    (hat : RefillAt s b rest count.toNat) (hleft : BitsLeft s (dcValues s b count.toNat).off) :
    exec (refillCoded b count) s
      = .next (if (dcValues s b count.toNat).inRange then
          (s.dcRefilling b (dcValues s b count.toNat)).setCtl { s.ctl with refills := rest }
        else afterDecodeError (s.dcRefilling b (dcValues s b count.toNat)) 19) := by
  rw [dcValues_eq] at hleft ⊢
  have hstart : BitsLeft s (dcFirstAt s b).2 := hleft.mono (le_dcGroupsAt_off s _ _ (dcStart s b))
  have hgroups := dcGroups_ahead (b := b) (x := dcStart s b) (Nat.le_refl _) rfl hleft
  rw [exec_refillDc hb]
  cases hin : (dcGroupsAt s ((count.toNat - 1 + 7) / 8) (count.toNat - 1) (dcStart s b)).inRange with
  | true =>
    rw [State.dcResult_inRange _ hin] at hgroups
    refine run_of_ok ?_
    rw [refillDc, bind_of_ok (beginRefill_of_refillAt hat), dcBegin_ahead _ hstart]
    exact (bind_of_ok hgroups).trans (nextRefill_of_refillAt hat rfl)
  | false =>
    rw [State.dcResult_outOfRange _ hin] at hgroups
    refine (run_of_raised (c := .dcOutOfRange) ?_).trans (congrArg _ (takeError_eq_afterDecodeError _ rfl))
    rw [refillDc, bind_of_ok (beginRefill_of_refillAt hat), dcBegin_ahead _ hstart]
    exact bind_of_error hgroups

/-! ## Groups of width 0 -/

section
variable {v : Int} {off : Nat}

/-- With groups of width 0 alone the start is repeated. -/
theorem dcValues_zero (hfirst : dcFirstAt s b = (v, off)) (h1 : 1 ≤ n)
    (hw : ∀ g, g < (n - 1 + 7) / 8 → bitsAt s (off + 4 * g) 4 = 0) :
    dcValues s b n = { values := List.replicate n v, value := v, off := off + 4 * ((n - 1 + 7) / 8), inRange := true } := by
  have hstart : dcStart s b = { values := [v], value := v, off := off, inRange := true } := by rw [dcStart, hfirst]
  have hcount : [v] ++ List.replicate (n - 1) v = List.replicate n v := by
    rw [List.singleton_append, ← List.replicate_succ, Nat.sub_add_cancel h1]
  have hgroups := dcGroupsAt_zero (x := { values := [v], value := v, off := off, inRange := true }) (rem := n - 1) (by rfl)
    (by omega) hw
  rw [dcValues_eq, hstart, hgroups, hcount]

theorem refillDc_repeats {rest : List BundleId} {count : BitVec 32} (hb : b = .intraDc ∨ b = .interDc)
    (hfirst : dcFirstAt s b = (v, off)) (h1 : 1 ≤ count.toNat) (hat : RefillAt s b rest count.toNat)
    (hleft : BitsLeft s (off + 4 * ((count.toNat - 1 + 7) / 8)))
    (hw : ∀ g, g < (count.toNat - 1 + 7) / 8 → bitsAt s (off + 4 * g) 4 = 0) :
    exec (refillCoded b count) s
      = .next (((s.setBundle b ((s.bundle b).store (List.replicate count.toNat v))).setPos
          (s.bitPos + off + 4 * ((count.toNat - 1 + 7) / 8))).setCtl { s.ctl with refills := rest }) := by
  have hvalues := dcValues_zero hfirst h1 hw
  rw [refillDc_ends hb hat (by rwa [hvalues]), hvalues, Nat.add_assoc]
  rfl

end

/-- Settles O16: both bundles repeat their start, which for INTER_DC takes its sign bit where its magnitude is not 0. -/
theorem refillDcComplete : Obligations.RefillDcComplete := by
  intro count s rest h1
  refine ⟨refillDc_repeats (Or.inl rfl) (dcFirstAt_intra s) h1, ?_⟩
  exact refillDc_repeats (Or.inr rfl) (dcFirstAt_inter s) h1

/-! ## The second value -/

/-- The second value is the first, moved by the delta ahead (R381, R382). -/
theorem dcValues_two {w m : Nat} {v d : Int} (hv : (bitsAt s 0 11 : Int) = v) (hw : bitsAt s 11 4 = w) (hm : bitsAt s 15 w = m)
    (hd : (if bitsAt s (15 + w) 1 = 1 then -(m : Int) else m) = d) (hw0 : w ≠ 0) (hm0 : m ≠ 0) :
    dcValues s .intraDc 2
      = if -32768 ≤ v + d ∧ v + d ≤ 32767 then { values := [v, v + d], value := v + d, off := 16 + w, inRange := true }
        else { values := [v], value := v, off := 16 + w, inRange := false } := by
  have hstart : (dcStart s .intraDc).header = { values := [v], value := v, off := 15, inRange := true } := by rw [← hv]; rfl
  have hdelta : DcRun.delta { values := [v], value := v, off := 15, inRange := true } s w = (d, w + 1) := by
    rw [DcRun.delta, hm, signedAt_value, signedAt_bits, hd, if_neg hm0]
  have hoff : 15 + (w + 1) = 16 + w := by omega
  have hwidth : bitsAt s (dcStart s .intraDc).off 4 = w := hw
  have hgroup : dcValues s .intraDc 2 = dcGroupAt s w 1 (dcStart s .intraDc).header := by
    rw [← hwidth]
    exact dcGroupsAt_succ rfl
  rw [hgroup, hstart, dcGroupAt_succ rfl, DcRun.next, if_neg hw0, hdelta, ← hoff]
  rfl

/-- Two values of INTRA_DC with a delta that is not 0. -/
theorem refillIntraDc_two {rest : List BundleId} {w m : Nat} {v d : Int} (hat : RefillAt s .intraDc rest 2)
    (hv : (bitsAt s 0 11 : Int) = v) (hw : bitsAt s 11 4 = w) (hm : bitsAt s 15 w = m)
    (hd : (if bitsAt s (15 + w) 1 = 1 then -(m : Int) else m) = d) (hw0 : w ≠ 0) (hm0 : m ≠ 0) (hleft : BitsLeft s (16 + w)) :
    exec (.refillIntraDc 2) s
      = if -32768 ≤ v + d ∧ v + d ≤ 32767 then
          .next (((s.setBundle .intraDc ((s.bundle .intraDc).store [v, v + d])).setPos (s.bitPos + 16 + w)).setCtl
            { s.ctl with refills := rest })
        else
          .next (afterDecodeError ((s.setBundle .intraDc ((s.bundle .intraDc).store [v])).setPos (s.bitPos + 16 + w)) 19) := by
  have hvalues : dcValues s .intraDc (2 : BitVec 32).toNat = _ := dcValues_two hv hw hm hd hw0 hm0
  have hends := refillDc_ends (count := 2) (Or.inl rfl) hat (by rw [hvalues]; split <;> exact hleft)
  rw [Nat.add_assoc]
  refine hends.trans ?_
  rw [hvalues]
  split <;> rfl

/-- Settles O17: the refill follows `dcValues` (`refillDc_ends`), whose values are bounded and as many as it counts while in
range; two values of INTRA_DC are the case of `dcValues_two`. -/
theorem refillDcDelta : Obligations.RefillDcDelta := by
  refine ⟨fun b count s rest hb h1 => ?_, fun s rest hat => ?_⟩
  · intro d hat hleft
    refine ⟨fun hin => ?_, fun v hv => ?_, refillDc_ends hb hat hleft⟩
    · have hlength := length_dcGroupsAt_values (x := dcStart s b) (g := (count.toNat - 1 + 7) / 8) (by omega) hin
      refine hlength.trans ?_
      show 1 + (count.toNat - 1) = _
      omega
    · exact dcGroupsAt_keeps (P := DcRun.Bounded) (fun w _ h => h.next s w) (fun _ h => h) _ _ (dcStart_bounded hb s) v
        (List.mem_cons_of_mem _ hv)
  · intro v w m d hw0 hm0 hleft
    exact refillIntraDc_two hat rfl rfl rfl rfl hw0 hm0 hleft

end Sys2Proof.Machine
end

/-! # The errors of a frame

Every error that an element or an action of the sequencer raises inside a frame is a decode error (R680, R690), so taking it keeps
the planes. -/

section
namespace Sys2Proof.Machine

variable {α β : Type}

/-- The sequence raises decode errors alone, if it raises any. -/
def DecodeErrors (m : M α) : Prop := ∀ s c t, m s = .error (.raised c) t → causeKind c = .decodeError

theorem DecodeErrors.modify (f : State → State) : DecodeErrors (modify f : M PUnit) := fun _ _ _ h => nomatch h

namespace DecodeErrors

theorem bind {m : M α} {f : α → M β} (hm : DecodeErrors m) (hf : ∀ a, DecodeErrors (f a)) : DecodeErrors (m >>= f) := by
  intro s c t h
  obtain h | ⟨a, u, -, h⟩ := bind_error_inv h
  · exact hm s c t h
  · exact hf a u c t h

theorem pure (a : α) : DecodeErrors (Pure.pure a : M α) := fun _ _ _ h => nomatch h
theorem get : DecodeErrors (MonadState.get : M State) := fun _ _ _ h => nomatch h
theorem set (t : State) : DecodeErrors (MonadStateOf.set t : M PUnit) := fun _ _ _ h => nomatch h
theorem refuse (r : Refusal) : DecodeErrors (Machine.refuse r : M α) := fun _ _ _ h => nomatch h

theorem raise {c : Cause} (hc : causeKind c = .decodeError) : DecodeErrors (Machine.raise c : M α) := by
  intro s c' t h
  cases h
  exact hc

theorem ite {p : Prop} [Decidable p] {m m' : M α} (hm : DecodeErrors m) (hm' : DecodeErrors m') :
    DecodeErrors (if p then m else m') := by
  split
  · exact hm
  · exact hm'

theorem check (ok : Bool) {c : Cause} (hc : causeKind c = .decodeError) : DecodeErrors (Machine.check ok c) := ite (pure _) (raise hc)
theorem demand (ok : Bool) (r : Refusal) : DecodeErrors (Machine.demand ok r) := ite (pure _) (refuse r)

theorem getOr (x : Option α) (r : Refusal) : DecodeErrors (Machine.getOr x r) := by
  cases x
  · exact refuse r
  · exact pure _

theorem forEach {f : α → M Unit} (hf : ∀ a, DecodeErrors (f a)) (l : List α) : DecodeErrors (Machine.forEach l f) := by
  induction l with
  | nil => exact pure ()
  | cons x xs ih => exact bind (hf x) fun _ => ih

theorem readMany {f : M α} (hf : DecodeErrors f) (n : Nat) : DecodeErrors (Machine.readMany f n) := by
  induction n with
  | zero => exact pure _
  | succ n ih => exact bind hf fun _ => bind ih fun _ => pure _

/-! ## Reading -/

theorem atPhase (x : Phase) : DecodeErrors (Machine.atPhase x) := bind get fun _ => demand _ _

theorem getBits (n : Nat) : DecodeErrors (Machine.getBits n) :=
  bind (demand _ _) fun _ => bind get fun _ => bind (check _ rfl) fun _ => bind (set _) fun _ => pure _

theorem getBit : DecodeErrors Machine.getBit := getBits 1

theorem skipBits (n : Nat) : DecodeErrors (Machine.skipBits n) := bind get fun _ => bind (check _ rfl) fun _ => set _

theorem decodeSymbolFrom (codes : List (Nat × Nat)) (fuel j acc : Nat) :
    DecodeErrors (Machine.decodeSymbolFrom codes fuel j acc) := by
  induction fuel generalizing j acc with
  | zero => exact refuse _
  | succ fuel ih =>
    refine bind getBit fun b => ?_
    dsimp only
    split
    · exact pure _
    · exact ih _ _

theorem huff (r : TreeRef) : DecodeErrors (Machine.huff r) :=
  have hsymbol : ∀ sh, DecodeErrors (decodeSymbol sh) := fun _ =>
    bind get fun _ => ite (bind (getBits 4) fun _ => pure _) (decodeSymbolFrom _ _ _ _)
  bind get fun _ => bind (hsymbol _) fun _ => getOr _ _

theorem getValue (b : BundleId) : DecodeErrors (Machine.getValue b) :=
  bind get fun _ => bind (check _ rfl) fun _ => bind (getOr _ _) fun _ => bind (set _) fun _ => pure _

theorem planeOf (p : PlaneId) : DecodeErrors (Machine.planeOf p) := bind get fun _ => getOr _ _

theorem writtenPixel (v : Option Byte) : DecodeErrors (Machine.writtenPixel v) := by
  cases v
  · exact raise rfl
  · exact pure _

theorem readLast (p : PlaneId) (a : Nat) : DecodeErrors (Machine.readLast p a) :=
  bind (planeOf p) fun _ => bind (demand _ _) fun _ => writtenPixel _

theorem readCur (p : PlaneId) (a : Nat) : DecodeErrors (Machine.readCur p a) :=
  bind (planeOf p) fun _ => bind (demand _ _) fun _ => writtenPixel _

theorem writeCur (p : PlaneId) (a : Nat) (v : Byte) : DecodeErrors (Machine.writeCur p a v) :=
  bind (planeOf p) fun _ => bind (demand _ _) fun _ => modify _

theorem put (d : PixelDest) (i : Nat) (c : Byte) : DecodeErrors (Machine.put d i c) := by
  cases d with
  | cur p dst => exact bind (planeOf p) fun _ => writeCur p _ c
  | ublk => exact modify _

/-! ## Operands -/

theorem readSigned (m : Nat) : DecodeErrors (Machine.readSigned m) := ite (pure _) (bind getBit fun _ => pure _)

theorem decodeColor : DecodeErrors Machine.decodeColor :=
  bind get fun _ => bind (huff _) fun _ => bind (modify _) fun _ => bind (huff _) fun _ => pure _

theorem patternByte : DecodeErrors Machine.patternByte := bind (huff _) fun _ => bind (huff _) fun _ => pure _
theorem motionConst : DecodeErrors Machine.motionConst := bind (getBits 4) readSigned
theorem motionCoded (b : BundleId) : DecodeErrors (Machine.motionCoded b) := bind (huff _) fun _ => readSigned _

theorem runConst : DecodeErrors Machine.runConst := bind (getBits 4) fun _ => bind get fun _ => ite (readSigned _) (pure _)
theorem runCoded : DecodeErrors Machine.runCoded := bind (huff _) fun _ => bind get fun _ => ite (readSigned _) (pure _)

theorem dcFirst (b : BundleId) : DecodeErrors (Machine.dcFirst b) :=
  ite (bind (getBits 11) fun _ => pure _) (bind (getBits 10) readSigned)

theorem dcNext (w : Nat) (v : Int) : DecodeErrors (Machine.dcNext w v) :=
  ite (pure v) (bind (getBits w) fun _ => bind (readSigned _) fun _ => bind (check _ rfl) fun _ => pure _)

theorem coefficientValue (bits : Nat) : DecodeErrors (Machine.coefficientValue bits) :=
  ite (bind getBit fun _ => pure _) (bind (getBits bits) fun _ => bind getBit fun _ => pure _)

/-! ## Trees -/

theorem currentTree : DecodeErrors Machine.currentTree :=
  bind get fun _ => bind (atPhase _) fun _ => by split; exacts [pure _, refuse _]

theorem readLeaves (r : TreeRef) (n i : Nat) (used : List (BitVec 4)) : DecodeErrors (Machine.readLeaves r n i used) := by
  induction n generalizing i used with
  | zero => exact pure _
  | succ n ih => exact bind (getBits 4) fun _ => bind (check _ rfl) fun _ => bind (modify _) fun _ => ih _ _

theorem mergeRuns (fuel : Nat) (a b : List (BitVec 4)) : DecodeErrors (Machine.mergeRuns fuel a b) := by
  fun_induction Machine.mergeRuns fuel a b with
  | case1 | case2 | case3 => exact pure _
  | case4 fuel x a y b ih1 ih2 => exact bind getBit fun _ => ite (bind ih1 fun _ => pure _) (bind ih2 fun _ => pure _)

theorem mergePass (size n : Nat) (l : List (BitVec 4)) : DecodeErrors (Machine.mergePass size n l) := by
  induction n generalizing l with
  | zero => exact pure _
  | succ n ih => exact bind (mergeRuns _ _ _) fun _ => bind (ih _) fun _ => pure _

theorem mergePasses (is : List Nat) (l : List (BitVec 4)) : DecodeErrors (Machine.mergePasses is l) := by
  induction is generalizing l with
  | nil => exact pure _
  | cons i is ih => exact bind (mergePass _ _ _) ih

/-! ## Refills and block-type symbols -/

theorem currentRefill : DecodeErrors Machine.currentRefill :=
  bind get fun _ => bind (atPhase _) fun _ => by split; exacts [pure _, refuse _]

theorem beginRefill (b : BundleId) (t : Nat) : DecodeErrors (Machine.beginRefill b t) :=
  bind currentRefill fun _ => bind (demand _ _) fun _ => bind get fun _ => check _ rfl

theorem refillConstant (b : BundleId) (t : BitVec 32) {value : M Int} (hv : DecodeErrors value) :
    DecodeErrors (Machine.refillConstant b t value) :=
  bind (beginRefill _ _) fun _ => bind hv fun _ => bind (modify _) fun _ => modify _

theorem pushMany (b : BundleId) {value : M Int} (hv : DecodeErrors value) (n : Nat) :
    DecodeErrors (Machine.pushMany b value n) := by
  induction n with
  | zero => exact pure _
  | succ n ih => exact bind hv fun _ => bind (modify _) fun _ => ih

theorem refillEach (b : BundleId) (t : BitVec 32) {value : M Int} (hv : DecodeErrors value) :
    DecodeErrors (Machine.refillEach b t value) :=
  bind (beginRefill _ _) fun _ => bind (pushMany _ hv _) fun _ => modify _

theorem refillSymbols (b : BundleId) (t : BitVec 32) : DecodeErrors (Machine.refillSymbols b t) :=
  bind (beginRefill _ _) fun _ => modify _

theorem dcGroup (b : BundleId) (w n : Nat) (v : Int) : DecodeErrors (Machine.dcGroup b w n v) := by
  induction n generalizing v with
  | zero => exact pure _
  | succ n ih => exact bind (dcNext _ _) fun _ => bind (modify _) fun _ => ih _

theorem dcGroups (b : BundleId) (fuel rem : Nat) (v : Int) : DecodeErrors (Machine.dcGroups b fuel rem v) := by
  induction fuel generalizing rem v with
  | zero => exact pure _
  | succ fuel ih => exact ite (pure _) (bind (getBits 4) fun _ => bind (dcGroup _ _ _ _) fun _ => ih _ _)

theorem refillDc (b : BundleId) (t : BitVec 32) : DecodeErrors (Machine.refillDc b t) :=
  bind (beginRefill _ _) fun _ => bind (dcFirst b) fun _ => bind (modify _) fun _ => bind (dcGroups _ _ _ _) fun _ => modify _

theorem currentSymbols : DecodeErrors Machine.currentSymbols :=
  bind get fun _ => bind (atPhase _) fun _ => by split; exacts [bind (demand _ _) fun _ => pure _, refuse _]

theorem symbolLiteral (v : Nat) : DecodeErrors (Machine.symbolLiteral v) :=
  bind currentSymbols fun _ => bind (modify _) fun _ => modify _

theorem symbolRun (i : Nat) : DecodeErrors (Machine.symbolRun i) :=
  bind currentSymbols fun _ => bind get fun _ => bind (check _ rfl) fun _ => modify _

/-! ## Audio -/

theorem currentTrack : DecodeErrors Machine.currentTrack := bind get fun _ => getOr _ _
theorem modifyTrack (f : Track → Track) : DecodeErrors (Machine.modifyTrack f) := bind currentTrack fun _ => modify _
theorem setSample (c i : Nat) (v : F32) : DecodeErrors (Machine.setSample c i v) := modifyTrack _

theorem readFloat : DecodeErrors Machine.readFloat :=
  bind (getBits 5) fun _ => bind (getBits 23) fun _ => bind getBit fun _ => pure _

theorem audioCoefValue (w : Nat) (q : F32) : DecodeErrors (Machine.audioCoefValue w q) :=
  bind (getBits w) fun _ => ite (pure _) (bind getBit fun _ => pure _)

theorem nextBand : DecodeErrors Machine.nextBand := bind get fun _ => bind (getOr _ _) fun _ => modify _
theorem bandEdge : DecodeErrors Machine.bandEdge := bind get fun _ => bind currentTrack fun _ => getOr _ _

theorem skipBands (fuel : Nat) : DecodeErrors (Machine.skipBands fuel) := by
  induction fuel with
  | zero => exact refuse _
  | succ fuel ih => exact bind bandEdge fun _ => bind get fun _ => ite (bind nextBand fun _ => ih) (pure _)

theorem codedRun (w n : Nat) : DecodeErrors (Machine.codedRun w n) := by
  induction n with
  | zero => exact pure _
  | succ n ih =>
    have hvalue := bind get fun s => bind (audioCoefValue w s.ctl.bandQ) fun v =>
      bind (setSample s.ctl.chan s.ctl.coefPos v) fun _ =>
        bind (modify fun s => s.setCtl { s.ctl with coefPos := s.ctl.coefPos + 1 }) fun _ => ih
    exact bind bandEdge fun _ => bind get fun _ => ite (bind nextBand fun _ => hvalue) hvalue

theorem audioRun (len : Nat) (width : BitVec 4) : DecodeErrors (Machine.audioRun len width) :=
  bind (atPhase _) fun _ => bind currentTrack fun _ => bind get fun _ => bind (demand _ _) fun _ =>
    ite (bind (modifyTrack _) fun _ => bind (modify _) fun _ => skipBands _) (codedRun _ _)

theorem endTrack : DecodeErrors Machine.endTrack := bind currentTrack fun _ => modify _

theorem openAudioPacket : DecodeErrors Machine.openAudioPacket :=
  bind get fun _ => bind (getOr _ _) fun _ => bind (modifyTrack _) fun _ => ite endTrack (bind (modify _) fun _ => modify _)

theorem audioLoopHead : DecodeErrors Machine.audioLoopHead :=
  bind get fun _ => bind (getOr _ _) fun _ => bind currentTrack fun _ =>
    ite
      (ite (bind (modifyTrack _) fun _ => endTrack)
        (ite (bind (skipBits _) fun _ => modify _) (modify _)))
      endTrack

theorem audioHead : DecodeErrors Machine.audioHead :=
  have hquantiser : ∀ qtab, DecodeErrors (audioQuantiser qtab) := fun _ => bind (getBits 8) fun _ => getOr _ _
  bind get fun _ => bind currentTrack fun _ => bind readFloat fun _ => bind (setSample _ _ _) fun _ => bind readFloat fun _ =>
    bind (setSample _ _ _) fun _ => bind (readMany (hquantiser _) _) fun _ => bind (getOr _ _) fun _ => modify _

theorem audioTransform : DecodeErrors Machine.audioTransform :=
  bind get fun _ => bind currentTrack fun _ => bind (getOr _ _) fun _ => bind (modifyTrack _) fun _ => modify _

theorem pcmSamples (x : Track) (n i : Nat) : DecodeErrors (Machine.pcmSamples x n i) := by
  induction n generalizing i with
  | zero => exact pure _
  | succ n ih =>
    have hsample : DecodeErrors (pcmSample x i) := bind (getOr _ _) fun _ => bind (demand _ _) fun _ => pure _
    exact bind hsample fun _ => bind (ih _) fun _ => pure _

theorem audioEmit : DecodeErrors Machine.audioEmit :=
  have hfade : ∀ x cnt pcm, DecodeErrors (crossFade x cnt pcm) := fun _ _ _ => ite (pure _) (bind (getOr _ _) fun _ => pure _)
  bind currentTrack fun _ => bind (pcmSamples _ _ _) fun _ => bind (hfade _ _ _) fun _ => bind (modifyTrack _) fun _ =>
    bind (modify _) fun _ => modify _

/-! ## The coefficient unit and the transform -/

section
variable {emit : Nat → M Unit} {spend : M Bool}

theorem unlessStopped (hspend : DecodeErrors spend) {m : M Bool} (hm : DecodeErrors m) :
    DecodeErrors (spend >>= fun stopped => if stopped then Pure.pure true else m) := bind hspend fun _ => ite (pure _) hm

theorem walkGroup (hemit : ∀ c, DecodeErrors (emit c)) (hspend : DecodeErrors spend) (n c : Nat) :
    DecodeErrors (Machine.walkGroup emit spend n c) := by
  induction n generalizing c with
  | zero => exact pure _
  | succ n ih =>
    exact bind getBit fun _ => ite (bind (modify _) fun _ => ih _) (bind (hemit c) fun _ => unlessStopped hspend (ih _))

theorem walk (hemit : ∀ c, DecodeErrors (emit c)) (hspend : DecodeErrors spend) (fuel pos : Nat) :
    DecodeErrors (Machine.walk emit spend fuel pos) := by
  induction fuel generalizing pos with
  | zero => exact refuse _
  | succ fuel ih =>
    refine bind get fun _ => ite (pure _) (bind (getOr _ _) fun c => bind (getOr _ _) fun m =>
      ite (ih _) (bind getBit fun _ => ite (ih _) ?_))
    split
    · exact bind (modify _) fun _ => unlessStopped (walkGroup hemit hspend _ _) (ih _)
    · exact bind (modify _) fun _ => bind (modify _) fun _ => bind (modify _) fun _ => bind (modify _) fun _ => ih _
    · exact bind (modify _) fun _ => unlessStopped (walkGroup hemit hspend _ _) (ih _)
    · exact bind (hemit c) fun _ => bind (modify _) fun _ => unlessStopped hspend (ih _)

theorem pass (hemit : ∀ c, DecodeErrors (emit c)) (hspend : DecodeErrors spend) : DecodeErrors (Machine.pass emit spend) :=
  bind get fun _ => walk hemit hspend _ _

end

theorem startLists : DecodeErrors Machine.startLists :=
  bind (modify _) fun _ => bind (modify _) fun _ => bind (modify _) fun _ => modify _

theorem bitPlanes (n : Nat) : DecodeErrors (Machine.bitPlanes n) := by
  induction n with
  | zero => exact pure _
  | succ bits ih =>
    have hemit : ∀ c, DecodeErrors (emitCoefficient bits c) := fun _ =>
      bind (coefficientValue bits) fun _ => bind get fun _ => modify _
    exact bind (pass hemit (pure _)) fun _ => ih

theorem coefDecode (src : QSource) : DecodeErrors (Machine.coefDecode src) := by
  refine bind (modify _) fun _ => bind startLists fun _ => bind (modify _) fun _ => bind (modify _) fun _ =>
    bind (modify _) fun _ => bind (getBits 4) fun _ => bind (bitPlanes _) fun _ => ?_
  cases src with
  | stream => exact bind (getBits 4) fun _ => pure _
  | external q => exact pure _

theorem dequantise (matrix : Nat → Nat) : DecodeErrors (Machine.dequantise matrix) :=
  have hat : ∀ a q, DecodeErrors (dequantiseAt a q) := fun _ _ => bind get fun _ => bind (getOr _ _) fun _ => modify _
  bind (hat _ _) fun _ => bind get fun _ => forEach (fun _ => bind (getOr _ _) fun _ => hat _ _) _

theorem spendBudget : DecodeErrors Machine.spendBudget := bind (modify _) fun _ => bind get fun _ => pure _

theorem refine (mask : Nat) (is : List Nat) : DecodeErrors (Machine.refine mask is) := by
  induction is with
  | nil => exact pure _
  | cons i is ih =>
    exact bind getBit fun _ => ite
      (bind get fun _ => bind (getOr _ _) fun _ => bind (getOr _ _) fun _ => bind (modify _) fun _ => unlessStopped spendBudget ih)
      ih

theorem residualPlanes (n : Nat) : DecodeErrors (Machine.residualPlanes n) := by
  induction n with
  | zero => exact pure _
  | succ k ih =>
    have hemit : ∀ c, DecodeErrors (emitResidual (2 ^ k) c) := fun _ =>
      bind get fun _ => bind (modify _) fun _ => bind getBit fun _ => modify _
    exact bind get fun _ => bind (refine _ _) fun _ => ite (pure _) (bind (pass hemit spendBudget) fun _ => ite (pure _) ih)

theorem residualDecode (n : Nat) : DecodeErrors (Machine.residualDecode n) :=
  bind (modify _) fun _ => bind startLists fun _ => bind (modify _) fun _ => bind (getBits 3) fun _ => residualPlanes _

theorem idct : DecodeErrors Machine.idct := bind get fun _ => bind (getOr _ _) fun _ => bind (set _) fun _ => pure _

theorem idctPut (d : PixelDest) : DecodeErrors (Machine.idctPut d) :=
  bind idct fun _ => bind get fun _ => forEach (fun _ => put _ _ _) _

theorem addPixels (p : PlaneId) (dst : Nat) {f : Nat → M Int} (hf : ∀ i, DecodeErrors (f i)) :
    DecodeErrors (Machine.addPixels p dst f) :=
  bind (planeOf p) fun _ => forEach (fun i => bind (readCur _ _) fun _ => bind (hf i) fun _ => bind get fun _ => writeCur _ _ _) _

/-! ## Blocks -/

theorem currentBlock (ph : Phase) : DecodeErrors (Machine.currentBlock ph) :=
  bind (atPhase ph) fun _ => bind get fun _ => bind (planeOf _) fun _ => bind (demand _ _) fun _ => pure _

theorem block {body : PlaneId → Nat → M Unit} (hbody : ∀ p dst, DecodeErrors (body p dst)) : DecodeErrors (Machine.block body) :=
  bind (currentBlock _) fun _ => bind (hbody _ _) fun _ => modify _

theorem copy8 (p : PlaneId) (src dst : Nat) : DecodeErrors (Machine.copy8 p src dst) :=
  bind (planeOf p) fun _ => forEach (fun _ => bind (readLast _ _) fun _ => writeCur _ _ _) _

theorem motionCopy (p : PlaneId) (dst : Nat) : DecodeErrors (Machine.motionCopy p dst) :=
  have hsource : DecodeErrors (motionSource p dst) :=
    bind (planeOf p) fun _ => bind (getValue _) fun _ => bind (getValue _) fun _ => bind (check _ rfl) fun _ => pure _
  bind hsource fun _ => copy8 p _ dst

theorem nextColor : DecodeErrors Machine.nextColor := bind (getValue _) fun _ => pure _

theorem fillRun (d : PixelDest) (order : List Nat) {color : M Byte} (hcolor : DecodeErrors color) (n i : Nat) :
    DecodeErrors (Machine.fillRun d order color n i) := by
  induction n generalizing i with
  | zero => exact pure _
  | succ n ih => exact bind hcolor fun _ => bind (put _ _ _) fun _ => ih _

theorem runLoop (d : PixelDest) (order : List Nat) (fuel i : Nat) : DecodeErrors (Machine.runLoop d order fuel i) := by
  induction fuel generalizing i with
  | zero => exact refuse _
  | succ fuel ih =>
    have hrest : ∀ n, DecodeErrors (if 64 ≤ i + n then Pure.pure ()
        else if i + n = 63 then Machine.fillRun d order Machine.nextColor 1 63
        else Machine.runLoop d order fuel (i + n)) :=
      fun n => ite (pure _) (ite (fillRun d order nextColor _ _) (ih _))
    exact bind (getValue _) fun _ => bind (check _ rfl) fun _ => bind (check _ rfl) fun _ => bind getBit fun _ =>
      ite (bind nextColor fun _ => bind (fillRun d order (pure _) _ _) fun _ => hrest _)
        (bind (fillRun d order nextColor _ _) fun _ => hrest _)

theorem runBlock (d : PixelDest) : DecodeErrors (Machine.runBlock d) :=
  bind (getBits 4) fun _ => bind get fun _ => runLoop d _ _ _

theorem intraBlock (d : PixelDest) (src : QSource) : DecodeErrors (Machine.intraBlock d src) :=
  bind (modify _) fun _ => bind (getValue _) fun _ => bind (modify _) fun _ => bind (coefDecode src) fun _ => bind get fun _ =>
    bind (dequantise _) fun _ => idctPut d

theorem patternBlock (d : PixelDest) : DecodeErrors (Machine.patternBlock d) :=
  have hrow : ∀ c0 c1 y, DecodeErrors (patternRow d c0 c1 y) := fun _ _ _ =>
    bind (getValue _) fun _ => forEach (fun _ => put _ _ _) _
  bind nextColor fun _ => bind nextColor fun _ => forEach (hrow _ _) _

theorem rawBlock (d : PixelDest) : DecodeErrors (Machine.rawBlock d) := forEach (fun _ => bind nextColor fun _ => put _ _ _) _

theorem illegalBlock : DecodeErrors Machine.illegalBlock := bind (currentBlock _) fun _ => raise rfl
theorem illegalSubBlock : DecodeErrors Machine.illegalSubBlock := bind (currentBlock _) fun _ => raise rfl

theorem scaledBlock {body : M Unit} (hbody : DecodeErrors body) : DecodeErrors (Machine.scaledBlock body) :=
  have hup : ∀ p dst, DecodeErrors (upsample p dst) := fun p _ =>
    bind (planeOf p) fun _ => forEach (fun _ => bind get fun _ => bind (getOr _ _) fun _ => writeCur _ _ _) _
  bind (currentBlock _) fun _ => bind hbody fun _ => bind (hup _ _) fun _ => modify _

/-! ## The sequencer -/

theorem fetched (sp : CodeSpace) (w : Nat) : DecodeErrors (Machine.fetched sp w) := by
  rw [Machine.fetched]
  split
  · exact pure _
  · exact refuse _

theorem goto (x : Phase) : DecodeErrors (Machine.goto x) := bind (modify _) fun _ => pure _
theorem noElement {m : M Unit} (hm : DecodeErrors m) : DecodeErrors (Machine.noElement m) := bind hm fun _ => pure _

theorem planeNextStep : DecodeErrors Machine.planeNextStep := by
  refine bind get fun s => ?_
  split
  next => exact goto _
  next p ps _ =>
    have hplane := bind (planeOf p) fun x =>
      bind (m := setLengths (lengthWidth p s.session.width.toNat) x.bw) (forEach (fun _ => modify _) _) fun _ =>
        bind (m := modifyCtl fun c => { c with order := ps, plane := p, agenda := bundleOrder.flatMap bundleAgenda }) (modify _)
          fun _ => goto .trees
    exact ite (bind (skipBits _) fun _ => hplane) hplane

theorem fetchTree (r : TreeRef) : DecodeErrors (Machine.fetchTree r) :=
  bind (getBits 4) fun _ => bind (modify _) fun _ => ite (fetched _ _)
    (bind getBit fun _ => ite (bind (getBits 3) fun _ => fetched _ _) (bind (getBits 2) fun _ => fetched _ _))

theorem treesStep : DecodeErrors Machine.treesStep := by
  refine bind get fun s => ?_
  split
  next => exact bind (modify _) fun _ => goto _
  next r _ _ => exact fetchTree r
  next => exact bind (modify _) fun _ => bind (modify _) fun _ => pure _
  next => exact bind (modify _) fun _ => bind (modify _) fun _ => pure _

theorem fetchRefill (b : BundleId) : DecodeErrors (Machine.fetchRefill b) :=
  bind get fun _ => bind (getBits _) fun _ => ite (fetched _ _)
    (bind (check _ rfl) fun _ => ite (bind getBit fun _ => fetched _ _) (fetched _ _))

theorem refillStep : DecodeErrors Machine.refillStep := by
  refine bind get fun s => ?_
  split
  next => exact bind (modify _) fun _ => goto _
  next b _ _ => exact ite (bind (modify _) fun _ => pure _) (fetchRefill b)

theorem btSymStep : DecodeErrors Machine.btSymStep := by
  refine bind get fun s => ?_
  split
  next => exact refuse _
  next => exact ite (bind (huff _) fun _ => fetched _ _) (bind (modify _) fun _ => pure _)

theorem blockStep : DecodeErrors Machine.blockStep :=
  bind get fun _ => bind (planeOf _) fun _ => ite (bind (getValue _) fun _ => fetched _ _) (bind (modify _) fun _ => goto _)

theorem audioCoefStep : DecodeErrors Machine.audioCoefStep :=
  bind get fun _ => bind currentTrack fun _ =>
    ite
      (bind getBit fun _ =>
        ite (bind (getBits 4) fun _ => bind (getBits 4) fun _ => fetched _ _) (bind (getBits 4) fun _ => fetched _ _))
      (goto _)

/-- Inside a frame the sequencer raises decode errors alone. -/
theorem sequence {s t : State} {c : Cause} (hs : ¬ Idle s) (h : Machine.sequence s = .error (.raised c) t) :
    causeKind c = .decodeError := by
  rw [Machine.sequence, bind_of_ok (get_apply s)] at h
  cases hp : s.ctl.phase <;> rw [hp] at h
  case idle => exact absurd hp hs
  case audioTrack => exact bind get (fun _ => ite (bind openAudioPacket fun _ => pure _) (goto _)) s c t h
  case audioLoop => exact noElement audioLoopHead s c t h
  case audioHead => exact noElement audioHead s c t h
  case audioCoef => exact audioCoefStep s c t h
  case audioXform => exact noElement audioTransform s c t h
  case audioEmit => exact noElement audioEmit s c t h
  case videoStart => exact bind get (fun _ => bind (modify _) fun _ => bind (modify _) fun _ => goto _) s c t h
  case planeNext => exact planeNextStep s c t h
  case trees => exact treesStep s c t h
  case rowStart =>
    exact bind get (fun _ => bind (planeOf _) fun _ => ite (bind (modify _) fun _ => goto _) (goto _)) s c t h
  case refill => exact refillStep s c t h
  case btSym => exact btSymStep s c t h
  case block => exact blockStep s c t h
  case subBlock => exact bind (getValue _) (fun _ => fetched _ _) s c t h
  case planeEnd => exact bind (modify _) (fun _ => bind get fun _ => bind (modify _) fun _ => goto _) s c t h
  case videoEnd => exact nomatch (videoEndStep_apply s).symm.trans h

end DecodeErrors

/-! ## Elements -/

/-- The meaning of an element is a sequence of a frame's updates that raises decode errors alone. -/
def RunsInFrame (i : Instr) : Prop :=
  ∀ s, ∃ m, exec i s = run m s ∧ DecodeErrors m ∧ ∀ R : State → State → Prop, FrameSteps R → Keeps R m

theorem RunsInFrame.of_run {i : Instr} {m : M Unit} (hi : ∀ s, exec i s = run m s) (he : DecodeErrors m)
    (hk : ∀ R : State → State → Prop, FrameSteps R → Keeps R m) : RunsInFrame i := fun s => ⟨m, hi s, he, hk⟩

theorem RunsInFrame.block {i : Instr} {body : PlaneId → Nat → M Unit} (hi : ∀ s, exec i s = run (Machine.block body) s)
    (he : ∀ p dst, DecodeErrors (body p dst)) (hk : ∀ R : State → State → Prop, FrameSteps R → ∀ p dst, Keeps R (body p dst)) :
    RunsInFrame i := .of_run hi (.block he) fun R h => h.block (hk R h)

theorem RunsInFrame.scaled {i : Instr} {body : State → M Unit} (hi : ∀ s, exec i s = run (scaledBlock (body s)) s)
    (he : ∀ s, DecodeErrors (body s)) (hk : ∀ R : State → State → Prop, FrameSteps R → ∀ s, Keeps R (body s)) :
    RunsInFrame i := fun s => ⟨_, hi s, .scaledBlock (he s), fun R h => h.scaledBlock (hk R h s)⟩

theorem runsInFrame_of_bt4 {w : Nat} {i : Instr} (hd : decodeBt4 w = .ok i) : RunsInFrame i := by
  unfold decodeBt4 at hd
  split at hd <;> cases hd
  case h_1 => exact .block (fun _ => rfl) (fun p dst => .copy8 p dst dst) fun _ h p dst => h.copy8 p dst dst
  case h_2 =>
    exact .of_run (fun _ => rfl)
      (.bind (.currentBlock _) fun _ => .bind .get fun _ => .bind (.check _ rfl) fun _ => .ite (.modify _) (.modify _))
      fun _ h => h.bind (h.reads (readsOnly_currentBlock _)) fun _ => h.bind h.get fun _ => h.bind (h.check _ _) fun _ =>
        FrameSteps.ite (h.nextBlock 2) (h.setPhase (by decide))
  case h_3 => exact .block (fun _ => rfl) .motionCopy fun _ h => h.motionCopy
  case h_4 => exact .block (fun _ => rfl) (fun _ _ => .runBlock _) fun _ h _ _ => h.runBlock _
  case h_5 =>
    exact .block (fun _ => rfl)
      (fun p dst => .bind (.motionCopy p dst) fun _ => .bind (.getBits 7) fun _ => .bind (.residualDecode _) fun _ =>
        .bind .get fun _ => .addPixels p dst fun _ => .getOr _ _)
      fun _ h => h.residueBlock
  case h_6 => exact .block (fun _ => rfl) (fun _ _ => .intraBlock _ _) fun _ h _ _ => h.intraBlock _ _
  case h_7 =>
    exact .block (fun _ => rfl) (fun _ _ => .bind .nextColor fun _ => .forEach (fun _ => .put _ _ _) _)
      fun _ h _ _ => h.bind h.nextColor fun _ => h.forEach (fun _ => h.put _ _ _) _
  case h_8 =>
    exact .block (fun _ => rfl)
      (fun p dst => .bind (.motionCopy p dst) fun _ => .bind (.modify _) fun _ => .bind (.getValue _) fun _ =>
        .bind (.modify _) fun _ => .bind (.coefDecode _) fun _ => .bind .get fun _ => .bind (.dequantise _) fun _ =>
          .bind .idct fun _ => .addPixels p dst fun _ => .pure _)
      fun _ h => h.interBlock
  case h_9 => exact .block (fun _ => rfl) (fun _ _ => .patternBlock _) fun _ h _ _ => h.patternBlock _
  case h_10 => exact .block (fun _ => rfl) (fun _ _ => .rawBlock _) fun _ h _ _ => h.rawBlock _
  all_goals exact .of_run (fun _ => rfl) .illegalBlock fun _ h => h.illegalBlock

theorem runsInFrame_of_st4 {w : Nat} {i : Instr} (hd : decodeSt4 w = .ok i) : RunsInFrame i := by
  unfold decodeSt4 at hd
  split at hd <;> cases hd
  case h_4 => exact .scaled (fun _ => rfl) (fun _ => .runBlock _) fun _ h _ => h.runBlock _
  case h_6 =>
    exact .scaled (body := fun s => intraBlock .ublk s.params.scaledIntraQSource) (fun _ => rfl) (fun _ => .intraBlock _ _)
      fun _ h _ => h.intraBlock _ _
  case h_7 =>
    exact .of_run (fun _ => rfl)
      (.bind (.currentBlock _) fun _ => .bind .nextColor fun _ => .bind (.planeOf _) fun _ =>
        .bind (.forEach (fun _ => .writeCur _ _ _) _) fun _ => .modify _)
      fun _ h => h.bind (h.reads (readsOnly_currentBlock _)) fun _ => h.bind h.nextColor fun _ =>
        h.bind (h.planeOf _) fun _ => h.bind (h.forEach (fun _ => h.writeCur _ _ _) _) fun _ => h.nextBlock 2
  case h_9 => exact .scaled (fun _ => rfl) (fun _ => .patternBlock _) fun _ h _ => h.patternBlock _
  case h_10 => exact .scaled (fun _ => rfl) (fun _ => .rawBlock _) fun _ h _ => h.rawBlock _
  all_goals exact .of_run (fun _ => rfl) .illegalSubBlock fun _ h => h.illegalSubBlock

theorem runsInFrame_of_btsym {w : Nat} {i : Instr} (hd : decodeBtsym w = .ok i) : RunsInFrame i := by
  unfold decodeBtsym at hd
  split at hd <;> cases hd
  case h_13 | h_14 | h_15 | h_16 => exact .of_run (fun _ => rfl) (.symbolRun _) fun _ h => h.symbolRun _
  all_goals exact .of_run (fun _ => rfl) (.symbolLiteral _) fun _ h => h.symbolLiteral _

theorem runsInFrame_of_tree {w : Nat} {i : Instr} (hd : decodeTree w = .ok i) : RunsInFrame i := by
  unfold decodeTree at hd
  split at hd
  next =>
    split at hd <;> cases hd
    exact .of_run (fun _ => rfl)
      (.bind .currentTree fun _ => .bind (.modify _) fun _ => .bind (.modify _) fun _ => .modify _)
      fun _ h => h.bind (h.reads readsOnly_currentTree) fun r => h.bind (h.writeShape r 0) fun _ =>
        h.bind (h.writeSyms r _ _) fun _ => h.nextAgendaItem
  next =>
    split at hd
    next =>
      split at hd <;> cases hd
      exact .of_run (fun _ => rfl)
        (.bind .currentTree fun _ => .bind (.modify _) fun _ => .bind .get fun _ => .bind (.readLeaves _ _ _ _) fun _ =>
          .bind (.modify _) fun _ => .modify _)
        fun _ h => h.bind (h.reads readsOnly_currentTree) fun r => h.bind (h.writeShape r _) fun _ => h.bind h.get fun _ =>
          h.bind (h.readLeaves r _ _ _) fun _ => h.bind (h.writeSyms r _ _) fun _ => h.nextAgendaItem
    next =>
      split at hd <;> cases hd
      exact .of_run (fun _ => rfl)
        (.bind .currentTree fun _ => .bind (.modify _) fun _ => .bind (.mergePasses _ _) fun _ => .bind (.modify _) fun _ =>
          .modify _)
        fun _ h => h.bind (h.reads readsOnly_currentTree) fun r => h.bind (h.writeShape r _) fun _ =>
          h.bind (h.reads (readsOnly_mergePasses _ _)) fun _ => h.bind (h.writeSyms r _ _) fun _ => h.nextAgendaItem

theorem runsInFrame_of_constant {i : Instr} {b : BundleId} {n : BitVec 32} {value : M Int}
    (hi : ∀ s, exec i s = run (refillConstant b n value) s) (he : DecodeErrors value) (hv : ReadsOnly value) : RunsInFrame i :=
  .of_run hi (.refillConstant b n he) fun _ h => h.refillConstant b n hv

theorem runsInFrame_of_each {i : Instr} {b : BundleId} {n : BitVec 32} {value : M Int}
    (hi : ∀ s, exec i s = run (refillEach b n value) s) (he : DecodeErrors value) (hv : ReadsOnly value) : RunsInFrame i :=
  .of_run hi (.refillEach b n he) fun _ h => h.refillEach b n hv

theorem runsInFrame_of_refill {b : BundleId} {len w : Nat} {i : Instr} (hd : decodeRefill b len w = .ok i) : RunsInFrame i := by
  obtain rfl | ⟨n, hn, rfl | rfl⟩ := decodeRefill_inv hd
  · exact .of_run (fun _ => rfl) (.bind .currentRefill fun _ => .bind (.modify _) fun _ => .modify _)
      fun _ h => h.bind (h.reads readsOnly_currentRefill) fun _ =>
        h.bind (Keeps.modify fun _ => h.bundleFields rfl rfl rfl) fun _ => h.nextRefill
  · cases b
    case blockTypes | subBlockTypes =>
      exact runsInFrame_of_constant (fun _ => rfl) (.bind (.getBits 4) fun _ => .pure _) readsOnly_blockTypeConst
    case colors => exact runsInFrame_of_constant (fun _ => rfl) .decodeColor readsOnly_decodeColor
    case pattern => exact runsInFrame_of_constant (fun _ => rfl) .patternByte readsOnly_patternByte
    case xOff | yOff => exact runsInFrame_of_constant (fun _ => rfl) .motionConst readsOnly_motionConst
    case intraDc | interDc => exact .of_run (fun _ => rfl) (.refillDc _ n) fun _ h => h.refillDc _ hn
    case run => exact runsInFrame_of_constant (fun _ => rfl) .runConst readsOnly_runConst
  · cases b
    case blockTypes | subBlockTypes => exact .of_run (fun _ => rfl) (.refillSymbols _ n) fun _ h => h.refillSymbols _ n
    case colors => exact runsInFrame_of_each (fun _ => rfl) .decodeColor readsOnly_decodeColor
    case pattern => exact runsInFrame_of_each (fun _ => rfl) .patternByte readsOnly_patternByte
    case xOff | yOff => exact runsInFrame_of_each (fun _ => rfl) (.motionCoded _) (readsOnly_motionCoded _)
    case intraDc | interDc => exact .of_run (fun _ => rfl) (.refillDc _ n) fun _ h => h.refillDc _ hn
    case run => exact runsInFrame_of_each (fun _ => rfl) .runCoded readsOnly_runCoded

theorem runsInFrame_of_audioRun {w : Nat} {i : Instr} (hd : decodeAudioRun w = .ok i) : RunsInFrame i := by
  unfold decodeAudioRun at hd
  split at hd <;> split at hd <;> cases hd <;> exact fun _ => ⟨_, rfl, .audioRun _ _, fun _ h => h.audioRun _ _⟩

theorem runsInFrame_of_decode {sp : CodeSpace} (hsp : InFrame sp) {w : Nat} {i : Instr} (hd : decode sp w = .ok i) :
    RunsInFrame i := by
  cases sp with
  | bt4 => exact runsInFrame_of_bt4 hd
  | st4 => exact runsInFrame_of_st4 hd
  | btsym => exact runsInFrame_of_btsym hd
  | tree => exact runsInFrame_of_tree hd
  | refill b len => exact runsInFrame_of_refill hd
  | audioRun => exact runsInFrame_of_audioRun hd
  | cmd | regWrite | regRead => exact hsp.elim

/-! ## A step -/

/-- What a step inside a frame does to a relation that the updates of a frame keep: the relation is kept, or a decode error is
taken where it is. -/
theorem frame_step_decodes {R : State → State → Prop} (h : FrameSteps R) {s t : State} (hs : ¬ Idle s)
    (hopen : s.ctl.phase = .audioTrack ∨ s.ctl.phase = .videoStart → ∀ u x, x.pos = 0 → R u (u.setBr x))
    (hend : s.ctl.phase = .videoEnd → R s s.afterFrame) (hstep : step s = .next t) :
    R s t ∨ ∃ c u, causeKind c = .decodeError ∧ R s u ∧ t = takeError c u := by
  have hseq := h.sequence hs hopen hend
  obtain halone | ⟨i, u, hfetch, hexec⟩ | ⟨c, u, hraised, rfl⟩ := step_next_inv hstep
  · exact Or.inl (hseq.of_ok halone)
  · have hsu : R s u := hseq.of_ok hfetch
    obtain ⟨sp, w, hsp, hd⟩ := FetchesElement.sequence hs hfetch
    obtain ⟨m, hm, herr, hkeep⟩ := runsInFrame_of_decode hsp hd u
    obtain hok | ⟨c, v, hraised, rfl⟩ := run_next_inv (hm.symm.trans hexec)
    · exact Or.inl (h.trans _ _ _ hsu ((hkeep R h u).of_ok hok))
    · exact Or.inr ⟨c, v, herr _ _ _ hraised, h.trans _ _ _ hsu ((hkeep R h u).of_raised hraised), rfl⟩
  · exact Or.inr ⟨c, u, DecodeErrors.sequence hs hraised, hseq.of_raised hraised, rfl⟩

/-! ## The planes shown, and the reader (R461, R56) -/

/-- What is shown stays: every `last` buffer, and FRAME_VALID. -/
def KeepsShown (s t : State) : Prop := (∀ p, lastOf t p = lastOf s p) ∧ t.regs.frameValid = s.regs.frameValid

theorem lastOf_setPlane {s : State} {p : PlaneId} {x : Plane} (hx : s.plane p = some x) (cur : Cells Byte) (q : PlaneId) :
    lastOf (s.setPlane p { x with cur := cur }) q = lastOf s q := by
  by_cases hq : q = p
  · rw [hq, lastOf, lastOf, State.plane_setPlane_same, hx]; rfl
  · rw [lastOf, lastOf, State.plane_setPlane_other s _ hq]

theorem frameSteps_keepsShown : FrameSteps KeepsShown where
  refl _ := ⟨fun _ => rfl, rfl⟩
  trans _ _ _ h h' := ⟨fun p => (h'.1 p).trans (h.1 p), h'.2.trans h.2⟩
  pos _ _ _ := ⟨fun _ => rfl, rfl⟩
  colLast _ _ := ⟨fun _ => rfl, rfl⟩
  align _ := ⟨fun _ => rfl, rfl⟩
  bundle _ _ _ _ := ⟨fun _ => rfl, rfl⟩
  colHigh _ _ := ⟨fun _ => rfl, rfl⟩
  pixel _ _ _ _ _ hx _ := ⟨lastOf_setPlane hx _, rfl⟩
  coef _ _ := ⟨fun _ => rfl, rfl⟩
  dct _ _ := ⟨fun _ => rfl, rfl⟩
  track _ _ _ := ⟨fun _ => rfl, rfl⟩
  trunc _ _ := ⟨fun _ => rfl, rfl⟩
  ctl _ _ _ := ⟨fun _ => rfl, rfl⟩

/-- A reader inside its packet stays there and moves forward alone. -/
def ReadsForward (s t : State) : Prop :=
  ReaderInv s → ReaderInv t ∧ t.br.base = s.br.base ∧ t.br.sizeBits = s.br.sizeBits ∧ s.bitPos ≤ t.bitPos

theorem readsForward_of_br {s t : State} (h : t.br = s.br) : ReadsForward s t := fun hs => by
  rw [ReaderInv, State.bitPos, State.bitSize, h]
  exact ⟨hs, rfl, rfl, Nat.le_refl _⟩

theorem readsForward_setPos {s : State} {n : Nat} (h : ReaderInv s → s.bitPos ≤ n) (hn : n ≤ s.bitSize) :
    ReadsForward s (s.setPos n) := fun hs =>
  ⟨readerInv_setPos hn, rfl, rfl, by rw [s.bitPos_setPos_of_le hn]; exact h hs⟩

theorem le_alignedPos {s : State} (h : ReaderInv s) : s.bitPos ≤ alignedPos s.br :=
  Nat.le_min.mpr ⟨Nat.le_add_right _ _, h⟩

theorem frameSteps_readsForward : FrameSteps ReadsForward where
  refl _ := readsForward_of_br rfl
  trans _ _ _ h h' hs := by
    obtain ⟨ht, hbase, hsize, hpos⟩ := h hs
    obtain ⟨hu, hbase', hsize', hpos'⟩ := h' ht
    exact ⟨hu, hbase'.trans hbase, hsize'.trans hsize, Nat.le_trans hpos hpos'⟩
  pos _ _ h := readsForward_setPos (fun _ => Nat.le_add_right _ _) h
  colLast _ _ := readsForward_of_br rfl
  align _ := readsForward_setPos le_alignedPos (Nat.min_le_right _ _)
  bundle _ _ _ _ := readsForward_of_br rfl
  colHigh _ _ := readsForward_of_br rfl
  pixel _ _ _ _ _ _ _ := readsForward_of_br rfl
  coef _ _ := readsForward_of_br rfl
  dct _ _ := readsForward_of_br rfl
  track _ _ _ := readsForward_of_br rfl
  trunc _ _ := readsForward_of_br rfl
  ctl _ _ _ := readsForward_of_br rfl

/-- Settles O58: the updates of a frame keep what is shown and move the reader forward, and every error they can raise is a decode
error, which does the same. -/
theorem frameLeavesLast : Obligations.FrameLeavesLast := by
  intro s t hstep hs
  refine ⟨fun hend => ?_, fun hinv haudio hvideo => ?_⟩
  · obtain hkept | ⟨c, u, hc, hkept, rfl⟩ := frame_step_decodes frameSteps_keepsShown hs (fun _ _ _ _ => ⟨fun _ => rfl, rfl⟩)
      (fun h => absurd h hend) hstep
    · exact hkept
    · rw [takeError_decodeError u hc]; exact hkept
  · have hopen : s.ctl.phase = .audioTrack ∨ s.ctl.phase = .videoStart → ∀ u x, x.pos = 0 → ReadsForward u (u.setBr x) :=
      fun h => h.elim (absurd · haudio) (absurd · hvideo)
    obtain hkept | ⟨c, u, hc, hkept, rfl⟩ := frame_step_decodes frameSteps_readsForward hs hopen
      (fun _ => readsForward_of_br rfl) hstep
    · exact (hkept hinv).2
    · rw [takeError_decodeError u hc]; exact (hkept hinv).2

end Sys2Proof.Machine
end

/-! # Painting a block's pixels

A block writes its pixels one after the other, into `cur` or into `ublk`, and takes bundle values and bits between them. The
pixels painted so far, and where they lie, are followed along the loop. -/

section
namespace Sys2Proof.Machine

variable {α : Type}

/-! ## Loops -/

theorem forEach_append_of_ok {l r : List α} {f : α → M Unit} {s t : State} (h : forEach l f s = .ok () t) :
    forEach (l ++ r) f s = forEach r f t := by
  induction l generalizing s with
  | nil => cases h; rfl
  | cons x l ih =>
    rw [forEach_cons] at h
    obtain ⟨_, u, hx, hl⟩ := bind_ok_inv h
    rw [List.cons_append, forEach_cons, bind_of_ok hx]
    exact ih hl

/-- What each round carries on, the loop carries to its end. -/
theorem forEach_range {P : Nat → State → Prop} {f : Nat → M Unit} (n : Nat)
    (hstep : ∀ i, i < n → ∀ s, P i s → ∃ t, f i s = .ok () t ∧ P (i + 1) t) {s : State} (h0 : P 0 s) :
    ∃ t, forEach (List.range n) f s = .ok () t ∧ P n t := by
  induction n with
  | zero => exact ⟨s, rfl, h0⟩
  | succ n ih =>
    obtain ⟨t, ht, hn⟩ := ih fun i hi => hstep i (Nat.lt_succ_of_lt hi)
    obtain ⟨u, hu, hn'⟩ := hstep n (Nat.lt_succ_self n) t hn
    refine ⟨u, ?_, hn'⟩
    rw [List.range_succ, forEach_append_of_ok ht, forEach_cons, bind_of_ok hu, forEach_nil]

/-! ## Painted places -/

theorem Painted.zero {place : Nat → Nat} {f : Nat → Byte} (m : Cells Byte) : Painted 0 place f m m :=
  ⟨fun _ h => absurd h (Nat.not_lt_zero _), fun _ _ => rfl⟩

/-- One more place painted, apart from those before. -/
theorem Painted.write {n : Nat} {place : Nat → Nat} {f : Nat → Byte} {old new : Cells Byte} (h : Painted n place f old new)
    (hapart : ∀ i, i < n → place i ≠ place n) : Painted (n + 1) place f old (Cells.set new (place n) (f n)) := by
  obtain ⟨hin, hout⟩ := h
  refine ⟨fun i hi => ?_, fun a ha => ?_⟩
  · by_cases hn : i = n
    · rw [hn, Cells.get_set_same]
    · rw [Cells.get_set_other _ _ (hapart i (by omega)), hin i (by omega)]
  · rw [Cells.get_set_other _ _ (ha n (by omega)), hout a fun i hi => ha i (by omega)]

theorem Painted.congr {n : Nat} {place place' : Nat → Nat} {f g : Nat → Byte} {old new : Cells Byte}
    (h : Painted n place f old new) (hplace : ∀ i, i < n → place i = place' i) (hf : ∀ i, i < n → f i = g i) :
    Painted n place' g old new := by
  obtain ⟨hin, hout⟩ := h
  refine ⟨fun i hi => ?_, fun a ha => hout a fun i hi => ?_⟩
  · rw [← hplace i hi, ← hf i hi, hin i hi]
  · rw [hplace i hi]; exact ha i hi

/-- A loop that paints `place (k + i)` with `f (k + i)` in its round `i`, after `k` places painted before; `u i m` is the state
before that round, with the pixels `m`. -/
theorem forEach_paints_from {place : Nat → Nat} {f : Nat → Byte} {u : Nat → Cells Byte → State} {act : Nat → M Unit}
    {old m : Cells Byte} {s : State} (k n : Nat) (hm : Painted k place f old m) (h0 : s = u 0 m)
    (hapart : ∀ i j, i < k + n → j < k + n → place i = place j → i = j)
    (hact : ∀ i, i < n → ∀ m, Painted (k + i) place f old m →
      act i (u i m) = .ok () (u (i + 1) (Cells.set m (place (k + i)) (f (k + i))))) :
    ∃ new, Painted (k + n) place f old new ∧ forEach (List.range n) act s = .ok () (u n new) := by
  obtain ⟨t, ht, new, hnew, rfl⟩ := forEach_range (P := fun i s => ∃ m, Painted (k + i) place f old m ∧ s = u i m) n
    (fun i hi s hs => by
      obtain ⟨m, hm, rfl⟩ := hs
      have hwrite := hm.write fun j hj he => absurd (hapart j (k + i) (by omega) (by omega) he) (by omega)
      exact ⟨_, hact i hi m hm, _, hwrite, rfl⟩)
    ⟨m, hm, h0⟩
  exact ⟨new, hnew, ht⟩

/-- A loop that paints `place i` with `f i` in its round `i`. -/
theorem forEach_paints {place : Nat → Nat} {f : Nat → Byte} {u : Nat → Cells Byte → State} {act : Nat → M Unit}
    {old : Cells Byte} {s : State} (n : Nat) (h0 : s = u 0 old) (hapart : ∀ i j, i < n → j < n → place i = place j → i = j)
    (hact : ∀ i, i < n → ∀ m, Painted i place f old m → act i (u i m) = .ok () (u (i + 1) (Cells.set m (place i) (f i)))) :
    ∃ new, Painted n place f old new ∧ forEach (List.range n) act s = .ok () (u n new) := by
  have h := forEach_paints_from (place := place) (f := f) (act := act) 0 n (.zero old) h0
  simp only [Nat.zero_add] at h
  exact h hapart hact

/-! ## Destinations -/

@[simp] theorem State.setPlane_setPlane (s : State) (p : PlaneId) (x y : Plane) :
    (s.setPlane p x).setPlane p y = s.setPlane p y := by cases p <;> rfl

theorem Planes.set_self {ps : Planes} {p : PlaneId} {x : Plane} (h : ps.get p = some x) : ps.set p x = ps := by
  cases p <;> simp only [Planes.set, ← h] <;> rfl

theorem State.setPlane_self {s : State} {p : PlaneId} {x : Plane} (h : s.plane p = some x) : s.setPlane p x = s := by
  rw [State.setPlane, Planes.set_self h]
  rfl

/-- The place of a block's pixel `i` in the cells a destination writes. -/
def PixelDest.place (x : Plane) : PixelDest → Nat → Nat
  | .cur _ dst, i => dst + blockOffset x i
  | .ublk, i => i

/-- The cells a destination writes. -/
def PixelDest.pixels (s : State) (x : Plane) : PixelDest → Cells Byte
  | .cur _ _ => x.cur
  | .ublk => s.dct.ublk

/-- The destination lies in the buffers of plane `x`. -/
def PixelDest.Fits (s : State) (x : Plane) : PixelDest → Prop
  | .cur p dst => s.plane p = some x ∧ BlockFits x dst
  | .ublk => True

theorem PixelDest.Fits.congr {s t : State} {d : PixelDest} {x : Plane} (h : d.Fits s x) (hplanes : t.planes = s.planes) :
    d.Fits t x := by
  cases d with
  | cur p dst => exact ⟨by rw [State.plane, hplanes]; exact h.1, h.2⟩
  | ublk => exact trivial

/-- The state with the cells `m` at the destination. -/
def State.painted (s : State) (d : PixelDest) (x : Plane) (m : Cells Byte) : State :=
  match d with
  | .cur p _ => s.setPlane p { x with cur := m }
  | .ublk => s.setDct { s.dct with ublk := m }

section
variable (s : State) (d : PixelDest) (x : Plane) (m : Cells Byte)

@[simp] theorem State.painted_bundle (b : BundleId) : (s.painted d x m).bundle b = s.bundle b := by cases d <;> rfl

theorem afterTake_painted (b : BundleId) (n : Nat) : afterTake (s.painted d x m) b n = (afterTake s b n).painted d x m := by
  cases d <;> rfl

end

/-- The cells a state has at the destination. -/
theorem State.painted_pixels {s t : State} {d : PixelDest} {x : Plane} (h : d.Fits s x) (hplanes : t.planes = s.planes)
    (hdct : t.dct.ublk = s.dct.ublk) : t.painted d x (d.pixels s x) = t := by
  have ht := h.congr hplanes
  cases d with
  | cur p dst => exact State.setPlane_self ht.1
  | ublk => rw [State.painted, PixelDest.pixels, ← hdct]; rfl

/-- A pixel put at the destination. -/
theorem put_painted {s t : State} {d : PixelDest} {x : Plane} (h : d.Fits s x) {i : Nat} (hi : i < 64) (m : Cells Byte)
    (c : Byte) : put d i c (t.painted d x m) = .ok () (t.painted d x (Cells.set m (d.place x i) c)) := by
  cases d with
  | cur p dst =>
    have hplane := State.plane_setPlane_same t p { x with cur := m }
    have hrange : Plane.inRange { x with cur := m } (dst + blockOffset { x with cur := m } i) = true := h.2.inRange hi
    show (planeOf p >>= _) (t.setPlane p _) = .ok () (t.setPlane p _)
    rw [bind_of_ok (planeOf_of_present hplane), writeCur_of_inRange c hplane hrange, State.setPlane_setPlane]
    rfl
  | ublk => rfl

theorem PixelDest.place_inj {s : State} {d : PixelDest} {x : Plane} (h : d.Fits s x) {i j : Nat}
    (he : d.place x i = d.place x j) : i = j := by
  cases d with
  | cur p dst => exact h.2.inj he
  | ublk => exact he

/-! ## Bundle values -/

theorem afterTake_zero (s : State) (b : BundleId) : afterTake s b 0 = s := by cases b <;> rfl

theorem afterTake_add (s : State) (b : BundleId) (n k : Nat) : afterTake (afterTake s b n) b k = afterTake s b (n + k) := by
  rw [afterTake, afterTake, afterTake, State.bundle_setBundle_same, State.setBundle_setBundle, Bundle.advance, Bundle.advance,
    Bundle.advance, Nat.add_assoc]

theorem bundle_afterTake_same (s : State) (b : BundleId) (n : Nat) : (afterTake s b n).bundle b = (s.bundle b).advance n :=
  State.bundle_setBundle_same s b _

theorem bundle_afterTake_other (s : State) {b b' : BundleId} (n : Nat) (h : b' ≠ b) : (afterTake s b n).bundle b' = s.bundle b' :=
  State.bundle_setBundle_other s _ h

/-- The first of the values ahead. -/
theorem Holds.left {x : Bundle} {vs ws : List Int} (h : Holds x (vs ++ ws)) : Holds x vs := by
  obtain ⟨hlen, hget⟩ := h
  rw [List.length_append] at hlen
  refine ⟨by omega, fun i hi => ?_⟩
  rw [hget i (by rw [List.length_append]; omega), List.getElem?_append_left hi]

/-- The values that follow once the first ones are taken. -/
theorem Holds.right {x : Bundle} {vs ws : List Int} (h : Holds x (vs ++ ws)) : Holds (x.advance vs.length) ws := by
  obtain ⟨hlen, hget⟩ := h
  rw [List.length_append] at hlen
  refine ⟨by show x.rd + vs.length + ws.length ≤ x.wr; omega, fun i hi => ?_⟩
  show Cells.get x.buf (x.rd + vs.length + i) = _
  rw [Nat.add_assoc, hget (vs.length + i) (by rw [List.length_append]; omega),
    List.getElem?_append_right (Nat.le_add_right _ _), Nat.add_sub_cancel_left]

/-- The `i`-th of the values ahead, where those before it are taken (R390). -/
theorem getValue_of_advanced {s t : State} {b : BundleId} {vs : List Int} {i : Nat} (ht : t.bundle b = (s.bundle b).advance i)
    (h : Holds (s.bundle b) vs) (hi : i < vs.length) : getValue b t = .ok (vs.getD i 0) (afterTake t b 1) := by
  have hsplit : vs.take i ++ vs.getD i 0 :: vs.drop (i + 1) = vs := by
    rw [List.getD_eq_getElem vs 0 hi, ← List.drop_eq_getElem_cons hi, List.take_append_drop]
  rw [← hsplit] at h
  have hright := h.right
  rw [List.length_take_of_le (Nat.le_of_lt hi), ← ht] at hright
  exact getValue_of_holds hright

theorem getValue_afterTake {s : State} {b : BundleId} {vs : List Int} (h : Holds (s.bundle b) vs) {i : Nat}
    (hi : i < vs.length) : getValue b (afterTake s b i) = .ok (vs.getD i 0) (afterTake s b (i + 1)) := by
  rw [getValue_of_advanced (bundle_afterTake_same s b i) h hi, afterTake_add]

/-- The same with pixels painted before. -/
theorem getValue_painted {s : State} {b : BundleId} {vs : List Int} (h : Holds (s.bundle b) vs) {i : Nat} (hi : i < vs.length)
    (d : PixelDest) (x : Plane) (m : Cells Byte) :
    getValue b ((afterTake s b i).painted d x m) = .ok (vs.getD i 0) ((afterTake s b (i + 1)).painted d x m) := by
  rw [← afterTake_painted, ← afterTake_painted]
  exact getValue_afterTake (by rwa [State.painted_bundle]) hi

theorem nextColor_painted {s : State} {cs : List Int} (h : Holds (s.bundle .colors) cs) {i : Nat} (hi : i < cs.length)
    (d : PixelDest) (x : Plane) (m : Cells Byte) :
    nextColor ((afterTake s .colors i).painted d x m)
      = .ok (BitVec.ofInt 8 (cs.getD i 0)) ((afterTake s .colors (i + 1)).painted d x m) := by
  rw [nextColor, bind_of_ok (getValue_painted h hi d x m)]
  rfl

theorem nextColor_of_empty {s : State} (h : (s.bundle .colors).wr ≤ (s.bundle .colors).rd) :
    nextColor s = .error (.raised .bundleUnderrun) s := bind_of_error (getValue_of_empty h)

theorem nextColor_of_holds {s : State} {c : Int} {cs : List Int} (h : Holds (s.bundle .colors) (c :: cs)) :
    nextColor s = .ok (BitVec.ofInt 8 c) (afterTake s .colors 1) := by
  rw [nextColor, bind_of_ok (getValue_of_holds h)]
  rfl

theorem nextColor_afterTake {s : State} {cs : List Int} (h : Holds (s.bundle .colors) cs) {i : Nat} (hi : i < cs.length) :
    nextColor (afterTake s .colors i) = .ok (BitVec.ofInt 8 (cs.getD i 0)) (afterTake s .colors (i + 1)) := by
  rw [nextColor, bind_of_ok (getValue_afterTake h hi)]
  rfl

/-! ## The ends of a block -/

section
variable {s u : State} {p : PlaneId} {x : Plane} {body : PlaneId → Nat → M Unit}

/-- A block of one column: its algorithm paints `cur`, and the cursor moves on (R402). -/
theorem run_block_of_ok {new : Cells Byte} (hat : BlockAt s .block p x)
    (hbody : body p (cursorDst s x) s = .ok () (u.setPlane p { x with cur := new })) :
    run (block body) s = .next (afterBlock u p x new 1) := by
  refine run_of_ok ?_
  rw [block, bind_of_ok (currentBlock_of_blockAt hat)]
  exact (bind_of_ok hbody).trans (nextBlock_apply 1 _)

/-- An error of its algorithm ends the frame (R690). -/
theorem run_block_of_raised {c : Cause} (hat : BlockAt s .block p x)
    (hbody : body p (cursorDst s x) s = .error (.raised c) u) (hc : causeKind c = .decodeError) :
    run (block body) s = .next (afterDecodeError u (causeCode c)) := by
  rw [← takeError_eq_afterDecodeError u hc]
  refine run_of_raised ?_
  rw [block, bind_of_ok (currentBlock_of_blockAt hat)]
  exact bind_of_error hbody

end

theorem fits_cur {s : State} {p : PlaneId} {x : Plane} {ph : Phase} (hat : BlockAt s ph p x) (hf : BlockFits x (cursorDst s x)) :
    (PixelDest.cur p (cursorDst s x)).Fits s x := by
  obtain ⟨-, -, hplane, -⟩ := hat
  exact ⟨hplane, hf⟩

end Sys2Proof.Machine
end

/-! # Blocks without coefficients (R405 to R413, R418, R423 to R425) -/

section
namespace Sys2Proof.Machine

variable {s : State} {p : PlaneId} {x : Plane}

/-! ## SKIP and MOTION -/

/-- One pixel copied from `last`, which painting leaves as it is. -/
theorem copyPixel_painted {t : State} {src dst i : Nat} {f : Nat → Byte} (hsrc : BlockFits x src) (hdst : BlockFits x dst)
    (hlast : LastHolds x src f) (hi : i < 64) (m : Cells Byte) :
    (readLast p (src + blockOffset x i) >>= fun v => writeCur p (dst + blockOffset x i) v) (t.setPlane p { x with cur := m })
      = .ok () (t.setPlane p { x with cur := Cells.set m (dst + blockOffset x i) (f i) }) := by
  have hplane := State.plane_setPlane_same t p { x with cur := m }
  rw [bind_of_ok (readLast_of_written hplane (hsrc.inRange hi) (hlast i hi)),
    writeCur_of_inRange (f i) hplane (hdst.inRange hi), State.setPlane_setPlane]

/-- `Copy8`: the block at `src` of `last` becomes the block at `dst` of `cur` (R413). -/
theorem copy8_paints {src dst : Nat} {f : Nat → Byte} (hplane : s.plane p = some x) (hsrc : BlockFits x src)
    (hdst : BlockFits x dst) (hlast : LastHolds x src f) :
    ∃ new, BlockPainted x dst f new ∧ copy8 p src dst s = .ok () (s.setPlane p { x with cur := new }) := by
  obtain ⟨new, hnew, hloop⟩ := forEach_paints (place := fun i => dst + blockOffset x i) (f := f) (old := x.cur)
    (u := fun _ m => s.setPlane p { x with cur := m }) 64 (State.setPlane_self hplane).symm (fun i j _ _ => hdst.inj)
    fun i hi m _ => copyPixel_painted hsrc hdst hlast hi m
  refine ⟨new, hnew, ?_⟩
  rw [copy8, bind_of_ok (planeOf_of_present hplane)]
  exact hloop

/-- A first pixel that holds no value is an error before any pixel is written (R404). -/
theorem copy8_of_unwritten {src dst : Nat} (hplane : s.plane p = some x) (hsrc : BlockFits x src)
    (hlast : Cells.get x.last src = none) : copy8 p src dst s = .error (.raised .pixelUnwritten) s := by
  have hfirst : src + blockOffset x 0 = src := by simp [blockOffset]
  have hread : readLast p (src + blockOffset x 0) s = .error (.raised .pixelUnwritten) s :=
    readLast_of_unwritten hplane (hsrc.inRange (by decide)) (by rwa [hfirst])
  rw [copy8, bind_of_ok (planeOf_of_present hplane)]
  exact bind_of_error (bind_of_error hread)

/-- Settles O26: the copy is `copy8_paints` onto the same place, and its first read is the one that can fail first. -/
theorem btSkipCopies : Obligations.BtSkipCopies := by
  intro s p x hat hf
  have ⟨_, _, hplane, _⟩ := hat
  refine ⟨fun f hlast => ?_, fun hnone => ?_⟩
  · obtain ⟨new, hnew, hcopy⟩ := copy8_paints hplane hf hf hlast
    exact ⟨new, hnew, run_block_of_ok hat hcopy⟩
  · exact run_block_of_raised (c := .pixelUnwritten) hat (copy8_of_unwritten hplane hf hnone) rfl

/-- The motion copy that MOTION, RESIDUE and INTER share (R412). -/
theorem motionCopy_paints {dst : Nat} {f : Nat → Byte} (hplane : s.plane p = some x) (hdst : BlockFits x dst)
    (hm : MotionHolds s x dst f) :
    ∃ new, BlockPainted x dst f new ∧ motionCopy p dst s = .ok () ((afterVector s).setPlane p { x with cur := new }) := by
  obtain ⟨xo, yo, hx, hy, h0, h1, hsrc, hlast⟩ := hm
  have hplane' : (afterVector s).plane p = some x := hplane
  obtain ⟨new, hnew, hcopy⟩ := copy8_paints hplane' hsrc hdst hlast
  refine ⟨new, hnew, ?_⟩
  rw [motionCopy, bind_of_ok (motionSource_of_inside hplane hx hy h0 h1), hcopy]

/-- A source outside the bounds is an error once the vector is taken (R411). -/
theorem motionSource_of_outside {dst : Nat} {xo yo : Int} (hplane : s.plane p = some x) (hx : Holds (s.bundle .xOff) [xo])
    (hy : Holds (s.bundle .yOff) [yo]) (hout : motionTarget x dst xo yo < 0 ∨ motionLimit x < motionTarget x dst xo yo) :
    motionSource p dst s = .error (.raised .motionOutOfBounds) (afterVector s) := by
  have hy' : Holds ((afterTake s .xOff 1).bundle .yOff) [yo] := by rwa [bundle_afterTake_other s 1 (by decide)]
  rw [motionSource, bind_of_ok (planeOf_of_present hplane), bind_of_ok (getValue_of_holds hx),
    bind_of_ok (getValue_of_holds hy')]
  refine bind_of_error (check_of_false _ _ ?_)
  unfold motionTarget at hout
  simp only [Bool.and_eq_false_iff, decide_eq_false_iff_not]
  omega

/-- Settles O27: the vector leads to the copy or to the error of R411. -/
theorem btMotionCopies : Obligations.BtMotionCopies := by
  intro s p x hat hf
  have ⟨_, _, hplane, _⟩ := hat
  refine ⟨fun f hm => ?_, fun xo yo hx hy hout => ?_⟩
  · obtain ⟨new, hnew, hcopy⟩ := motionCopy_paints hplane hf hm
    exact ⟨new, hnew, run_block_of_ok hat hcopy⟩
  · exact run_block_of_raised (c := .motionOutOfBounds) hat (bind_of_error (motionSource_of_outside hplane hx hy hout)) rfl

/-! ## FILL -/

/-- Settles O33: one color is taken and put 64 times, or there is none to take. -/
theorem btFillPaints : Obligations.BtFillPaints := by
  intro s p x hat hf
  refine ⟨fun c hc => ?_, fun hempty =>
    run_block_of_raised (c := .bundleUnderrun) hat (bind_of_error (nextColor_of_empty hempty)) rfl⟩
  have hfits := fits_cur hat hf
  obtain ⟨new, hnew, hloop⟩ := forEach_paints (f := fun _ => BitVec.ofInt 8 c)
    (u := fun _ m => (afterTake s .colors 1).painted (.cur p (cursorDst s x)) x m) 64
    (State.painted_pixels (t := afterTake s .colors 1) hfits rfl rfl).symm (fun i j _ _ => PixelDest.place_inj hfits)
    fun i hi m _ => put_painted hfits hi m _
  refine ⟨new, hnew, run_block_of_ok hat ?_⟩
  rw [bind_of_ok (nextColor_of_holds hc)]
  exact hloop

/-! ## RAW (R424) -/

variable {d : PixelDest} {cs rows : List Int}

/-- The first `n` pixels of `Raw`, each with its own color. -/
theorem raw_paints (hfits : d.Fits s x) (hc : Holds (s.bundle .colors) cs) (n : Nat) (hn : n ≤ 64) (hlen : n ≤ cs.length) :
    ∃ new, Painted n (d.place x) (fun i => BitVec.ofInt 8 (cs.getD i 0)) (d.pixels s x) new
      ∧ forEach (List.range n) (fun i => nextColor >>= put d i) s = .ok () ((afterTake s .colors n).painted d x new) := by
  refine forEach_paints (u := fun i m => (afterTake s .colors i).painted d x m) n ?_
    (fun i j _ _ => PixelDest.place_inj hfits) fun i hi m _ => ?_
  · rw [afterTake_zero, State.painted_pixels hfits rfl rfl]
  · rw [bind_of_ok (nextColor_painted hc (by omega) d x m), put_painted hfits (by omega)]

theorem rawBlock_paints (hfits : d.Fits s x) (hc : Holds (s.bundle .colors) cs) (hlen : cs.length = 64) :
    ∃ new, Painted 64 (d.place x) (fun i => BitVec.ofInt 8 (cs.getD i 0)) (d.pixels s x) new
      ∧ rawBlock d s = .ok () ((afterTake s .colors 64).painted d x new) :=
  raw_paints hfits hc 64 (Nat.le_refl _) (Nat.le_of_eq hlen.symm)

/-- With too few colors buffered, those there are have been painted when the next one is missing. -/
theorem rawBlock_underrun (hfits : d.Fits s x) (hc : Holds (s.bundle .colors) cs) (hlen : cs.length < 64)
    (hwr : (s.bundle .colors).wr = (s.bundle .colors).rd + cs.length) :
    ∃ new, Painted cs.length (d.place x) (fun i => BitVec.ofInt 8 (cs.getD i 0)) (d.pixels s x) new
      ∧ rawBlock d s = .error (.raised .bundleUnderrun) ((afterTake s .colors cs.length).painted d x new) := by
  obtain ⟨new, hnew, hloop⟩ := raw_paints hfits hc cs.length (Nat.le_of_lt hlen) (Nat.le_refl _)
  refine ⟨new, hnew, ?_⟩
  have hsplit : blockPositions = List.range cs.length ++ cs.length :: blockPositions.drop (cs.length + 1) := by
    conv_lhs => rw [← List.take_append_drop cs.length blockPositions, List.drop_eq_getElem_cons (by simpa [blockPositions])]
    simp [blockPositions, List.take_range, Nat.min_eq_left (Nat.le_of_lt hlen)]
  have hempty : (((afterTake s .colors cs.length).painted d x new).bundle .colors).wr
      ≤ (((afterTake s .colors cs.length).painted d x new).bundle .colors).rd := by
    rw [State.painted_bundle, bundle_afterTake_same]
    exact Nat.le_of_eq hwr
  show forEach blockPositions (fun i => nextColor >>= put d i) s = _
  rw [hsplit, forEach_append_of_ok hloop, forEach_cons]
  exact bind_of_error (bind_of_error (nextColor_of_empty hempty))

/-! ## PATTERN (R423) -/

/-- The pixel of PATTERN: bit `x` of the row's byte selects the color. -/
def patternPixel (c0 c1 : Int) (rows : List Int) (i : Nat) : Byte :=
  BitVec.ofInt 8 (if (BitVec.ofInt 8 (rows.getD (i / 8) 0)).getLsbD (i % 8) then c1 else c0)

/-- One row: the 8 pixels after those of the rows before. -/
theorem patternRow_paints {c0 c1 : Int} {y : Nat} {m : Cells Byte} (hfits : d.Fits s x) (hrows : Holds (s.bundle .pattern) rows)
    (hy : y < rows.length) (hy8 : y < 8) (hm : Painted (8 * y) (d.place x) (patternPixel c0 c1 rows) (d.pixels s x) m) :
    ∃ new, Painted (8 * (y + 1)) (d.place x) (patternPixel c0 c1 rows) (d.pixels s x) new
      ∧ patternRow d (BitVec.ofInt 8 c0) (BitVec.ofInt 8 c1) y ((afterTake s .pattern y).painted d x m)
        = .ok () ((afterTake s .pattern (y + 1)).painted d x new) := by
  rw [patternRow, bind_of_ok (getValue_painted hrows hy d x m)]
  refine forEach_paints_from (u := fun _ m => (afterTake s .pattern (y + 1)).painted d x m) (8 * y) 8 hm rfl
    (fun i j _ _ => PixelDest.place_inj hfits) fun i hi m _ => ?_
  have hpixel : patternPixel c0 c1 rows (8 * y + i)
      = if (elementByte (rows.getD y 0)).getLsbD i then BitVec.ofInt 8 c1 else BitVec.ofInt 8 c0 := by
    have hdiv : (8 * y + i) / 8 = y := by omega
    have hmod : (8 * y + i) % 8 = i := by omega
    rw [patternPixel, hdiv, hmod, apply_ite (BitVec.ofInt 8)]
    rfl
  rw [hpixel, Nat.mul_comm y 8, put_painted hfits (by omega)]

theorem patternBlock_paints {c0 c1 : Int} (hfits : d.Fits s x) (hc : Holds (s.bundle .colors) [c0, c1])
    (hrows : Holds (s.bundle .pattern) rows) (hlen : rows.length = 8) :
    ∃ new, Painted 64 (d.place x) (patternPixel c0 c1 rows) (d.pixels s x) new
      ∧ patternBlock d s = .ok () ((afterTake (afterTake s .colors 2) .pattern 8).painted d x new) := by
  have hfits' : d.Fits (afterTake s .colors 2) x := hfits.congr rfl
  have hrows' : Holds ((afterTake s .colors 2).bundle .pattern) rows := by rwa [bundle_afterTake_other s 2 (by decide)]
  obtain ⟨t, ht, new, hnew, rfl⟩ := forEach_range (f := patternRow d (BitVec.ofInt 8 c0) (BitVec.ofInt 8 c1))
    (P := fun y t => ∃ m, Painted (8 * y) (d.place x) (patternPixel c0 c1 rows) (d.pixels s x) m
      ∧ t = (afterTake (afterTake s .colors 2) .pattern y).painted d x m) 8
    (fun y hy t hm => by
      obtain ⟨m, hm, rfl⟩ := hm
      obtain ⟨new, hnew, hrow⟩ := patternRow_paints hfits' hrows' (by omega) hy hm
      exact ⟨_, hrow, new, hnew, rfl⟩)
    ⟨d.pixels s x, .zero _, (State.painted_pixels (t := afterTake (afterTake s .colors 2) .pattern 0) hfits rfl rfl).symm⟩
  refine ⟨new, hnew, ?_⟩
  rw [patternBlock, bind_of_ok (nextColor_of_holds hc), bind_of_ok (nextColor_afterTake hc Nat.one_lt_two)]
  exact ht

/-- Settles O35: PATTERN and RAW painted into `cur`. -/
theorem btPatternRawPaint : Obligations.BtPatternRawPaint := by
  intro s p x hat hf
  have hfits := fits_cur hat hf
  refine ⟨fun c0 c1 rows hc hrows hlen => ?_, fun cs hc hlen => ?_, fun cs hc hlen hwr => ?_⟩
  · obtain ⟨new, hnew, hpaint⟩ := patternBlock_paints hfits hc hrows hlen
    exact ⟨new, hnew, run_block_of_ok hat hpaint⟩
  · obtain ⟨new, hnew, hpaint⟩ := rawBlock_paints hfits hc hlen
    exact ⟨new, hnew, run_block_of_ok hat hpaint⟩
  · obtain ⟨new, hnew, hraise⟩ := rawBlock_underrun hfits hc hlen hwr
    exact ⟨new, hnew, run_block_of_raised (c := .bundleUnderrun) hat hraise rfl⟩

/-! ## SCALED at its three places (R405, R406) -/

/-- Settles O28: the three places of the cursor. -/
theorem btScaledPlaces : Obligations.BtScaledPlaces := by
  intro s p x hat
  show run _ s = _
  split
  next hodd =>
    refine (run_of_raised (c := .scaledPosition) ?_).trans (congrArg _ (takeError_eq_afterDecodeError s rfl))
    rw [bind_of_ok (currentBlock_of_blockAt hat), bind_of_ok (get_apply s)]
    exact bind_of_error (check_of_false _ s (by simp [hodd]))
  next heven =>
    have hcheck : check (s.ctl.bx % 2 == 0) .scaledPosition s = .ok () s := check_of_true _ s (by simp; omega)
    split
    next hrow =>
      refine run_of_ok ?_
      rw [bind_of_ok (currentBlock_of_blockAt hat), bind_of_ok (get_apply s), bind_of_ok hcheck, if_pos hrow, nextBlock_apply,
        ← hat.1]
    next hrow =>
      refine run_of_ok ?_
      rw [bind_of_ok (currentBlock_of_blockAt hat), bind_of_ok (get_apply s), bind_of_ok hcheck, if_neg hrow]
      rfl

/-! ## Illegal codes (R425, R420) -/

theorem exec_of_illegal_bt4 {w : Nat} {i : Instr} (hw : 10 ≤ w) (hd : decode .bt4 w = .ok i) : exec i s = run illegalBlock s := by
  change decodeBt4 w = .ok i at hd
  unfold decodeBt4 at hd
  split at hd
  case h_11 | h_12 | h_13 | h_14 | h_15 | h_16 => cases hd; rfl
  case h_17 => cases hd
  all_goals exact absurd hw (by decide)

theorem exec_of_illegal_st4 {w : Nat} {i : Instr} (hw : w ∉ [3, 5, 6, 8, 9]) (hd : decode .st4 w = .ok i) :
    exec i s = run illegalSubBlock s := by
  change decodeSt4 w = .ok i at hd
  unfold decodeSt4 at hd
  split at hd
  case h_4 | h_6 | h_7 | h_9 | h_10 => exact absurd hw (by decide)
  case h_17 => cases hd
  all_goals cases hd; rfl

theorem illegalBlock_raises (hat : BlockAt s .block p x) : illegalBlock s = .error (.raised .badBlockType) s :=
  bind_of_ok (currentBlock_of_blockAt hat)

theorem illegalSubBlock_raises (hat : BlockAt s .subBlock p x) : illegalSubBlock s = .error (.raised .badSubtype) s :=
  bind_of_ok (currentBlock_of_blockAt hat)

/-- Settles O36: every illegal code runs the same two steps, the place and the error. -/
theorem illegalCodesRaise : Obligations.IllegalCodesRaise := by
  intro s p x w i _
  refine ⟨fun hat hw hd => ?_, fun hat hw hd => ?_⟩
  · rw [exec_of_illegal_bt4 hw hd, run_of_raised (illegalBlock_raises hat)]
    exact congrArg _ (takeError_eq_afterDecodeError s rfl)
  · rw [exec_of_illegal_st4 hw hd, run_of_raised (illegalSubBlock_raises hat)]
    exact congrArg _ (takeError_eq_afterDecodeError s rfl)

end Sys2Proof.Machine
end

/-! # Scaled blocks without coefficients (R420 to R424) -/

section
namespace Sys2Proof.Machine

variable {s t : State} {p : PlaneId} {x : Plane} {f : Nat → Byte}

theorem doubled_lt {i : Nat} (h : i < 256) : doubled i < 64 := by unfold doubled; omega

/-- `Upsample`: the region shows the pixels of `ublk`, doubled (R422). -/
theorem upsample_paints {dst : Nat} (hplane : t.plane p = some x) (hr : RegionFits x dst)
    (hu : ∀ i, i < 64 → Cells.get t.dct.ublk i = some (f i)) :
    ∃ new, RegionPainted x dst (fun i => f (doubled i)) new ∧ upsample p dst t = .ok () (t.setPlane p { x with cur := new }) := by
  rw [upsample, bind_of_ok (planeOf_of_present hplane)]
  refine forEach_paints (u := fun _ m => t.setPlane p { x with cur := m }) 256 (State.setPlane_self hplane).symm
    (fun i j _ _ => hr.inj) fun i hi m _ => ?_
  have hplane' := State.plane_setPlane_same t p { x with cur := m }
  have hget : getOr (Cells.get (t.setPlane p { x with cur := m }).dct.ublk (i / 32 * 8 + i % 16 / 2)) .unwrittenField
      (t.setPlane p { x with cur := m }) = .ok (f (doubled i)) (t.setPlane p { x with cur := m }) := by
    have hi := hu (doubled i) (doubled_lt hi)
    rw [State.setPlane_dct, ← doubled, hi, getOr_some]
  rw [bind_of_ok (get_apply _), bind_of_ok hget, writeCur_of_inRange _ hplane' (hr.inRange hi), State.setPlane_setPlane]

/-- A sub-type that decodes into `ublk`: the region is painted with its pixels, and the cursor skips the pair (R420). -/
theorem run_scaledBlock_of_ok {body : M Unit} (hat : BlockAt s .subBlock p x) (hr : RegionFits x (cursorDst s x))
    (hbody : body s = .ok () t) (hplanes : t.planes = s.planes) (hu : ∀ i, i < 64 → Cells.get t.dct.ublk i = some (f i)) :
    ∃ new, RegionPainted x (cursorDst s x) (fun i => f (doubled i)) new
      ∧ run (scaledBlock body) s = .next (afterBlock t p x new 2) := by
  have hplane : t.plane p = some x := by rw [State.plane, hplanes]; exact hat.2.2.1
  obtain ⟨new, hnew, hup⟩ := upsample_paints hplane hr hu
  refine ⟨new, hnew, run_of_ok ?_⟩
  rw [scaledBlock, bind_of_ok (currentBlock_of_blockAt hat)]
  show (body >>= _) s = _
  rw [bind_of_ok hbody, bind_of_ok hup, nextBlock_apply]
  rfl

/-- An error of a sub-type ends the frame before any pixel of the plane is written (R690). -/
theorem run_scaledBlock_of_raised {body : M Unit} {c : Cause} (hat : BlockAt s .subBlock p x)
    (hbody : body s = .error (.raised c) t) (hc : causeKind c = .decodeError) :
    run (scaledBlock body) s = .next (afterDecodeError t (causeCode c)) := by
  rw [← takeError_eq_afterDecodeError t hc]
  refine run_of_raised ?_
  rw [scaledBlock, bind_of_ok (currentBlock_of_blockAt hat)]
  exact bind_of_error hbody

/-- Settles O37: one color for every pixel of the region. -/
theorem scaledFillPaints : Obligations.ScaledFillPaints := by
  intro s p x c hat hr hc
  have hplane : (afterTake s .colors 1).plane p = some x := hat.2.2.1
  obtain ⟨new, hnew, hpaint⟩ := forEach_paint_region (fun _ => BitVec.ofInt 8 c) hplane hr
  refine ⟨new, hnew, run_of_ok ?_⟩
  rw [bind_of_ok (currentBlock_of_blockAt hat)]
  show (nextColor >>= _) s = _
  rw [bind_of_ok (nextColor_of_holds hc), bind_of_ok (planeOf_of_present hplane), bind_of_ok hpaint, nextBlock_apply]
  rfl

/-- Settles O40: PATTERN and RAW painted into `ublk`, then doubled. -/
theorem scaledPatternRawPaint : Obligations.ScaledPatternRawPaint := by
  intro s p x hat hr
  have hfits : PixelDest.ublk.Fits s x := trivial
  refine ⟨fun c0 c1 rows hc hrows hlen => ?_, fun cs hc hlen => ?_⟩
  · obtain ⟨u, hu, hpaint⟩ := patternBlock_paints hfits hc hrows hlen
    obtain ⟨new, hnew, hrun⟩ := run_scaledBlock_of_ok hat hr hpaint rfl hu.1
    exact ⟨u, new, hnew, hrun⟩
  · obtain ⟨u, hu, hpaint⟩ := rawBlock_paints hfits hc hlen
    obtain ⟨new, hnew, hrun⟩ := run_scaledBlock_of_ok hat hr hpaint rfl hu.1
    exact ⟨u, new, hnew, hrun⟩

end Sys2Proof.Machine
end

/-! # RUN (R414, R415)

The loop of `RunFill` is followed run by run: after the first `k` runs it stands at the pixel they end at, with the colors they
take taken. -/

section
namespace Sys2Proof.Machine

variable {s t : State} {d : PixelDest} {x : Plane} {order : List Nat} {cs : List Int}

/-! ## The visiting order -/

/-- The place of the `j`-th visited pixel. -/
def visitPlace (d : PixelDest) (x : Plane) (order : List Nat) (j : Nat) : Nat := d.place x (order.getD j 0)

theorem length_of_isPerm64 (ho : isPerm64 order = true) : order.length = 64 :=
  (perm_of_isPerm64 ho).length_eq.trans List.length_range

theorem getD_lt_of_isPerm64 (ho : isPerm64 order = true) {j : Nat} (hj : j < 64) : order.getD j 0 < 64 := by
  rw [List.getD_eq_getElem _ _ (by rwa [length_of_isPerm64 ho])]
  exact List.mem_range.mp ((perm_of_isPerm64 ho).mem_iff.mp (List.getElem_mem _))

theorem visitPlace_inj (hfits : d.Fits s x) (ho : isPerm64 order = true) {i j : Nat} (hi : i < 64) (hj : j < 64)
    (he : visitPlace d x order i = visitPlace d x order j) : i = j := by
  have hsame := PixelDest.place_inj hfits he
  have hlen := length_of_isPerm64 ho
  rw [List.getD_eq_getElem _ _ (by omega), List.getD_eq_getElem _ _ (by omega)] at hsame
  exact (((perm_of_isPerm64 ho).nodup_iff.mpr List.nodup_range).getElem_inj_iff).mp hsame

/-- Every pixel is visited. -/
theorem getD_idxOf_of_isPerm64 (ho : isPerm64 order = true) {q : Nat} (hq : q < 64) :
    order.idxOf q < 64 ∧ order.getD (order.idxOf q) 0 = q := by
  have hmem : q ∈ order := (perm_of_isPerm64 ho).mem_iff.mpr (List.mem_range.mpr hq)
  have hlt : order.idxOf q < order.length := List.idxOf_lt_length_of_mem hmem
  exact ⟨by rwa [length_of_isPerm64 ho] at hlt, by rw [List.getD_eq_getElem _ _ hlt, List.getElem_idxOf hlt]⟩

/-! ## The colors of the runs -/

/-- The colors one run takes (R415). -/
def runColors (r : Nat × Bool) : Nat := if r.2 then 1 else r.1

theorem Runs.pixels_append (a b : Runs) : Runs.pixels (a ++ b) = a.pixels + b.pixels := by simp [Runs.pixels]

theorem Runs.colors_append (a b : Runs) : Runs.colors (a ++ b) = a.colors + b.colors := by simp [Runs.colors]

theorem Runs.length_colorIndices (runs : Runs) (u : Nat) : (runs.colorIndices u).length = runs.pixels := by
  induction runs generalizing u with
  | nil => rfl
  | cons r rs ih =>
    obtain ⟨n, _ | _⟩ := r <;> simp [Runs.colorIndices, Runs.pixels, ih]

theorem Runs.colorIndices_append (a b : Runs) (u : Nat) :
    Runs.colorIndices (a ++ b) u = a.colorIndices u ++ b.colorIndices (u + a.colors) := by
  induction a generalizing u with
  | nil => rfl
  | cons r rs ih =>
    obtain ⟨n, _ | _⟩ := r <;> simp [Runs.colorIndices, Runs.colors, ih, Nat.add_assoc]

/-- The runs before the `k`-th, the `k`-th, and those after it. -/
theorem Runs.split {runs : Runs} {k : Nat} {r : Nat × Bool} (hr : runs[k]? = some r) :
    runs = runs.take k ++ r :: runs.drop (k + 1) := by
  obtain ⟨hk, rfl⟩ := List.getElem?_eq_some_iff.mp hr
  rw [← List.drop_eq_getElem_cons hk, List.take_append_drop]

theorem Runs.take_succ {runs : Runs} {k : Nat} {r : Nat × Bool} (hr : runs[k]? = some r) :
    runs.take (k + 1) = runs.take k ++ [r] := by rw [List.take_add_one, hr]; rfl

theorem Runs.pixels_take_succ {runs : Runs} {k : Nat} {r : Nat × Bool} (hr : runs[k]? = some r) :
    Runs.pixels (runs.take (k + 1)) = Runs.pixels (runs.take k) + r.1 := by
  rw [Runs.take_succ hr, Runs.pixels_append]; simp [Runs.pixels]

theorem Runs.colors_take_succ {runs : Runs} {k : Nat} {r : Nat × Bool} (hr : runs[k]? = some r) :
    Runs.colors (runs.take (k + 1)) = Runs.colors (runs.take k) + runColors r := by
  rw [Runs.take_succ hr, Runs.colors_append]; simp [Runs.colors, runColors]

theorem Runs.colors_take_le (runs : Runs) (k : Nat) : Runs.colors (runs.take k) ≤ runs.colors := by
  have h := Runs.colors_append (runs.take k) (runs.drop k)
  rw [List.take_append_drop] at h
  omega

/-- The color of the `j`-th pixel of the `k`-th run. -/
theorem Runs.color_of_run {runs : Runs} (cs : List Int) {k : Nat} {r : Nat × Bool} (hr : runs[k]? = some r) {j : Nat}
    (hj : j < r.1) :
    runs.color cs (Runs.pixels (runs.take k) + j)
      = BitVec.ofInt 8 (cs.getD (if r.2 then Runs.colors (runs.take k) else Runs.colors (runs.take k) + j) 0) := by
  have hindices : runs.colorIndices 0 = Runs.colorIndices (runs.take k) 0
      ++ Runs.colorIndices (r :: runs.drop (k + 1)) (Runs.colors (runs.take k)) := by
    conv_lhs => rw [Runs.split hr, Runs.colorIndices_append, Nat.zero_add]
  have hlen : (Runs.colorIndices (runs.take k) 0).length = Runs.pixels (runs.take k) := Runs.length_colorIndices _ _
  rw [Runs.color, hindices, List.append_assoc, List.getD_append_right _ _ _ _ (by omega), hlen, Nat.add_sub_cancel_left]
  obtain ⟨n, _ | _⟩ := r
  · have hget : (List.range' (Runs.colors (runs.take k)) n).getD j 0 = Runs.colors (runs.take k) + j := by
      rw [List.getD_eq_getElem _ _ (by simpa using hj)]; simp
    rw [Runs.colorIndices, List.append_assoc, List.getD_append _ _ _ _ (by simpa using hj), hget]
    rfl
  · have hget : (List.replicate n (Runs.colors (runs.take k))).getD j 0 = Runs.colors (runs.take k) := by
      rw [List.getD_eq_getElem _ _ (by simpa using hj)]; simp
    rw [Runs.colorIndices, List.append_assoc, List.getD_append _ _ _ _ (by simpa using hj), hget]
    rfl

/-- The color of a 64th pixel that no run covers. -/
theorem Runs.color_last {runs : Runs} (cs : List Int) (h : runs.pixels = 63) :
    runs.color cs 63 = BitVec.ofInt 8 (cs.getD runs.colors 0) := by
  have hlen : (runs.colorIndices 0).length = 63 := (Runs.length_colorIndices _ _).trans h
  rw [Runs.color, List.getD_append_right _ _ _ _ (by omega), hlen]
  rfl

/-- Every run has a pixel, so there are no more runs than pixels. -/
theorem Runs.le_pixels {runs : Runs} (h : ∀ r ∈ runs, 1 ≤ r.1) : runs.length ≤ runs.pixels := by
  induction runs with
  | nil => exact Nat.le_refl _
  | cons r rs ih =>
    have hr := h r List.mem_cons_self
    have hrs := ih fun r' hr' => h r' (List.mem_cons_of_mem r hr')
    simp only [Runs.pixels, List.map_cons, List.sum_cons, List.length_cons] at hrs ⊢
    omega

/-! ## Where the loop stands -/

/-- The state with `k` run values, `u` colors and `o` bits taken. -/
def State.ran (s : State) (k u o : Nat) : State := (afterTake (afterTake s .run k) .colors u).setPos (s.bitPos + o)

variable {m : Cells Byte} {k u o : Nat}

theorem ran_readsAhead (hleft : BitsLeft s o) : ReadsAhead s ((s.ran k u o).painted d x m) o := by
  have h : ReadsAhead s (s.ran k u o) o := ⟨rfl, rfl, rfl, State.bitPos_setPos_of_le _ hleft⟩
  cases d <;> exact ⟨h.container, h.base, h.size, h.pos⟩

theorem getBit_ran (hleft : BitsLeft s (o + 1)) :
    getBit ((s.ran k u o).painted d x m) = .ok (bitsAt s o 1) ((s.ran k u (o + 1)).painted d x m) := by
  rw [(ran_readsAhead (hleft.mono (Nat.le_succ o))).getBit hleft]
  cases d <;> rfl

theorem getValue_ran {vs : List Int} (h : Holds (s.bundle .run) vs) (hk : k < vs.length) :
    getValue .run ((s.ran k u o).painted d x m) = .ok (vs.getD k 0) ((s.ran (k + 1) u o).painted d x m) := by
  rw [getValue_of_advanced (by rw [State.painted_bundle]; rfl) h hk]
  cases d <;> rfl

theorem nextColor_ran (h : Holds (s.bundle .colors) cs) (hu : u < cs.length) :
    nextColor ((s.ran k u o).painted d x m) = .ok (BitVec.ofInt 8 (cs.getD u 0)) ((s.ran k (u + 1) o).painted d x m) := by
  rw [nextColor, bind_of_ok (getValue_of_advanced (by rw [State.painted_bundle]; rfl) h hu)]
  cases d <;> rfl

/-! ## One run -/

/-- A run of `n` pixels from the `i`-th visited on: the color of each is that of `f`, which `color` gives as it goes from
`w j` to `w (j + 1)`. -/
theorem fillRun_paints {color : M Byte} {f : Nat → Byte} {old : Cells Byte} {w : Nat → State} (hfits : d.Fits s x)
    (ho : isPerm64 order = true) (n i : Nat) (hn : i + n ≤ 64) (hm : Painted i (visitPlace d x order) f old m)
    (hcolor : ∀ j, j < n → ∀ m, color ((w j).painted d x m) = .ok (f (i + j)) ((w (j + 1)).painted d x m)) :
    ∃ new, Painted (i + n) (visitPlace d x order) f old new
      ∧ fillRun d order color n i ((w 0).painted d x m) = .ok () ((w n).painted d x new) := by
  induction n generalizing i m w with
  | zero => exact ⟨m, hm, rfl⟩
  | succ n ih =>
    have hwrite := hm.write fun j hj he => absurd (visitPlace_inj hfits ho (by omega) (by omega) he) (by omega)
    obtain ⟨new, hnew, hrun⟩ := ih (w := fun j => w (j + 1)) (i + 1) (by omega) hwrite fun j hj m => by
      have h := hcolor (j + 1) (by omega) m
      rwa [← Nat.add_assoc, Nat.add_right_comm] at h
    refine ⟨new, by rwa [Nat.add_right_comm] at hnew, ?_⟩
    have hplace : d.place x (order.getD i 0) = visitPlace d x order i := rfl
    rw [fillRun, bind_of_ok (hcolor 0 (Nat.succ_pos n) m),
      bind_of_ok (put_painted hfits (getD_lt_of_isPerm64 ho (by omega)) m _), hplace]
    exact hrun

/-- The rest of the loop after a run that ends before pixel `i` (R415). -/
def runRest (d : PixelDest) (order : List Nat) (fuel i : Nat) : M Unit :=
  if 64 ≤ i then pure ()
  else if i = 63 then fillRun d order nextColor 1 63
  else runLoop d order fuel i

/-- One round of the loop: its value is a run that fits, and its pixels take one color or one each. -/
theorem runLoop_run {f : Nat → Byte} {old : Cells Byte} {vs : List Int} {fuel i n : Nat} {b : Bool} (hfits : d.Fits s x)
    (ho : isPerm64 order = true) (hv : Holds (s.bundle .run) vs) (hc : Holds (s.bundle .colors) cs)
    (hk : k < vs.length) (hvk : vs.getD k 0 = (n : Int) - 1) (hn : 1 ≤ n) (hin : i + n ≤ 64)
    (hleft : BitsLeft s (4 + k + 1)) (hb : b = (bitsAt s (4 + k) 1 == 1)) (hu : u + runColors (n, b) ≤ cs.length)
    (hf : ∀ j, j < n → f (i + j) = BitVec.ofInt 8 (cs.getD (if b then u else u + j) 0))
    (hm : Painted i (visitPlace d x order) f old m) :
    ∃ new, Painted (i + n) (visitPlace d x order) f old new
      ∧ runLoop d order (fuel + 1) i ((s.ran k u (4 + k)).painted d x m)
        = runRest d order fuel (i + n) ((s.ran (k + 1) (u + runColors (n, b)) (4 + (k + 1))).painted d x new) := by
  have hrun : vs.getD k 0 + 1 = (n : Int) := by omega
  rw [runLoop, bind_of_ok (getValue_ran hv hk)]
  simp only [hrun, Int.toNat_natCast]
  rw [bind_of_ok (check_of_true _ _ (by simp; omega)), bind_of_ok (check_of_true _ _ (by simpa using hin)), bind_of_ok (getBit_ran hleft)]
  cases b with
  | true =>
    have hbit : bitsAt s (4 + k) 1 = 1 := by simpa using hb.symm
    obtain ⟨new, hnew, hfill⟩ := fillRun_paints (f := f) (color := pure (BitVec.ofInt 8 (cs.getD u 0)))
      (w := fun _ => s.ran (k + 1) (u + 1) (4 + k + 1)) hfits ho n i hin hm fun j hj m => by rw [hf j hj]; rfl
    refine ⟨new, hnew, ?_⟩
    rw [if_pos hbit, bind_of_ok (nextColor_ran hc hu), bind_of_ok hfill]
    rfl
  | false =>
    have hbit : bitsAt s (4 + k) 1 ≠ 1 := by simpa using hb.symm
    obtain ⟨new, hnew, hfill⟩ := fillRun_paints (f := f) (color := nextColor)
      (w := fun j => s.ran (k + 1) (u + j) (4 + k + 1)) hfits ho n i hin hm fun j hj m => by
        have hlt : u + n ≤ cs.length := hu
        rw [hf j hj, nextColor_ran hc (by omega)]
        rfl
    refine ⟨new, hnew, ?_⟩
    rw [if_neg hbit]
    exact (bind_of_ok hfill).trans rfl

/-! ## All runs -/

/-- The value, the length and the bit of the `k`-th run ahead. -/
theorem RunsAhead.run {runs : Runs} {more : List Int} (h : RunsAhead s runs more) {r : Nat × Bool} (hr : runs[k]? = some r) :
    1 ≤ r.1 ∧ (runs.map (fun r => (r.1 : Int) - 1) ++ more).getD k 0 = (r.1 : Int) - 1
      ∧ BitsLeft s (4 + k + 1) ∧ r.2 = (bitsAt s (4 + k) 1 == 1) := by
  obtain ⟨hpos, -, hleft, hbit⟩ := h
  obtain ⟨hk, hget⟩ := List.getElem?_eq_some_iff.mp hr
  have hmem : r ∈ runs := hget ▸ List.getElem_mem hk
  have hb := hbit k hk
  rw [hr] at hb
  refine ⟨hpos r hmem, ?_, hleft.mono (by omega), Option.some.inj hb⟩
  rw [List.getD_append _ _ _ _ (by simpa using hk), List.getD_eq_getElem _ _ (by simpa using hk)]
  simp [hget]

/-- The round of the `k`-th run, after the runs before it. -/
theorem runLoop_nth {runs : Runs} {more : List Int} {old : Cells Byte} {fuel : Nat} {r : Nat × Bool} (hfits : d.Fits s x)
    (ho : isPerm64 order = true) (hruns : RunsAhead s runs more) (hc : Holds (s.bundle .colors) cs)
    (hcs : runs.colors ≤ cs.length) (hr : runs[k]? = some r) (hin : Runs.pixels (runs.take k) + r.1 ≤ 64)
    (hm : Painted (Runs.pixels (runs.take k)) (visitPlace d x order) (runs.color cs) old m) :
    ∃ new, Painted (Runs.pixels (runs.take (k + 1))) (visitPlace d x order) (runs.color cs) old new
      ∧ runLoop d order (fuel + 1) (Runs.pixels (runs.take k)) ((s.ran k (Runs.colors (runs.take k)) (4 + k)).painted d x m)
        = runRest d order fuel (Runs.pixels (runs.take (k + 1)))
            ((s.ran (k + 1) (Runs.colors (runs.take (k + 1))) (4 + (k + 1))).painted d x new) := by
  obtain ⟨hpos, hvalue, hleft, hbit⟩ := hruns.run hr
  have hk : k < runs.length := (List.getElem?_eq_some_iff.mp hr).1
  have hle := Runs.colors_take_le runs (k + 1)
  rw [Runs.colors_take_succ hr] at hle ⊢
  rw [Runs.pixels_take_succ hr]
  exact runLoop_run hfits ho hruns.2.1 hc (by rw [List.length_append, List.length_map]; omega) hvalue hpos hin hleft hbit
    (Nat.le_trans hle hcs) (fun j hj => Runs.color_of_run cs hr hj) hm

/-- The loop comes to stand after the first `k` runs, where those do not yet fill the block. -/
theorem runLoop_after {runs : Runs} {more : List Int} (hfits : d.Fits s x) (ho : isPerm64 order = true)
    (hruns : RunsAhead s runs more) (hc : Holds (s.bundle .colors) cs) (hcs : runs.colors ≤ cs.length) (k : Nat)
    (hk : k ≤ runs.length) (hpix : Runs.pixels (runs.take k) < 63) :
    ∃ m, Painted (Runs.pixels (runs.take k)) (visitPlace d x order) (runs.color cs) (d.pixels s x) m
      ∧ runLoop d order 64 0 ((s.ran 0 0 4).painted d x (d.pixels s x))
        = runLoop d order (64 - k) (Runs.pixels (runs.take k))
            ((s.ran k (Runs.colors (runs.take k)) (4 + k)).painted d x m) := by
  induction k with
  | zero => exact ⟨_, .zero _, rfl⟩
  | succ k ih =>
    have hr : runs[k]? = some runs[k] := List.getElem?_eq_getElem hk
    have hsum := Runs.pixels_take_succ hr
    have hcount := Runs.le_pixels (runs := runs.take k) fun r hr' => hruns.1 r (List.mem_of_mem_take hr')
    rw [List.length_take_of_le (by omega)] at hcount
    obtain ⟨m, hm, hloop⟩ := ih (by omega) (by omega)
    obtain ⟨new, hnew, hround⟩ := runLoop_nth (fuel := 64 - (k + 1)) hfits ho hruns hc hcs hr (by omega) hm
    refine ⟨new, hnew, ?_⟩
    have hfuel : 64 - k = 64 - (k + 1) + 1 := by omega
    rw [hloop, hfuel, hround, runRest, if_neg (by omega), if_neg (by omega)]

/-- `RunFill` over runs that fill the block (R415). -/
theorem runLoop_fills {runs : Runs} (hfits : d.Fits s x) (ho : isPerm64 order = true) (hfill : runs.Fill)
    (hruns : RunsAhead s runs []) (hc : Holds (s.bundle .colors) cs) (hcs : cs.length = runs.allColors) :
    ∃ new, Painted 64 (visitPlace d x order) (runs.color cs) (d.pixels s x) new
      ∧ runLoop d order 64 0 ((s.ran 0 0 4).painted d x (d.pixels s x))
        = .ok () ((s.ran runs.length cs.length (4 + runs.length)).painted d x new) := by
  obtain ⟨hpixels, hinit⟩ := hfill
  have hcolors : runs.colors ≤ cs.length := by rw [hcs, Runs.allColors]; omega
  have hne : runs ≠ [] := by rintro rfl; simp [Runs.pixels] at hpixels
  have hlen : 0 < runs.length := List.length_pos_iff.mpr hne
  obtain ⟨k, hk⟩ : ∃ k, runs.length = k + 1 := ⟨runs.length - 1, by omega⟩
  have hall : runs.take (k + 1) = runs := by rw [← hk, List.take_length]
  have hr : runs[k]? = some runs[k] := List.getElem?_eq_getElem (by omega)
  have hdrop : runs.dropLast = runs.take k := by rw [List.dropLast_eq_take, hk, Nat.add_sub_cancel]
  rw [hdrop] at hinit
  have hsum := Runs.pixels_take_succ hr
  have hcount := Runs.le_pixels (runs := runs.take k) fun r hr' => hruns.1 r (List.mem_of_mem_take hr')
  rw [List.length_take_of_le (by omega)] at hcount
  obtain ⟨m, hm, hloop⟩ := runLoop_after hfits ho hruns hc hcolors k (by omega) hinit
  obtain ⟨new, hnew, hround⟩ := runLoop_nth (fuel := 64 - (k + 1)) hfits ho hruns hc hcolors hr (by rw [hall] at hsum; omega) hm
  have hfuel : 64 - k = 64 - (k + 1) + 1 := by omega
  rw [hall] at hnew hround
  rw [hloop, hfuel, hround, runRest, ← hk]
  obtain h63 | h64 := hpixels
  · have hlast : cs.length = runs.colors + 1 := by rw [hcs, Runs.allColors, if_pos h63]
    rw [h63] at hnew ⊢
    rw [if_neg (by decide), if_pos rfl, hlast]
    exact fillRun_paints (w := fun j => s.ran runs.length (runs.colors + j) (4 + runs.length)) hfits ho 1 63 (by decide) hnew
      fun j hj m => by
        obtain rfl : j = 0 := by omega
        rw [nextColor_ran hc (by omega), Runs.color_last cs h63]
        rfl
  · have hlast : cs.length = runs.colors := by rw [hcs, Runs.allColors, if_neg (by omega), Nat.add_zero]
    rw [h64] at hnew ⊢
    rw [if_pos (Nat.le_refl 64), hlast]
    exact ⟨new, hnew, rfl⟩

/-- A run value that gives no run, or one past the 64th pixel, ends the frame after the runs before it (R415). -/
theorem runLoop_raises {runs : Runs} {v : Int} (hfits : d.Fits s x) (ho : isPerm64 order = true) (hpix : runs.pixels < 63)
    (hruns : RunsAhead s runs [v]) (hc : Holds (s.bundle .colors) cs) (hcs : cs.length = runs.colors)
    (hv : v + 1 ≤ 0 ∨ 64 < runs.pixels + (v + 1)) :
    ∃ new, Painted runs.pixels (visitPlace d x order) (runs.color cs) (d.pixels s x) new
      ∧ runLoop d order 64 0 ((s.ran 0 0 4).painted d x (d.pixels s x))
        = .error (.raised (if v + 1 ≤ 0 then .runNonpositive else .runOverflow))
            ((s.ran (runs.length + 1) cs.length (4 + runs.length)).painted d x new) := by
  have hcount := Runs.le_pixels hruns.1
  have hall : runs.take runs.length = runs := List.take_length
  obtain ⟨m, hm, hloop⟩ := runLoop_after hfits ho hruns hc (Nat.le_of_eq hcs.symm) runs.length (Nat.le_refl _) (by rwa [hall])
  rw [hall] at hm hloop
  refine ⟨m, hm, ?_⟩
  obtain ⟨fuel, hfuel⟩ : ∃ fuel, 64 - runs.length = fuel + 1 := ⟨63 - runs.length, by omega⟩
  have hlast : (runs.map (fun r => (r.1 : Int) - 1) ++ [v]).getD runs.length 0 = v := by
    rw [List.getD_append_right _ _ _ _ (by simp)]; simp
  have hvalue := getValue_ran (d := d) (x := x) (m := m) (k := runs.length) (u := runs.colors) (o := 4 + runs.length) hruns.2.1
    (by simp)
  rw [hlast] at hvalue
  rw [hloop, hfuel, hcs, runLoop, bind_of_ok hvalue]
  by_cases hneg : v + 1 ≤ 0
  · rw [if_pos hneg]
    exact bind_of_error (check_of_false _ _ (by simpa using hneg))
  · rw [if_neg hneg, bind_of_ok (check_of_true _ _ (by simpa using hneg))]
    exact bind_of_error (check_of_false _ _ (by simp; omega))

/-! ## RUN and SCALED RUN -/

/-- The pattern index, then the loop (R414). -/
theorem runBlock_eq (hfits : d.Fits s x) (hleft : BitsLeft s 4) :
    runBlock d s = runLoop d (runOrder s) 64 0 ((s.ran 0 0 4).painted d x (d.pixels s x)) := by
  have hstart : (s.ran 0 0 4).painted d x (d.pixels s x) = s.setPos (s.bitPos + 4) := by
    rw [State.ran, afterTake_zero, afterTake_zero]
    exact State.painted_pixels hfits rfl rfl
  rw [hstart, runBlock, bind_of_ok (getBits_apply (by decide) (by decide) hleft), bind_of_ok (get_apply _)]
  rfl

/-- Settles O29: the loop into `cur`. -/
theorem btRunCompletes : Obligations.BtRunCompletes := by
  intro s p x runs cs hat hf hleft ho hc
  have hfits := fits_cur hat hf
  refine ⟨fun hfill hruns hcs => ?_, fun v hpix hruns hcs hv => ?_⟩
  · obtain ⟨new, hnew, hloop⟩ := runLoop_fills hfits ho hfill hruns hc hcs
    exact ⟨new, hnew, run_block_of_ok hat ((runBlock_eq hfits hleft).trans hloop)⟩
  · obtain ⟨new, hnew, hloop⟩ := runLoop_raises hfits ho hpix hruns hc hcs hv
    refine ⟨new, hnew, ?_⟩
    refine (run_block_of_raised hat ((runBlock_eq hfits hleft).trans hloop) (by split <;> rfl)).trans ?_
    rw [apply_ite causeCode]
    rfl

/-- Settles O38: the loop into `ublk`, then the doubling. -/
theorem scaledRunCompletes : Obligations.ScaledRunCompletes := by
  intro s p x runs cs hat hr hleft ho hc
  have hfits : PixelDest.ublk.Fits s x := trivial
  refine ⟨fun hfill hruns hcs => ?_, fun v hpix hruns hcs hv => ?_⟩
  · obtain ⟨u, hu, hloop⟩ := runLoop_fills hfits ho hfill hruns hc hcs
    have hublk : ∀ q, q < 64 → Cells.get u q = some (runs.color cs ((runOrder s).idxOf q)) := fun q hq => by
      obtain ⟨hlt, hget⟩ := getD_idxOf_of_isPerm64 ho hq
      have h := hu.1 _ hlt
      rwa [visitPlace, hget] at h
    obtain ⟨new, hnew, hrun⟩ := run_scaledBlock_of_ok (f := fun q => runs.color cs ((runOrder s).idxOf q)) hat hr
      ((runBlock_eq hfits hleft).trans hloop) rfl hublk
    exact ⟨u, new, hnew, hrun⟩
  · obtain ⟨u, -, hloop⟩ := runLoop_raises hfits ho hpix hruns hc hcs hv
    refine ⟨u, ?_⟩
    refine (run_scaledBlock_of_raised hat ((runBlock_eq hfits hleft).trans hloop) (by split <;> rfl)).trans ?_
    rw [apply_ite causeCode]
    rfl

end Sys2Proof.Machine
end

/-! # Blocks with coefficients (R416, R417, R419, R420)

The coefficient unit is the plain-list decode of `fullDecoded` and `residualDecoded` (`coefDecode_decodes`, `dequantise_decodes`,
`residualDecode_decodes`); here it runs inside a block, after the bundle values and before the pixels. -/

section
namespace Sys2Proof.Machine

variable {s t : State} {p : PlaneId} {x : Plane} {d : PixelDest} {f : Nat → Byte} {dst : Nat}

/-! ## From the bundle value to the dequantised block -/

/-- The quantiser index a source gives (R491). -/
def quantIndex (s : State) : QSource → BitVec 4
  | .stream => BitVec.ofNat 4 (bitsAt s (fullDecoded s).off 4)
  | .external q => q

/-- The bits a source of the quantiser index takes. -/
def quantBits : QSource → Nat
  | .stream => 4
  | .external _ => 0

/-- The state in which CoefDecode begins: the block is its DC, all else 0 (R496). -/
def State.dcPlaced (s : State) (b : BundleId) (dc : Int) : State :=
  (afterTake s b 1).setCoef
    { s.coef with blk := Cells.set (Cells.setFrom [] 0 (List.replicate 64 0)) 0 (BitVec.ofInt 32 dc) }

theorem dcPlaced_blk (s : State) (b : BundleId) (dc : Int) {a : Nat} (ha : a < 64) :
    Cells.get (s.dcPlaced b dc).coef.blk a = some (if a = 0 then BitVec.ofInt 32 dc else 0) := by
  show Cells.get (Cells.set _ 0 _) a = _
  rw [Cells.get_set, Cells.get_setFrom]
  split
  next => rfl
  next => rw [if_pos ⟨Nat.zero_le a, by simpa using ha⟩, List.getElem?_replicate, if_pos (by omega)]

/-- INTRA and INTER up to their transform: whatever CoefDecode decodes, `rest` begins with the dequantised block of it. -/
theorem block_dequantised {b : BundleId} {dc : Int} {src : QSource} {n : Nat} {q : BitVec 4} {y : Decoded} {k : CoefScratch}
    (matrix : Params → BitVec 4 → Nat → Nat) (rest : M Unit) (hdc : Holds (s.bundle b) [dc])
    (hdec : coefDecode src (s.dcPlaced b dc) = .ok q (readAt (s.dcPlaced b dc) n k)) (hk : FullScratch s.params dc k y) :
    ∃ coef, Cells.slice coef.blk 0 64 = some (blockOf s.params (matrix s.params q) dc y.out)
      ∧ (do
          clearBlock
          let dc ← getValue b
          placeDc dc
          let q ← coefDecode src
          let s ← get
          dequantise (matrix s.params q)
          rest) s
        = rest (((afterTake s b 1).setPos (s.bitPos + n)).setCoef coef) := by
  obtain ⟨blk, hdeq, hslice⟩ := dequantise_decodes (s := readAt (s.dcPlaced b dc) n k) (State.accepted _) (matrix s.params q) dc y hk
  refine ⟨{ k with blk := blk }, hslice, ?_⟩
  have hclear : clearBlock s = .ok () (s.setCoef { s.coef with blk := Cells.setFrom [] 0 (List.replicate 64 0) }) := rfl
  have hdc' : Holds ((s.setCoef { s.coef with blk := Cells.setFrom [] 0 (List.replicate 64 0) }).bundle b) [dc] := hdc
  have hplace : placeDc dc (afterTake (s.setCoef { s.coef with blk := Cells.setFrom [] 0 (List.replicate 64 0) }) b 1)
      = .ok () (s.dcPlaced b dc) := rfl
  rw [bind_of_ok hclear, bind_of_ok (getValue_of_holds hdc'), bind_of_ok hplace, bind_of_ok hdec, bind_of_ok (get_apply _)]
  exact bind_of_ok hdeq

/-- The same for the coefficients of the rules (R481). -/
theorem block_decodes {b : BundleId} {dc : Int} (src : QSource) (matrix : Params → BitVec 4 → Nat → Nat) (rest : M Unit)
    (hf : ArenaFits s) (hdc : Holds (s.bundle b) [dc]) (hleft : BitsLeft s ((fullDecoded s).off + quantBits src)) :
    ∃ coef, Cells.slice coef.blk 0 64 = some (blockOf s.params (matrix s.params (quantIndex s src)) dc (fullDecoded s).out)
      ∧ (do
          clearBlock
          let dc ← getValue b
          placeDc dc
          let q ← coefDecode src
          let s ← get
          dequantise (matrix s.params q)
          rest) s
        = rest (((afterTake s b 1).setPos (s.bitPos + ((fullDecoded s).off + quantBits src))).setCoef coef) := by
  have hsame : fullDecoded (s.dcPlaced b dc) = fullDecoded s := fullDecoded_congr fun _ _ => rfl
  have hf' : ArenaFits (s.dcPlaced b dc) := hf
  have hdecode : ∃ k, coefDecode src (s.dcPlaced b dc)
        = .ok (quantIndex s src) (readAt (s.dcPlaced b dc) ((fullDecoded s).off + quantBits src) k)
      ∧ FullScratch s.params dc k (fullDecoded s) := by
    have hblk := fun a (ha : a < 64) => dcPlaced_blk s b dc ha
    cases src with
    | stream =>
      have h : ∃ k, coefDecode .stream (s.dcPlaced b dc)
            = .ok (BitVec.ofNat 4 (bitsAt s (fullDecoded (s.dcPlaced b dc)).off 4))
                (readAt (s.dcPlaced b dc) ((fullDecoded (s.dcPlaced b dc)).off + 4) k)
          ∧ FullScratch s.params dc k (fullDecoded (s.dcPlaced b dc)) :=
        coefDecode_decodes hf' dc .stream hblk (by rw [hsame]; exact hleft)
      rwa [hsame] at h
    | external q =>
      have h : ∃ k, coefDecode (.external q) (s.dcPlaced b dc)
            = .ok q (readAt (s.dcPlaced b dc) ((fullDecoded (s.dcPlaced b dc)).off + 0) k)
          ∧ FullScratch s.params dc k (fullDecoded (s.dcPlaced b dc)) :=
        coefDecode_decodes hf' dc (.external q) hblk (by rw [hsame]; exact hleft)
      rwa [hsame] at h
  obtain ⟨k, hdec, hk⟩ := hdecode
  exact block_dequantised matrix rest hdc hdec hk

/-! ## The transform into pixels (R535, R536) -/

/-- The state after the two passes over `blk`. -/
def State.transformed (s : State) (blk : List Word) : State :=
  s.setDct { s.dct with tmp := Cells.setFrom [] 0 (idctColumns s.params blk) }

/-- The bundle values taken, the bits read and the coefficients do not show in what the transform leaves. -/
theorem transformed_of_same {blk : List Word} (hparams : t.params = s.params) (hdct : t.dct = s.dct) :
    t.transformed blk = t.setDct { s.dct with tmp := Cells.setFrom [] 0 (idctColumns s.params blk) } := by
  rw [State.transformed, hparams, hdct]

theorem idct_of_slice {blk : List Word} (h : Cells.slice s.coef.blk 0 64 = some blk) :
    idct s = .ok (idctRows s.params (idctColumns s.params blk)) (s.transformed blk) := by
  rw [idct, bind_of_ok (get_apply s), h, bind_of_ok (getOr_some blk _ s), bind_of_ok (set_apply s _), pure_apply,
    State.transformed]

theorem PixelDest.pixels_congr (hdct : t.dct = s.dct) : d.pixels t x = d.pixels s x := by
  cases d with
  | cur => rfl
  | ublk => exact congrArg DctScratch.ublk hdct

/-- `IdctPut`, of whatever values the transform leaves: every pixel is its value, by the store law. -/
theorem idctPut_of_idct {out : List Word} (hfits : d.Fits s x) (hidct : idct s = .ok out t) (hplanes : t.planes = s.planes)
    (hublk : t.dct.ublk = s.dct.ublk) :
    ∃ new, Painted 64 (d.place x) (fun i => storeByte t.params.pixelStore (out.getD i 0).toInt) (d.pixels s x) new
      ∧ idctPut d s = .ok () (t.painted d x new) := by
  have hfits' : d.Fits t x := hfits.congr hplanes
  rw [idctPut, bind_of_ok hidct, bind_of_ok (get_apply t)]
  exact forEach_paints (u := fun _ m => t.painted d x m) 64 (State.painted_pixels hfits hplanes hublk).symm
    (fun i j _ _ => PixelDest.place_inj hfits') fun i hi m _ => put_painted hfits' hi m _

/-- `IdctPut`: every pixel is its sample, by the store law. -/
theorem idctPut_paints {blk : List Word} (hfits : d.Fits s x) (hplanes : t.planes = s.planes) (hparams : t.params = s.params)
    (hdct : t.dct = s.dct) (h : Cells.slice t.coef.blk 0 64 = some blk) :
    ∃ new, Painted 64 (d.place x) (fun i => storeByte s.params.pixelStore (idctSample s.params blk i)) (d.pixels s x) new
      ∧ idctPut d t = .ok ()
          ((t.setDct { s.dct with tmp := Cells.setFrom [] 0 (idctColumns s.params blk) }).painted d x new) := by
  have hidct := idct_of_slice h
  rw [transformed_of_same hparams hdct, hparams] at hidct
  have hput := idctPut_of_idct (hfits.congr hplanes) hidct (State.setDct_planes t _)
    (by rw [State.setDct_dct, hdct])
  rw [State.setDct_params, hparams, PixelDest.pixels_congr hdct] at hput
  exact hput

/-- Adding to each pixel of a block what `value` gives for it, by the store law. -/
theorem addPixels_paints {value : Nat → M Int} {v : Nat → Int} (hplane : s.plane p = some x) (hf : BlockFits x dst)
    (hcur : ∀ i, i < 64 → Cells.get x.cur (dst + blockOffset x i) = some (f i))
    (hvalue : ∀ i, i < 64 → ∀ m, value i (s.setPlane p { x with cur := m }) = .ok (v i) (s.setPlane p { x with cur := m })) :
    ∃ new, BlockPainted x dst (fun i => storeByte s.params.pixelStore ((f i).toNat + v i)) new
      ∧ addPixels p dst value s = .ok () (s.setPlane p { x with cur := new }) := by
  rw [addPixels, bind_of_ok (planeOf_of_present hplane)]
  refine forEach_paints (u := fun _ m => s.setPlane p { x with cur := m }) 64 (State.setPlane_self hplane).symm
    (fun i j _ _ => hf.inj) fun i hi m hm => ?_
  have hplane' := State.plane_setPlane_same s p { x with cur := m }
  have hold : Cells.get m (dst + blockOffset x i) = some (f i) := by
    rw [hm.2 _ fun j hj he => absurd (hf.inj he) (by omega), hcur i hi]
  rw [bind_of_ok (readCur_of_written hplane' (hf.inRange hi) hold), bind_of_ok (hvalue i hi m), store_apply,
    writeCur_of_inRange _ hplane' (hf.inRange hi), State.setPlane_setPlane]
  rfl

/-- A block painted twice shows what was painted last. -/
theorem BlockPainted.again {first new : Cells Byte} {g : Nat → Byte} (h : BlockPainted x dst f first)
    (h' : BlockPainted { x with cur := first } dst g new) : BlockPainted x dst g new :=
  ⟨h'.1, fun a ha => (h'.2 a ha).trans (h.2 a ha)⟩

/-! ## INTRA (R417) -/

/-- INTRA into a destination: the transform of the DC and the coefficients read, scaled. -/
theorem intraBlock_paints {dc : Int} {src : QSource} {q : BitVec 4} {n : Nat} (hfits : d.Fits s x) (hf : ArenaFits s)
    (hdc : Holds (s.bundle .intraDc) [dc]) (hq : quantIndex s src = q) (hn : quantBits src = n)
    (hleft : BitsLeft s ((fullDecoded s).off + n)) :
    let blk := blockOf s.params (s.params.quantIntraAt q) dc (fullDecoded s).out
    ∃ coef new, Cells.slice coef.blk 0 64 = some blk
      ∧ Painted 64 (d.place x) (fun i => storeByte s.params.pixelStore (idctSample s.params blk i)) (d.pixels s x) new
      ∧ intraBlock d src s = .ok () (State.painted
          ((((afterTake s .intraDc 1).setPos (s.bitPos + ((fullDecoded s).off + n))).setCoef coef).setDct
            { s.dct with tmp := Cells.setFrom [] 0 (idctColumns s.params blk) }) d x new) := by
  subst hq hn
  obtain ⟨coef, hslice, hblock⟩ := block_decodes src Params.quantIntraAt (idctPut d) hf hdc hleft
  obtain ⟨new, hnew, hput⟩ := idctPut_paints hfits
    (t := ((afterTake s .intraDc 1).setPos (s.bitPos + ((fullDecoded s).off + quantBits src))).setCoef coef) rfl rfl rfl hslice
  exact ⟨coef, new, hslice, hnew, hblock.trans hput⟩

/-- Settles O31: INTRA into `cur`, its index from the stream. -/
theorem btIntraCompletes : Obligations.BtIntraCompletes := by
  intro s p x dc hat hf harena hdc hleft
  obtain ⟨coef, new, hslice, hnew, hpaint⟩ :=
    intraBlock_paints (src := .stream) (n := 4) (fits_cur hat hf) harena hdc rfl rfl hleft
  exact ⟨coef, new, hslice, hnew, run_block_of_ok (body := fun p dst => intraBlock (.cur p dst) .stream) hat hpaint⟩

theorem State.painted_transformed (t : State) (k : DctScratch) (a : Cells Word) (x : Plane) (u : Cells Byte) :
    (t.setDct { k with tmp := a }).painted .ublk x u = t.setDct { tmp := a, ublk := u } := rfl

/-- Settles O39: INTRA into `ublk`, its index from the configured source, then the doubling. -/
theorem scaledIntraCompletes : Obligations.ScaledIntraCompletes := by
  intro s p x dc q n hat hr harena hdc hsrc hleft
  obtain ⟨m, rfl, hq, hn⟩ : ∃ m, n = (fullDecoded s).off + m ∧ quantIndex s s.params.scaledIntraQSource = q
      ∧ quantBits s.params.scaledIntraQSource = m := by
    obtain ⟨hstream, rfl, rfl⟩ | ⟨hext, rfl⟩ := hsrc
    · rw [hstream]; exact ⟨4, rfl, rfl, rfl⟩
    · rw [hext]; exact ⟨0, rfl, rfl, rfl⟩
  have hfits : PixelDest.ublk.Fits s x := trivial
  obtain ⟨coef, u, hslice, hu, hpaint⟩ := intraBlock_paints hfits harena hdc hq hn hleft
  rw [State.painted_transformed] at hpaint
  obtain ⟨new, hnew, hrun⟩ := run_scaledBlock_of_ok
    (body := intraBlock .ublk s.params.scaledIntraQSource) hat hr hpaint rfl hu.1
  exact ⟨coef, u, new, hslice, hnew, hrun⟩

/-! ## INTER (R419) and RESIDUE (R416)

Both begin with the motion copy, decode, and add to the pixels copied. -/

theorem State.setPos_setPlane (s : State) (pos : Nat) : (s.setPlane p x).setPos pos = (s.setPos pos).setPlane p x := rfl
theorem State.setCoef_setPlane (s : State) (k : CoefScratch) : (s.setPlane p x).setCoef k = (s.setCoef k).setPlane p x := rfl
theorem State.setDct_setPlane (s : State) (k : DctScratch) : (s.setPlane p x).setDct k = (s.setDct k).setPlane p x := rfl

theorem afterTake_setPlane (s : State) (b : BundleId) (n : Nat) :
    afterTake (s.setPlane p x) b n = (afterTake s b n).setPlane p x := rfl

/-- A motion copy changes nothing that a coefficient decode reads. -/
theorem bitsAt_copied (s : State) (p : PlaneId) (x : Plane) (off n : Nat) :
    bitsAt ((afterVector s).setPlane p x) off n = bitsAt s off n := rfl

/-- `IdctAdd`: every pixel is its old value plus its sample, by the store law. -/
theorem idctAdd_paints {blk : List Word} (hplane : s.plane p = some x) (hf : BlockFits x dst)
    (hcur : ∀ i, i < 64 → Cells.get x.cur (dst + blockOffset x i) = some (f i)) (hplanes : t.planes = s.planes)
    (hparams : t.params = s.params) (hdct : t.dct = s.dct) (h : Cells.slice t.coef.blk 0 64 = some blk) :
    ∃ new, BlockPainted x dst (fun i => storeByte s.params.pixelStore ((f i).toNat + idctSample s.params blk i)) new
      ∧ idctAdd p dst t = .ok ()
          ((t.setDct { s.dct with tmp := Cells.setFrom [] 0 (idctColumns s.params blk) }).setPlane p { x with cur := new }) := by
  have hidct := idct_of_slice h
  rw [transformed_of_same hparams hdct, hparams] at hidct
  have hplane' : (t.setDct { s.dct with tmp := Cells.setFrom [] 0 (idctColumns s.params blk) }).plane p = some x := by
    rw [State.plane, State.setDct_planes, hplanes]; exact hplane
  have hadd := addPixels_paints hplane' hf hcur
    (value := fun i => pure ((idctRows s.params (idctColumns s.params blk)).getD i 0).toInt) fun i _ m => pure_apply _ _
  rw [State.setDct_params, hparams] at hadd
  rw [idctAdd, bind_of_ok hidct]
  exact hadd

/-- INTER once its motion copy is made. -/
theorem interBlock_paints {dc : Int} {q : BitVec 4} (hplane : s.plane p = some x) (hfits : BlockFits x dst)
    (hcur : ∀ i, i < 64 → Cells.get x.cur (dst + blockOffset x i) = some (f i)) (hf : ArenaFits s)
    (hdc : Holds (s.bundle .interDc) [dc]) (hq : quantIndex s .stream = q) (hleft : BitsLeft s ((fullDecoded s).off + 4)) :
    let blk := blockOf s.params (s.params.quantInterAt q) dc (fullDecoded s).out
    ∃ coef new, Cells.slice coef.blk 0 64 = some blk
      ∧ BlockPainted x dst (fun i => storeByte s.params.pixelStore ((f i).toNat + idctSample s.params blk i)) new
      ∧ (do
          clearBlock
          let dc ← getValue .interDc
          placeDc dc
          let q ← coefDecode .stream
          let s ← get
          dequantise (s.params.quantInterAt q)
          idctAdd p dst) s = .ok () (State.setPlane
          ((((afterTake s .interDc 1).setPos (s.bitPos + ((fullDecoded s).off + 4))).setCoef coef).setDct
            { s.dct with tmp := Cells.setFrom [] 0 (idctColumns s.params blk) }) p { x with cur := new }) := by
  subst hq
  obtain ⟨coef, hslice, hblock⟩ := block_decodes .stream Params.quantInterAt (idctAdd p dst) hf hdc hleft
  obtain ⟨new, hnew, hadd⟩ := idctAdd_paints (s := s)
    (t := ((afterTake s .interDc 1).setPos (s.bitPos + ((fullDecoded s).off + quantBits .stream))).setCoef coef)
    hplane hfits hcur rfl rfl rfl hslice
  exact ⟨coef, new, hslice, hnew, hblock.trans hadd⟩

/-- Settles O34: the motion copy, then the transform added to it. -/
theorem btInterCompletes : Obligations.BtInterCompletes := by
  intro s p x f dc hat hf harena hm hdc hleft
  obtain ⟨-, -, hplane, -⟩ := id hat
  obtain ⟨first, hfirst, hcopy⟩ := motionCopy_paints hplane hf hm
  have hsame := fullDecoded_congr (bitsAt_copied s p { x with cur := first })
  obtain ⟨coef, new, hslice, hnew, hinter⟩ :=
    interBlock_paints (q := quantIndex s .stream) (State.plane_setPlane_same (afterVector s) p { x with cur := first }) hf
      hfirst.1 harena hdc (by rw [quantIndex, quantIndex, hsame]; rfl) (by rw [hsame]; exact hleft)
  rw [hsame] at hslice hnew hinter
  rw [afterTake_setPlane, State.setPos_setPlane, State.setCoef_setPlane, State.setDct_setPlane, State.setPlane_setPlane]
    at hinter
  exact ⟨coef, new, hslice, hfirst.again hnew, run_block_of_ok hat ((bind_of_ok hcopy).trans hinter)⟩

/-- The residual at each position lies in -255..255. -/
theorem residualAt_bounds (s : State) (q : Params) (a : Nat) :
    -255 ≤ residualAt q (residualDecoded s).out a ∧ residualAt q (residualDecoded s).out a ≤ 255 := by
  rw [residualAt, valueAt]
  cases h : (residualDecoded s).out.find? fun e => q.scanAt e.1 == a with
  | none => decide
  | some e => exact residualDecoded_bounds s e (List.mem_of_find?_eq_some h)

/-- RESIDUE once its motion copy is made. -/
theorem residueBlock_paints (hplane : s.plane p = some x) (hfits : BlockFits x dst)
    (hcur : ∀ i, i < 64 → Cells.get x.cur (dst + blockOffset x i) = some (f i)) (hf : ArenaFits s)
    (hleft : BitsLeft s (residualDecoded s).off) :
    let res := residualAt s.params (residualDecoded s).out
    ∃ coef new, (∀ i, i < 64 → Cells.get coef.res i = some (res i))
      ∧ BlockPainted x dst (fun i => storeByte s.params.pixelStore ((f i).toNat + res i)) new
      ∧ (do
          let n ← getBits 7
          residualDecode n
          let s ← get
          addPixels p dst fun i => getOr (Cells.get s.coef.res i) .unwrittenField) s
        = .ok () (((s.setPos (s.bitPos + (residualDecoded s).off)).setCoef coef).setPlane p { x with cur := new }) := by
  obtain ⟨k, hdec, hk⟩ := residualDecode_decodes hf hleft
  obtain ⟨n, s1, hbits, hrest⟩ := bind_ok_inv hdec
  obtain ⟨new, hnew, hadd⟩ := addPixels_paints (s := readAt s (residualDecoded s).off k) hplane hfits hcur
    (value := fun i => getOr (Cells.get k.res i) .unwrittenField)
    (v := residualAt s.params (residualDecoded s).out) fun i hi m => by rw [hk.res i hi, getOr_some]
  refine ⟨k, new, hk.res, hnew, ?_⟩
  rw [bind_of_ok hbits, bind_of_ok hrest]
  exact hadd

/-- Settles O30: the motion copy, then the residual added to it. -/
theorem btResidueCompletes : Obligations.BtResidueCompletes := by
  intro s p x f hat hf harena hm hleft
  obtain ⟨-, -, hplane, -⟩ := id hat
  obtain ⟨first, hfirst, hcopy⟩ := motionCopy_paints hplane hf hm
  have hsame := residualDecoded_congr (bitsAt_copied s p { x with cur := first })
  obtain ⟨coef, new, hres, hnew, hresidue⟩ :=
    residueBlock_paints (State.plane_setPlane_same (afterVector s) p { x with cur := first }) hf hfirst.1 harena
      (by rw [hsame]; exact hleft)
  rw [hsame] at hres hnew hresidue
  rw [State.setPos_setPlane, State.setCoef_setPlane, State.setPlane_setPlane] at hresidue
  exact ⟨coef, new, fun i hi => ⟨hres i hi, residualAt_bounds s s.params i⟩, hfirst.again hnew,
    run_block_of_ok hat ((bind_of_ok hcopy).trans hresidue)⟩

/-! ## A DC alone (R537) -/

/-- The entries of a block whose only entry is its DC. -/
theorem getD_dcOnly (v : Word) (i : Nat) : (v :: List.replicate 63 0).getD i 0 = if i = 0 then v else 0 := by
  cases i with
  | zero => rfl
  | succ i =>
    rw [List.getD_cons_succ, List.getD_eq_getElem?_getD, List.getElem?_replicate, if_neg (Nat.succ_ne_zero i)]
    split <;> rfl

theorem getD_blockPositions {g : Nat → Word} {i : Nat} (hi : i < 64) : (blockPositions.map g).getD i 0 = g i := by
  rw [List.getD_eq_getElem?_getD, List.getElem?_map, blockPositions, List.getElem?_range hi]
  rfl

theorem butterfly_dcOnly (q : Params) (v : Word) : butterfly q v 0 0 0 0 0 0 0 = List.replicate 8 v := by
  simp [butterfly, idctMul, List.replicate]

/-- The column pass takes its fast path. -/
theorem idctColumn_dcOnly (q : Params) (v : Word) (c : Nat) :
    idctColumn q (v :: List.replicate 63 0) c = List.replicate 8 (if c = 0 then v else 0) := by
  have hac : ∀ y, y ≠ 0 → (v :: List.replicate 63 0).getD (8 * y + c) 0 = 0 := fun y hy => by
    rw [getD_dcOnly, if_neg (by omega)]
  refine (if_pos ⟨hac 1 (by decide), hac 2 (by decide), hac 3 (by decide), hac 4 (by decide), hac 5 (by decide),
    hac 6 (by decide), hac 7 (by decide)⟩).trans (congrArg (List.replicate 8) ?_)
  exact (getD_dcOnly v _).trans (by rw [Nat.mul_zero, Nat.zero_add])

/-- It leaves the DC in the first column. -/
theorem idctColumns_dcOnly (q : Params) (v : Word) :
    idctColumns q (v :: List.replicate 63 0) = blockPositions.map fun i => if i % 8 = 0 then v else 0 := by
  rw [idctColumns, funext (idctColumn_dcOnly q v)]
  rfl

theorem idctRow_dcOnly (q : Params) (v : Word) {y : Nat} (hy : y < 8) :
    idctRow q (blockPositions.map fun i => if i % 8 = 0 then v else 0) y = List.replicate 8 (munge q v) := by
  have hx : ∀ c, c < 8 → (blockPositions.map fun i => if i % 8 = 0 then v else 0).getD (8 * y + c) 0 = if c = 0 then v else 0 :=
    fun c hc => by
      rw [getD_blockPositions (by omega)]
      simp only [Nat.mul_add_mod, Nat.mod_eq_of_lt hc]
  simp only [idctRow]
  rw [hx 0 (by decide), hx 1 (by decide), hx 2 (by decide), hx 3 (by decide), hx 4 (by decide), hx 5 (by decide),
    hx 6 (by decide), hx 7 (by decide)]
  exact congrArg (List.map (munge q)) (butterfly_dcOnly q v)

/-- A block whose only entry is its DC transforms to 64 equal samples. -/
theorem idctRows_dcOnly (q : Params) (v : Word) :
    idctRows q (idctColumns q (v :: List.replicate 63 0)) = List.replicate 64 (munge q v) := by
  rw [idctColumns_dcOnly, idctRows, List.flatMap_congr fun y hy => idctRow_dcOnly q v (List.mem_range.mp hy)]
  rfl

/-- With no bit-plane `CoefDecode` reads its 8 bits and decodes nothing, whatever room the lists have. -/
theorem coefDecode_of_noPlanes {dc : Int} (hleft : BitsLeft s 8) (htop : bitsAt s 0 4 = 0)
    (hblk : ∀ a, a < 64 → Cells.get s.coef.blk a = some (if a = 0 then BitVec.ofInt 32 dc else 0)) :
    ∃ k, coefDecode .stream s = .ok (BitVec.ofNat 4 (bitsAt s 4 4)) (readAt s 8 k)
      ∧ FullScratch s.params dc k { off := 4, left := none, out := [], stopped := false } := by
  have hstart : modifyCoef (fun x => { x with coefCount := 0 }) s = .ok () (readAt s 0 { s.coef with coefCount := 0 }) := by
    conv_lhs => rw [← readAt_zero s]
    rfl
  obtain ⟨k0, h0, -, -, ⟨hblk0, -, hcount, -⟩, -⟩ := startLists_readAt s 0 { s.coef with coefCount := 0 }
  have hscratch : ∀ k : CoefScratch, k.blk = k0.blk → k.coefCount = k0.coefCount →
      FullScratch s.params dc k { off := 4, left := none, out := [], stopped := false } := fun k hb hc =>
    { left := rfl
      stopped := rfl
      emitted := ⟨List.nodup_nil, fun _ he => absurd he List.not_mem_nil⟩
      count := hc.trans hcount
      listed := fun _ _ he => by cases he
      blk := fun a ha => by
        rw [hb, hblk0]
        exact hblk a ha }
  refine ⟨?left, ?decodes, hscratch ?left ?blk ?count⟩
  case decodes =>
    unfold coefDecode
    rw [bind_of_ok hstart, bind_of_ok h0, bind_of_ok (pushBack_readAt _ _ _ _ _), bind_of_ok (pushBack_readAt _ _ _ _ _),
      bind_of_ok (pushBack_readAt _ _ _ _ _), bind_of_ok (getBits_readAt _ (by omega) (by omega) (hleft.mono (by omega))),
      Nat.zero_add, htop, bitPlanes, bind_of_ok (pure_apply _ _)]
    show (getBits 4 >>= fun q => pure (BitVec.ofNat 4 q)) _ = _
    rw [bind_of_ok (getBits_readAt (off := 4) (n := 4) _ (by omega) (by omega) hleft), pure_apply]
  case blk => rfl
  case count => rfl

theorem blockOf_nil (q : Params) (matrix : Nat → Nat) (dc : Int) :
    blockOf q matrix dc [] = scaledBy (BitVec.ofInt 32 dc) (matrix 0) :: List.replicate 63 0 := rfl

/-- Settles O32: with no bit-plane the block is its dequantised DC, whatever the capacity of the lists. -/
theorem btIntraDcOnly : Obligations.BtIntraDcOnly := by
  intro s p x dc hat hf hdc hleft htop
  obtain ⟨k, hdec, hk⟩ := coefDecode_of_noPlanes (s := s.dcPlaced .intraDc dc) hleft htop fun a ha => dcPlaced_blk s .intraDc dc ha
  obtain ⟨coef, hslice, hblock⟩ := block_dequantised Params.quantIntraAt (idctPut (.cur p (cursorDst s x))) hdc hdec hk
  rw [blockOf_nil] at hslice
  obtain ⟨new, hnew, hput⟩ := idctPut_paints (fits_cur hat hf)
    (t := ((afterTake s .intraDc 1).setPos (s.bitPos + 8)).setCoef coef) rfl rfl rfl hslice
  have hsample : ∀ i, i < 64 → idctSample s.params (scaledBy (BitVec.ofInt 32 dc)
      (s.params.quantIntraAt (BitVec.ofNat 4 (bitsAt s 4 4)) 0) :: List.replicate 63 0) i
      = (munge s.params (scaledBy (BitVec.ofInt 32 dc) (s.params.quantIntraAt (BitVec.ofNat 4 (bitsAt s 4 4)) 0))).toInt :=
    fun i hi => by
      rw [idctSample, idctRows_dcOnly, List.getD_eq_getElem?_getD, List.getElem?_replicate, if_pos hi]
      rfl
  exact ⟨coef, _, new, hnew.congr (fun _ _ => rfl) fun i hi => congrArg (storeByte s.params.pixelStore) (hsample i hi),
    run_block_of_ok (body := fun p dst => intraBlock (.cur p dst) .stream) hat (hblock.trans hput)⟩

end Sys2Proof.Machine
end

/-! # The steps around a video packet's elements (R430, R402, R353, R356, R460) -/

section
namespace Sys2Proof.Machine

variable {s : State} {p : PlaneId} {x : Plane}

/-! ## The phase decides which step is taken -/

theorem sequence_eq_videoStartStep (h : s.ctl.phase = .videoStart) : sequence s = videoStartStep s := by
  simp only [sequence, bind_of_ok (get_apply s), h]

theorem sequence_eq_planeNextStep (h : s.ctl.phase = .planeNext) : sequence s = planeNextStep s := by
  simp only [sequence, bind_of_ok (get_apply s), h]

theorem sequence_eq_treesStep (h : s.ctl.phase = .trees) : sequence s = treesStep s := by
  simp only [sequence, bind_of_ok (get_apply s), h]

theorem sequence_eq_rowStartStep (h : s.ctl.phase = .rowStart) : sequence s = rowStartStep s := by
  simp only [sequence, bind_of_ok (get_apply s), h]

theorem sequence_eq_btSymStep (h : s.ctl.phase = .btSym) : sequence s = btSymStep s := by
  simp only [sequence, bind_of_ok (get_apply s), h]

theorem sequence_eq_blockStep (h : s.ctl.phase = .block) : sequence s = blockStep s := by
  simp only [sequence, bind_of_ok (get_apply s), h]

theorem sequence_eq_planeEndStep (h : s.ctl.phase = .planeEnd) : sequence s = planeEndStep s := by
  simp only [sequence, bind_of_ok (get_apply s), h]

theorem sequence_eq_videoEndStep (h : s.ctl.phase = .videoEnd) : sequence s = videoEndStep s := by
  simp only [sequence, bind_of_ok (get_apply s), h]

/-! ## The start of the packet (R430) -/

theorem videoStartStep_apply (s : State) :
    videoStartStep s = .ok none
      ((s.setBr { base := BitVec.ofNat 32 s.ctl.vbase, sizeBits := BitVec.ofNat 32 (8 * s.ctl.vlen), pos := 0 }).setCtl
        { s.ctl with
          phase := .planeNext, video := true, decoded := []
          order := (if s.session.hasAlpha then [.a] else []) ++ [.y]
            ++ (if s.params.swapsChroma s.session.version then [.v, .u] else [.u, .v]) }) := by
  rw [List.append_assoc]
  rfl

/-! ## The start of a plane (R430, R351, R353) -/

/-- The skip before a plane: `n` bits on alpha and luma, none on chroma (R430). -/
theorem prefixSkip_of_fits {α : Type} {n : Nat} (rest : M α)
    (h : ¬ (p = .a ∨ p = .y) ∨ BitsLeft s (if p = .a ∨ p = .y then n else 0)) :
    (if p = .a ∨ p = .y then skipBits n >>= fun _ => rest else rest) s
      = rest (s.setPos (s.bitPos + if p = .a ∨ p = .y then n else 0)) := by
  by_cases hw : p = .a ∨ p = .y
  · simp only [if_pos hw] at h ⊢
    exact bind_of_ok (skipBits_of_fits (h.resolve_left fun hn => hn hw))
  · simp only [if_neg hw]
    rw [Nat.add_zero, State.setPos_bitPos]

theorem prefixSkip_underrun {α : Type} {n : Nat} (rest : M α) (hw : p = .a ∨ p = .y)
    (h : ¬ BitsLeft s (if p = .a ∨ p = .y then n else 0)) :
    (if p = .a ∨ p = .y then skipBits n >>= fun _ => rest else rest) s = .error (.raised .readerUnderrun) s := by
  simp only [if_pos hw] at h ⊢
  exact bind_of_error (skipBits_of_underrun (Nat.lt_of_not_le h))

theorem lengthWidth_eq (p : PlaneId) (width : Nat) :
    lengthWidth p width = if p = .a ∨ p = .y then width else width / 2 := by
  cases p <;> rfl

/-- Only the length widths of the listed bundles change. -/
theorem forEach_setLen (lw bw : Nat) (l : List BundleId) (hl : l.Nodup) (s : State) :
    ∃ bs : Bundles,
      (∀ b, bs.get b = if b ∈ l then { s.bundle b with len := bundleLenBits (s.params.bundle b) lw bw } else s.bundle b)
      ∧ forEach l (fun b => modify fun s => s.setBundle b { s.bundle b with len := bundleLenBits (s.params.bundle b) lw bw }) s
        = .ok () (s.setBundles bs) := by
  induction l generalizing s with
  | nil => exact ⟨s.bundles, fun _ => (if_neg List.not_mem_nil).symm, rfl⟩
  | cons c l ih =>
    obtain ⟨hc, hl'⟩ := List.nodup_cons.mp hl
    obtain ⟨bs, hbs, hset⟩ := ih hl' (s.setBundle c { s.bundle c with len := bundleLenBits (s.params.bundle c) lw bw })
    refine ⟨bs, fun b => ?_, ?_⟩
    · rw [hbs b, State.setBundle_params]
      by_cases hb : b = c
      · rw [hb, if_neg hc, if_pos List.mem_cons_self, State.bundle_setBundle_same]
      · rw [State.bundle_setBundle_other _ _ hb]
        simp only [List.mem_cons, hb, false_or]
    · rw [forEach_cons, bind_of_ok (modify_apply _ s), hset]
      rfl

theorem setLengths_apply (s : State) (lw bw : Nat) :
    ∃ bs : Bundles, (∀ b, bs.get b = { s.bundle b with len := bundleLenBits (s.params.bundle b) lw bw })
      ∧ setLengths lw bw s = .ok () (s.setBundles bs) := by
  obtain ⟨bs, hbs, hset⟩ := forEach_setLen lw bw bundleOrder (by decide) s
  have hall : ∀ b : BundleId, b ∈ bundleOrder := fun b => by cases b <;> decide
  exact ⟨bs, fun b => (hbs b).trans (if_pos (hall b)), hset⟩

/-- PlaneStart, written out (R353). -/
theorem planeAgenda : bundleOrder.flatMap bundleAgenda
    = [.tree (.bundle .blockTypes), .seed .blockTypes, .tree (.bundle .subBlockTypes), .seed .subBlockTypes]
      ++ ((List.range 16).map fun i => .tree (.colHigh (BitVec.ofNat 4 i)))
      ++ [.clearColLast, .tree (.bundle .colors), .seed .colors, .tree (.bundle .pattern), .seed .pattern,
        .tree (.bundle .xOff), .seed .xOff, .tree (.bundle .yOff), .seed .yOff, .seed .intraDc,
        .seed .interDc, .tree (.bundle .run), .seed .run] := rfl

theorem planeNextStep_last (h : s.ctl.order = []) : planeNextStep s = .ok none (s.setPhase .videoEnd) := by
  conv_lhs => simp only [planeNextStep, bind_of_ok (get_apply s), h]
  rfl

theorem planeNextStep_underrun {ps : List PlaneId} (horder : s.ctl.order = p :: ps) (hw : p = .a ∨ p = .y)
    (h : ¬ BitsLeft s (if p = .a ∨ p = .y then s.params.prefixSkip s.session.version else 0)) :
    planeNextStep s = .error (.raised .readerUnderrun) s := by
  simp only [planeNextStep, bind_of_ok (get_apply s), horder]
  exact prefixSkip_underrun _ hw h

theorem planeNextStep_of_fits {ps : List PlaneId} (horder : s.ctl.order = p :: ps) (hplane : s.plane p = some x)
    (h : ¬ (p = .a ∨ p = .y) ∨ BitsLeft s (if p = .a ∨ p = .y then s.params.prefixSkip s.session.version else 0)) :
    ∃ bs : Bundles, (∀ b, bs.get b
        = { s.bundle b with len := bundleLenBits (s.params.bundle b) (lengthWidth p s.session.width.toNat) x.bw })
      ∧ planeNextStep s = .ok none
          (((s.setPos (s.bitPos + if p = .a ∨ p = .y then s.params.prefixSkip s.session.version else 0)).setBundles bs).setCtl
            { s.ctl with phase := .trees, order := ps, plane := p, agenda := bundleOrder.flatMap bundleAgenda }) := by
  obtain ⟨bs, hbs, hset⟩ := setLengths_apply
    (s.setPos (s.bitPos + if p = .a ∨ p = .y then s.params.prefixSkip s.session.version else 0))
    (lengthWidth p s.session.width.toNat) x.bw
  have hplane' : (s.setPos (s.bitPos + if p = .a ∨ p = .y then s.params.prefixSkip s.session.version else 0)).plane p
      = some x := hplane
  refine ⟨bs, hbs, ?_⟩
  simp only [planeNextStep, bind_of_ok (get_apply s), horder]
  rw [prefixSkip_of_fits _ h, bind_of_ok (planeOf_of_present hplane'), bind_of_ok hset]
  rfl

/-! ## PlaneStart's items and the block rows (R353, R402, R356, R360) -/

theorem treesStep_clearColLast {rest : List AgendaItem} (h : s.ctl.agenda = .clearColLast :: rest) :
    treesStep s = .ok none ((s.setColLast 0).setCtl { s.ctl with agenda := rest }) := by
  simp only [treesStep, bind_of_ok (get_apply s), h]
  rw [bind_of_ok (modify_apply _ s), bind_of_ok (nextAgendaItem_apply _), State.setColLast_ctl, h, pure_apply, List.tail_cons]

theorem treesStep_seed {b : BundleId} {rest : List AgendaItem} (h : s.ctl.agenda = .seed b :: rest) :
    treesStep s = .ok none
      ((s.setBundle b { s.bundle b with wr := 0, rd := 0, done := false }).setCtl { s.ctl with agenda := rest }) := by
  simp only [treesStep, bind_of_ok (get_apply s), h]
  rw [bind_of_ok (modify_apply _ s), bind_of_ok (nextAgendaItem_apply _), State.setBundle_ctl, h, pure_apply, List.tail_cons]

theorem treesStep_last (h : s.ctl.agenda = []) :
    treesStep s = .ok none (s.setCtl { s.ctl with phase := .rowStart, by_ := 0 }) := by
  conv_lhs => simp only [treesStep, bind_of_ok (get_apply s), h]
  rfl

theorem rowStartStep_apply (hplane : s.plane s.ctl.plane = some x) :
    rowStartStep s = .ok none (if s.ctl.by_ < x.bh then
        s.setCtl { s.ctl with phase := .refill, refills := bundleOrder }
      else s.setPhase .planeEnd) := by
  rw [rowStartStep, bind_of_ok (get_apply s), bind_of_ok (planeOf_of_present hplane)]
  by_cases hrow : s.ctl.by_ < x.bh
  · simp only [if_pos hrow]
    rfl
  · simp only [if_neg hrow]
    rfl

theorem refillStep_last (h : s.ctl.refills = []) : refillStep s = .ok none (s.setCtl { s.ctl with phase := .block, bx := 0 }) := by
  conv_lhs => simp only [refillStep, bind_of_ok (get_apply s), h]
  rfl

theorem btSymStep_last {b : BundleId} {rest : List BundleId} (h : s.ctl.refills = b :: rest) (hstop : s.ctl.stop ≤ (s.bundle b).wr) :
    btSymStep s = .ok none (s.setCtl { s.ctl with phase := .refill, refills := rest }) := by
  simp only [btSymStep, bind_of_ok (get_apply s), h, if_neg (Nat.not_lt.mpr hstop)]
  rw [bind_of_ok (nextRefill_apply s), h, pure_apply, List.tail_cons]

theorem blockStep_last (hplane : s.plane s.ctl.plane = some x) (h : x.bw ≤ s.ctl.bx) :
    blockStep s = .ok none (s.setCtl { s.ctl with phase := .rowStart, by_ := s.ctl.by_ + 1 }) := by
  rw [blockStep, bind_of_ok (get_apply s), bind_of_ok (planeOf_of_present hplane), if_neg (Nat.not_lt.mpr h)]
  rfl

/-! ## The end of a plane and of the frame (R402, R306, R430, R432, R460) -/

theorem planeEndStep_apply (s : State) :
    let stop := min (32 * ((s.bitPos + 31) / 32)) s.bitSize
    planeEndStep s = .ok none ((s.setPos stop).setCtl { s.ctl with
      decoded := s.ctl.decoded ++ [s.ctl.plane]
      phase := if s.params.earlyPlaneExit = true ∧ s.ctl.plane ≠ .a ∧ stop = s.bitSize then .videoEnd else .planeNext }) := by
  intro stop
  have hle : stop ≤ s.bitSize := Nat.min_le_right _ _
  have hpos : (s.setPos stop).bitPos = stop := s.bitPos_setPos_of_le hle
  have hexit : (s.params.earlyPlaneExit && s.ctl.plane != .a && decide (s.bitSize ≤ stop)) = true
      ↔ s.params.earlyPlaneExit = true ∧ s.ctl.plane ≠ .a ∧ stop = s.bitSize := by
    simp only [Bool.and_eq_true, bne_iff_ne, decide_eq_true_iff, and_assoc]
    rw [show s.bitSize ≤ stop ↔ stop = s.bitSize from ⟨Nat.le_antisymm hle, fun h => h.ge⟩]
  rw [planeEndStep, bind_of_ok (alignTo32_apply s), alignedPos_eq, ← if_congr hexit rfl rfl]
  show ((get : M State) >>= _) (s.setPos stop) = _
  rw [bind_of_ok (get_apply _), hpos]
  rfl

/-- A plane after the swap, a plane not decoded showing nothing. -/
theorem swap_dropUndecoded (done : List PlaneId) (p : PlaneId) (x : Plane) :
    (dropUndecoded done p x).swap = { x with cur := x.last, last := if p ∈ done then x.cur else [] } := by
  rw [dropUndecoded]
  by_cases h : p ∈ done
  · rw [if_pos (List.contains_iff_mem.mpr h), if_pos h]
    rfl
  · rw [if_neg fun hc => h (List.contains_iff_mem.mp hc), if_neg h]
    rfl

/-- Settles O53: each phase's step, by its name. -/
theorem swapEndsFrame : Obligations.SwapEndsFrame := by
  refine fun s => ⟨fun hph => ?_, fun hph horder => ?_, fun p ps x hph horder hplane => ⟨fun ⟨hw, hun⟩ => ?_, fun hfit => ?_⟩,
    fun rest hph => ⟨fun h => ?_, fun b h => ?_, fun h => ?_⟩, fun x hplane => ⟨fun hph => ?_, fun hph h => ?_⟩,
    fun hph h => ?_, fun b rest hph hrefills hstop => ?_, fun hph => ?_, fun hph => ?_⟩
  · exact step_of_alone ((sequence_eq_videoStartStep hph).trans (videoStartStep_apply s))
  · exact step_of_alone ((sequence_eq_planeNextStep hph).trans (planeNextStep_last horder))
  · rw [step_of_raised ((sequence_eq_planeNextStep hph).trans (planeNextStep_underrun horder hw hun))]
    exact congrArg Host.Outcome.next (takeError_eq_afterDecodeError s rfl)
  · obtain ⟨bs, hbs, hstep⟩ := planeNextStep_of_fits horder hplane hfit
    rw [lengthWidth_eq] at hbs
    rw [planeAgenda] at hstep
    exact ⟨bs, hbs, step_of_alone ((sequence_eq_planeNextStep hph).trans hstep)⟩
  · exact step_of_alone ((sequence_eq_treesStep hph).trans (treesStep_clearColLast h))
  · exact step_of_alone ((sequence_eq_treesStep hph).trans (treesStep_seed h))
  · exact step_of_alone ((sequence_eq_treesStep hph).trans (treesStep_last h))
  · exact step_of_alone ((sequence_eq_rowStartStep hph).trans (rowStartStep_apply hplane))
  · exact step_of_alone ((sequence_eq_blockStep hph).trans (blockStep_last hplane h))
  · exact step_of_alone ((sequence_of_refill hph).trans (refillStep_last h))
  · exact step_of_alone ((sequence_eq_btSymStep hph).trans (btSymStep_last hrefills hstop))
  · exact step_of_alone ((sequence_eq_planeEndStep hph).trans (planeEndStep_apply s))
  · refine ⟨_, step_of_alone ((sequence_eq_videoEndStep hph).trans (videoEndStep_apply s)), fun p => ?_⟩
    rw [Planes.get_map]
    show (s.plane p).map _ = _
    cases s.plane p with
    | none => rfl
    | some x => exact congrArg some (swap_dropUndecoded s.ctl.decoded p x)

end Sys2Proof.Machine
end

/-! # The geometry of the planes (R400, R351, R352, R411) -/

section
namespace Sys2Proof.Machine

variable {x : Plane}

/-! ## The block grids -/

/-- A plane's buffers are its block grid in whole 16x16 regions (R400). -/
def WholeRegions (x : Plane) : Prop := x.pitch = 16 * ((8 * x.bw + 15) / 16) ∧ x.rows = 16 * ((8 * x.bh + 15) / 16)

theorem newPlane_wholeRegions (r : PlaneReset) (w h bw bh : Nat) : WholeRegions (newPlane r w h bw bh) := ⟨rfl, rfl⟩

theorem lumaPlane_wholeRegions (r : PlaneReset) (w h : Nat) : WholeRegions (lumaPlane r w h) := newPlane_wholeRegions ..

theorem chromaPlane_wholeRegions (r : PlaneReset) (w h : Nat) : WholeRegions (chromaPlane r w h) := newPlane_wholeRegions ..

/-- The planes of a picture OPEN admits: neither dimension of the block grid is empty, and no row has over 4096 blocks. -/
theorem grid_of_admitted {r : PlaneReset} {w h : Nat} (hw : 1 ≤ w) (hw' : w ≤ 32767) (hh : 1 ≤ h)
    (hx : x = lumaPlane r w h ∨ x = chromaPlane r w h) : 1 ≤ x.bw ∧ x.bw ≤ 4096 ∧ 1 ≤ x.bh := by
  rcases hx with rfl | rfl
  · show 1 ≤ (w + 7) / 8 ∧ (w + 7) / 8 ≤ 4096 ∧ 1 ≤ (h + 7) / 8
    omega
  · show 1 ≤ (w + 15) / 16 ∧ (w + 15) / 16 ≤ 4096 ∧ 1 ≤ (h + 15) / 16
    omega

/-! ## The bundles' length fields and capacities (R351, R352) -/

/-- What R351 takes the logarithm of, less 511. -/
def lengthArg (b : BundleId) (lw bw : Nat) : Nat :=
  match b with
  | .blockTypes | .xOff | .yOff | .intraDc | .interDc => (max lw 8 + 7) / 8
  | .subBlockTypes => 8 * ((max lw 8 + 7) / 8) / 16
  | .colors => 64 * bw
  | .pattern => 8 * bw
  | .run => 48 * bw

theorem bundleLenBits_lenOfWidth (mul div cap lw bw : Nat) :
    bundleLenBits (lenOfWidth mul div cap) lw bw = Nat.log2 (mul * ((max lw 8 + 7) / 8) / div + 511) + 1 := rfl

theorem bundleLenBits_lenOfBlocks (mul cap lw bw : Nat) :
    bundleLenBits (lenOfBlocks mul cap) lw bw = Nat.log2 (mul * bw + 511) + 1 := by
  show Nat.log2 (mul * bw / 1 + 511) + 1 = _
  rw [Nat.div_one]

theorem bundleLenBits_reset (b : BundleId) (lw bw : Nat) :
    bundleLenBits (State.reset.params.bundle b) lw bw = Nat.log2 (lengthArg b lw bw + 511) + 1 := by
  have hwidth : ∀ cap, bundleLenBits (lenOfWidth 1 1 cap) lw bw = Nat.log2 ((max lw 8 + 7) / 8 + 511) + 1 := fun cap => by
    rw [bundleLenBits_lenOfWidth, Nat.one_mul, Nat.div_one]
  cases b with
  | blockTypes => exact hwidth 64
  | xOff => exact hwidth 64
  | yOff => exact hwidth 64
  | intraDc => exact hwidth 32
  | interDc => exact hwidth 32
  | subBlockTypes => exact bundleLenBits_lenOfWidth 8 16 64 lw bw
  | colors => exact bundleLenBits_lenOfBlocks 64 64 lw bw
  | pattern => exact bundleLenBits_lenOfBlocks 8 64 lw bw
  | run => exact bundleLenBits_lenOfBlocks 48 64 lw bw

theorem bundleCapacity_reset (b : BundleId) (w h : Nat) :
    bundleCapacity State.reset.params b w h
      = (if b = .intraDc ∨ b = .interDc then 32 else 64) * ((w + 7) / 8) * ((h + 7) / 8) := by
  cases b <;> rfl

/-- The widest length field is that of COLORS on a row of 4096 blocks. -/
theorem lengthArg_le {b : BundleId} {lw bw : Nat} (hlw : lw ≤ 32767) (hbw : bw ≤ 4096) : lengthArg b lw bw ≤ 262144 := by
  cases b <;> simp only [lengthArg] <;> omega

theorem lenBits_bounds {n : Nat} (h : n ≤ 262144) : 9 ≤ Nat.log2 (n + 511) + 1 ∧ Nat.log2 (n + 511) + 1 ≤ 19 := by
  have hlow : 8 ≤ Nat.log2 (n + 511) := (Nat.le_log2 (by omega)).mpr (by omega)
  have hhigh : Nat.log2 (n + 511) < 19 := (Nat.log2_lt (by omega)).mpr (by omega)
  omega

/-! ## What lies inside the buffers -/

/-- A square of `k + 1` pixels at row `y` and column `c` ends inside `rows` rows of `pitch` bytes. -/
theorem square_end_le {y c k pitch rows : Nat} (hrow : y + k + 1 ≤ rows) (hcol : c + k + 1 ≤ pitch) :
    y * pitch + c + k * pitch + (k + 1) ≤ pitch * rows :=
  calc y * pitch + c + k * pitch + (k + 1) = (y + k) * pitch + (c + k + 1) := by ring
    _ ≤ (y + k) * pitch + pitch := Nat.add_le_add_left hcol _
    _ = pitch * (y + k + 1) := by ring
    _ ≤ pitch * rows := Nat.mul_le_mul_left _ hrow

theorem blockFits_of_grid (hx : WholeRegions x) {bx r : Nat} (hbx : bx < x.bw) (hr : r < x.bh) :
    BlockFits x (blockDst x bx r) := by
  obtain ⟨hpitch, hrows⟩ := hx
  exact ⟨by omega, square_end_le (k := 7) (by omega) (by omega)⟩

/-- The region of a SCALED block at an even place of an even row. -/
theorem regionFits_of_grid (hx : WholeRegions x) {bx r : Nat} (hbx : bx < x.bw) (hr : r < x.bh) (hbx2 : bx % 2 = 0)
    (hr2 : r % 2 = 0) : RegionFits x (blockDst x bx r) := by
  obtain ⟨hpitch, hrows⟩ := hx
  exact ⟨by omega, square_end_le (k := 15) (by omega) (by omega)⟩

/-- The last source R411 admits is the last block of the grid, and each source before it ends before that one does. -/
theorem blockFits_of_motionLimit (hx : WholeRegions x) (hbw : 1 ≤ x.bw) (hbh : 1 ≤ x.bh) {a : Int} (ha : 0 ≤ a)
    (hlimit : a ≤ motionLimit x) : BlockFits x a.toNat := by
  have hlast := blockFits_of_grid hx (bx := x.bw - 1) (r := x.bh - 1) (by omega) (by omega)
  obtain ⟨hpitch, hend⟩ := hlast
  have hle : a.toNat ≤ blockDst x (x.bw - 1) (x.bh - 1) := by
    have hdst : ((blockDst x (x.bw - 1) (x.bh - 1) : Nat) : Int) = motionLimit x := by
      rw [blockDst, motionLimit]
      push_cast [Nat.cast_sub hbw, Nat.cast_sub hbh]
      ring
    omega
  exact ⟨hpitch, by omega⟩

/-- Settles O60: the formulas are the definitions at R10's values, and what the buffers cover follows from their whole regions. -/
theorem geometryCovers : Obligations.GeometryCovers := by
  refine ⟨fun r w h => ⟨⟨rfl, rfl, rfl, rfl⟩, ⟨rfl, rfl, rfl, rfl⟩, fun x hx => ?_⟩, fun b lw bw w h => ⟨?_, ?_⟩, ?_⟩
  · rcases List.mem_pair.mp hx with rfl | rfl
    · exact lumaPlane_wholeRegions r w h
    · exact chromaPlane_wholeRegions r w h
  · rw [bundleLenBits_reset]
    cases b <;> rfl
  · exact bundleCapacity_reset b w h
  · intro w h hw hw' hh hh' r x hx
    obtain ⟨hbw, hbw', hbh⟩ := grid_of_admitted hw hw' hh hx
    have hwhole : WholeRegions x := by
      rcases hx with rfl | rfl
      · exact lumaPlane_wholeRegions r w h
      · exact chromaPlane_wholeRegions r w h
    obtain ⟨hpitch, hrows⟩ := id hwhole
    refine ⟨hbw, hbh, by omega, by omega, by omega, by omega, fun _ _ => blockFits_of_grid hwhole,
      fun _ _ => regionFits_of_grid hwhole, fun b lw hlw => ?_, fun a => blockFits_of_motionLimit hwhole hbw hbh⟩
    rw [bundleLenBits_reset]
    exact lenBits_bounds (lengthArg_le (hlw.trans hw') hbw')

end Sys2Proof.Machine
end

/-! # Dequantise on any block (R492, R493) -/

section
namespace Sys2Proof.Machine

variable {s t : State} {matrix : Nat → Nat}

/-- Every index has its place in the block: one outside the table reads as the place 0. -/
theorem scanAt_lt_64 {p : Params} (hw : p.wellFormed = true) (c : Nat) : p.scanAt c < 64 := by
  by_cases hc : c < 64
  · exact scanAt_lt hw hc
  · have hlen : p.scan.length = 64 := by
      rw [(perm_of_isPerm64 (scan_isPerm64 hw).1).length_eq, List.length_range]
    rw [Params.scanAt, List.getD_eq_default _ _ (by omega)]
    decide

/-- Only the coefficient 0 has the place 0. -/
theorem scanAt_ne_zero {p : Params} (hw : p.wellFormed = true) {c : Nat} (h1 : 1 ≤ c) (hc : c < 64) : p.scanAt c ≠ 0 := by
  intro hs
  have h0 : c = 0 := scanAt_inj hw hc (by omega) (hs.trans (scan_isPerm64 hw).2.symm)
  omega

/-- Dequantise is its loop, run on the block with the DC scaled. -/
theorem dequantise_of_written {x : Word} (h : Cells.get s.coef.blk 0 = some x) :
    dequantise matrix s
      = forEach (List.range s.coef.coefCount) (fun i => do
          let c ← getOr (Cells.get s.coef.coefIdx i) .unwrittenField
          dequantiseAt (s.params.scanAt c) (matrix c))
        (s.setCoef { s.coef with blk := Cells.set s.coef.blk 0 (scaledBy x (matrix 0)) }) := by
  rw [dequantise, bind_of_ok (dequantiseAt_of_written _ h), bind_of_ok (get_apply _)]
  rfl

/-! ## An all-zero block (R493) -/

theorem zero_scaledBy (q : Nat) : scaledBy 0 q = 0 := by
  simp [scaledBy]

/-- `t` is `s` but for its block, which is 0 throughout. -/
def ZeroBlockOf (s t : State) : Prop :=
  ∃ blk, t = s.setCoef { s.coef with blk := blk } ∧ ∀ a, a < 64 → Cells.get blk a = some 0

/-- Scaling one of its positions leaves it 0 throughout. -/
theorem zeroBlock_set {blk : Cells Word} (hzero : ∀ a, a < 64 → Cells.get blk a = some 0) (a q : Nat) :
    ∀ b, b < 64 → Cells.get (Cells.set blk a (scaledBy 0 q)) b = some 0 := by
  intro b hb
  rw [Cells.get_set, zero_scaledBy]
  split
  · rfl
  · exact hzero b hb

theorem dequantiseAt_zeroBlock (h : ZeroBlockOf s t) {a : Nat} (ha : a < 64) (q : Nat) :
    ∃ u, dequantiseAt a q t = .ok () u ∧ ZeroBlockOf s u := by
  obtain ⟨blk, rfl, hzero⟩ := h
  exact ⟨_, dequantiseAt_of_written q (hzero a ha), _, rfl, zeroBlock_set hzero a q⟩

/-- The indices listed may be any, and may repeat. -/
theorem dequantise_zeroBlock (hw : s.params.wellFormed = true) (hzero : ∀ a, a < 64 → Cells.get s.coef.blk a = some 0)
    (hlisted : ∀ i, i < s.coef.coefCount → ∃ c, Cells.get s.coef.coefIdx i = some c) :
    ∃ t, dequantise matrix s = .ok () t ∧ ZeroBlockOf s t := by
  rw [dequantise_of_written (hzero 0 (by omega))]
  refine forEach_range (P := fun _ => ZeroBlockOf s) s.coef.coefCount (fun i hi t ht => ?_)
    ⟨_, rfl, zeroBlock_set hzero 0 (matrix 0)⟩
  obtain ⟨c, hc⟩ := hlisted i hi
  rw [hc, bind_of_ok (getOr_some _ _ _)]
  exact dequantiseAt_zeroBlock ht (scanAt_lt_64 hw c) (matrix c)

/-! ## Distinct coefficients (R490, R492) -/

theorem nodup_map_scanAt {p : Params} (hw : p.wellFormed = true) {cs : List Nat} (hd : cs.Nodup)
    (hlt : ∀ c ∈ cs, c < 64) : (cs.map p.scanAt).Nodup :=
  (List.nodup_map_iff_inj_on hd).mpr fun c hc d hd => scanAt_inj hw (hlt c hc) (hlt d hd)

theorem dequantise_scales (hw : s.params.wellFormed = true) (w : Nat → Word) (cs : List Nat)
    (hblk : ∀ a, a < 64 → Cells.get s.coef.blk a = some (w a)) (hcount : s.coef.coefCount = cs.length)
    (hlisted : ∀ i, i < cs.length → Cells.get s.coef.coefIdx i = cs[i]?) (hd : cs.Nodup)
    (hcs : ∀ c ∈ cs, 1 ≤ c ∧ c < 64) :
    ∃ blk, dequantise matrix s = .ok () (s.setCoef { s.coef with blk := blk })
      ∧ Cells.get blk 0 = some (scaledBy (w 0) (matrix 0))
      ∧ (∀ c ∈ cs, Cells.get blk (s.params.scanAt c) = some (scaledBy (w (s.params.scanAt c)) (matrix c)))
      ∧ ∀ a, 1 ≤ a → a < 64 → (∀ c ∈ cs, s.params.scanAt c ≠ a) → Cells.get blk a = some (w a) := by
  have hne : ∀ c ∈ cs, s.params.scanAt c ≠ 0 := fun c hc => scanAt_ne_zero hw (hcs c hc).1 (hcs c hc).2
  obtain ⟨blk, hrun, hin, hout⟩ := forEach_dequantise (matrix := matrix) cs 0
    (s := s.setCoef { s.coef with blk := Cells.set s.coef.blk 0 (scaledBy (w 0) (matrix 0)) })
    (Function.update w 0 (scaledBy (w 0) (matrix 0)))
    (fun j c hj => by
      rw [Nat.zero_add, State.setCoef_coef, hlisted j (List.getElem?_eq_some_iff.mp hj).1, hj])
    (fun a ha => by
      rw [State.setCoef_coef, Cells.get_set, Function.update_apply, hblk a ha]
      split <;> rfl)
    (fun c _ => scanAt_lt_64 hw c) (nodup_map_scanAt hw hd fun c hc => (hcs c hc).2)
  simp only [State.setCoef_params] at hin hout
  refine ⟨blk, ?_, ?_, fun c hc => ?_, fun a h1 ha hn => ?_⟩
  · rw [dequantise_of_written (hblk 0 (by omega)), hcount, List.range_eq_range']
    exact hrun
  · rw [hout 0 (by omega) hne, Function.update_self]
  · rw [hin c hc, Function.update_of_ne (hne c hc)]
  · rw [hout a ha hn, Function.update_of_ne (by omega)]

/-- Settles O43: 0 scales to 0, so no order or repetition of the list matters; and the scan sends distinct coefficients to distinct
places other than 0, so that each place is scaled at most once. -/
theorem dequantiseKeepsZero : Obligations.DequantiseKeepsZero := by
  refine fun s matrix hw => ⟨fun hzero hlisted => ?_, fun w cs => dequantise_scales hw w cs⟩
  obtain ⟨t, hrun, blk, rfl, hblk⟩ := dequantise_zeroBlock hw hzero hlisted
  exact ⟨blk, hrun, hblk⟩

end Sys2Proof.Machine
end

section
/-! # The inverse transform (R537, R538)

Both paths of the column pass give the same column, and a DC alone gives 64 equal samples. -/

namespace Sys2Proof.Machine

/-- Settles O41: where the fast path is taken the entries below the first are 0, and there the butterfly repeats the first, because
`MUL` of 0 is 0 whatever its shift. -/
theorem idctFastPathAgrees : Obligations.IdctFastPathAgrees := by
  intro p blk x
  have htop : 8 * 0 + x = x := by omega
  simp only [idctColumn, htop]
  split
  case isTrue hac =>
    obtain ⟨h1, h2, h3, h4, h5, h6, h7⟩ := hac
    rw [h1, h2, h3, h4, h5, h6, h7, butterfly_dcOnly]
  case isFalse => rfl

/-- Settles O42: the column pass spreads the DC down the first column, and the row pass spreads it along every row. -/
theorem idctDcOnly : Obligations.IdctDcOnly := idctRows_dcOnly

end Sys2Proof.Machine
end

/-! # The band edges (R571, R574)

Critical frequencies lie 100 apart or more, and 100 Hz spans at least four places of a frame, so no two edges fall together
when they are rounded down to even numbers. -/

section
namespace Sys2Proof.Machine

variable {freqs : List Nat} {rate n srh f g : Nat}

/-! ## The edge of a critical frequency -/

/-- The edge of the critical frequency `f`: its place in a frame of `n` coefficients, rounded down to an even number (R574). -/
def edgeOf (n srh f : Nat) : Nat := f * n / srh / 2 * 2

theorem bands_eq (freqs : List Nat) (rate n : Nat) :
    bands freqs rate n
      = 2 :: (freqs.take (bandCount freqs ((rate + 1) / 2) - 1)).map (edgeOf n ((rate + 1) / 2)) ++ [n] := rfl

theorem edgeOf_even (n srh f : Nat) : edgeOf n srh f % 2 = 0 := Nat.mul_mod_left _ 2

theorem edgeOf_add_four_le (hsrh : 0 < srh) (hspan : 4 * srh ≤ 100 * n) (h : f + 100 ≤ g) :
    edgeOf n srh f + 4 ≤ edgeOf n srh g := by
  have hplace : f * n / srh + 4 ≤ g * n / srh := by
    rw [Nat.le_div_iff_mul_le hsrh]
    calc (f * n / srh + 4) * srh = f * n / srh * srh + 4 * srh := Nat.add_mul ..
      _ ≤ f * n + 100 * n := Nat.add_le_add (Nat.div_mul_le_self _ _) hspan
      _ = (f + 100) * n := (Nat.add_mul ..).symm
      _ ≤ g * n := Nat.mul_le_mul_right n h
  unfold edgeOf
  omega

/-- A frequency below the half rate has its edge inside the frame. -/
theorem edgeOf_lt (hn : 0 < n) (h : f < srh) : edgeOf n srh f < n := by
  have hplace : f * n / srh < n := Nat.div_lt_of_lt_mul (Nat.mul_lt_mul_of_pos_right h hn)
  unfold edgeOf
  omega

/-! ## The frame length (R571) -/

theorem frameLength_even (rate : Nat) : frameLength rate % 2 = 0 := by
  unfold frameLength; split_ifs <;> rfl

theorem two_lt_frameLength (rate : Nat) : 2 < frameLength rate := by
  unfold frameLength; split_ifs <;> decide

/-- 100 Hz span four places or more of the frame, at every rate of 16 bits. -/
theorem span_frameLength (h : rate ≤ 65535) : 4 * ((rate + 1) / 2) ≤ 100 * frameLength rate := by
  unfold frameLength; split_ifs <;> omega

/-! ## The number of bands -/

theorem bandCount_le (freqs : List Nat) (srh : Nat) : bandCount freqs srh ≤ freqs.length := Nat.min_le_right _ _

theorem bandCount_pos (h : 0 < freqs.length) (srh : Nat) : 1 ≤ bandCount freqs srh := le_min (Nat.succ_pos _) h

/-- The frequencies that become edges lie below the half rate. -/
theorem lt_of_mem_take_bandCount (h : f ∈ freqs.take (bandCount freqs srh - 1)) : f < srh := by
  obtain ⟨i, hi, rfl⟩ := List.mem_take_iff_getElem.mp h
  have hidx : i < freqs.findIdx (fun f => srh ≤ f) := by unfold bandCount at hi; omega
  simpa using List.not_of_lt_findIdx hidx

theorem length_bands (h : 0 < freqs.length) : (bands freqs rate n).length = bandCount freqs ((rate + 1) / 2) + 1 := by
  have hpos := bandCount_pos h ((rate + 1) / 2)
  have hle := bandCount_le freqs ((rate + 1) / 2)
  rw [bands_eq, List.length_append, List.length_cons, List.length_map, List.length_take, List.length_singleton]
  omega

theorem bands_getElem_last (h : 0 < freqs.length) : (bands freqs rate n)[bandCount freqs ((rate + 1) / 2)]? = some n := by
  have hlast : bandCount freqs ((rate + 1) / 2) = (bands freqs rate n).length - 1 := by rw [length_bands h, Nat.add_sub_cancel]
  rw [hlast, ← List.getLast?_eq_getElem?, bands_eq, List.getLast?_concat]

theorem even_of_mem_bands (hn : n % 2 = 0) {e : Nat} (he : e ∈ bands freqs rate n) : e % 2 = 0 := by
  rw [bands_eq, List.cons_append, List.mem_cons, List.mem_append, List.mem_map, List.mem_singleton] at he
  obtain rfl | ⟨f, -, rfl⟩ | rfl := he
  · rfl
  · exact edgeOf_even _ _ f
  · exact hn

theorem bands_pairwise_lt (hgap : (0 :: freqs).Pairwise fun f g => f + 100 ≤ g) (hrate : 1 ≤ rate) (hn : 2 < n)
    (hspan : 4 * ((rate + 1) / 2) ≤ 100 * n) : (bands freqs rate n).Pairwise (· < ·) := by
  have hsrh : 0 < (rate + 1) / 2 := by omega
  obtain ⟨hfirst, hfreqs⟩ := List.pairwise_cons.mp hgap
  rw [bands_eq, List.pairwise_append, List.pairwise_cons, List.pairwise_map]
  refine ⟨⟨fun e he => ?_, (hfreqs.sublist (List.take_sublist _ _)).imp fun h => ?_⟩, List.pairwise_singleton _ n,
    fun e he m hm => ?_⟩
  · obtain ⟨f, hf, rfl⟩ := List.mem_map.mp he
    have := edgeOf_add_four_le hsrh hspan (hfirst f (List.mem_of_mem_take hf))
    omega
  · have := edgeOf_add_four_le hsrh hspan h
    omega
  · obtain rfl := List.mem_singleton.mp hm
    rcases List.mem_cons.mp he with rfl | he
    · exact hn
    · obtain ⟨f, hf, rfl⟩ := List.mem_map.mp he
      exact edgeOf_lt (by omega) (lt_of_mem_take_bandCount hf)

/-- R10's frequencies, with 0 before them, lie 100 apart or more. -/
theorem criticalFreqs_gaps : (0 :: State.reset.params.criticalFreqs).Pairwise fun f g => f + 100 ≤ g := by decide

/-- Settles O25: the gaps of R10's frequencies outlast the rounding, at every frame length R571 gives. -/
theorem bandsRise : Obligations.BandsRise := by
  intro rate h1 hmax
  have hlen : 0 < State.reset.params.criticalFreqs.length := by decide
  exact ⟨bandCount_pos hlen _, bandCount_le State.reset.params.criticalFreqs _, length_bands hlen, rfl,
    bands_getElem_last hlen, fun e he => even_of_mem_bands (frameLength_even rate) he,
    bands_pairwise_lt criticalFreqs_gaps h1 (two_lt_frameLength rate) (span_frameLength hmax)⟩

end Sys2Proof.Machine
end

/-! # The track in hand and its coefficients (R95, R581) -/

section
namespace Sys2Proof.Machine

variable {s : State} {x : Track} {c : Nat}

@[simp] theorem State.setTrack_setTrack (s : State) (t : Nat) (x y : Track) :
    (s.setTrack t x).setTrack t y = s.setTrack t y := by
  simp only [State.setTrack, State.setTracks, List.set_set]

/-- A track the state has is the one last put there. -/
theorem State.tracks_setTrack {t : Nat} (h : s.tracks[t]? = some x) (y : Track) : (s.setTrack t y).tracks[t]? = some y := by
  obtain ⟨ht, -⟩ := List.getElem?_eq_some_iff.mp h
  rw [State.setTrack_tracks, List.getElem?_set_self ht]

theorem modifyTrack_of_present (h : s.tracks[s.ctl.track]? = some x) (f : Track → Track) :
    modifyTrack f s = .ok () (s.setTrack s.ctl.track (f x)) := by
  rw [modifyTrack, bind_of_ok (currentTrack_of_present h), modify_apply]

theorem modifyCtl_apply (f : Ctl → Ctl) (s : State) : modifyCtl f s = .ok () (s.setCtl (f s.ctl)) := rfl

theorem Track.storeSamples_nil (h : c < x.coef.length) (i : Nat) : x.storeSamples c i [] = x := by
  simp only [Track.storeSamples, Cells.setFrom, List.getD_eq_getElem _ _ h, List.set_getElem_self]

/-- Samples stored one list after the other are those of the joined list. -/
theorem Track.storeSamples_append (h : c < x.coef.length) (i : Nat) (vs ws : List F32) :
    (x.storeSamples c i vs).storeSamples c (i + vs.length) ws = x.storeSamples c i (vs ++ ws) := by
  simp only [Track.storeSamples, Cells.setFrom_append, List.set_set, List.getD_eq_getElem?_getD, List.getElem?_set_self h,
    Option.getD_some]

theorem setSample_of_present (h : s.tracks[s.ctl.track]? = some x) (c i : Nat) (v : F32) :
    setSample c i v s = .ok () (s.setTrack s.ctl.track (x.storeSamples c i [v])) := modifyTrack_of_present h _

end Sys2Proof.Machine
end

/-! # Coefficient runs (R581, R582)

Inside a run the state is the one at its start with the coefficients so far stored, their bits taken and the cursor and the band
moved (`State.running`): one lemma for each of the run's parts says which such state it leads to. -/

section
namespace Sys2Proof.Machine

variable {s : State} {x : Track} {vs : List F32} {off k w n j a : Nat}

/-! ## A state inside a run -/

/-- The quantiser of a run that stands before band edge `k`: the one of its start until an edge is passed (R581). -/
def State.bandQuant (s : State) (k : Nat) : F32 := if k = s.ctl.bandK then s.ctl.bandQ else s.ctl.quant.getD (k - 1) 0

theorem State.bandQuant_start (s : State) : s.bandQuant s.ctl.bandK = s.ctl.bandQ := if_pos rfl

/-- The state `s` with `vs` stored on the track in hand `x` from its cursor on, `off` bits taken, before band edge `k`. -/
def State.running (s : State) (x : Track) (vs : List F32) (off k : Nat) : State :=
  ((s.setTrack s.ctl.track (x.storeSamples s.ctl.chan s.ctl.coefPos vs)).setPos (s.bitPos + off)).setCtl
    { s.ctl with coefPos := s.ctl.coefPos + vs.length, bandK := k, bandQ := s.bandQuant k }

section
variable (s : State) (x : Track) (vs : List F32) (off k : Nat)

theorem State.running_ctl : (s.running x vs off k).ctl
    = { s.ctl with coefPos := s.ctl.coefPos + vs.length, bandK := k, bandQ := s.bandQuant k } := rfl

theorem State.running_coefPos : (s.running x vs off k).ctl.coefPos = s.ctl.coefPos + vs.length := rfl

theorem State.running_setPos (off' : Nat) : (s.running x vs off k).setPos (s.bitPos + off') = s.running x vs off' k := rfl

theorem State.running_setTrack (y : Track) : (s.running x vs off k).setTrack s.ctl.track y
    = ((s.setTrack s.ctl.track y).setPos (s.bitPos + off)).setCtl (s.running x vs off k).ctl := by
  rw [← State.setTrack_setTrack s s.ctl.track (x.storeSamples s.ctl.chan s.ctl.coefPos vs) y]
  rfl

end

theorem State.running_noBits (s : State) (x : Track) (vs : List F32) (k : Nat) :
    s.running x vs 0 k = (s.setTrack s.ctl.track (x.storeSamples s.ctl.chan s.ctl.coefPos vs)).setCtl
      { s.ctl with coefPos := s.ctl.coefPos + vs.length, bandK := k, bandQ := s.bandQuant k } :=
  congrArg (State.setCtl · _) (State.setPos_bitPos (s.setTrack s.ctl.track _))

/-- Nothing stored, no bit taken: the run's start. -/
theorem State.running_start (hx : s.tracks[s.ctl.track]? = some x) (hchan : s.ctl.chan < x.coef.length) :
    s.running x [] 0 s.ctl.bandK = s := by
  obtain ⟨ht, rfl⟩ := List.getElem?_eq_some_iff.mp hx
  rw [State.running_noBits, Track.storeSamples_nil hchan, State.bandQuant_start, State.setTrack, List.set_getElem_self]
  rfl

theorem State.running_tracks (hx : s.tracks[s.ctl.track]? = some x) (vs : List F32) (off k : Nat) :
    (s.running x vs off k).tracks[(s.running x vs off k).ctl.track]?
      = some (x.storeSamples s.ctl.chan s.ctl.coefPos vs) := State.tracks_setTrack hx _

theorem ReadsAhead.running (hleft : BitsLeft s off) : ReadsAhead s (s.running x vs off k) off :=
  ⟨rfl, rfl, rfl, State.bitPos_setPos_of_le _ hleft⟩

/-! ## Bands (R581) -/

/-- A configured track has an edge for each of its bands. -/
theorem BandsFit.exists_edge (h : BandsFit s x) (hk : k ≤ x.nb) : ∃ a, x.band[k]? = some a :=
  ⟨_, List.getElem?_eq_getElem (by rw [h.1]; omega)⟩

/-- An edge before the frame's end is not the last one. -/
theorem BandsFit.lt_of_edge (h : BandsFit s x) (hk : k ≤ x.nb) (ha : x.band[k]? = some a) (hn : a < x.n) : k < x.nb := by
  obtain ⟨-, hlast, -⟩ := h
  refine lt_of_le_of_ne hk fun heq => ?_
  rw [heq, hlast] at ha
  cases ha
  exact Nat.lt_irrefl _ hn

theorem bandEdge_running (hx : s.tracks[s.ctl.track]? = some x) (ha : x.band[k]? = some a) :
    bandEdge (s.running x vs off k) = .ok a (s.running x vs off k) := by
  rw [bandEdge, bind_of_ok (get_apply _), bind_of_ok (currentTrack_of_present (State.running_tracks hx vs off k))]
  exact (congrArg (fun e => getOr e _ _) ha).trans (getOr_some a _ _)

theorem nextBand_running (hfit : BandsFit s x) (hk : s.ctl.bandK ≤ k) (hnb : k < x.nb) :
    nextBand (s.running x vs off k) = .ok () (s.running x vs off (k + 1)) := by
  obtain ⟨-, -, hquant, -⟩ := hfit
  have hq : s.ctl.quant[k]? = some (s.bandQuant (k + 1)) := by
    rw [State.bandQuant, if_neg (by omega), Nat.add_sub_cancel, List.getD_eq_getElem _ _ (by omega)]
    exact List.getElem?_eq_getElem _
  rw [nextBand, bind_of_ok (get_apply _)]
  have hread : getOr s.ctl.quant[k]? .unwrittenField (s.running x vs off k) = .ok (s.bandQuant (k + 1)) (s.running x vs off k) := by
    rw [hq, getOr_some]
  exact (bind_of_ok hread).trans rfl

/-- Every edge below the cursor is passed, up to the first one that is not (R581). -/
theorem skipBands_running (hx : s.tracks[s.ctl.track]? = some x) (hfit : BandsFit s x) (hend : s.ctl.coefPos + vs.length ≤ x.n)
    {fuel : Nat} (hk : s.ctl.bandK ≤ k) (hnb : k ≤ x.nb) (hfuel : x.nb < k + fuel) :
    ∃ k', k ≤ k' ∧ k' ≤ x.nb ∧ (∀ e, k ≤ e → e < k' → ∃ a, x.band[e]? = some a ∧ a < s.ctl.coefPos + vs.length)
      ∧ (∃ a, x.band[k']? = some a ∧ s.ctl.coefPos + vs.length ≤ a)
      ∧ skipBands fuel (s.running x vs off k) = .ok () (s.running x vs off k') := by
  induction fuel generalizing k with
  | zero => omega
  | succ fuel ih =>
    obtain ⟨a, ha⟩ := hfit.exists_edge hnb
    rw [skipBands, bind_of_ok (bandEdge_running hx ha), bind_of_ok (get_apply _), State.running_coefPos]
    by_cases hpassed : a < s.ctl.coefPos + vs.length
    · have hlt := hfit.lt_of_edge hnb ha (by omega)
      obtain ⟨k', hle, hle', hskip, hstop, hrun⟩ := ih (k := k + 1) (by omega) hlt (by omega)
      refine ⟨k', by omega, hle', fun e he he' => ?_, hstop, ?_⟩
      · obtain rfl | he := he.eq_or_lt
        · exact ⟨a, ha, hpassed⟩
        · exact hskip e he he'
      · rw [if_pos hpassed, bind_of_ok (nextBand_running hfit hk hlt), hrun]
    · exact ⟨k, Nat.le_refl k, hnb, fun e he he' => absurd he' (Nat.not_lt.mpr he), ⟨a, ha, Nat.le_of_not_lt hpassed⟩,
        by rw [if_neg hpassed, pure_apply]⟩

/-! ## Runs of width 0 -/

/-- The two run headers are one run, of their length (R230, R580). -/
theorem exec_audioRun {i : Instr} {len : Nat} {width : BitVec 4}
    (h : (i = .audioRun8 width ∧ len = 8)
      ∨ ∃ idx : BitVec 4, i = .audioRunRle idx width ∧ len = 8 * s.params.audioRle idx.toNat) :
    exec i s = run (audioRun len width) s := by
  obtain ⟨rfl, rfl⟩ | ⟨idx, rfl, rfl⟩ := h <;> rfl

/-- A run at its place comes to its end, cut at the frame length (R581). -/
theorem audioRun_begin (h : RunAt s x) (len : Nat) (width : BitVec 4) :
    audioRun len width s
      = (if width = 0 then
          modifyTrack (fun y => y.storeSamples s.ctl.chan s.ctl.coefPos
              (List.replicate (min (s.ctl.coefPos + len) x.n - s.ctl.coefPos) 0)) >>= fun _ =>
            modifyCtl (fun c => { c with coefPos := min (s.ctl.coefPos + len) x.n }) >>= fun _ => skipBands (x.nb + 1)
        else codedRun width.toNat (min (s.ctl.coefPos + len) x.n - s.ctl.coefPos)) s := by
  obtain ⟨hphase, hx, hpos, -⟩ := h
  rw [audioRun, bind_of_ok (atPhase_of_eq hphase), bind_of_ok (currentTrack_of_present hx), bind_of_ok (get_apply s)]
  exact bind_of_ok (demand_of_true _ s (decide_eq_true hpos))

/-- Settles O22: the zeros are stored, and the edges below the run's end passed. -/
theorem audioRunZeroCompletes : Obligations.AudioRunZeroCompletes := by
  intro i len s x hat hi j
  have ⟨_, hx, hpos, hfit⟩ := hat
  have ⟨_, _, _, hband⟩ := hfit
  have hlen : s.ctl.coefPos + (List.replicate (j - s.ctl.coefPos) (0 : F32)).length = j := by
    rw [List.length_replicate]; omega
  obtain ⟨k, hle, hnb, hskip, hstop, hrun⟩ := skipBands_running (vs := List.replicate (j - s.ctl.coefPos) 0) (off := 0)
    (fuel := x.nb + 1) hx hfit (by omega) (Nat.le_refl _) hband (by omega)
  simp only [State.running_noBits, State.bandQuant_start, hlen] at hrun hskip hstop
  refine ⟨k, hle, hnb, hskip, hstop, ?_⟩
  rw [exec_audioRun hi]
  refine run_of_ok ?_
  rw [audioRun_begin hat, if_pos rfl, bind_of_ok (modifyTrack_of_present hx _), bind_of_ok (modifyCtl_apply _ _)]
  exact hrun

/-! ## Coded runs -/

/-- The magnitude of `w` bits ahead, multiplied by the quantiser and with its sign (R582). -/
def coefAt (s : State) (w off : Nat) (q : F32) : F32 :=
  if bitsAt s off w = 0 then 0
  else if bitsAt s (off + w) 1 = 1 then f32Neg (f32Mul q (f32OfNat (bitsAt s off w))) else f32Mul q (f32OfNat (bitsAt s off w))

/-- The offset behind the magnitude of `w` bits ahead and its sign, which a magnitude of 0 does not have (R582). -/
def coefEnd (s : State) (w off : Nat) : Nat := off + w + if bitsAt s off w = 0 then 0 else 1

theorem audioCoefValue_ahead {t : State} (h : ReadsAhead s t off) (h1 : 1 ≤ w) (h32 : w ≤ 32) (hleft : BitsLeft s (coefEnd s w off))
    (q : F32) : audioCoefValue w q t = .ok (coefAt s w off q) (t.setPos (s.bitPos + coefEnd s w off)) := by
  have hmag : BitsLeft s (off + w) := hleft.mono (Nat.le_add_right _ _)
  unfold coefAt coefEnd at *
  rw [audioCoefValue, bind_of_ok (h.getBits h1 h32 hmag)]
  by_cases hzero : bitsAt s off w = 0
  · simp only [if_pos hzero]
    rfl
  · simp only [if_neg hzero] at hleft ⊢
    rw [bind_of_ok ((h.setPos hmag).getBit hleft)]
    rfl

/-- The band edge in front of position `j` of a coded run, once the run has looked at `j` positions (R581). -/
def runBand (s : State) (x : Track) : Nat → Nat
  | 0 => s.ctl.bandK
  | j + 1 => if x.band[runBand s x j]? = some (s.ctl.coefPos + j) then runBand s x j + 1 else runBand s x j

/-- Where the bits of position `j` of a coded run begin. -/
def runOff (s : State) (w : Nat) : Nat → Nat
  | 0 => 0
  | j + 1 => coefEnd s w (runOff s w j)

/-- The coefficients of the first `n` positions of a coded run. -/
def runValues (s : State) (x : Track) (w n : Nat) : List F32 :=
  (List.range n).map fun j => coefAt s w (runOff s w j) (s.bandQuant (runBand s x (j + 1)))

theorem length_runValues (s : State) (x : Track) (w n : Nat) : (runValues s x w n).length = n := by
  rw [runValues, List.length_map, List.length_range]

theorem runValues_succ (s : State) (x : Track) (w n : Nat) :
    runValues s x w (n + 1) = runValues s x w n ++ [coefAt s w (runOff s w n) (s.bandQuant (runBand s x (n + 1)))] := by
  rw [runValues, List.range_succ, List.map_append]
  rfl

theorem runOff_le (s : State) (w j : Nat) : runOff s w j ≤ (w + 1) * j := by
  induction j with
  | zero => exact Nat.le_refl 0
  | succ j ih =>
    have hsign : (if bitsAt s (runOff s w j) w = 0 then 0 else 1) ≤ 1 := by split <;> decide
    rw [Nat.mul_succ, runOff, coefEnd]
    omega

theorem bandK_le_runBand (s : State) (x : Track) (j : Nat) : s.ctl.bandK ≤ runBand s x j := by
  induction j with
  | zero => exact Nat.le_refl _
  | succ j ih => rw [runBand]; split <;> omega

theorem runBand_le (hfit : BandsFit s x) (hj : s.ctl.coefPos + j ≤ x.n) : runBand s x j ≤ x.nb := by
  induction j with
  | zero => exact hfit.2.2.2
  | succ j ih =>
    have hle := ih (by omega)
    rw [runBand]
    split
    next hedge => exact hfit.lt_of_edge hle hedge (by omega)
    next => exact hle

/-- The state before position `j` of a coded run. -/
def State.coding (s : State) (x : Track) (w j : Nat) : State := s.running x (runValues s x w j) (runOff s w j) (runBand s x j)

/-- A coefficient is stored and the cursor moved on, its bits taken. -/
theorem storeCoef_running (hx : s.tracks[s.ctl.track]? = some x) (hchan : s.ctl.chan < x.coef.length) (v : F32) (off' : Nat) :
    (setSample s.ctl.chan (s.ctl.coefPos + vs.length) v >>= fun _ => modifyCtl fun c => { c with coefPos := c.coefPos + 1 })
        ((s.running x vs off k).setPos (s.bitPos + off'))
      = .ok () (s.running x (vs ++ [v]) off' k) := by
  rw [State.running_setPos, bind_of_ok (setSample_of_present (State.running_tracks hx vs off' k) _ _ _), modifyCtl_apply,
    Track.storeSamples_append hchan, State.running_ctl, State.running_setTrack]
  conv_rhs => rw [State.running, List.length_append]
  rfl

/-- A position whose quantiser stands is read and stored (R581, R582). -/
theorem codedRun_value (hx : s.tracks[s.ctl.track]? = some x) (hchan : s.ctl.chan < x.coef.length) (h1 : 1 ≤ w) (h32 : w ≤ 32)
    (hleft : BitsLeft s (coefEnd s w off)) (n : Nat) :
    (get >>= fun u : State => audioCoefValue w u.ctl.bandQ >>= fun v => setSample u.ctl.chan u.ctl.coefPos v >>= fun _ =>
        modifyCtl (fun c => { c with coefPos := c.coefPos + 1 }) >>= fun _ => codedRun w n) (s.running x vs off k)
      = codedRun w n (s.running x (vs ++ [coefAt s w off (s.bandQuant k)]) (coefEnd s w off) k) := by
  have hahead : ReadsAhead s (s.running x vs off k) off :=
    .running (hleft.mono (Nat.le_trans (Nat.le_add_right _ _) (Nat.le_add_right _ _)))
  rw [bind_of_ok (get_apply _), bind_of_ok (audioCoefValue_ahead hahead h1 h32 hleft _), ← bind_assoc]
  exact bind_of_ok (storeCoef_running hx hchan _ _)

/-- One position of a coded run: its band edge is met or not, then its coefficient is read and stored (R581, R582). -/
theorem codedRun_succ_coding (hat : RunAt s x) (hchan : s.ctl.chan < x.coef.length) (h1 : 1 ≤ w) (h32 : w ≤ 32)
    (hj : s.ctl.coefPos + j < x.n) (hleft : BitsLeft s (runOff s w (j + 1))) (n : Nat) :
    codedRun w (n + 1) (s.coding x w j) = codedRun w n (s.coding x w (j + 1)) := by
  obtain ⟨-, hx, -, hfit⟩ := hat
  have hle := runBand_le hfit (Nat.le_of_lt hj)
  obtain ⟨a, ha⟩ := hfit.exists_edge hle
  rw [codedRun, State.coding, bind_of_ok (bandEdge_running hx ha), bind_of_ok (get_apply _), State.running_coefPos,
    length_runValues, State.coding, runValues_succ]
  by_cases hedge : a = s.ctl.coefPos + j
  · have hnext : runBand s x (j + 1) = runBand s x j + 1 := by rw [runBand, ha, hedge, if_pos rfl]
    have hlt := hfit.lt_of_edge hle ha (by omega)
    rw [if_pos hedge, bind_of_ok (nextBand_running hfit (bandK_le_runBand s x j) hlt), hnext]
    exact codedRun_value hx hchan h1 h32 hleft n
  · have hnext : runBand s x (j + 1) = runBand s x j := by rw [runBand, ha, if_neg (by simpa using hedge)]
    rw [if_neg hedge, hnext]
    exact codedRun_value hx hchan h1 h32 hleft n

theorem runOff_mono (s : State) (w : Nat) {i j : Nat} (h : i ≤ j) : runOff s w i ≤ runOff s w j :=
  monotone_nat_of_le_succ (fun _ => Nat.le_trans (Nat.le_add_right _ w) (Nat.le_add_right _ _)) h

theorem codedRun_coding (hat : RunAt s x) (hchan : s.ctl.chan < x.coef.length) (h1 : 1 ≤ w) (h32 : w ≤ 32)
    (hn : s.ctl.coefPos + (j + n) ≤ x.n) (hleft : BitsLeft s (runOff s w (j + n))) :
    codedRun w n (s.coding x w j) = .ok () (s.coding x w (j + n)) := by
  induction n generalizing j with
  | zero => rfl
  | succ n ih =>
    have hplace : j + (n + 1) = j + 1 + n := by omega
    rw [hplace] at hn hleft ⊢
    rw [codedRun_succ_coding hat hchan h1 h32 (by omega) (hleft.mono (runOff_mono s w (by omega)))]
    exact ih hn hleft

/-- Settles O23: position by position the run follows `runBand`, `runOff` and `runValues`. -/
theorem audioRunCodedCompletes : Obligations.AudioRunCodedCompletes := by
  intro i len width s x hat hwidth hi hchan w count quantOf hleft
  have ⟨_, hx, hpos, hfit⟩ := hat
  have h1 : 1 ≤ w := Nat.one_le_iff_ne_zero.mpr fun h => hwidth (BitVec.eq_of_toNat_eq h)
  have h32 : w ≤ 32 := by have := width.isLt; omega
  have hcount : s.ctl.coefPos + (0 + count) ≤ x.n := by omega
  refine ⟨runValues s x w count, runOff s w, runBand s x, length_runValues s x w count, rfl, rfl, runOff_le s w count,
    runBand_le hfit (by omega), fun j hj => ⟨rfl, rfl, ?_⟩, ?_⟩
  · rw [runValues, List.getElem?_map, List.getElem?_range hj]
    rfl
  · rw [exec_audioRun hi]
    refine run_of_ok ?_
    have hrun := codedRun_coding (j := 0) (n := count) hat hchan h1 h32 hcount
      (hleft.mono (by rw [Nat.zero_add]; exact runOff_le s w count))
    have hstart : s.coding x w 0 = s := State.running_start hx hchan
    rw [hstart, Nat.zero_add, State.coding, State.running, length_runValues] at hrun
    rw [audioRun_begin hat, if_neg hwidth]
    exact hrun

end Sys2Proof.Machine
end

/-! # The steps of an audio packet (R576 to R578, R585 to R595, R600, R601, R637) -/

section
namespace Sys2Proof.Machine

variable {s t : State} {x : Track} {v : Nat → F32} {old : Nat → BitVec 16} {off n i : Nat}

/-! ## The blend (R591) -/

theorem blended_two_pow (k i : Nat) (old new : Int) :
    blended (2 ^ k) i old new = (old * (2 ^ k - i) + new * i) / 2 ^ k := by
  rw [blended, Nat.log2_two_pow, Int.shiftRight_eq_div_pow]
  push_cast
  rfl

/-- The blend is a mean with weights that are not negative, so it leaves neither bound of the two samples. -/
theorem blended_between (k : Nat) (old new : Int) (hi : i < 2 ^ k) :
    min old new ≤ blended (2 ^ k) i old new ∧ blended (2 ^ k) i old new ≤ max old new := by
  have hpow : (0 : Int) < 2 ^ k := by positivity
  have hnew : (0 : Int) ≤ i := Int.natCast_nonneg i
  have hold : (0 : Int) ≤ 2 ^ k - i := by
    have : (i : Int) < 2 ^ k := by exact_mod_cast hi
    omega
  rw [blended_two_pow]
  constructor
  · rw [Int.le_ediv_iff_mul_le hpow]
    calc min old new * 2 ^ k = min old new * (2 ^ k - i) + min old new * i := by ring
      _ ≤ old * (2 ^ k - i) + new * i := add_le_add (mul_le_mul_of_nonneg_right (min_le_left _ _) hold)
          (mul_le_mul_of_nonneg_right (min_le_right _ _) hnew)
  · refine Int.ediv_le_of_le_mul hpow ?_
    calc old * (2 ^ k - i) + new * i ≤ max old new * (2 ^ k - i) + max old new * i :=
          add_le_add (mul_le_mul_of_nonneg_right (le_max_left _ _) hold) (mul_le_mul_of_nonneg_right (le_max_right _ _) hnew)
      _ = max old new * 2 ^ k := by ring

/-! ## The output of a block (R590 to R593) -/

/-- A block's sample `i` is written and no NaN. -/
def SampleHeld (x : Track) (v : Nat → F32) (i : Nat) : Prop :=
  Cells.get (x.coef.getD (i % x.ch) []) (i / x.ch) = some (v i) ∧ f32IsNaN (v i) = false

theorem pcmSample_of_held (h : SampleHeld x v i) (s : State) :
    pcmSample x i s = .ok (f32ToClamped (-32768) 32767 (v i)) s := by
  obtain ⟨hget, hnan⟩ := h
  rw [pcmSample, hget, bind_of_ok (getOr_some _ _ s), bind_of_ok (demand_of_true _ s (by rw [hnan]; rfl)), pure_apply]

theorem pcmSamples_of_held (n i : Nat) (h : ∀ j, i ≤ j → j < i + n → SampleHeld x v j) (s : State) :
    pcmSamples x n i s = .ok ((List.range' i n).map fun j => f32ToClamped (-32768) 32767 (v j)) s := by
  induction n generalizing i with
  | zero => rfl
  | succ n ih =>
    rw [pcmSamples, bind_of_ok (pcmSample_of_held (h i (Nat.le_refl i) (by omega)) s),
      bind_of_ok (ih (i + 1) fun j hj hj' => h j (by omega) (by omega)), pure_apply, List.range'_succ, List.map_cons]

/-- The first block of a track goes out as it is; of a later one the first samples are blended (R591, R593). -/
theorem crossFade_apply (hn : x.ov * x.ch ≤ n) (hold : x.first = false → ∀ i, i < x.ov * x.ch → Cells.get x.prev i = some (old i))
    (s : State) :
    crossFade x (x.ov * x.ch) ((List.range n).map fun i => f32ToClamped (-32768) 32767 (v i)) s
      = .ok ((List.range n).map (outputSample x v old)) s := by
  cases hfirst : x.first with
  | true =>
    have hplain : outputSample x v old = fun i => f32ToClamped (-32768) 32767 (v i) := funext fun i => by
      simp [outputSample, hfirst]
    rw [crossFade, if_pos hfirst, pure_apply, hplain]
  | false =>
    have hslice := slice_of_get (x.ov * x.ch) 0 fun i hi => (Nat.zero_add i).symm ▸ hold hfirst i hi
    rw [crossFade, if_neg (by simp [hfirst]), hslice, bind_of_ok (getOr_some _ _ s), pure_apply]
    congr 1
    refine List.ext_getElem (by simp; omega) fun i hi hi' => ?_
    have hin : i < n := by simpa using hi'
    by_cases hblend : i < x.ov * x.ch
    · rw [List.getElem_append_left (by simpa using hblend)]
      simp [outputSample, hfirst, hblend, hin]
    · rw [List.getElem_append_right (by simpa using hblend)]
      simp [outputSample, hfirst, hblend, Nat.add_sub_cancel' (Nat.le_of_not_lt hblend)]

theorem length_flatMap_sampleBytes (vs : List Int) : (vs.flatMap sampleBytes).length = 2 * vs.length := by
  induction vs with
  | nil => rfl
  | cons v vs ih =>
    have htwo : (sampleBytes v).length = 2 := rfl
    rw [List.flatMap_cons, List.length_append, ih, htwo, List.length_cons]
    omega

/-- Byte `b` of the samples is the low or the high one of sample `b / 2` (R157). -/
theorem getElem?_flatMap_sampleBytes (vs : List Int) (b : Nat) :
    (vs.flatMap sampleBytes)[b]? = vs[b / 2]?.map fun v => ((BitVec.ofInt 16 v) >>> (8 * (b % 2))).setWidth 8 := by
  induction vs generalizing b with
  | nil => rfl
  | cons v vs ih =>
    match b with
    | 0 => simp [sampleBytes]
    | 1 => rfl
    | b + 2 =>
      rw [Nat.add_div_right b (by decide), Nat.add_mod_right, List.getElem?_cons_succ, ← ih]
      rfl

/-- The step that puts a block out (R590 to R593, R595). -/
theorem audioEmit_apply (hx : s.tracks[s.ctl.track]? = some x) (hov : x.ov ≤ x.n)
    (hheld : ∀ i, i < x.n * x.ch → SampleHeld x v i)
    (hold : x.first = false → ∀ i, i < x.ov * x.ch → Cells.get x.prev i = some (old i)) :
    let pcm := (List.range (x.n * x.ch)).map (outputSample x v old)
    let m := (x.n - x.ov) * x.ch
    audioEmit s = .ok () (((s.setTrack s.ctl.track
      { x with
        prev := Cells.setFrom [] 0 ((pcm.drop m).map (BitVec.ofInt 16))
        out := Cells.setFrom x.out x.outLen ((pcm.take m).flatMap sampleBytes)
        outLen := x.outLen + 2 * m
        first := false }).setPos (min (32 * ((s.bitPos + 31) / 32)) s.bitSize)).setPhase .audioLoop) := by
  intro pcm m
  have hpcm := pcmSamples_of_held (x.n * x.ch) 0 (fun j _ hj => hheld j (by omega)) s
  rw [← List.range_eq_range'] at hpcm
  rw [audioEmit, bind_of_ok (currentTrack_of_present hx), bind_of_ok hpcm,
    bind_of_ok (crossFade_apply (Nat.mul_le_mul_right _ hov) hold s), bind_of_ok (modifyTrack_of_present hx _),
    bind_of_ok (alignTo32_apply _), modify_apply, alignedPos_eq]
  rfl

/-- The bytes appended to the output are those of the samples that are put out, in order (R592). -/
theorem get_output {m : Nat} (h : n ≤ m) (f : Nat → Int) (out : Cells Byte) (start a : Nat) :
    Cells.get (Cells.setFrom out start ((((List.range m).map f).take n).flatMap sampleBytes)) a
      = if start ≤ a ∧ a < start + 2 * n then
          some (((BitVec.ofInt 16 (f ((a - start) / 2))) >>> (8 * ((a - start) % 2))).setWidth 8)
        else Cells.get out a := by
  have hlen : (((List.range m).map f).take n).length = n := by simpa using h
  rw [Cells.get_setFrom, length_flatMap_sampleBytes, hlen]
  split
  next hin =>
    have hplace : (a - start) / 2 < n := by omega
    have hplace' : (a - start) / 2 < m := by omega
    rw [getElem?_flatMap_sampleBytes, List.getElem?_take_of_lt hplace, List.getElem?_map, List.getElem?_range hplace']
    rfl
  next => rfl

/-- The samples retained are the last ones (R592). -/
theorem get_retained (f : Nat → Int) (m n i : Nat) :
    Cells.get (Cells.setFrom [] 0 ((((List.range (m + n)).map f).drop m).map (BitVec.ofInt 16))) i
      = if i < n then some (BitVec.ofInt 16 (f (m + i))) else none := by
  rw [Cells.get_setFrom]
  simp only [List.length_map, List.length_drop, List.length_range, Nat.zero_le, true_and, Nat.zero_add, Nat.add_sub_cancel_left,
    Nat.sub_zero]
  split
  next hin =>
    rw [List.getElem?_map, List.getElem?_drop, List.getElem?_map, List.getElem?_range (by omega)]
    rfl
  next => rfl

/-! ## The block loop (R595, R600, R601, R587) -/

theorem endTrack_of_present (hx : s.tracks[s.ctl.track]? = some x) :
    endTrack s = .ok () ((s.setRegs { s.regs with audioTrunc := s.regs.audioTrunc || x.trunc }).setCtl
      { s.ctl with phase := .audioTrack, track := s.ctl.track + 1 }) := by
  rw [endTrack, bind_of_ok (currentTrack_of_present hx), modify_apply]

theorem audioLoopHead_of_end {k : Packet} (hx : s.tracks[s.ctl.track]? = some x) (hk : s.ctl.packets[s.ctl.track]? = some k)
    (hend : k.sz - 4 ≤ s.bitPos / 8) : audioLoopHead s = endTrack s := by
  rw [audioLoopHead, bind_of_ok (get_apply s), hk, bind_of_ok (getOr_some k _ s), bind_of_ok (currentTrack_of_present hx),
    if_neg (Nat.not_lt.mpr hend)]

theorem audioLoopHead_of_more {k : Packet} (hx : s.tracks[s.ctl.track]? = some x) (hk : s.ctl.packets[s.ctl.track]? = some k)
    (hmore : s.bitPos / 8 < k.sz - 4) (hprefix : x.kind = .dct → BitsLeft s s.params.audioDctPrefixBits) :
    audioLoopHead s
      = .ok () (if Config.audioFrameBufBytes s.ctl.track x.rate x.ch x.kind < x.outLen + 2 * (x.n - x.ov) * x.ch then
          ((s.setTrack s.ctl.track { x with trunc := true }).setRegs { s.regs with audioTrunc := true }).setCtl
            { s.ctl with phase := .audioTrack, track := s.ctl.track + 1 }
        else
          (if x.kind = .dct then s.setPos (s.bitPos + s.params.audioDctPrefixBits) else s).setCtl
            { s.ctl with phase := .audioHead, chan := 0 }) := by
  rw [audioLoopHead, bind_of_ok (get_apply s), hk, bind_of_ok (getOr_some k _ s), bind_of_ok (currentTrack_of_present hx),
    if_pos hmore, blockBytes]
  by_cases hfull : Config.audioFrameBufBytes s.ctl.track x.rate x.ch x.kind < x.outLen + 2 * (x.n - x.ov) * x.ch
  · rw [if_pos hfull, if_pos hfull, bind_of_ok (modifyTrack_of_present hx _),
      endTrack_of_present (x := { x with trunc := true }) (State.tracks_setTrack hx _), Bool.or_true]
    rfl
  · rw [if_neg hfull, if_neg hfull]
    by_cases hdct : x.kind = .dct
    · rw [if_pos hdct, if_pos hdct]
      exact (bind_of_ok (skipBits_of_fits (hprefix hdct))).trans rfl
    · rw [if_neg hdct, if_neg hdct]
      rfl

/-- A packet of less than 4 bytes is padding; a longer one is opened behind its size (R595, R601). -/
theorem openAudioPacket_apply {k : Packet} (hx : s.tracks[s.ctl.track]? = some x) (hk : s.ctl.packets[s.ctl.track]? = some k) :
    let u := s.setTrack s.ctl.track { x with outLen := 0, trunc := false }
    openAudioPacket s
      = .ok () (if k.sz < 4 then u.setCtl { s.ctl with phase := .audioTrack, track := s.ctl.track + 1 }
        else (u.setBr { base := BitVec.ofNat 32 (k.a + 4), sizeBits := BitVec.ofNat 32 (8 * (k.sz - 4)), pos := 0 }).setPhase
          .audioLoop) := by
  intro u
  rw [openAudioPacket, bind_of_ok (get_apply s), hk, bind_of_ok (getOr_some k _ s), bind_of_ok (modifyTrack_of_present hx _)]
  by_cases hpad : k.sz < 4
  · rw [if_pos hpad, if_pos hpad, endTrack_of_present (x := { x with outLen := 0, trunc := false }) (State.tracks_setTrack hx _),
      Bool.or_false]
    rfl
  · rw [if_neg hpad, if_neg hpad]
    rfl

/-! ## The head of a channel (R576 to R578, R581) -/

/-- The float `off` bits ahead: exponent, magnitude and sign (R577). -/
def floatAt (s : State) (off : Nat) : F32 :=
  f32Round (bitsAt s (off + 28) 1 == 1) (bitsAt s (off + 5) 23) ((bitsAt s off 5 : Int) - 23)

/-- The `n` quantisers from `off` bits ahead on, 8 bits each (R578). -/
def quantisersAt (s : State) (qtab : List F32) (off n : Nat) : List F32 :=
  (List.range n).map fun k => qtab.getD (min (bitsAt s (off + 8 * k) 8) 95) 0

theorem readFloat_ahead (h : ReadsAhead s t off) (hleft : BitsLeft s (off + 29)) :
    readFloat t = .ok (floatAt s off) (t.setPos (s.bitPos + (off + 29))) := by
  have hexp : BitsLeft s (off + 5) := hleft.mono (by omega)
  have hmag : BitsLeft s (off + 5 + 23) := hleft.mono (by omega)
  rw [readFloat, bind_of_ok (h.getBits (by decide) (by decide) hexp),
    bind_of_ok ((h.setPos hexp).getBits (by decide) (by decide) hmag), State.setPos_setPos,
    bind_of_ok ((h.setPos hmag).getBit hleft)]
  rfl

theorem audioQuantiser_ahead {qtab : List F32} (hq : qtab.length = 96) (h : ReadsAhead s t off) (hleft : BitsLeft s (off + 8)) :
    audioQuantiser qtab t = .ok (qtab.getD (min (bitsAt s off 8) 95) 0) (t.setPos (s.bitPos + (off + 8))) := by
  have hidx : min (bitsAt s off 8) 95 < qtab.length := by omega
  rw [audioQuantiser, bind_of_ok (h.getBits (by decide) (by decide) hleft), List.getElem?_eq_getElem hidx, getOr_some,
    List.getD_eq_getElem _ _ hidx]

theorem readMany_audioQuantiser {qtab : List F32} (hq : qtab.length = 96) (h : ReadsAhead s t off) (hleft : BitsLeft s (off + 8 * n)) :
    readMany (audioQuantiser qtab) n t = .ok (quantisersAt s qtab off n) (t.setPos (s.bitPos + (off + 8 * n))) := by
  induction n generalizing t off with
  | zero => rw [readMany, pure_apply]; exact congrArg _ h.setPos_self.symm
  | succ n ih =>
    have hbits : off + 8 * (n + 1) = off + 8 + 8 * n := by omega
    have hplace : ∀ k, off + 8 * (k + 1) = off + 8 + 8 * k := fun k => by omega
    rw [hbits] at hleft ⊢
    have hone : BitsLeft s (off + 8) := hleft.mono (Nat.le_add_right _ _)
    rw [readMany, bind_of_ok (audioQuantiser_ahead hq h hone), bind_of_ok (ih (h.setPos hone) hleft), pure_apply,
      quantisersAt, quantisersAt, List.range_succ_eq_map, List.map_cons, List.map_map]
    simp only [Function.comp_def, Nat.succ_eq_add_one, hplace, Nat.mul_zero, Nat.add_zero]
    rfl

/-- The state `s` with `vs` as the first coefficients of the channel in hand, `off` bits taken. -/
def State.heading (s : State) (x : Track) (vs : List F32) (off : Nat) : State :=
  (s.setTrack s.ctl.track (x.storeSamples s.ctl.chan 0 vs)).setPos (s.bitPos + off)

theorem State.heading_start (hx : s.tracks[s.ctl.track]? = some x) (hchan : s.ctl.chan < x.coef.length) :
    s.heading x [] 0 = s := by
  obtain ⟨ht, rfl⟩ := List.getElem?_eq_some_iff.mp hx
  rw [State.heading, Track.storeSamples_nil hchan, State.setTrack, List.set_getElem_self]
  exact s.setPos_bitPos

theorem ReadsAhead.heading {vs : List F32} (hleft : BitsLeft s off) : ReadsAhead s (s.heading x vs off) off :=
  ⟨rfl, rfl, rfl, State.bitPos_setPos_of_le _ hleft⟩

/-- A float of the head is read and stored as the channel's next coefficient (R576, R577). -/
theorem headFloat_apply {α : Type} {vs : List F32} (hx : s.tracks[s.ctl.track]? = some x) (hchan : s.ctl.chan < x.coef.length)
    (hleft : BitsLeft s (off + 29)) (root : F32) {k : Nat} (hk : k = vs.length) (f : M α) :
    (readFloat >>= fun v => setSample s.ctl.chan k (f32Mul v root) >>= fun _ => f) (s.heading x vs off)
      = f (s.heading x (vs ++ [f32Mul (floatAt s off) root]) (off + 29)) := by
  have htrack : ((s.heading x vs off).setPos (s.bitPos + (off + 29))).tracks[s.ctl.track]?
      = some (x.storeSamples s.ctl.chan 0 vs) := State.tracks_setTrack hx _
  have hstore := Track.storeSamples_append hchan 0 vs [f32Mul (floatAt s off) root]
  rw [Nat.zero_add, ← hk] at hstore
  rw [bind_of_ok (readFloat_ahead (.heading (hleft.mono (Nat.le_add_right _ _))) hleft),
    bind_of_ok (setSample_of_present htrack _ _ _), hstore, State.heading, State.heading,
    ← State.setTrack_setTrack s s.ctl.track (x.storeSamples s.ctl.chan 0 vs) (x.storeSamples s.ctl.chan 0 (vs ++ _))]
  rfl

theorem audioHead_apply (hx : s.tracks[s.ctl.track]? = some x) (hchan : s.ctl.chan < x.coef.length) (hq : x.qtab.length = 96)
    (hnb : 1 ≤ x.nb) (hleft : BitsLeft s (58 + 8 * x.nb)) :
    let root := Config.audioRoot x.kind x.n
    let quant := quantisersAt s x.qtab 58 x.nb
    audioHead s
      = .ok () ((s.heading x [f32Mul (floatAt s 0) root, f32Mul (floatAt s 29) root] (58 + 8 * x.nb)).setCtl
          { s.ctl with phase := .audioCoef, quant := quant, bandK := 0, bandQ := quant.getD 0 0, coefPos := 2 }) := by
  intro root quant
  have hfloat0 : BitsLeft s (0 + 29) := hleft.mono (by omega)
  have hfloat1 : BitsLeft s (29 + 29) := hleft.mono (by omega)
  have hquant : quant[0]? = some (quant.getD 0 0) := by
    have hlen : 0 < quant.length := by simp only [quant, quantisersAt, List.length_map, List.length_range]; omega
    rw [List.getElem?_eq_getElem hlen, List.getD_eq_getElem _ _ hlen]
  have hhead0 := headFloat_apply (α := Unit) (vs := []) hx hchan hfloat0 root rfl
  have hhead1 := headFloat_apply (α := Unit) (vs := [f32Mul (floatAt s 0) root]) hx hchan hfloat1 root rfl
  rw [State.heading_start hx hchan] at hhead0
  rw [audioHead, bind_of_ok (get_apply s), bind_of_ok (currentTrack_of_present hx)]
  refine (hhead0 _).trans ((hhead1 _).trans ?_)
  rw [bind_of_ok (readMany_audioQuantiser hq (.heading hfloat1) hleft)]
  exact (congrArg (fun q => (getOr q Refusal.unwrittenField >>= _) _) hquant).trans rfl

/-! ## The transform of a channel (R585, R586, R588) -/

theorem transformed_eq (p : Params) (kind : TransformKind) (n : Nat) (c : List F32) :
    transformed p kind n c
      = (List.range n).map fun i =>
          if kind = .rdft then Config.invRdft n c i
          else f32Mul (Config.dctIII n (c.set 0 (f32Mul (c.getD 0 0) p.dctC0Factor)) i) (f32OfNat (p.postScale n)) := by
  cases kind with
  | rdft => simp only [transformed, if_true]
  | dct => simp only [transformed, reduceCtorEq, if_false]

theorem audioTransform_apply {c : List F32} (hx : s.tracks[s.ctl.track]? = some x)
    (hc : Cells.slice (x.coef.getD s.ctl.chan []) 0 x.n = some c) :
    audioTransform s
      = .ok () ((s.setTrack s.ctl.track
          { x with coef := x.coef.set s.ctl.chan (Cells.setFrom [] 0 (transformed s.params x.kind x.n c)) }).setCtl
          { s.ctl with
            phase := if s.ctl.chan + 1 < x.ch then .audioHead else .audioEmit, chan := s.ctl.chan + 1 }) := by
  rw [audioTransform, bind_of_ok (get_apply s), bind_of_ok (currentTrack_of_present hx), hc, bind_of_ok (getOr_some c _ s),
    bind_of_ok (modifyTrack_of_present hx _)]
  rfl

theorem audioCoefStep_of_end (hx : s.tracks[s.ctl.track]? = some x) (hend : x.n ≤ s.ctl.coefPos) :
    audioCoefStep s = .ok none (s.setPhase .audioXform) := by
  rw [audioCoefStep, bind_of_ok (get_apply s), bind_of_ok (currentTrack_of_present hx), if_neg (Nat.not_lt.mpr hend)]
  rfl

/-! ## The phase decides which step is taken -/

theorem step_of_noElement {m : M Unit} {u : State} (hseq : sequence s = noElement m s) (hm : m s = .ok () u) : step s = .next u :=
  step_of_alone (hseq.trans ((bind_of_ok hm).trans (pure_apply _ _)))

theorem sequence_eq_audioTrackStep (h : s.ctl.phase = .audioTrack) : sequence s = audioTrackStep s := by
  simp only [sequence, bind_of_ok (get_apply s), h]

theorem sequence_eq_audioLoopHead (h : s.ctl.phase = .audioLoop) : sequence s = noElement audioLoopHead s := by
  simp only [sequence, bind_of_ok (get_apply s), h]

theorem sequence_eq_audioHead (h : s.ctl.phase = .audioHead) : sequence s = noElement audioHead s := by
  simp only [sequence, bind_of_ok (get_apply s), h]

theorem sequence_eq_audioTransform (h : s.ctl.phase = .audioXform) : sequence s = noElement audioTransform s := by
  simp only [sequence, bind_of_ok (get_apply s), h]

theorem sequence_eq_audioEmit (h : s.ctl.phase = .audioEmit) : sequence s = noElement audioEmit s := by
  simp only [sequence, bind_of_ok (get_apply s), h]

theorem audioTrackStep_of_track (h : s.ctl.track < s.session.trackCount.toNat) :
    audioTrackStep s = noElement openAudioPacket s := by
  rw [audioTrackStep, bind_of_ok (get_apply s), if_pos h, noElement]

theorem audioTrackStep_last (h : s.session.trackCount.toNat ≤ s.ctl.track) :
    audioTrackStep s = .ok none (s.setPhase .videoStart) := by
  rw [audioTrackStep, bind_of_ok (get_apply s), if_neg (Nat.not_lt.mpr h)]
  rfl

/-- Settles O24: the blend is a mean, and each phase's step is the operation named after it. -/
theorem crossFadeConvex : Obligations.CrossFadeConvex := by
  refine ⟨fun k i old new hi => blended_between k old new hi, fun s x v old hph hx hov hheld hold => ?_,
    fun s x k hph hx hk => ⟨fun hmore hprefix => ?_, fun hend => ?_⟩, fun s x k hph htrack hx hk => ?_, fun s hph hlast => ?_,
    fun s x hx hchan => ⟨fun hph hq hnb hleft => ?_, fun hph hend => ?_, fun hph c hc => ?_⟩⟩
  · have hsplit : x.n * x.ch = (x.n - x.ov) * x.ch + x.ov * x.ch := by rw [← Nat.add_mul, Nat.sub_add_cancel hov]
    have hemit := audioEmit_apply hx hov hheld hold
    rw [hsplit] at hemit
    exact ⟨_, _, step_of_noElement (sequence_eq_audioEmit hph) hemit, get_output (Nat.le_add_right _ _) _ x.out x.outLen,
      get_retained _ _ _⟩
  · rw [step_of_noElement (sequence_eq_audioLoopHead hph) (audioLoopHead_of_more hx hk hmore hprefix), apply_ite Host.Outcome.next]
  · exact step_of_noElement (sequence_eq_audioLoopHead hph) ((audioLoopHead_of_end hx hk hend).trans (endTrack_of_present hx))
  · rw [step_of_noElement ((sequence_eq_audioTrackStep hph).trans (audioTrackStep_of_track htrack)) (openAudioPacket_apply hx hk),
      apply_ite Host.Outcome.next]
  · exact step_of_alone ((sequence_eq_audioTrackStep hph).trans (audioTrackStep_last hlast))
  · exact step_of_noElement (sequence_eq_audioHead hph) (audioHead_apply hx hchan hq hnb hleft)
  · exact step_of_alone ((sequence_of_audioCoef hph).trans (audioCoefStep_of_end hx hend))
  · rw [step_of_noElement (sequence_eq_audioTransform hph) (audioTransform_apply hx hc), transformed_eq]

end Sys2Proof.Machine
end

/-! # The host commands (R635 to R656)

How a command ends, and what CLOSE, SEEK, READ_AUDIO, AUDIO_TRACK_INFO, DECODE_NEXT_FRAME and the illegal codes do. -/

section
namespace Sys2Proof.Machine

variable {s : State}

/-! ## How a command ends (R655, R692) -/

theorem setPhase_idle_of_idle (h : Idle s) : s.setPhase .idle = s := by
  have hctl : { s.ctl with phase := .idle } = s.ctl := by rw [← show s.ctl.phase = .idle from h]
  rw [State.setPhase, hctl]
  rfl

/-- A command that left the sequencer and the registers alone ends by setting the result registers. -/
theorem succeed_of_idle {u : State} (h : Idle s) (hctl : u.ctl = s.ctl) (hregs : u.regs = s.regs) (r0 r1 r2 : Word) :
    succeed r0 r1 r2 u = .ok () (u.setRegs (okRegs s.regs r0 r1 r2)) := by
  have hu : Idle (u.setRegs (okRegs u.regs r0 r1 r2)) := (congrArg Ctl.phase hctl).trans h
  rw [succeed_apply, setPhase_idle_of_idle hu, hregs]

theorem run_of_commandError {m : M Unit} {c : Cause} (h : m s = .error (.raised c) s) (hc : causeKind c = .commandError) :
    run m s = .next (s.setRegs (errorRegs s.regs (causeCode c))) := by
  rw [run_of_raised h, takeError_commandError s hc]
  rfl

/-! ## What a session command needs (R645, R648, R656) -/

theorem requireOpen_of_ready (h : Ready s) : requireOpen s = .ok () s := by
  obtain ⟨hidle, hopen⟩ := h
  rw [requireOpen, bind_of_ok (whileIdle_of_idle hidle), bind_of_ok (get_apply s), check_of_true _ s hopen]

theorem requireOpen_of_closed (hidle : Idle s) (hclosed : s.regs.isOpen = false) :
    requireOpen s = .error (.raised .notOpen) s := by
  rw [requireOpen, bind_of_ok (whileIdle_of_idle hidle), bind_of_ok (get_apply s), check_of_false _ s hclosed]

theorem argTrack_of_present {x : Track} (h : Ready s) (hlt : s.regs.arg0.toNat < s.session.trackCount.toNat)
    (hx : s.tracks[s.regs.arg0.toNat]? = some x) : argTrack s = .ok x s := by
  have hok : decide (s.regs.arg0 < s.session.trackCount) = true := decide_eq_true (BitVec.lt_def.mpr hlt)
  rw [argTrack, bind_of_ok (requireOpen_of_ready h), bind_of_ok (get_apply s), bind_of_ok (check_of_true _ s hok), hx, getOr_some]

theorem argTrack_of_beyond (h : Ready s) (hle : s.session.trackCount.toNat ≤ s.regs.arg0.toNat) :
    argTrack s = .error (.raised .badTrack) s := by
  have hok : decide (s.regs.arg0 < s.session.trackCount) = false :=
    decide_eq_false fun hlt => Nat.not_lt.mpr hle (BitVec.lt_def.mp hlt)
  rw [argTrack, bind_of_ok (requireOpen_of_ready h), bind_of_ok (get_apply s), bind_of_error (check_of_false _ s hok)]

theorem argTrack_of_closed (hidle : Idle s) (hclosed : s.regs.isOpen = false) :
    argTrack s = .error (.raised .notOpen) s := bind_of_error (requireOpen_of_closed hidle hclosed)

/-- Without a session the five session commands raise NOT_OPEN (R656). -/
theorem exec_of_closed (hidle : Idle s) (hclosed : s.regs.isOpen = false) :
    ∀ i ∈ [Instr.cmdClose, .cmdDecodeNextFrame, .cmdSeek, .cmdReadAudio, .cmdAudioTrackInfo],
      exec i s = .next (s.setRegs (errorRegs s.regs 32)) := by
  have hopen {f : Unit → M Unit} := run_of_commandError (bind_of_error (f := f) (requireOpen_of_closed hidle hclosed)) rfl
  have htrack {f : Track → M Unit} := run_of_commandError (bind_of_error (f := f) (argTrack_of_closed hidle hclosed)) rfl
  simp only [List.forall_mem_cons]
  exact ⟨hopen, hopen, hopen, htrack, htrack, fun _ h => nomatch h⟩

/-! ## Illegal codes (R652) -/

/-- Only OP, the low byte, selects the command. -/
theorem decodeCmd_mod {w : Nat} (h : w < 2 ^ 32) : decodeCmd w = decodeCmd (w % 256) := by
  have hfield : field (w % 256) 7 0 = field w 7 0 := by rw [field_zero, field_zero]; exact Nat.mod_mod w 256
  rw [decodeCmd, decodeCmd, if_neg (by omega), if_neg (by omega), hfield]

theorem run_badCommand (h : Idle s) : run badCommand s = .next (s.setRegs (errorRegs s.regs 37)) :=
  run_of_commandError (c := .badCommand) (bind_of_ok (whileIdle_of_idle h)) rfl

theorem exec_illegalCmd (op : Nat) (s : State) : exec (illegalCmd op) s = run badCommand s := by
  unfold illegalCmd
  split_ifs <;> rfl

/-- Every word with an illegal OP decodes to an instruction that does nothing but raise BAD_COMMAND. -/
theorem decode_badCommand {w : Nat} (h : w < 2 ^ 32) (hop : w % 256 = 0 ∨ 7 ≤ w % 256) :
    ∃ i, decode .cmd w = .ok i ∧ ∀ s, exec i s = run badCommand s := by
  by_cases h8 : 8 ≤ w % 256
  · exact ⟨_, decodeCmd_illegal h h8, exec_illegalCmd _⟩
  · obtain h0 | h7 : w % 256 = 0 ∨ w % 256 = 7 := by omega
    · exact ⟨.cmdIllegal00, (decodeCmd_mod h).trans (by rw [h0]; rfl), fun _ => rfl⟩
    · exact ⟨.cmdIllegal07, (decodeCmd_mod h).trans (by rw [h7]; rfl), fun _ => rfl⟩

/-- Settles O49: an illegal code and a session command without a session end in a CommandError raised in the state they found. -/
theorem commandErrorsChangeResultsOnly : Obligations.CommandErrorsChangeResultsOnly := by
  refine ⟨fun w h => decodeCmd_mod h, fun s hidle => ?_⟩
  have hbad := run_badCommand hidle
  refine ⟨fun w h hop => ?_, ?_, fun _ => hbad, fun _ => hbad, fun _ => hbad, fun _ => hbad, fun _ => hbad,
    exec_of_closed hidle⟩
  · obtain ⟨i, hdec, hexec⟩ := decode_badCommand h hop
    exact ⟨i, hdec, (hexec s).trans hbad⟩
  · simp only [List.forall_mem_cons]
    exact ⟨hbad, hbad, fun _ h => nomatch h⟩

/-! ## CLOSE, SEEK and AUDIO_TRACK_INFO (R635, R641, R648) -/

theorem exec_cmdClose (h : Ready s) :
    exec .cmdClose s = .next { s.coreReset with regs := okRegs s.coreReset.regs 0 0 0 } :=
  run_of_ok (by rw [bind_of_ok (requireOpen_of_ready h), bind_of_ok (modify_apply _ s), succeed_apply]; rfl)

theorem exec_cmdSeek (h : Ready s) (hle : s.regs.arg0.toNat ≤ s.session.frameCount.toNat) :
    exec .cmdSeek s
      = .next ((s.setSession { s.session with curFrame := s.regs.arg0 }).setRegs (okRegs s.regs 0 0 0)) := by
  have hok : decide (s.regs.arg0 ≤ s.session.frameCount) = true := decide_eq_true (BitVec.le_def.mpr hle)
  refine run_of_ok ?_
  rw [bind_of_ok (requireOpen_of_ready h), bind_of_ok (get_apply s), bind_of_ok (check_of_true _ s hok),
    bind_of_ok (set_apply s _)]
  exact succeed_of_idle h.1 (by rfl) (by rfl) 0 0 0

theorem exec_cmdSeek_beyond (h : Ready s) (hlt : s.session.frameCount.toNat < s.regs.arg0.toNat) :
    exec .cmdSeek s = .next (s.setRegs (errorRegs s.regs 34)) := by
  have hok : decide (s.regs.arg0 ≤ s.session.frameCount) = false :=
    decide_eq_false fun hle => Nat.not_lt.mpr (BitVec.le_def.mp hle) hlt
  refine run_of_commandError (c := .seekRange) ?_ rfl
  rw [bind_of_ok (requireOpen_of_ready h), bind_of_ok (get_apply s), bind_of_error (check_of_false _ s hok)]

theorem exec_cmdAudioTrackInfo {x : Track} (h : Ready s) (htrack : argTrack s = .ok x s) :
    exec .cmdAudioTrackInfo s
      = .next (s.setRegs (okRegs s.regs (x.rate.setWidth 32) (BitVec.ofNat 32 x.ch)
          (Config.idealBufferBytes s.regs.arg0.toNat x.rate x.ch x.kind))) :=
  run_of_ok ((bind_of_ok htrack).trans (succeed_of_idle h.1 rfl rfl _ _ _))

/-- Settles O46: each command in the state its checks leave unchanged. -/
theorem cmdSessionComplete : Obligations.CmdSessionComplete := by
  refine ⟨fun s h => ⟨exec_cmdClose h, exec_cmdSeek h, exec_cmdSeek_beyond h,
    fun x hlt hx => exec_cmdAudioTrackInfo h (argTrack_of_present h hlt hx),
    fun hle => run_of_commandError (bind_of_error (argTrack_of_beyond h hle)) rfl⟩, fun s hidle hclosed i hi => ?_⟩
  refine exec_of_closed hidle hclosed i ?_
  simp only [List.mem_cons, List.not_mem_nil, or_false] at hi ⊢
  tauto

/-! ## READ_AUDIO (R645) -/

/-- The first `k` bytes of an output that holds them. -/
theorem slice_of_written {out : Cells Byte} {k : Nat} (h : ∀ i, i < k → (Cells.get out i).isSome = true) :
    Cells.slice out 0 k = some ((List.range' 0 k).map fun i => (Cells.get out i).getD 0) :=
  slice_of_get k 0 fun i hi => by
    rw [Nat.zero_add]
    obtain ⟨v, hv⟩ := Option.isSome_iff_exists.mp (h i hi)
    rw [hv, Option.getD_some]

/-- PCM_OUT after the bytes of a slice were written from its start on. -/
theorem get_setFrom_slice {pcm out : Cells Byte} {k : Nat} {bytes : List Byte} (h : Cells.slice out 0 k = some bytes)
    (hw : ∀ i, i < k → (Cells.get out i).isSome = true) (i : Nat) :
    Cells.get (Cells.setFrom pcm 0 bytes) i = if i < k then Cells.get out i else Cells.get pcm i := by
  obtain rfl := Option.some.inj ((slice_of_written hw).symm.trans h)
  rw [Cells.get_setFrom]
  simp only [Nat.zero_le, true_and, List.length_map, List.length_range', Nat.zero_add, Nat.sub_zero]
  by_cases hi : i < k
  · obtain ⟨v, hv⟩ := Option.isSome_iff_exists.mp (hw i hi)
    simp [hi, hv]
  · simp [hi]

theorem exec_cmdReadAudio {x : Track} {k : Nat} {bytes : List Byte} (h : Ready s) (htrack : argTrack s = .ok x s)
    (hk : k = min x.outLen (s.regs.arg1.toNat / 2 * 2)) (hbytes : Cells.slice x.out 0 k = some bytes) :
    exec .cmdReadAudio s
      = .next (((s.setPcmOut (Cells.setFrom s.pcmOut 0 bytes)).setTrack s.regs.arg0.toNat { x with outLen := 0 }).setRegs
          (okRegs s.regs (BitVec.ofNat 32 k) 0 0)) := by
  refine run_of_ok ?_
  rw [bind_of_ok htrack, bind_of_ok (get_apply s), ← hk, hbytes, bind_of_ok (getOr_some bytes _ s), bind_of_ok (set_apply s _)]
  exact succeed_of_idle h.1 (by rfl) (by rfl) _ _ _

/-- Settles O47: the bytes copied are the slice of the output that the count names. -/
theorem cmdReadAudioCompletes : Obligations.CmdReadAudioCompletes := by
  refine fun s hidle => ⟨?_, fun hopen hle => ?_, fun hclosed => ?_⟩
  · intro x hopen hlt hx k hw
    have hready : Ready s := ⟨hidle, hopen⟩
    have hk : k = min x.outLen (s.regs.arg1.toNat / 2 * 2) :=
      congrArg (min x.outLen) (by omega : s.regs.arg1.toNat - s.regs.arg1.toNat % 2 = s.regs.arg1.toNat / 2 * 2)
    have hslice := slice_of_written hw
    exact ⟨_, get_setFrom_slice hslice hw, exec_cmdReadAudio hready (argTrack_of_present hready hlt hx) hk hslice⟩
  · exact run_of_commandError (bind_of_error (argTrack_of_beyond ⟨hidle, hopen⟩ hle)) rfl
  · exact exec_of_closed hidle hclosed .cmdReadAudio (by simp)

/-! ## DECODE_NEXT_FRAME (R637, R638) -/

/-- PacketLayout finds the packets that lie one after the other (R204, R638). -/
theorem packetLayout_of_packetsAt {m : List Host.Cell} {stop v : Nat} {ks : List Packet} {a : Nat}
    (h : PacketsAt m stop a ks v) (s : State) : packetLayout m stop ks.length a s = .ok (ks, v) s := by
  induction ks generalizing a with
  | nil =>
    obtain rfl : v = a := h
    rfl
  | cons k ks ih =>
    obtain ⟨ka, sz⟩ := k
    obtain ⟨rfl, rfl, hstop, hrest⟩ :
      ka = a + 4 ∧ sz = Memory.u32 m a ∧ a + 4 + sz ≤ stop ∧ PacketsAt m stop (a + 4 + sz) ks v := h
    rw [List.length_cons, packetLayout, bind_of_ok (check_of_true _ s (decide_eq_true (by omega))),
      bind_of_ok (check_of_true _ s (decide_eq_true hstop)), bind_of_ok (ih hrest)]
    rfl

theorem packetLayout_of_short {m : List Host.Cell} {stop n a : Nat} (hn : 1 ≤ n) (h : stop < a + 4) (s : State) :
    packetLayout m stop n a s = .error (.raised .packetRange) s := by
  obtain ⟨n, rfl⟩ := Nat.exists_eq_add_of_le' hn
  exact bind_of_error (check_of_false _ s (decide_eq_false (Nat.not_le.mpr h)))

theorem exec_cmdDecodeNextFrame_end (h : Ready s) (hend : s.session.curFrame = s.session.frameCount) :
    exec .cmdDecodeNextFrame s = .next (s.setRegs (errorRegs s.regs 33)) := by
  have hok : (s.session.curFrame != s.session.frameCount) = false := by simp [hend]
  refine run_of_commandError (c := .endOfStream) ?_ rfl
  rw [bind_of_ok (requireOpen_of_ready h), bind_of_ok (get_apply s), bind_of_error (check_of_false _ s hok)]

/-- With a frame at the cursor the command goes on to the frame's packets (R637). -/
theorem exec_cmdDecodeNextFrame_frame {f : Frame} (h : Ready s) (hmore : s.session.curFrame ≠ s.session.frameCount)
    (hf : s.session.frames[s.session.curFrame.toNat]? = some f) :
    exec .cmdDecodeNextFrame s = run (packetLayout s.container (f.byteOffset + f.byteSize) s.session.trackCount.toNat
        f.byteOffset >>= fun y => modify fun u => u.setCtl { u.ctl with
          phase := .audioTrack, packets := y.1, vbase := y.2, vlen := f.byteOffset + f.byteSize - y.2 }) (s.frameStarted f) := by
  have hok : (s.session.curFrame != s.session.frameCount) = true := by simp [hmore]
  show run (requireOpen >>= _) s = _
  rw [run_bind_of_ok (requireOpen_of_ready h), run_bind_of_ok (get_apply s), run_bind_of_ok (check_of_true _ s hok), hf,
    run_bind_of_ok (getOr_some f _ s), run_bind_of_ok (set_apply s _)]
  rfl

/-- Settles O48: what follows the start of the frame is its packet layout. -/
theorem cmdDecodeStarts : Obligations.CmdDecodeStarts := by
  refine fun s h => ⟨exec_cmdDecodeNextFrame_end h, fun f hmore hf => ⟨fun ks v hn hks => ?_, fun hn hshort => ?_⟩⟩
  · rw [exec_cmdDecodeNextFrame_frame h hmore hf, ← hn]
    exact run_of_ok (bind_of_ok (packetLayout_of_packetsAt hks _))
  · rw [exec_cmdDecodeNextFrame_frame h hmore hf]
    exact (run_of_raised (bind_of_error (packetLayout_of_short hn (by omega) _))).trans
      (congrArg _ (takeError_eq_afterDecodeError _ rfl))

end Sys2Proof.Machine
end

/-! # OPEN (R630 to R634)

The checks OPEN makes, as a list that is gone through in order, and the session it sets up when all of them hold. -/

section
namespace Sys2Proof.Machine

variable {s : State}

/-! ## Checks made in order (R630, R686) -/

/-- At `s` the sequence makes the checks `l` in order: where all hold it answers, else it raises the cause of the first that
fails; the state stays. -/
def ChecksInOrder (m : M Unit) (s : State) (l : List (Prop × Cause)) : Prop :=
  ((∀ k ∈ l, k.1) → m s = .ok () s)
    ∧ ∀ pre k post, l = pre ++ k :: post → (∀ j ∈ pre, j.1) → ¬ k.1 → m s = .error (.raised k.2) s

namespace ChecksInOrder

theorem check {ok : Bool} {p : Prop} {c : Cause} (hok : ok = true ↔ p) : ChecksInOrder (Machine.check ok c) s [(p, c)] := by
  refine ⟨fun h => check_of_true c s (hok.mpr (h _ List.mem_cons_self)), fun pre k post hl _ hk => ?_⟩
  obtain ⟨-, heq⟩ | ⟨-, ⟨⟩⟩ := List.singleton_eq_append_iff.mp hl
  obtain ⟨rfl, -⟩ := List.cons.inj heq
  exact check_of_false c s (Bool.eq_false_iff.mpr fun h => hk (hok.mp h))

/-- The checks of the rest are made where those of the first part hold. -/
theorem append {m m' : M Unit} {l l' : List (Prop × Cause)} (h : ChecksInOrder m s l) (h' : ChecksInOrder m' s l') :
    ChecksInOrder (m >>= fun _ => m') s (l ++ l') := by
  obtain ⟨hok, herr⟩ := h
  obtain ⟨hok', herr'⟩ := h'
  refine ⟨fun hall => ?_, fun pre k post hl hpre hk => ?_⟩
  · rw [List.forall_mem_append] at hall
    exact (bind_of_ok (hok hall.1)).trans (hok' hall.2)
  · obtain ⟨a, rfl, hl'⟩ | ⟨a, rfl, ha⟩ := List.append_eq_append_iff.mp hl
    · rw [List.forall_mem_append] at hpre
      exact (bind_of_ok (hok hpre.1)).trans (herr' a k post hl' hpre.2 hk)
    · cases a with
      | nil =>
        rw [List.append_nil] at hok
        exact (bind_of_ok (hok hpre)).trans (herr' [] k post ha.symm (fun _ h => nomatch h) hk)
      | cons e a =>
        obtain ⟨rfl, -⟩ := List.cons.inj ha
        exact bind_of_error (herr pre k a rfl hpre hk)

theorem cons {ok : Bool} {p : Prop} {c : Cause} {m : M Unit} {l : List (Prop × Cause)} (hok : ok = true ↔ p)
    (h : ChecksInOrder m s l) : ChecksInOrder (Machine.check ok c >>= fun _ => m) s ((p, c) :: l) := (check hok).append h

theorem get {f : State → M Unit} {l : List (Prop × Cause)} (h : ChecksInOrder (f s) s l) :
    ChecksInOrder (MonadState.get >>= f) s l := h

end ChecksInOrder

/-- The same check of every element is one check of them all. -/
theorem forEach_check {α : Type} (l : List α) (ok : α → Bool) (c : Cause) :
    forEach l (fun x => check (ok x) c) = check (l.all ok) c := by
  induction l with
  | nil => rfl
  | cons x xs ih =>
    rw [forEach_cons, ih, List.all_cons]
    cases ok x <;> rfl

/-! ## The checks of OPEN (R630, R632, R633) -/

theorem rising_iff_isChain (l : List Nat) : rising l = true ↔ l.IsChain (· ≤ ·) := by
  induction l with
  | nil => simp [rising]
  | cons a l ih =>
    cases l with
    | nil => simp [rising]
    | cons b l => rw [rising, Bool.and_eq_true, decide_eq_true_iff, ih, List.isChain_cons_cons]

/-- The frame index rises up to the file's end (R633). -/
theorem rising_index_iff (f : Nat → Nat) (n stop : Nat) :
    rising ((List.range n).map f ++ [stop]) = true
      ↔ (∀ j, j + 1 < n → f j ≤ f (j + 1)) ∧ (0 < n → f (n - 1) ≤ stop) := by
  rw [rising_iff_isChain, List.isChain_append, List.isChain_map, List.isChain_range]
  cases n with
  | zero => simp
  | succ n => simp [List.range_succ]

theorem trackChecks_inOrder (p : Params) (m : List Host.Cell) (n fsize : Nat) (s : State) :
    ChecksInOrder (trackChecks p m n fsize) s [(n ≤ p.maxAudioTracks, .badAudio), (44 + 12 * n ≤ fsize, .truncated),
      (∀ t, t < n → Memory.u16 m (44 + 4 * n + 4 * t) ≠ 0, .badAudio)] := by
  rw [trackChecks, forEach_check]
  exact .cons decide_eq_true_iff (.cons decide_eq_true_iff (.check (by simp)))

/-- OPEN makes the checks of R630 in the order of `openTable`, after that of ALREADY_OPEN (R656). -/
theorem openChecks_inOrder (s : State) :
    ChecksInOrder openChecks s
      ((s.regs.isOpen = false, .alreadyOpen) :: openTable s.params s.container s.regs.arg0.toNat) := by
  have hdims : ∀ w h d : Nat, (decide (1 ≤ w) && decide (1 ≤ h) && decide (w ≤ d) && decide (h ≤ d)) = true
      ↔ 1 ≤ w ∧ w ≤ d ∧ 1 ≤ h ∧ h ≤ d := by
    intro w h d
    simp only [Bool.and_eq_true, decide_eq_true_iff]
    tauto
  rw [openChecks]
  exact .get <| .cons (by simp) <| .cons (by simp) <| .cons decide_eq_true_iff <| .cons (by simp) <| .cons (by simp) <|
    .cons decide_eq_true_iff <| .cons decide_eq_true_iff <| .cons decide_eq_true_iff <| .cons (hdims _ _ _) <|
    (trackChecks_inOrder _ _ _ _ s).append <| .cons decide_eq_true_iff <| .check (rising_index_iff _ _ _)

theorem causeKind_of_mem_openTable {p : Params} {m : List Host.Cell} {len : Nat} {k : Prop × Cause}
    (h : k ∈ openTable p m len) : causeKind k.2 = .openError := by
  revert k
  simp only [openTable, List.forall_mem_cons]
  exact ⟨rfl, rfl, rfl, rfl, rfl, rfl, rfl, rfl, rfl, rfl, rfl, rfl, rfl, fun _ h => nomatch h⟩

theorem exec_cmdOpen_of_raised {c : Cause} (hidle : Idle s) (h : openChecks s = .error (.raised c) s) :
    exec .cmdOpen s = .next (takeError c s) :=
  run_of_raised ((bind_of_ok (whileIdle_of_idle hidle)).trans (bind_of_error h))

/-- OPEN leaves what is the host's, and the sequencer between commands. -/
theorem openedState_keeps (s : State) :
    (openedState s).container = s.container ∧ (openedState s).pcmOut = s.pcmOut ∧ (openedState s).hostMoves = s.hostMoves
      ∧ (openedState s).readData = s.readData ∧ (openedState s).ctl = s.ctl := by
  simp [openedState]

theorem exec_cmdOpen_of_passes (hidle : Idle s) (h : openChecks s = .ok () s) :
    exec .cmdOpen s = .next ((openedState s).setRegs
      (okRegs (openedState s).regs (BitVec.ofNat 32 (Memory.u32 s.container 8)) 0 0)) := by
  obtain ⟨-, -, -, -, hctl⟩ := openedState_keeps s
  have hidle' : Idle (openedState s) := (congrArg Ctl.phase hctl).trans hidle
  have hcount : (openedState s).session.frameCount = BitVec.ofNat 32 (Memory.u32 s.container 8) := rfl
  refine run_of_ok ?_
  rw [bind_of_ok (whileIdle_of_idle hidle), bind_of_ok h, bind_of_ok (modify_apply _ s), bind_of_ok (get_apply _), hcount,
    succeed_of_idle hidle' rfl rfl]

/-- Settles O45: the check that fails first is the one whose cause OPEN raises. -/
theorem cmdOpenErrors : Obligations.CmdOpenErrors := by
  refine ⟨fun p m len => rfl, fun s hidle => ⟨fun hopen => ?_, fun hclosed l r k htable hl hk => ?_⟩⟩
  · have herr := (openChecks_inOrder s).2 [] _ _ rfl (fun _ h => nomatch h) (by simp [hopen])
    rw [exec_cmdOpen_of_raised hidle herr, takeError_commandError s rfl]
    rfl
  · have herr := (openChecks_inOrder s).2 (_ :: l) k r (congrArg _ htable) (List.forall_mem_cons.mpr ⟨hclosed, hl⟩) hk
    have hmem : k ∈ openTable s.params s.container s.regs.arg0.toNat := by rw [htable]; simp
    have hkind : causeKind k.2 = .openError := causeKind_of_mem_openTable hmem
    rw [exec_cmdOpen_of_raised hidle herr, takeError_openError s hkind]
    rfl

/-! ## The session OPEN sets up (R201, R203, R630, R631) -/

theorem toNat_ofNat_u32 (m : List Host.Cell) (a : Nat) : (BitVec.ofNat 32 (Memory.u32 m a)).toNat = Memory.u32 m a :=
  (BitVec.toNat_ofNat _ _).trans (Nat.mod_eq_of_lt (Memory.u32_lt m a))

theorem toNat_ofNat_u16 (m : List Host.Cell) (a : Nat) : (BitVec.ofNat 16 (Memory.u16 m a)).toNat = Memory.u16 m a := by
  have h0 := (Memory.byte m a).isLt
  have h1 := (Memory.byte m (a + 1)).isLt
  refine (BitVec.toNat_ofNat _ _).trans (Nat.mod_eq_of_lt ?_)
  unfold Memory.u16
  omega

/-- What the checks of OPEN say of the file's size and of the frame index. -/
theorem index_of_openTable {p : Params} {m : List Host.Cell} {len : Nat} (h : ∀ k ∈ openTable p m len, k.1) :
    Memory.u32 m 4 + 8 ≤ len
      ∧ (∀ j, j + 1 < Memory.u32 m 8 → indexOffset m (44 + 12 * Memory.u32 m 40) j
          ≤ indexOffset m (44 + 12 * Memory.u32 m 40) (j + 1))
      ∧ (0 < Memory.u32 m 8 → indexOffset m (44 + 12 * Memory.u32 m 40) (Memory.u32 m 8 - 1) ≤ Memory.u32 m 4 + 8) := by
  simp only [openTable, List.forall_mem_cons] at h
  obtain ⟨-, -, -, -, hsize, -, -, -, -, -, -, -, ⟨hrise, hend⟩, -⟩ := h
  exact ⟨hsize, hrise, hend⟩

/-- Entry `j` of a frame index that rises: its frame ends where the next one begins, or at the file's end (R203). -/
theorem readFrames_getElem? {m : List Host.Cell} {x fc fsize j : Nat}
    (hrise : ∀ j, j + 1 < fc → indexOffset m x j ≤ indexOffset m x (j + 1))
    (hend : 0 < fc → indexOffset m x (fc - 1) ≤ fsize) (hj : j < fc) :
    ∃ f, (readFrames m x fc fsize)[j]? = some f ∧ f.byteOffset = indexOffset m x j
      ∧ f.byteOffset + f.byteSize = (if j + 1 < fc then indexOffset m x (j + 1) else fsize)
      ∧ f.isKeyframe = (Memory.u32 m (x + 4 * j)).testBit 0 := by
  have hle : indexOffset m x j ≤ if j + 1 < fc then indexOffset m x (j + 1) else fsize := by
    split
    next hmore => exact hrise j hmore
    next hlast =>
      obtain rfl : j = fc - 1 := by omega
      exact hend (by omega)
  refine ⟨_, by rw [readFrames, List.getElem?_map, List.getElem?_range hj]; rfl, rfl, Nat.add_sub_cancel' hle, ?_⟩
  rw [Nat.testBit_zero]
  rfl

/-- The geometry and the empty buffers of a plane of a `w` by `h` picture subsampled by `k` (R400, R631). -/
def SubsampledPlane (r : PlaneReset) (w h k : Nat) (y : Plane) : Prop :=
  y.w = (w + k - 1) / k ∧ y.h = (h + k - 1) / k ∧ y.bw = (w + 8 * k - 1) / (8 * k) ∧ y.bh = (h + 8 * k - 1) / (8 * k)
    ∧ y.pitch = 16 * ((8 * y.bw + 15) / 16) ∧ y.rows = 16 * ((8 * y.bh + 15) / 16)
    ∧ (r = .poison → y.cur = [] ∧ y.last = [])

theorem newPlane_subsampled (r : PlaneReset) (w h k : Nat) :
    SubsampledPlane r w h k (newPlane r (ceilDiv w k) (ceilDiv h k) (ceilDiv w (8 * k)) (ceilDiv h (8 * k))) := by
  obtain ⟨hpitch, hrows⟩ := newPlane_wholeRegions r (ceilDiv w k) (ceilDiv h k) (ceilDiv w (8 * k)) (ceilDiv h (8 * k))
  refine ⟨rfl, rfl, rfl, rfl, hpitch, hrows, ?_⟩
  rintro rfl
  exact ⟨rfl, rfl⟩

theorem ceilDiv_one (a : Nat) : ceilDiv a 1 = a := Nat.div_one a

theorem newPlanes_subsampled {r : PlaneReset} {w h : Nat} {alpha : Bool} {p : PlaneId} {y : Plane}
    (hy : (newPlanes r w h alpha).get p = some y) : SubsampledPlane r w h (if p = .u ∨ p = .v then 2 else 1) y := by
  have hluma : SubsampledPlane r w h 1 (lumaPlane r w h) := by
    have h1 := newPlane_subsampled r w h 1
    rwa [ceilDiv_one, ceilDiv_one] at h1
  have hchroma : SubsampledPlane r w h 2 (chromaPlane r w h) := newPlane_subsampled r w h 2
  cases p with
  | y => cases hy; exact hluma
  | u => cases hy; exact hchroma
  | v => cases hy; exact hchroma
  | a =>
    cases alpha
    · cases hy
    · cases hy; exact hluma

theorem newBundles_get (p : Params) (w h : Nat) (b : BundleId) : (newBundles p w h).get b = newBundle p b w h := by
  cases b <;> rfl

theorem readTracks_getElem? {m : List Host.Cell} {n j : Nat} (p : Params) (hj : j < n) :
    (readTracks p m n)[j]? = some (trackSetup p (BitVec.ofNat 16 (Memory.u16 m (44 + 4 * n + 4 * j)))
      (BitVec.ofNat 16 (Memory.u16 m (44 + 4 * n + 4 * j + 2)))) := by
  rw [readTracks, List.getElem?_map, List.getElem?_range hj]
  rfl

/-- The quantiser table has 96 entries (R575). -/
theorem trackSetup_qtab (p : Params) (rate flags : BitVec 16) :
    (trackSetup p rate flags).qtab.length = 96
      ∧ ∀ i, i < 96 → (trackSetup p rate flags).qtab[i]? = some (qtabEntry p.audioQConst
          (Config.audioRoot (trackSetup p rate flags).kind (trackSetup p rate flags).n) i) := by
  refine ⟨by simp [trackSetup], fun i hi => ?_⟩
  rw [trackSetup, List.getElem?_map, List.getElem?_range hi]
  rfl

/-- An entry with the constant in R575's units: the real value rounded once, or a root that is no finite number. -/
theorem qtabEntry_of_constant (c : Nat) (root : F32) (i : Nat) :
    if f32Exponent root = 255 then qtabEntry c root i = root
    else ∃ m, qtabEntry c root i = f32OfParts (f32Negative root) m
      ∧ RoundsTo (Real.exp ((i : ℝ) * (c / 10 ^ 20)) * (f32Size (root.toNat % 2 ^ 31) : ℚ)) m := by
  split
  next h => rw [qtabEntry, if_pos (.inl h)]
  next h =>
    have hunits : ((i * c : ℕ) : ℝ) / (10 ^ 20 : ℕ) = (i : ℝ) * (c / 10 ^ 20) := by push_cast; ring
    rw [← hunits]
    exact qtabEntry_rounds c i h

/-- Settles O44: OPEN ends in `openedState`, whose parts are read from the header, the frame index and the track records. -/
theorem cmdOpenCompletes : Obligations.CmdOpenCompletes := by
  refine ⟨qtabEntry_of_constant, fun s hidle hclosed hpass => ?_⟩
  intro m fc n x w h
  obtain ⟨hsize, hrise, hend⟩ := index_of_openTable hpass
  have hchecks : openChecks s = .ok () s := (openChecks_inOrder s).1 (List.forall_mem_cons.mpr ⟨hclosed, hpass⟩)
  have hword := toNat_ofNat_u32 m
  have hfile : (BitVec.ofNat 32 (Memory.u32 m 4 + 8)).toNat = Memory.u32 m 4 + 8 :=
    (BitVec.toNat_ofNat _ _).trans (Nat.mod_eq_of_lt (Nat.lt_of_le_of_lt hsize s.regs.arg0.isLt))
  have hflag (i : Nat) (hi : i < 32) : (BitVec.ofNat 32 (Memory.u32 m 36)).getLsbD i = (Memory.u32 m 36).testBit i := by
    rw [BitVec.getLsbD_ofNat, decide_eq_true hi, Bool.true_and]
  -- in the order of the statement: the header's fields, the frame index, the planes, the bundles, the tracks, what stays
  refine ⟨_, exec_cmdOpen_of_passes hidle hchecks, rfl,
    rfl, hword 0, hfile, hword 8, hword 12, hword 20, hword 24, hword 28, hword 32, hword 36, hflag 20 (by decide),
    hflag 17 (by decide), hword 40, rfl,
    ?_, fun j hj => readFrames_getElem? hrise hend hj,
    rfl, rfl, rfl, rfl, fun p y => newPlanes_subsampled,
    newBundles_get s.params w h, rfl, rfl, rfl,
    ?_, fun j hj => ?_,
    openedState_inst s, openedState_keeps s⟩
  · exact (List.length_map _).trans List.length_range
  · exact (List.length_map _).trans List.length_range
  · obtain ⟨hlen, hentry⟩ := trackSetup_qtab s.params (BitVec.ofNat 16 (Memory.u16 m (44 + 4 * n + 4 * j)))
      (BitVec.ofNat 16 (Memory.u16 m (44 + 4 * n + 4 * j + 2)))
    exact ⟨_, readTracks_getElem? s.params hj, toNat_ofNat_u16 m _, toNat_ofNat_u16 m _, rfl, rfl, rfl, rfl, rfl, rfl, hlen,
      hentry, rfl, rfl, rfl, rfl, rfl, rfl⟩

end Sys2Proof.Machine
end
